-- ==== Sys2Proof/Word.lean ====
section
/-! DEFINITION. Word.lean: the words of the Luakan L9 (R4, R47, R267). -/
namespace Sys2Proof

/-- One byte; memory and the stores are little-endian sequences of them (R4). -/
abbrev Byte := BitVec 8

/-- A 32-bit general register (R47). -/
abbrev Word := BitVec 32

/-- A 64-bit instruction word, scalar register or register pair (R4, R47). -/
abbrev DWord := BitVec 64

/-- A 56-bit virtual address (R90), also the width of a PC (R296). -/
abbrev Addr := BitVec 56

/-- The integer a bit vector stands for in two's complement. -/
abbrev sx {n : Nat} (x : BitVec n) : Int := x.toInt

end Sys2Proof
end

