-- ==== Sys2Proof/Syntax.lean ====
section
/-! DEFINITION. Syntax.lean: the instructions and device steps of spec/opcode_table.json, one constructor a row. -/
namespace Sys2Proof

/-- The fields every one-word header carries beside its operands (R267): end of run, hold, guard. -/
structure Hdr where
  /-- E: the run ends after this instruction. -/
  e  : Bool
  /-- H: the operand latch keeps source A, B or C (R60). -/
  h  : BitVec 2
  /-- GE, GR, GB, GN: the guard (R61, R63). -/
  ge : Bool
  gr : BitVec 8
  gb : BitVec 5
  gn : Bool
  deriving DecidableEq, Repr

/-- The type codes of R270. -/
inductive Ty where
  | i32 | u32 | f32 | f16 | bf16 | e4m3 | e5m2 | d2 | h2
  deriving DecidableEq, Repr

/-- Access widths (R270). -/
inductive Width where
  | b8 | b16 | b32 | b64
  deriving DecidableEq, Repr

/-- ISET conditions (R340). -/
inductive ICond where
  | eq | ne | lt | le | gt | ge
  deriving DecidableEq, Repr

/-- FSET conditions (R335). -/
inductive FCond where
  | eq | ne | lt | le | gt | ge | un | ordered
  deriving DecidableEq, Repr

/-- The functions of FSF (R336). -/
inductive SFn where
  | rcp | rsq | sqrt | exp2 | log2 | sin | cos | tanh
  deriving DecidableEq, Repr

/-- Destination formats of QROW (R378). -/
inductive QFmt where
  | q4m3 | q5m2 | qi8 | qd2
  deriving DecidableEq, Repr

/-- Modes of SHFL (R387). -/
inductive ShflMode where
  | idx | xor | up | down
  deriving DecidableEq, Repr

/-- Modes of VOTE (R401). -/
inductive VoteMode where
  | ballot | any | all | eq
  deriving DecidableEq, Repr

/-- Operations of RED and SCAN (R380). -/
inductive RedOp where
  | add | min | max | and | or | xor
  deriving DecidableEq, Repr

/-- Fields of CGET (R309). -/
inductive CField where
  | pos | lo | hi | crd | w0 | done | app | own | ovf | fnd | spec
  deriving DecidableEq, Repr

/-- Selectors of SREG (R389). -/
inductive Sel where
  | laneid | groupid | teamid | clusterid | gridid | coreid | dieid | time
  deriving DecidableEq, Repr

/-- Where an uncorrected error lies (R241). -/
inductive EccLoc where
  /-- Register file, cursor file, store pool or frame of a team. -/
  | owned (team : Nat)
  /-- A clean cache or metadata line of a unit: core 0 to 255, the L2 of die `unit` - 256, or the L3 for 260. -/
  | clean (unit line : Nat)
  /-- A TLB entry of a unit: core 0 to 255, or the L2 TLB of die `unit` - 256. -/
  | tlb (unit k : Nat)
  /-- A dirty line of a core's L1, or of the L2 of die `unit` - 256: the 8-byte words that hold its dirty bytes. -/
  | dirty (unit line : Nat)
  /-- An aligned 8-byte DRAM word. -/
  | dram (pa : Nat)
  /-- PIT entry k of a router. -/
  | pit (router k : Nat)
  /-- NRT entry k of a router. -/
  | nrt (router k : Nat)
  /-- The Cocoon copy k of a router. -/
  | cocoon (router k : Nat)
  deriving DecidableEq, Repr

/-- The packets of a Beylas link (R251). -/
inductive LinkKind where
  | read | readResp | write | writeAck | atomic | atomicResp | refusal | credit
  deriving DecidableEq, Repr

/-- A packet of a Beylas link: packages, end-to-end sequence number and what it asks (R251, R254). -/
structure LinkPkt where
  kind : LinkKind
  src  : Nat
  dst  : Nat
  seq  : Nat
  /-- Remote physical address (requests); the requester's own tag comes back in `tag`. -/
  pa   : Nat
  width : Nat
  /-- Value stored, operand of the atomic, or value returned. -/
  val  : Nat
  cmp  : Nat
  opc  : Nat
  tag  : Nat
  deriving DecidableEq, Repr

/-- The instructions and device steps, one constructor per row of spec/opcode_table.json, in its order. -/
inductive Instr where
  -- integer and logic (class 000)
  | and (h : Hdr) (d a b : BitVec 8) (n : Bool)
  | andImm (h : Hdr) (d a : BitVec 8) (imm : BitVec 12) (n : Bool)
  | or (h : Hdr) (d a b : BitVec 8)
  | orImm (h : Hdr) (d a : BitVec 8) (imm : BitVec 12)
  | xor (h : Hdr) (d a b : BitVec 8)
  | xorImm (h : Hdr) (d a : BitVec 8) (imm : BitVec 12)
  | iadd (h : Hdr) (d a b : BitVec 8) (ty : Ty)
  | iaddImm (h : Hdr) (d a : BitVec 8) (imm : BitVec 12) (ty : Ty)
  | isub (h : Hdr) (d a b : BitVec 8) (ty : Ty)
  | isubImm (h : Hdr) (d a : BitVec 8) (imm : BitVec 12) (ty : Ty)
  | imul (h : Hdr) (d a b : BitVec 8) (ty : Ty)
  | imulImm (h : Hdr) (d a : BitVec 8) (imm : BitVec 12) (ty : Ty)
  | imulh (h : Hdr) (d a b : BitVec 8) (ty : Ty)
  | imad (h : Hdr) (d a b c : BitVec 8) (ty : Ty)
  | idiv (h : Hdr) (d a b : BitVec 8) (ty : Ty)
  | irem (h : Hdr) (d a b : BitVec 8) (ty : Ty)
  | imin (h : Hdr) (d a b : BitVec 8) (ty : Ty)
  | iminImm (h : Hdr) (d a : BitVec 8) (imm : BitVec 12) (ty : Ty)
  | imax (h : Hdr) (d a b : BitVec 8) (ty : Ty)
  | imaxImm (h : Hdr) (d a : BitVec 8) (imm : BitVec 12) (ty : Ty)
  | iabs (h : Hdr) (d a : BitVec 8)
  | iset (h : Hdr) (d a b : BitVec 8) (k : BitVec 5) (cond : ICond) (ty : Ty)
  | sel (h : Hdr) (d a b c : BitVec 8)
  | shl (h : Hdr) (d a b : BitVec 8)
  | shlImm (h : Hdr) (d a : BitVec 8) (imm : BitVec 12)
  | shr (h : Hdr) (d a b : BitVec 8)
  | shrImm (h : Hdr) (d a : BitVec 8) (imm : BitVec 12)
  | sha (h : Hdr) (d a b : BitVec 8)
  | shaImm (h : Hdr) (d a : BitVec 8) (imm : BitVec 12)
  | rot (h : Hdr) (d a b : BitVec 8)
  | rotImm (h : Hdr) (d a : BitVec 8) (imm : BitVec 12)
  | bfx (h : Hdr) (d a b : BitVec 8) (ty : Ty)
  | bfi (h : Hdr) (d a b c : BitVec 8)
  | brev (h : Hdr) (d a : BitVec 8)
  | clz (h : Hdr) (d a : BitVec 8)
  | ctz (h : Hdr) (d a : BitVec 8)
  | popc (h : Hdr) (d a : BitVec 8)
  | icvt (h : Hdr) (d a : BitVec 8) (ext : Bool)
  | zord (h : Hdr) (d a b c : BitVec 8)
  | mov (h : Hdr) (d a : BitVec 8) (p : Bool)
  | movImm (h : Hdr) (d : BitVec 8) (imm : BitVec 12)
  | movi (h : Hdr) (d : BitVec 8) (imm : BitVec 32)
  /-- `dir` false: r (field D) := g[n + g[a]]; true: g[n + g[a]] := r (field C). -/
  | movx (h : Hdr) (dir : Bool) (r a n : BitVec 8)
  -- floating point (class 001)
  | fadd (h : Hdr) (d a b : BitVec 8) (ty : Ty)
  | fsub (h : Hdr) (d a b : BitVec 8) (ty : Ty)
  | fmul (h : Hdr) (d a b : BitVec 8) (ty : Ty)
  | ffma (h : Hdr) (d a b c : BitVec 8) (ty : Ty)
  | fdiv (h : Hdr) (d a b : BitVec 8)
  | fmin (h : Hdr) (d a b : BitVec 8) (ty : Ty)
  | fmax (h : Hdr) (d a b : BitVec 8) (ty : Ty)
  | fset (h : Hdr) (d a b : BitVec 8) (k : BitVec 5) (cond : FCond) (ty : Ty)
  | fclass (h : Hdr) (d a : BitVec 8) (ty : Ty)
  | fcvt (h : Hdr) (d a : BitVec 8) (td ts : Ty)
  | fsf (h : Hdr) (d a : BitVec 8) (fn : SFn)
  | qrow (h : Hdr) (d a b : BitVec 8) (q : QFmt) (blk : BitVec 2) (ty : Ty)
  -- lane and group (class 010)
  | shfl (h : Hdr) (d a b : BitVec 8) (mode : ShflMode) (w : BitVec 3)
  | vote (h : Hdr) (d a : BitVec 8) (k j : BitVec 5) (mode : VoteMode)
  | matchL (h : Hdr) (d a : BitVec 8) (w64 : Bool)
  | red (h : Hdr) (d a : BitVec 8) (op : RedOp) (ty : Ty)
  | scan (h : Hdr) (d a : BitVec 8) (op : RedOp) (excl : Bool) (ty : Ty)
  | tkins (h : Hdr) (d a b : BitVec 8) (n : BitVec 4)
  | mfld (h : Hdr) (d b : BitVec 8) (imm : BitVec 12) (tag : BitVec 2) (w16 : Bool)
  -- control and synchronisation (class 011)
  | bra (h : Hdr) (off : BitVec 32)
  | brx (h : Hdr) (a : BitVec 8)
  | call (h : Hdr) (d : BitVec 8) (off : BitVec 32)
  | ret (h : Hdr) (a : BitVec 8)
  | join (h : Hdr) (mask : Option (BitVec 8))
  | exit (h : Hdr)
  | nop (h : Hdr)
  | rep (n : BitVec 6) (sd sa sb sc : BitVec 4)
  | wait (h : Hdr) (l s c : BitVec 6) (t : BitVec 4)
  | trap (h : Hdr) (code : BitVec 12)
  | tret (h : Hdr)
  | fence (h : Hdr) (sc : BitVec 3)
  | lfence (h : Hdr)
  | binit (h : Hdr) (n : BitVec 4) (a b : BitVec 8)
  | barv (h : Hdr) (n : BitVec 4)
  | bwait (h : Hdr) (n : BitVec 4)
  | bxpc (h : Hdr) (n : BitVec 4) (a b : BitVec 8)
  | bqry (h : Hdr) (d : BitVec 8) (n : BitVec 4) (w : Bool)
  | clbar (h : Hdr)
  | evsig (h : Hdr) (d : BitVec 8) (cur : BitVec 3) (sc : BitVec 3) (b : BitVec 8) (imm : BitVec 12)
  | evsigFront (h : Hdr) (d a : BitVec 8)
  | evwait (h : Hdr) (d : BitVec 8) (cur : BitVec 3) (sc : BitVec 3) (b : BitVec 8) (imm : BitVec 12)
  | evwaitFront (h : Hdr) (d a : BitVec 8)
  -- memory and copies (class 100)
  | ld (h : Hdr) (w : Width) (sx : Bool) (ord : Option (BitVec 3)) (d : BitVec 8) (cur : BitVec 3) (b : BitVec 8) (imm : BitVec 12)
  | st (h : Hdr) (w : Width) (ord : Option (BitVec 3)) (d : BitVec 8) (cur : BitVec 3) (b : BitVec 8) (imm : BitVec 12)
  | ldp (h : Hdr) (w : Width) (sx : Bool) (d b : BitVec 8) (imm : BitVec 12)
  | stp (h : Hdr) (w : Width) (d b : BitVec 8) (imm : BitVec 12)
  | lds (h : Hdr) (w : Width) (sx : Bool) (tag : BitVec 2) (d b : BitVec 8) (imm : BitVec 12)
  | sts (h : Hdr) (w : Width) (tag : BitVec 2) (d b : BitVec 8) (imm : BitVec 12)
  | xst (h : Hdr) (w : Width) (d b : BitVec 8) (imm : BitVec 12)
  | atom (h : Hdr) (w64 acq rel : Bool) (sc : BitVec 3) (d : BitVec 8) (cur : BitVec 3) (b : BitVec 8) (imm : BitVec 12)
  | cctl (h : Hdr) (d : BitVec 8) (cur : BitVec 3) (b : BitVec 8) (imm : BitVec 12)
  | prsq (h : Hdr) (d : BitVec 8) (cur : BitVec 3) (b : BitVec 8) (imm : BitVec 12)
  | rgnset (h : Hdr) (w : BitVec 5) (cd ca : BitVec 3) (b : BitVec 8) (imm : BitVec 12)
  | rgnclr (h : Hdr) (w : BitVec 5) (u : Bool)
  | touch (h : Hdr) (w : BitVec 5)
  -- cursors (class 101)
  | cmk (h : Hdr) (app : Bool) (cd : BitVec 3) (a : BitVec 8)
  | cdesc (h : Hdr) (app : Bool) (cd ca : BitVec 3)
  | cnrw (h : Hdr) (cd ca : BitVec 3) (b c : BitVec 8)
  | cnext (h : Hdr) (d : BitVec 8) (ca : BitVec 3)
  | cseek (h : Hdr) (d : BitVec 8) (ca : BitVec 3) (b : BitVec 8)
  | cget (h : Hdr) (d : BitVec 8) (ca : BitVec 3) (f : CField) (k : BitVec 5)
  | ccoit (h : Hdr) (union : Bool) (d : BitVec 8) (ca cb : BitVec 3)
  | capp (h : Hdr) (d : BitVec 8) (ca : BitVec 3) (b : BitVec 8)
  | cfin (h : Hdr) (ca : BitVec 3)
  -- matrix (class 110)
  | crew (h : Hdr) (a b : BitVec 8)
  | crewEnd (h : Hdr)
  | obres (h : Hdr) (o : BitVec 3) (a b : BitVec 8)
  | obrel (h : Hdr) (o : BitVec 3)
  | ufcfg (h : Hdr) (a b : BitVec 8)
  | mma (h : Hdr) (m : BitVec 4) (oa ob : BitVec 3) (c : BitVec 8)
  | mmal (h : Hdr) (d a b : BitVec 4)
  | madd (h : Hdr) (d a b : BitVec 4)
  | mscl (h : Hdr) (d a : BitVec 4) (b : BitVec 8)
  | mdense (h : Hdr) (d a : BitVec 4)
  | mrcmp (h : Hdr) (d a : BitVec 4) (b : BitVec 8)
  | mzero (h : Hdr) (d : BitVec 4)
  | mrank (h : Hdr) (d : BitVec 8) (a : BitVec 4)
  | mld (h : Hdr) (d : BitVec 4) (cur : BitVec 3) (b : BitVec 8) (imm : BitVec 12)
  | mst (h : Hdr) (d : BitVec 4) (cur : BitVec 3) (b : BitVec 8) (imm : BitVec 12)
  -- named data, tasks and system (class 111)
  | nsub (h : Hdr) (w : BitVec 5) (a b : BitVec 8) (n : BitVec 4)
  | nsubWarm (h : Hdr) (a b : BitVec 8)
  | nsubSpec (h : Hdr) (w : BitVec 5) (a b : BitVec 8) (n : BitVec 4) (h1 h2 : BitVec 5)
  | npub (h : Hdr) (f : Bool) (w : BitVec 5) (a : BitVec 8)
  | ncan (h : Hdr) (d a : BitVec 8) (w : BitVec 5)
  | nstat (h : Hdr) (d : BitVec 8) (w : BitVec 5)
  | ntol (h : Hdr) (a b : BitVec 8)
  | nrtw (h : Hdr) (a b : BitVec 8)
  | spec (h : Hdr) (d : BitVec 8)
  | dqpush (h : Hdr) (a b : BitVec 8)
  | dqpop (h : Hdr) (d b : BitVec 8) (k : BitVec 5)
  | launch (h : Hdr) (d : BitVec 8) (cur : BitVec 3) (b : BitVec 8) (imm : BitVec 12)
  | launchFront (h : Hdr) (d a : BitVec 8)
  | sreg (h : Hdr) (d : BitVec 8) (sel : Sel)
  | csrr (h : Hdr) (d : BitVec 8) (csr : BitVec 12)
  | csrw (h : Hdr) (a : BitVec 8) (csr : BitVec 12)
  | xacq (h : Hdr)
  | xrel (h : Hdr)
  | tlbinv (h : Hdr) (a b : BitVec 8)
  -- device steps: reset, power, budgets, rebalancer
  | packageReset
  | functionReset
  | thermalTrip
  | budgetPeriodEnd
  | rbcmdWrite (die : Nat) (v : BitVec 64)
  | bucketMoveComplete (die : Nat)
  | budgetWrite (a : Nat) (v : BitVec 64)
  -- launch queues and admission
  | launchQueueDoorbell (q : Nat) (tail : BitVec 32)
  | launchQueueEnable (q : Nat)
  | launchRecordRead (q : Nat)
  | deviceQueueEnable
  | launchWaitevRead (k : Nat)
  | launchStart (k : Nat)
  | clusterAdmit
  | launchBlocking (k : Nat)
  | teamFinish (t : Nat)
  | gridComplete (k : Nat)
  | launchSignal (k : Nat)
  -- runs, blocks, writebacks, crews, engine
  | runStart (core pipe : Nat)
  | runForcedEnd (core pipe : Nat)
  | joinRelease (t g : Nat) (pc : BitVec 56)
  | extendedBlockGrant (core : Nat)
  | registerDeadlock (t : Nat)
  | asyncWriteback (t g lane k : Nat)
  | crewFormation (core k : Nat)
  | crewRendezvous (core crew : Nat)
  | matrixEngineStart (core : Nat)
  | matrixOpComplete (core : Nat)
  -- pre-emption
  | prectlReq (core : Nat)
  | preemptDrain (core : Nat)
  | preemptBlockDeadline (core : Nat)
  | preemptSquashDeadline (core : Nat)
  | preemptHalt (core : Nat)
  | preemptQuiet (core : Nat)
  | prectlResume (core : Nat)
  | contextSave (core : Nat)
  | coreSetRestore (k : Nat)
  -- memory system
  | storeAtHome (op : Nat)
  | loadReturn (op : Nat)
  | l2Forward (die line : Nat)
  | leaseExpiry (unit line : Nat)
  | l1Eviction (core line : Nat)
  | fenceMarker (t g slice : Nat)
  | pageWalk (k : Nat)
  | faultrespReplay (asid page : Nat)
  | faultrespKill (asid page : Nat)
  | faultQueueHead (v : BitVec 32)
  | faultRecordWrite
  -- copies, exchange, events
  | copyBlockStart (core : Nat)
  | copyBlockComplete (core k : Nat)
  | routineTimeout (core k : Nat)
  | clusterSwap (t : Nat)
  | xstReceive (op : Nat)
  | evwaitRepoll (t g lane : Nat)
  -- named packets, speculation
  | interestArrival (p : Nat)
  | refreshArrival (p : Nat)
  | noRouteArrival (p : Nat)
  | dataHeaderArrival (p : Nat)
  | cocoonCopyComplete (router k : Nat)
  | tileDelivery (p : Nat)
  | pitSlotExpiry (router k : Nat)
  | interestExpiry (t k : Nat)
  | cancelArrival (p : Nat)
  | predictionPatience (t k : Nat)
  | predictionWritten (t k : Nat)
  | verdict (core : Nat)
  | taskCommit (t g : Nat)
  | taskSquash (t g : Nat)
  | commitPacket (p : Nat)
  | squashPacket (p : Nat)
  -- links, host, service
  | linkFlitReceive (port seq : Nat) (crcOk : Bool) (pkt : LinkPkt)
  | linkPacketReceive (port : Nat)
  | linkPortBlocked (port : Nat)
  | dieQueueBlocked (die : Nat)
  | hostBarWrite (pa : Nat) (bytes : List (BitVec 8))
  | hostBarRead (pa n : Nat)
  | featctlLock
  | cocooncfgWrite (die : Nat) (v : BitVec 64)
  | coreRetire (core : Nat)
  | sliceRetire (slice : Nat)
  | dramRetrain (ctl : Nat) (v : BitVec 64)
  | dramRetrainDone (ctl : Nat)
  | routineInstall
  | eccstatClear (core : Nat)
  | eccCorrected (core : Nat)
  | eccUncorrected (loc : EccLoc)
  | mbInfo
  | mbFwload
  | mbFwmark
  | mbRestart
  | dehenanRestartDone (ok : Bool)
  | mbOwnerkey
  | mbAttest
  | mbSensors
  | mbUnknownCommand
  | registerWrite (pa : Nat) (v : BitVec 64)
  | publishSent (p : Nat)
  | nrtEntryWritten (op : Nat)
  | tlbInvalidationDone (t g : Nat)
  | routeTableWrite (d : Nat) (v : BitVec 16)
  | enbudgetLimitLower (core : Nat) (v : BitVec 12)
  deriving DecidableEq, Repr

end Sys2Proof
end

