-- ==== Sys2Proof/Machine/Tab.lean ====
section
/-! DEFINITION. Machine/Tab.lean: tables keyed by numbers, byte memory in its canonical form, and list helpers. -/
namespace Sys2Proof

/-- A table from numbers to values; a key that is not listed has the table's default. -/
abbrev Tab (α : Type) := List (Nat × α)

/-- The value listed at a key. -/
def Tab.get? {α : Type} : Tab α → Nat → Option α
  | [], _ => none
  | (j, v) :: t, k => if j = k then some v else Tab.get? t k

/-- The value at a key, or the default. -/
def Tab.getD {α : Type} (t : Tab α) (k : Nat) (d : α) : α := (Tab.get? t k).getD d

/-- Lists a value at a key, in place where the key is listed already. -/
def Tab.set {α : Type} : Tab α → Nat → α → Tab α
  | [], k, v => [(k, v)]
  | (j, w) :: t, k, v => if j = k then (k, v) :: t else (j, w) :: Tab.set t k v

/-- Removes a key. -/
def Tab.erase {α : Type} (t : Tab α) (k : Nat) : Tab α := t.filter fun p => p.1 != k

/-- Changes the value at a key, starting from a default. -/
def Tab.upd {α : Type} (t : Tab α) (k : Nat) (d : α) (f : α → α) : Tab α := t.set k (f (t.getD k d))

/-- The values of a table. -/
def Tab.vals {α : Type} (t : Tab α) : List α := t.map (·.2)

/-- Byte memory: the addresses rise strictly and no entry is 0, which is what an unlisted address reads as. -/
abbrev Mem := List (Nat × BitVec 8)

/-- The canonical form of byte memory: rising addresses from a bound on, no zero entry. -/
def Mem.wfFrom : Nat → Mem → Bool
  | _, [] => true
  | lo, (a, b) :: t => lo ≤ a && b != 0 && Mem.wfFrom (a + 1) t

/-- The canonical form of byte memory. -/
def Mem.wf (m : Mem) : Bool := Mem.wfFrom 0 m

/-- One byte; an unlisted address reads 0. -/
def Mem.read : Mem → Nat → BitVec 8
  | [], _ => 0
  | (j, b) :: t, a => if a = j then b else if a < j then 0 else Mem.read t a

/-- Writes one byte and keeps the canonical form. -/
def Mem.write : Mem → Nat → BitVec 8 → Mem
  | [], a, v => if v = 0 then [] else [(a, v)]
  | (j, b) :: t, a, v =>
    if a = j then (if v = 0 then t else (a, v) :: t)
    else if a < j then (if v = 0 then (j, b) :: t else (a, v) :: (j, b) :: t)
    else (j, b) :: Mem.write t a v

/-- `n` bytes from an address, the lowest address first. -/
def Mem.readN (m : Mem) (a : Nat) : Nat → List (BitVec 8)
  | 0 => []
  | n + 1 => m.read a :: Mem.readN m (a + 1) n

/-- Writes bytes from an address on, the first byte at the lowest address. -/
def Mem.writeN (m : Mem) (a : Nat) : List (BitVec 8) → Mem
  | [] => m
  | b :: bs => Mem.writeN (m.write a b) (a + 1) bs

/-- The number whose little-endian bytes these are (R4). -/
def leNat : List (BitVec 8) → Nat
  | [] => 0
  | b :: t => b.toNat + 256 * leNat t

/-- The `n` little-endian bytes of a number (R4). -/
def leBytes : Nat → Nat → List (BitVec 8)
  | 0, _ => []
  | n + 1, x => BitVec.ofNat 8 x :: leBytes n (x / 256)

/-- Removes every byte of an interval. -/
def Mem.clear (m : Mem) (a n : Nat) : Mem := m.filter fun p => p.1 < a || a + n ≤ p.1

/-- Fills an interval with bytes. -/
def Mem.fill (m : Mem) (a n : Nat) (f : Nat → BitVec 8) : Mem :=
  (m.filter fun p => p.1 < a) ++
    ((List.range n).filterMap fun i => if f i = 0 then none else some (a + i, f i)) ++ m.filter fun p => a + n ≤ p.1

/-- Two intervals share a byte. -/
def overlaps (a n b m : Nat) : Bool := a < b + m && b < a + n

/-- Applies a function to the element at an index. -/
def listUpd {α : Type} : List α → Nat → (α → α) → List α
  | [], _, _ => []
  | x :: t, 0, f => f x :: t
  | x :: t, n + 1, f => x :: listUpd t n f

/-- Sorts by a key, keeping the order of equal keys. -/
def sortBy {α : Type} (key : α → Nat) : List α → List α
  | [] => []
  | x :: t =>
    -- each element goes before the later ones with an equal key
    let rec ins : List α → List α
      | [] => [x]
      | y :: u => if key y < key x then y :: ins u else x :: y :: u
    ins (sortBy key t)

/-- The bits of a field of a number: `w` bits from bit `lo`. -/
def bits (x lo w : Nat) : Nat := (x / 2 ^ lo) % 2 ^ w

/-- One bit of a number. -/
def bit (x i : Nat) : Bool := (x / 2 ^ i) % 2 == 1

/-- Two's complement reading of the low `w` bits. -/
def signed (x w : Nat) : Int :=
  let y := x % 2 ^ w
  if w ≠ 0 ∧ 2 ^ (w - 1) ≤ y then (y : Int) - 2 ^ w else y

/-- The low `w` bits of an integer. -/
def wrap (x : Int) (w : Nat) : Nat := (x % (2 ^ w : Int)).toNat

/-- A Boolean as a number. -/
def b2n (b : Bool) : Nat := if b then 1 else 0

/-- XOR-fold of a number into `w`-bit pieces, with fuel for the pieces (R16, R98, R164). -/
def xorFold (w : Nat) : Nat → Nat → Nat
  | 0, _ => 0
  | n + 1, x => (x % 2 ^ w) ^^^ xorFold w n (x / 2 ^ w)

/-- The least number of a list, 0 for none. -/
def leastOf (l : List Nat) : Nat :=
  match l with
  | [] => 0
  | a :: t => t.foldl min a

/-- Integer division rounded up. -/
def cdiv (a b : Nat) : Nat := (a + b - 1) / b

end Sys2Proof
end

