-- ==== Sys2Proof/Machine/Flags.lean ====
section
/-! DEFINITION. Machine/Flags.lean: number formats, rounding, and every flag computation (R139 to R151, R156, R157). -/
namespace Sys2Proof.Machine
open Sys2Proof

/-! ### Flags (R156) -/

/-- Inexact. -/
def fNX : Nat := 1
/-- Underflow: tiny and inexact. -/
def fUF : Nat := 2
/-- Overflow. -/
def fOF : Nat := 4
/-- Divide-by-zero. -/
def fDZ : Nat := 8
/-- Invalid. -/
def fNV : Nat := 16
/-- Integer saturation. -/
def fSAT : Nat := 32

/-- A flag where a condition holds. -/
def flagIf (b : Bool) (f : Nat) : Nat := if b then f else 0

/-! ### Formats (R139 to R142) -/

/-- The floating-point formats. -/
inductive FF where
  | f32 | f16 | bf16 | e4m3 | e5m2
  deriving DecidableEq, Repr

/-- Exponent bits. -/
def FF.eb : FF → Nat | .f32 => 8 | .f16 => 5 | .bf16 => 8 | .e4m3 => 4 | .e5m2 => 5
/-- Significand bits. -/
def FF.mb : FF → Nat | .f32 => 23 | .f16 => 10 | .bf16 => 7 | .e4m3 => 3 | .e5m2 => 2
/-- Exponent bias. -/
def FF.bias : FF → Nat | .f32 => 127 | .f16 => 15 | .bf16 => 127 | .e4m3 => 7 | .e5m2 => 15
/-- Width in bits. -/
def FF.width (f : FF) : Nat := 1 + f.eb + f.mb
/-- The canonical NaN (R141). -/
def FF.nan : FF → Nat | .f32 => 0x7FC00000 | .f16 => 0x7E00 | .bf16 => 0x7FC0 | .e4m3 => 0x7F | .e5m2 => 0x7E
/-- The largest finite encoding (R141). -/
def FF.max : FF → Nat | .f32 => 0x7F7FFFFF | .f16 => 0x7BFF | .bf16 => 0x7F7F | .e4m3 => 0x7E | .e5m2 => 0x7B
/-- +Infinity; E4M3 has none (R141). -/
def FF.inf : FF → Nat | .f32 => 0x7F800000 | .f16 => 0x7C00 | .bf16 => 0x7F80 | .e4m3 => 0x7F | .e5m2 => 0x7C
/-- The sign bit's weight. -/
def FF.sign (f : FF) : Nat := 2 ^ (f.width - 1)
/-- The 8-bit formats saturate when a finite value is out of range (R150). -/
def FF.saturates : FF → Bool | .e4m3 => true | .e5m2 => true | .f32 => false | .f16 => false | .bf16 => false

/-- A decoded value: a finite one is (−1)^neg × m × 2^e. -/
inductive FV where
  | nan (sig : Bool)
  | inf (neg : Bool)
  | fin (neg : Bool) (m : Nat) (e : Int)
  deriving DecidableEq, Repr

/-- Decodes an encoding (R140, R141, R142). -/
def FF.decode (f : FF) (x : Nat) : FV :=
  let s := bit x (f.width - 1)
  let ex := bits x f.mb f.eb
  let m := bits x 0 f.mb
  if f = .e4m3 ∧ ex = 15 ∧ m = 7 then .nan false
  else if f ≠ .e4m3 ∧ ex = 2 ^ f.eb - 1 then
    (if m = 0 then .inf s else .nan (!f.saturates && !bit m (f.mb - 1)))
  else if ex = 0 then .fin s m (1 - f.bias - f.mb)
  else .fin s (2 ^ f.mb + m) ((ex : Int) - f.bias - f.mb)

/-- A decoded value is a NaN. -/
def FV.isNan : FV → Bool
  | .nan _ => true
  | _ => false

/-- A decoded value is a signalling NaN (R142). -/
def FV.isSig : FV → Bool
  | .nan s => s
  | _ => false

/-- A decoded value is a zero. -/
def FV.isZero : FV → Bool
  | .fin _ m _ => m == 0
  | _ => false

/-- The sign of a decoded value. -/
def FV.neg : FV → Bool
  | .nan _ => false
  | .inf n => n
  | .fin n _ _ => n

/-- The value with its sign turned. -/
def FV.flip : FV → FV
  | .nan s => .nan s
  | .inf n => .inf (!n)
  | .fin n m e => .fin (!n) m e

/-! ### Rounding (R148) -/

/-- Whether the magnitude is rounded up: `k` the truncated significand, `rem` the rest below one unit of `2 ^ shift`. -/
def roundsUp (rm : Nat) (neg : Bool) (k rem shift : Nat) : Bool :=
  match rm with
  | 0 => 2 ^ shift < 2 * rem || (2 ^ shift == 2 * rem && k % 2 == 1)
  | 1 => false
  | 2 => neg && rem != 0
  | _ => !neg && rem != 0

/-- A magnitude divided by `2 ^ shift` and rounded: the result and whether it changed. -/
def roundShift (rm : Nat) (neg : Bool) (m : Nat) (shift : Int) : Nat × Bool :=
  if shift ≤ 0 then (m * 2 ^ (-shift).toNat, false)
  else
    let s := shift.toNat
    let k := m / 2 ^ s
    let rem := m % 2 ^ s
    (k + b2n (roundsUp rm neg k rem s), rem != 0)

/-- The result of a finite value beyond range, by mode (R150). -/
def overflowBits (f : FF) (rm : Nat) (neg : Bool) : Nat :=
  let sgn := if neg then f.sign else 0
  if f.saturates then sgn + f.max
  else
    match rm with
    | 0 => sgn + f.inf
    | 1 => sgn + f.max
    | 2 => if neg then sgn + f.inf else f.max
    | _ => if neg then sgn + f.max else f.inf

/-- The larger of two integers. -/
def larger (a b : Int) : Int := if a ≤ b then b else a

/-- Exponent of the largest finite value. -/
def FF.emax : FF → Int | .f32 => 127 | .f16 => 15 | .bf16 => 127 | .e4m3 => 8 | .e5m2 => 15

/-- The finite value m × 2^e with its sign, rounded once into a format: bits and flags (R148, R150). -/
def FF.round (f : FF) (rm : Nat) (neg : Bool) (m : Nat) (e : Int) : Nat × Nat :=
  let sgn := if neg then f.sign else 0
  if m = 0 then (sgn, 0)
  else
    let top : Int := (Nat.log2 m : Int) + e
    let emin : Int := 1 - (f.bias : Int)
    let q : Int := larger (top - (f.mb : Int)) (emin - (f.mb : Int))
    let (ku, _) := roundShift rm neg m (top - (f.mb : Int) - e)
    let topU : Int := if ku = 2 ^ (f.mb + 1) then top + 1 else top
    let beyond : Bool := decide (f.emax < topU) || (f == .e4m3 && decide (topU = 8) && ku == 15)
    if beyond then (overflowBits f rm neg, fOF + fNX)
    else
      let (k, inx) := roundShift rm neg m (q - e)
      (sgn + (q - (emin - (f.mb : Int))).toNat * 2 ^ f.mb + k, flagIf inx fNX + flagIf (inx && decide (topU < emin)) fUF)

/-- A decoded value written in a format (the float rows of R150): bits and flags. -/
def FF.conv (f : FF) (rm : Nat) : FV → Nat × Nat
  | .nan s => (f.nan, flagIf s fNV)
  | .inf n => if f = .e4m3 then (f.nan, fNV) else ((if n then f.sign else 0) + f.inf, 0)
  | .fin n m e => f.round rm n m e

/-! ### Exact arithmetic -/

/-- The sign of an exact zero sum (R148): the common sign, else +0, or −0 in RDN. -/
def zeroSign (rm : Nat) (a b : Bool) : Bool := if a == b then a else rm == 2

/-- The exact sum of two finite values, its zero's sign by mode. -/
def finAdd (rm : Nat) (n1 : Bool) (m1 : Nat) (e1 : Int) (n2 : Bool) (m2 : Nat) (e2 : Int) : FV :=
  if m1 = 0 ∧ m2 = 0 then .fin (zeroSign rm n1 n2) 0 0
  else
    let e := min e1 e2
    let a : Int := (m1 * 2 ^ (e1 - e).toNat : Nat)
    let b : Int := (m2 * 2 ^ (e2 - e).toNat : Nat)
    let s : Int := (if n1 then -a else a) + (if n2 then -b else b)
    if s = 0 then .fin (rm == 2) 0 0 else .fin (decide (s < 0)) s.natAbs e

/-- The exact sum, with the invalid flag of ∞ − ∞ and of signalling NaNs (R329). -/
def fvAdd (rm : Nat) (a b : FV) : FV × Nat :=
  match a, b with
  | .nan s, y => (.nan false, flagIf (s || y.isSig) fNV)
  | x, .nan s => (.nan false, flagIf (s || x.isSig) fNV)
  | .inf n, .inf k => if n == k then (.inf n, 0) else (.nan false, fNV)
  | .inf n, .fin _ _ _ => (.inf n, 0)
  | .fin _ _ _, .inf k => (.inf k, 0)
  | .fin n1 m1 e1, .fin n2 m2 e2 => (finAdd rm n1 m1 e1 n2 m2 e2, 0)

/-- The exact product, with the invalid flag of 0 × ∞ (R329). -/
def fvMul (a b : FV) : FV × Nat :=
  match a, b with
  | .nan s, y => (.nan false, flagIf (s || y.isSig) fNV)
  | x, .nan s => (.nan false, flagIf (s || x.isSig) fNV)
  | .inf n, .inf k => (.inf (n != k), 0)
  | .inf n, .fin k m _ => if m = 0 then (.nan false, fNV) else (.inf (n != k), 0)
  | .fin n m _, .inf k => if m = 0 then (.nan false, fNV) else (.inf (n != k), 0)
  | .fin n1 m1 e1, .fin n2 m2 e2 => (.fin (n1 != n2) (m1 * m2) (e1 + e2), 0)

/-- The exact a × b + c (R329). -/
def fvFma (rm : Nat) (a b c : FV) : FV × Nat :=
  let p := fvMul a b
  let r := fvAdd rm p.1 c
  (r.1, p.2 ||| r.2)

/-- A quotient of naturals as m × 2^e, exact or with a low odd bit standing for the rest. -/
def quotJam (a b : Nat) : Nat × Int :=
  let s := 160 + Nat.log2 b
  let q := a * 2 ^ s / b
  (2 * q + b2n (q * b != a * 2 ^ s), -(s : Int) - 1)

/-- x / y (R151). -/
def fvDiv (a b : FV) : FV × Nat :=
  match a, b with
  | .nan s, y => (.nan false, flagIf (s || y.isSig) fNV)
  | x, .nan s => (.nan false, flagIf (s || x.isSig) fNV)
  | .inf _, .inf _ => (.nan false, fNV)
  | .inf n, .fin k _ _ => (.inf (n != k), 0)
  | .fin n _ _, .inf k => (.fin (n != k) 0 0, 0)
  | .fin n1 m1 e1, .fin n2 m2 e2 =>
    if m2 = 0 then (if m1 = 0 then (.nan false, fNV) else (.inf (n1 != n2), fDZ))
    else
      let q := quotJam m1 m2
      (.fin (n1 != n2) q.1 (q.2 + e1 - e2), 0)

/-- An operation's result in a format, with its flags. -/
def FF.pack (f : FF) (rm : Nat) (r : FV × Nat) : Nat × Nat :=
  let p := f.conv rm r.1
  (p.1, p.2 ||| r.2)

/-- Ordered comparison of two values that are no NaNs: −1, 0 or 1; the zeros are equal. -/
def fvCmp (a b : FV) : Int :=
  match a, b with
  | .inf n, .inf k => if n == k then 0 else if n then -1 else 1
  | .inf n, _ => if n then -1 else 1
  | _, .inf k => if k then 1 else -1
  | .fin n1 m1 e1, .fin n2 m2 e2 =>
    let e := min e1 e2
    let a : Int := (m1 * 2 ^ (e1 - e).toNat : Nat)
    let b : Int := (m2 * 2 ^ (e2 - e).toNat : Nat)
    let d : Int := (if n1 then -a else a) - (if n2 then -b else b)
    if d < 0 then -1 else if d = 0 then 0 else 1
  | _, _ => 0

/-- a lies below b in the order of R155, −0 below +0. -/
def fvBelow (a b : FV) : Bool := fvCmp a b == -1 || (fvCmp a b == 0 && a.isZero && a.neg && !b.neg)

/-- FMIN or FMAX of two encodings of a format (R334, R155): bits and flags. -/
def FF.minmax (f : FF) (mx : Bool) (x y : Nat) : Nat × Nat :=
  let w := 2 ^ f.width
  let a := f.decode x
  let b := f.decode y
  let fl := flagIf (a.isSig || b.isSig) fNV
  if a.isNan && b.isNan then (f.nan, fl)
  else if a.isNan then (y % w, fl)
  else if b.isNan then (x % w, fl)
  else if mx then ((if fvBelow a b then y else x) % w, fl)
  else ((if fvBelow b a then y else x) % w, fl)

/-! ### Conversions to and from integers (R150, R331) -/

/-- A finite value rounded to an integer in a mode, and whether it changed. -/
def roundInt (rm : Nat) (neg : Bool) (m : Nat) (e : Int) : Int × Bool :=
  let (k, inx) := roundShift rm neg m (-e)
  (if neg then -(k : Int) else k, inx)

/-- A value converted to an integer within bounds: result and flags. -/
def toIntB (rm : Nat) (lo hi : Int) : FV → Int × Nat
  | .nan _ => (0, fNV)
  | .inf n => (if n then lo else hi, fNV)
  | .fin n m e =>
    let (r, inx) := roundInt rm n m e
    if r < lo then (lo, fNV) else if hi < r then (hi, fNV) else (r, flagIf inx fNX)

/-- An integer as a value. -/
def fvOfInt (x : Int) : FV := .fin (decide (x < 0)) x.natAbs 0

/-! ### The D2 format (R143, R144) -/

/-- A D2 nibble in 64ths: 0, or ±2^(c − 1). -/
def d2Term (n : Nat) : Int :=
  let c := n % 8
  if c = 0 then 0 else if bit n 3 then -((2 ^ (c - 1) : Nat) : Int) else ((2 ^ (c - 1) : Nat) : Int)

/-- The value of a D2 byte in 64ths. -/
def d2Val (b : Nat) : Int := d2Term (b / 16 % 16) + d2Term (b % 16)

/-- A D2 byte's value. -/
def d2Decode (b : Nat) : FV := .fin (decide (d2Val b < 0)) (d2Val b).natAbs (-6)

/-- Exponents 0 to 6 as a list. -/
def seven : List Nat := [0, 1, 2, 3, 4, 5, 6]

/-- The canonical encoding of a magnitude in 64ths with one term, two of equal sign, or two of opposite sign; the sign bits
are those of a positive value. -/
def d2Canon (c : Nat) : Option Nat :=
  if c = 0 then some 0
  else
    match seven.find? fun i => 2 ^ i == c with
    | some i => some (16 * (i + 1))
    | none =>
      match seven.findSome? fun i => seven.findSome? fun j =>
          if j ≤ i && 2 ^ i + 2 ^ j == c then some (16 * (i + 1) + (j + 1)) else none with
      | some b => some b
      | none =>
        seven.findSome? fun i => seven.findSome? fun j =>
          if j < i && 2 ^ i == c + 2 ^ j then some (16 * (i + 1) + 8 + (j + 1)) else none

/-- The canonical byte of a signed value in 64ths. -/
def d2Byte (neg : Bool) (c : Nat) : Nat :=
  let b := (d2Canon c).getD 0
  if neg && c != 0 then
    let hi := b / 16
    let lo := b % 16
    16 * (hi ^^^ 8) + (if lo = 0 then 0 else lo ^^^ 8)
  else b

/-- The representable magnitudes in 64ths, rising. -/
def d2Values : List Nat := (List.range 129).filter fun c => (d2Canon c).isSome

/-- The representable magnitude nearest to num / den (in units of 1), ties to the smaller (R144). -/
def d2Nearest (num den : Nat) : Nat :=
  let n := 64 * num
  let dist := fun (c : Nat) => (n - c * den) + (c * den - n)
  d2Values.foldl (fun best c => if dist c < dist best then c else best) 0

/-- Conversion of the exact quotient num / den to D2: byte and flags (R144). -/
def d2Round (neg : Bool) (num den : Nat) : Nat × Nat :=
  if 2 * den < num then (d2Byte neg 128, fOF + fNX)
  else
    let c := d2Nearest num den
    (d2Byte neg c, flagIf (c * den != 64 * num) fNX)

/-- A value m × 2^e as a fraction. -/
def fracOf (m : Nat) (e : Int) : Nat × Nat := if e < 0 then (m, 2 ^ (-e).toNat) else (m * 2 ^ e.toNat, 1)

/-- A value converted to D2 with scale 1 (R144). -/
def d2Conv : FV → Nat × Nat
  | .nan _ => (0, fNV)
  | .inf n => (d2Byte n 128, fOF + fNX)
  | .fin n m e => let q := fracOf m e; d2Round n q.1 q.2

/-! ### FCVT (R331) -/

/-- The floating-point format of a type. -/
def ffOf : Ty → Option FF
  | .f32 => some .f32
  | .f16 => some .f16
  | .bf16 => some .bf16
  | .e4m3 => some .e4m3
  | .e5m2 => some .e5m2
  | _ => none

/-- The value of a register's low bits in a type. -/
def tyDecode (t : Ty) (x : Nat) : FV :=
  match ffOf t with
  | some f => f.decode x
  | none =>
    match t with
    | .i32 => fvOfInt (signed x 32)
    | .u32 => fvOfInt (x % 2 ^ 32)
    | _ => d2Decode (x % 256)

/-- FCVT of a value: bits, flags, and whether the result is a NaN (R331, R150). -/
def fcvt (rm : Nat) (td ts : Ty) (x : Nat) : Nat × Nat × Bool :=
  let v := tyDecode ts x
  match ffOf td with
  | some f =>
    if td = ts then
      (match v with
       | .nan s => (f.nan, flagIf s fNV, true)
       | _ => (x % 2 ^ f.width, 0, false))
    else
      let r := f.conv rm v
      (r.1, r.2, (f.decode r.1).isNan)
  | none =>
    match td with
    | .i32 => let r := toIntB rm (-(2 ^ 31)) (2 ^ 31 - 1) v; (wrap r.1 32, r.2, false)
    | .u32 => let r := toIntB rm 0 (2 ^ 32 - 1) v; (wrap r.1 32, r.2, false)
    | _ => let r := d2Conv v; (r.1, r.2, false)

/-! ### Block quantisation (R145, R146, R379) -/

/-- Destination formats of the quantiser: E4M3, E5M2, INT8, D2, with their maxima. -/
def qmax : QFmt → Nat
  | .q4m3 => 448
  | .q5m2 => 57344
  | .qi8 => 127
  | .qd2 => 2

/-- |x| of a finite value is larger. -/
def absLt (a b : Nat × Int) : Bool :=
  let e := min a.2 b.2
  a.1 * 2 ^ (a.2 - e).toNat < b.1 * 2 ^ (b.2 - e).toNat

/-- The largest finite magnitude of a block (R146). -/
def blockMax (l : List FV) : Nat × Int :=
  l.foldl (fun m v => match v with | .fin _ k e => if absLt m (k, e) then (k, e) else m | _ => m) (0, 0)

/-- The block's scale, a BF16 encoding (R146). -/
def blockScale (q : QFmt) (l : List FV) : Nat :=
  let a := blockMax l
  if a.1 = 0 then 0x3F80
  else
    let r := quotJam a.1 (qmax q)
    (FF.bf16.round 3 false r.1 (r.2 + a.2)).1

/-- One element quantised by a scale: byte, flags, and whether it is a NaN (R146, R379). -/
def quantOne (q : QFmt) (scale : Nat) (v : FV) : Nat × Nat × Bool :=
  match v with
  | .nan _ =>
    (match q with
     | .q4m3 => (FF.e4m3.nan, fNV, true)
     | .q5m2 => (FF.e5m2.nan, fNV, true)
     | _ => (0, fNV, false))
  | .inf n =>
    (match q with
     | .q4m3 => ((if n then 0x80 else 0) + 0x7E, fOF + fNX, false)
     | .q5m2 => ((if n then 0x80 else 0) + 0x7C, 0, false)
     | .qi8 => (if n then 0x81 else 0x7F, fOF + fNX, false)
     | .qd2 => (d2Byte n 128, fOF + fNX, false))
  | .fin n m e =>
    match FF.bf16.decode scale with
    | .fin _ sm se =>
      (match q with
       | .q4m3 => let j := quotJam m sm; let r := FF.e4m3.round 0 n j.1 (j.2 + e - se); (r.1, r.2, false)
       | .q5m2 => let j := quotJam m sm; let r := FF.e5m2.round 0 n j.1 (j.2 + e - se); (r.1, r.2, false)
       | .qi8 =>
         let j := quotJam m sm
         let (k, inx) := roundInt 0 n j.1 (j.2 + e - se)
         let c := max (-127) (min 127 k)
         (wrap c 8, flagIf inx fNX, false)
       | .qd2 =>
         let a := fracOf m (e - se)
         let r := d2Round n a.1 (a.2 * sm)
         (r.1, r.2, false))
    | _ => (0, 0, false)

/-- The FCLASS mask (R330). -/
def fclassBits (f : FF) (x : Nat) : Nat :=
  match f.decode x with
  | .nan s => if s then 0x100 else 0x200
  | .inf n => if n then 1 else 0x80
  | .fin n m _ =>
    if m = 0 then (if n then 8 else 0x10)
    else if bits x f.mb f.eb = 0 then (if n then 4 else 0x20)
    else (if n then 2 else 0x40)

/-- FSET's result and flags (R335). -/
def fsetBits (f : FF) (cond : FCond) (x y : Nat) : Bool × Nat :=
  let a := f.decode x
  let b := f.decode y
  let un := a.isNan || b.isNan
  let sig := flagIf (a.isSig || b.isSig) fNV
  let c := fvCmp a b
  match cond with
  | .eq => (!un && c == 0, sig)
  | .ne => (un || c != 0, sig)
  | .lt => (!un && c == -1, flagIf un fNV)
  | .le => (!un && c != 1, flagIf un fNV)
  | .gt => (!un && c == 1, flagIf un fNV)
  | .ge => (!un && c != -1, flagIf un fNV)
  | .un => (un, sig)
  | .ordered => (!un, sig)

end Sys2Proof.Machine
end

