-- ==== Sys2Proof/Machine/Roles.lean ====
section
/-! DEFINITION. Machine/Roles.lean: what each instruction's fields name (R60, R268, R273, R275) and who may issue it (R279). -/
namespace Sys2Proof

/-- Who issues an opcode (R279): both, lanes only, front thread only; device steps are issued by nobody. -/
inductive Issuer where
  | both | lane | front | device
  deriving DecidableEq, Repr

/-- What a field names, for REP stepping (R268, R275); `idx` is MOVX's B, a number of 0 to 255 in every form (R358). -/
inductive FieldKind where
  | none | g | pair | cur | mat | slot | bar | win | idx
  deriving DecidableEq, Repr

/-- A run of consecutive general (or scalar) registers that an instruction names. -/
structure RegUse where
  start : Nat
  count : Nat
  deriving DecidableEq, Repr

/-- The static facts of one instruction. -/
structure Roles where
  issuer : Issuer := .lane
  /-- D, A, B, C for REP stepping. -/
  fd : FieldKind := .none
  fa : FieldKind := .none
  fb : FieldKind := .none
  fc : FieldKind := .none
  /-- Sources the hold field may name (R60): A, B, C. -/
  hA : Bool := false
  hB : Bool := false
  hC : Bool := false
  /-- Fields that must be even in a lane form (R268). -/
  pairs : List (BitVec 8) := []
  /-- Registers read. -/
  rd : List RegUse := []
  /-- Registers written. -/
  wr : List RegUse := []
  /-- Feature bits of FEATACC that must be accepted (R246). -/
  feats : List Nat := []
  /-- Supervisor only (R204, R396). -/
  sup : Bool := false
  /-- Illegal inside a handler (R235). -/
  noHandler : Bool := false
  /-- May not follow REP (R275). -/
  noRep : Bool := false
  /-- Parks a speculative group until its verdict (R223, R183, R364, R383, R384, R397). -/
  specWait : Bool := false
  /-- A crew instruction (R77). -/
  crewI : Bool := false
  /-- Words of the instruction (R271). -/
  words : Nat := 1
  deriving DecidableEq, Repr

/-- One register. -/
def ru (r : BitVec 8) : RegUse := ⟨r.toNat, 1⟩

/-- `n` consecutive registers. -/
def rus (r : BitVec 8) (n : Nat) : RegUse := ⟨r.toNat, n⟩

/-- A 64-bit operand: a pair of general registers, or one scalar register in the front thread (R277). -/
def rpair (front : Bool) (r : BitVec 8) : RegUse := ⟨r.toNat, if front then 1 else 2⟩

/-- Three-register form: D written, A and B read. -/
def rolesDAB (iss : Issuer) (d a b : BitVec 8) : Roles :=
  { issuer := iss, fd := .g, fa := .g, fb := .g, hA := true, hB := true, rd := [ru a, ru b], wr := [ru d] }

/-- Four-register form: D written, A, B and C read. -/
def rolesDABC (iss : Issuer) (d a b c : BitVec 8) : Roles :=
  { issuer := iss, fd := .g, fa := .g, fb := .g, fc := .g, hA := true, hB := true, hC := true,
    rd := [ru a, ru b, ru c], wr := [ru d] }

/-- Two-register form, also the immediate forms: D written, A read. -/
def rolesDA (iss : Issuer) (d a : BitVec 8) : Roles :=
  { issuer := iss, fd := .g, fa := .g, hA := true, rd := [ru a], wr := [ru d] }

/-- Crew instructions on matrix registers. -/
def rolesCrew : Roles := { crewI := true, noHandler := true, specWait := true }

/-- Number of registers a data operand of a width takes. -/
def Width.regs : Width → Nat
  | .b64 => 2
  | _ => 1

/-- The fields a width requires to be even. -/
def Width.even (w : Width) (d : BitVec 8) : List (BitVec 8) := if w = .b64 then [d] else []

/-- The D field's kind for a width. -/
def Width.kind (w : Width) : FieldKind := if w = .b64 then .pair else .g

/-- The layout M and P roles of an access: D is data, B the offset or index register; `load` says which way D goes. -/
def rolesMem (load : Bool) (w : Width) (cur : Bool) (d b : BitVec 8) : Roles :=
  { fd := w.kind, fa := if cur then .cur else .none, fb := .g, hB := true, pairs := w.even d,
    rd := if load then [ru b] else [ru b, rus d w.regs], wr := if load then [rus d w.regs] else [] }

/-- 64-bit CSRs (R318): LRBASE and UHVEC. -/
def csrIs64 (csr : BitVec 12) : Bool := csr == 0x049#12 || csr == 0x04C#12

/-- A D or A field that is a pair when `p` holds. -/
def pairKind (p : Bool) : FieldKind := if p then .pair else .g

/-- The static facts of every instruction; `front` selects the front thread's form (R277). -/
def Instr.roles (front : Bool) : Instr → Roles
  | .and _ d a b _ | .or _ d a b | .xor _ d a b | .iadd _ d a b _ | .isub _ d a b _ | .imul _ d a b _
  | .imulh _ d a b _ | .idiv _ d a b _ | .irem _ d a b _ | .imin _ d a b _ | .imax _ d a b _
  | .shl _ d a b | .shr _ d a b | .sha _ d a b | .rot _ d a b | .bfx _ d a b _ => rolesDAB .both d a b
  | .iset _ d a b _ _ _ => { rolesDAB .both d a b with rd := [ru a, ru b, ru d] }
  | .andImm _ d a _ _ | .orImm _ d a _ | .xorImm _ d a _ | .iaddImm _ d a _ _ | .isubImm _ d a _ _
  | .imulImm _ d a _ _ | .iminImm _ d a _ _ | .imaxImm _ d a _ _ | .shlImm _ d a _ | .shrImm _ d a _
  | .shaImm _ d a _ | .rotImm _ d a _ | .iabs _ d a | .brev _ d a | .clz _ d a | .ctz _ d a | .popc _ d a
  | .icvt _ d a _ => rolesDA .both d a
  | .imad _ d a b c _ | .sel _ d a b c | .bfi _ d a b c | .zord _ d a b c => rolesDABC .both d a b c
  | .mov _ d a p =>
    { issuer := if p then .lane else .both, fd := pairKind p, fa := pairKind p, hA := true,
      pairs := if p then [d, a] else [], rd := [rus a (if p then 2 else 1)], wr := [rus d (if p then 2 else 1)] }
  | .movImm _ d _ => { issuer := .both, fd := .g, wr := [ru d] }
  | .movi _ d _ => { issuer := .both, fd := .g, wr := [ru d], noRep := true, words := 2 }
  | .movx _ dir r a _ =>
    { issuer := .both, fd := if dir then .none else .g, fa := .g, fb := .idx, fc := if dir then .g else .none,
      hA := true, hC := dir, rd := if dir then [ru a, ru r] else [ru a], wr := if dir then [] else [ru r] }
  | .fadd _ d a b _ | .fsub _ d a b _ | .fmul _ d a b _ | .fdiv _ d a b | .fmin _ d a b _ | .fmax _ d a b _
  | .shfl _ d a b _ _ => rolesDAB .lane d a b
  | .fset _ d a b _ _ _ => { rolesDAB .lane d a b with rd := [ru a, ru b, ru d] }
  | .ffma _ d a b c _ => rolesDABC .lane d a b c
  | .fclass _ d a _ | .fcvt _ d a _ _ | .fsf _ d a _ | .red _ d a _ _ | .scan _ d a _ _ _ => rolesDA .lane d a
  | .qrow _ d a b _ blk _ =>
    { fd := .g, fa := .g, fb := .g, hA := true, rd := [rus a (2 ^ blk.toNat)], wr := [ru d, ru b] }
  | .vote _ d a _ _ mode => { rolesDA .lane d a with rd := if mode = .ballot then [ru a] else [ru a, ru d] }
  | .matchL _ d a w64 =>
    { fd := .g, fa := pairKind w64, hA := true, pairs := if w64 then [a] else [],
      rd := [rus a (if w64 then 2 else 1)], wr := [ru d] }
  | .tkins _ d a b n =>
    { fd := .pair, fa := .g, fb := .g, hA := true, hB := true, pairs := [d],
      rd := [ru a, ru b, rus d (2 * (n.toNat + 1))], wr := [rus d (2 * (n.toNat + 1))] }
  | .mfld _ d b _ _ _ => { fd := .g, fb := .g, hB := true, rd := [ru b], wr := [rus d 8] }
  | .bra _ _ => { issuer := .both, noRep := true, words := 2 }
  | .brx _ a | .ret _ a =>
    { issuer := .both, fa := .pair, hA := true, pairs := [a], rd := [rpair front a], noRep := true }
  | .call _ d _ => { issuer := .both, fd := .pair, pairs := [d], wr := [rpair front d], noRep := true, words := 2 }
  | .join _ (some a) => { fa := .g, hA := true, rd := [ru a], noRep := true }
  | .join _ none => { noRep := true }
  | .exit _ => { issuer := .both, noRep := true, noHandler := true, specWait := true }
  | .nop _ => { issuer := .both }
  | .rep .. => { issuer := .both, noRep := true }
  | .wait .. | .trap .. | .tret .. => { noRep := true }
  | .fence .. | .lfence .. => { issuer := .both, noRep := true }
  | .binit _ _ a b | .bxpc _ _ a b =>
    { issuer := .both, fd := .bar, fa := .g, fb := .g, hA := true, hB := true, rd := [ru a, ru b] }
  | .barv .. | .bwait .. => { issuer := .both, fd := .bar, noRep := true, noHandler := true, specWait := true }
  | .bqry _ d _ _ => { issuer := .both, fd := .pair, pairs := [d], wr := [rpair front d] }
  | .clbar _ => { noRep := true, noHandler := true, specWait := true }
  | .evsig _ d _ _ b _ =>
    { fd := .g, fa := .cur, fb := .g, hB := true, rd := [ru d, ru b], noHandler := true, specWait := true }
  | .evsigFront _ d a =>
    { issuer := .front, fd := .g, fa := .g, hA := true, rd := [ru d, ru a], noHandler := true }
  | .evwait _ d _ _ b _ =>
    { fd := .pair, fa := .cur, fb := .g, hB := true, pairs := [d], rd := [rus d 2, ru b], wr := [rus d 2],
      noHandler := true, specWait := true }
  | .evwaitFront _ d a =>
    { issuer := .front, fd := .g, fa := .g, hA := true, rd := [ru d, ru a], wr := [ru d], noHandler := true }
  | .ld _ w _ _ d _ b _ => rolesMem true w true d b
  | .st _ w _ d _ b _ => rolesMem false w true d b
  | .ldp _ w _ d b _ => rolesMem true w false d b
  | .lds _ w _ _ d b _ => rolesMem true w false d b
  | .stp _ w d b _ => rolesMem false w false d b
  | .sts _ w _ d b _ => rolesMem false w false d b
  | .xst _ w d b _ => { rolesMem false w false d b with specWait := true }
  | .atom _ w64 _ _ _ d _ b _ =>
    { fd := pairKind w64, fa := .cur, fb := .g, hB := true, pairs := if w64 then [d] else [],
      rd := [ru b, rus d (if w64 then 5 else 3)], wr := [rus d (if w64 then 2 else 1)], specWait := true }
  | .cctl _ d _ b _ => { fd := .g, fa := .cur, fb := .g, hB := true, rd := [ru d, ru b] }
  | .prsq _ d _ b _ => { fd := .g, fa := .cur, fb := .g, hB := true, rd := [ru b], wr := [ru d] }
  | .rgnset _ _ _ _ b _ => { fa := .cur, fb := .g, hB := true, rd := [ru b], specWait := true }
  | .rgnclr .. | .touch .. => { issuer := .both, fd := .win, specWait := true }
  | .cmk _ _ _ a => { fd := .cur, fa := .g, hA := true, rd := [ru a] }
  | .cdesc .. => { fd := .cur, fa := .cur }
  | .cnrw _ _ _ b c => { fd := .cur, fa := .cur, fb := .g, fc := .g, hB := true, hC := true, rd := [ru b, ru c] }
  | .cnext _ d _ => { fd := .g, fa := .cur, wr := [ru d] }
  | .cseek _ d _ b => { fd := .g, fa := .cur, fb := .g, hB := true, rd := [ru b], wr := [ru d] }
  | .cget _ d _ f _ =>
    { fd := .g, fa := .cur, wr := [ru d],
      rd := if f = .done ∨ f = .app ∨ f = .own ∨ f = .ovf ∨ f = .fnd ∨ f = .spec then [ru d] else [] }
  | .ccoit _ _ d _ _ => { fd := .pair, fa := .cur, fb := .cur, pairs := [d], wr := [rus d 2] }
  | .capp _ d _ b => { fd := .g, fa := .cur, fb := .g, hB := true, rd := [ru b], wr := [ru d] }
  | .cfin .. => { fa := .cur }
  | .crew _ a b =>
    { fa := .g, fb := .g, hA := true, hB := true, rd := [ru a, ru b], specWait := true }
  | .crewEnd _ => rolesCrew
  | .obres _ _ a b =>
    { rolesCrew with fd := .slot, fa := .pair, fb := .pair, pairs := [a, b], rd := [rus a 2, rus b 2] }
  | .obrel .. => { rolesCrew with fd := .slot }
  | .ufcfg _ a b => { rolesCrew with fa := .pair, fb := .pair, pairs := [a, b], rd := [rus a 2, rus b 2] }
  | .mma _ _ _ _ c => { rolesCrew with fd := .mat, fa := .slot, fb := .slot, fc := .g, rd := [ru c] }
  | .mmal .. => { rolesCrew with fd := .mat, fa := .mat, fb := .mat, feats := [2] }
  | .madd .. => { rolesCrew with fd := .mat, fa := .mat, fb := .mat, feats := [2] }
  | .mscl _ _ _ b => { rolesCrew with fd := .mat, fa := .mat, fb := .g, rd := [ru b] }
  | .mdense .. => { rolesCrew with fd := .mat, fa := .mat }
  | .mrcmp _ _ _ b => { rolesCrew with fd := .mat, fa := .mat, fb := .g, rd := [ru b], feats := [2] }
  | .mzero .. => { rolesCrew with fd := .mat }
  | .mrank _ d _ => { rolesCrew with fd := .g, fa := .mat, wr := [ru d] }
  | .mld _ _ _ b _ | .mst _ _ _ b _ => { rolesCrew with fd := .mat, fa := .cur, fb := .g, rd := [ru b] }
  | .nsub _ _ a b _ =>
    { issuer := .both, fd := .win, fa := .g, fb := .g, rd := [rus a 3, ru b], feats := [0], noHandler := true,
      specWait := true }
  | .nsubWarm _ a b =>
    { issuer := .both, fa := .g, fb := .g, rd := [rus a 3, ru b], feats := [0], noHandler := true, specWait := true }
  | .nsubSpec _ _ a b _ _ _ =>
    { fd := .win, fa := .g, fb := .g, rd := [rus a 3, ru b], feats := [0, 1], noHandler := true, noRep := true,
      specWait := true, words := 2 }
  | .npub _ _ _ a => { issuer := .both, fd := .win, fa := .g, rd := [rus a 3], feats := [0], noHandler := true }
  | .ncan _ d a _ =>
    { issuer := .both, fd := .g, fa := .g, rd := [rus a 3], wr := [ru d], feats := [0], specWait := true }
  | .nstat _ d _ => { issuer := .both, fd := .g, wr := [ru d], feats := [0] }
  | .ntol _ a b =>
    { issuer := .both, fa := .pair, fb := .pair, pairs := [a, b], rd := [rpair front a, rpair front b],
      feats := [0, 1], specWait := true }
  | .nrtw _ a b =>
    { fa := .pair, fb := .g, pairs := [a], rd := [rus a 2, ru b], feats := [0], sup := true, specWait := true }
  | .spec _ d => { fd := .g, wr := [ru d], feats := [0] }
  | .dqpush _ a b => { issuer := .front, fa := .g, fb := .g, rd := [ru a, ru b], noRep := true, noHandler := true }
  | .dqpop _ d b _ =>
    { fd := .pair, fb := .g, pairs := [d], rd := [ru b], wr := [rus d 2, ru b], noRep := true, noHandler := true,
      specWait := true }
  | .launch _ d _ b _ =>
    { fd := .g, fa := .cur, fb := .g, hB := true, rd := [ru b], wr := [ru d], noRep := true, noHandler := true,
      specWait := true }
  | .launchFront _ d a =>
    { issuer := .front, fd := .g, fa := .g, hA := true, rd := [ru a], wr := [ru d], noRep := true, noHandler := true }
  | .sreg _ d s =>
    { issuer := .both, fd := pairKind (s = .time), pairs := if s = .time then [d] else [],
      wr := [if s = .time then rpair front d else ru d] }
  | .csrr _ d csr =>
    { issuer := .both, fd := pairKind (csrIs64 csr), pairs := if csrIs64 csr then [d] else [],
      wr := [if csrIs64 csr then rpair front d else ru d] }
  | .csrw _ a csr =>
    { issuer := .both, fa := pairKind (csrIs64 csr), hA := true, pairs := if csrIs64 csr then [a] else [],
      rd := [if csrIs64 csr then rpair front a else ru a] }
  | .xacq _ => { noRep := true, noHandler := true }
  | .xrel _ => { noRep := true }
  | .tlbinv _ a b => { fa := .pair, fb := .g, hA := true, hB := true, pairs := [a], rd := [rus a 2, ru b], sup := true }
  | .packageReset | .functionReset | .thermalTrip | .budgetPeriodEnd | .rbcmdWrite .. | .bucketMoveComplete ..
  | .budgetWrite .. | .launchQueueDoorbell .. | .launchQueueEnable .. | .launchRecordRead .. | .deviceQueueEnable
  | .launchWaitevRead .. | .launchStart .. | .clusterAdmit | .launchBlocking .. | .teamFinish .. | .gridComplete ..
  | .launchSignal .. | .runStart .. | .runForcedEnd .. | .joinRelease .. | .extendedBlockGrant .. | .registerDeadlock ..
  | .asyncWriteback .. | .crewFormation .. | .crewRendezvous .. | .matrixEngineStart .. | .matrixOpComplete ..
  | .prectlReq .. | .preemptDrain .. | .preemptBlockDeadline .. | .preemptSquashDeadline .. | .preemptHalt ..
  | .preemptQuiet .. | .prectlResume .. | .contextSave .. | .coreSetRestore .. | .storeAtHome .. | .loadReturn ..
  | .l2Forward .. | .leaseExpiry .. | .l1Eviction .. | .fenceMarker .. | .pageWalk .. | .faultrespReplay ..
  | .faultrespKill .. | .faultQueueHead .. | .faultRecordWrite | .copyBlockStart .. | .copyBlockComplete ..
  | .routineTimeout .. | .clusterSwap .. | .xstReceive .. | .evwaitRepoll .. | .interestArrival .. | .refreshArrival ..
  | .noRouteArrival .. | .dataHeaderArrival .. | .cocoonCopyComplete .. | .tileDelivery .. | .pitSlotExpiry ..
  | .interestExpiry .. | .cancelArrival .. | .predictionPatience .. | .predictionWritten .. | .verdict .. | .taskCommit ..
  | .taskSquash .. | .commitPacket .. | .squashPacket .. | .linkFlitReceive .. | .linkPacketReceive .. | .linkPortBlocked ..
  | .dieQueueBlocked .. | .hostBarWrite .. | .hostBarRead .. | .featctlLock | .cocooncfgWrite .. | .coreRetire ..
  | .sliceRetire .. | .dramRetrain .. | .dramRetrainDone .. | .routineInstall | .eccstatClear .. | .eccCorrected ..
  | .eccUncorrected .. | .mbInfo | .mbFwload | .mbFwmark | .mbRestart | .dehenanRestartDone .. | .mbOwnerkey | .mbAttest
  | .mbSensors | .mbUnknownCommand | .registerWrite .. | .publishSent .. | .nrtEntryWritten .. | .tlbInvalidationDone ..
  | .routeTableWrite .. | .enbudgetLimitLower .. => { issuer := .device }

/-- The header of an instruction; REP and the device steps have none. -/
def Instr.hdr? : Instr → Option Hdr
  | .and h .. | .andImm h .. | .or h .. | .orImm h .. | .xor h .. | .xorImm h .. | .iadd h .. | .iaddImm h ..
  | .isub h .. | .isubImm h .. | .imul h .. | .imulImm h .. | .imulh h .. | .imad h .. | .idiv h .. | .irem h ..
  | .imin h .. | .iminImm h .. | .imax h .. | .imaxImm h .. | .iabs h .. | .iset h .. | .sel h .. | .shl h ..
  | .shlImm h .. | .shr h .. | .shrImm h .. | .sha h .. | .shaImm h .. | .rot h .. | .rotImm h .. | .bfx h ..
  | .bfi h .. | .brev h .. | .clz h .. | .ctz h .. | .popc h .. | .icvt h .. | .zord h .. | .mov h .. | .movImm h ..
  | .movi h .. | .movx h .. | .fadd h .. | .fsub h .. | .fmul h .. | .ffma h .. | .fdiv h .. | .fmin h .. | .fmax h ..
  | .fset h .. | .fclass h .. | .fcvt h .. | .fsf h .. | .qrow h .. | .shfl h .. | .vote h .. | .matchL h .. | .red h ..
  | .scan h .. | .tkins h .. | .mfld h .. | .bra h .. | .brx h .. | .call h .. | .ret h .. | .join h .. | .exit h
  | .nop h | .wait h .. | .trap h .. | .tret h | .fence h .. | .lfence h | .binit h .. | .barv h .. | .bwait h ..
  | .bxpc h .. | .bqry h .. | .clbar h | .evsig h .. | .evsigFront h .. | .evwait h .. | .evwaitFront h .. | .ld h ..
  | .st h .. | .ldp h .. | .stp h .. | .lds h .. | .sts h .. | .xst h .. | .atom h .. | .cctl h .. | .prsq h ..
  | .rgnset h .. | .rgnclr h .. | .touch h .. | .cmk h .. | .cdesc h .. | .cnrw h .. | .cnext h .. | .cseek h ..
  | .cget h .. | .ccoit h .. | .capp h .. | .cfin h .. | .crew h .. | .crewEnd h | .obres h .. | .obrel h ..
  | .ufcfg h .. | .mma h .. | .mmal h .. | .madd h .. | .mscl h .. | .mdense h .. | .mrcmp h .. | .mzero h ..
  | .mrank h .. | .mld h .. | .mst h .. | .nsub h .. | .nsubWarm h .. | .nsubSpec h .. | .npub h .. | .ncan h ..
  | .nstat h .. | .ntol h .. | .nrtw h .. | .spec h .. | .dqpush h .. | .dqpop h .. | .launch h .. | .launchFront h ..
  | .sreg h .. | .csrr h .. | .csrw h .. | .xacq h | .xrel h | .tlbinv h .. => some h
  | _ => none

end Sys2Proof
end

