-- ==== Sys2Proof/WellFormed.lean ====
section
/-! DEFINITION. WellFormed.lean: which instructions the encodings admit (R268 to R273 and each entry's field rules). -/
namespace Sys2Proof

/-- The header's guard fields: with GE = 0 they are 0, and a front-thread guard names s0 to s63 (R61, R63). -/
def guardOk (front : Bool) (h : Hdr) : Bool :=
  (h.ge || (h.gr == 0 && h.gb == 0 && !h.gn)) && (!front || h.gr.toNat < 64)

/-- The hold field names a source that the instruction reads from a register (R60). -/
def holdOk (r : Roles) (h : Hdr) : Bool :=
  match h.h.toNat with
  | 0 => true
  | 1 => r.hA
  | 2 => r.hB
  | _ => r.hC

/-- The issuer may issue this opcode (R273, R279). -/
def issuerOk (front : Bool) (r : Roles) : Bool :=
  match r.issuer with
  | .both => true
  | .lane => !front
  | .front => front
  | .device => false

/-- Pair fields are even in a lane form (R268). -/
def pairsOk (front : Bool) (r : Roles) : Bool :=
  front || r.pairs.all fun x => x.toNat % 2 == 0

/-- Every scalar register that an instruction of the front thread names lies in 0 to 63 (R50, R268). -/
def scalarOk (front : Bool) (r : Roles) : Bool :=
  !front || ((r.rd ++ r.wr).all fun u => u.start + u.count ≤ 64)

/-- A type is one of a list. -/
def tyIn (t : Ty) (l : List Ty) : Bool := l.contains t

/-- The floating-point and D2 types of FCVT (R331). -/
def isFloatTy (t : Ty) : Bool := tyIn t [.f32, .f16, .bf16, .e4m3, .e5m2, .d2]

/-- The CSR numbers of R318. -/
def csrOk (csr : BitVec 12) : Bool := 0x040 ≤ csr.toNat && csr.toNat ≤ 0x04E

/-- Each entry's own field rules. -/
def shapeOk : Instr → Bool
  | .iadd _ _ _ _ ty | .iaddImm _ _ _ _ ty | .isub _ _ _ _ ty | .isubImm _ _ _ _ ty | .imul _ _ _ _ ty
  | .imulImm _ _ _ _ ty | .imulh _ _ _ _ ty | .idiv _ _ _ _ ty | .irem _ _ _ _ ty | .imin _ _ _ _ ty
  | .iminImm _ _ _ _ ty | .imax _ _ _ _ ty | .imaxImm _ _ _ _ ty | .imad _ _ _ _ _ ty
  | .iset _ _ _ _ _ _ ty | .bfx _ _ _ _ ty => tyIn ty [.i32, .u32]
  | .shlImm _ _ _ imm | .shrImm _ _ _ imm | .shaImm _ _ _ imm | .rotImm _ _ _ imm => imm.toNat ≤ 255
  | .fadd _ _ _ _ ty | .fsub _ _ _ _ ty | .fmul _ _ _ _ ty | .ffma _ _ _ _ _ ty | .fmin _ _ _ _ ty
  | .fmax _ _ _ _ ty => tyIn ty [.f32, .f16, .bf16, .h2]
  | .fset _ _ _ _ _ _ ty => tyIn ty [.f32, .f16, .bf16]
  | .fclass _ _ _ ty => tyIn ty [.f32, .f16, .bf16, .e4m3, .e5m2]
  | .fcvt _ _ _ td ts => td != .h2 && ts != .h2 && (isFloatTy td || isFloatTy ts)
  | .qrow _ d _ b _ blk ty => blk != 3 && d != b && tyIn ty [.f32, .bf16]
  | .shfl _ _ _ _ _ w => w.toNat ≤ 5
  | .vote _ _ _ _ j mode => mode != .ballot || j == 0
  | .red _ _ _ op ty => tyIn ty [.i32, .u32, .f32] && (ty != .f32 || op = .add || op = .min || op = .max)
  | .scan _ _ _ op _ ty => tyIn ty [.i32, .u32, .f32] && (ty != .f32 || op = .add || op = .min || op = .max)
  | .tkins _ _ _ _ n => n.toNat ≤ 7
  | .mfld _ _ _ _ tag _ => tag.toNat ≤ 1
  | .bra _ off | .call _ _ off => off.toNat % 8 == 0
  | .tret h => !h.ge
  | .fence _ sc => sc.toNat ≤ 5
  | .evsig _ _ _ sc _ _ | .evwait _ _ _ sc _ _ => sc.toNat ≤ 5
  | .ld _ w sx ord _ _ _ _ =>
    (!sx || w = .b8 || w = .b16) && (match ord with | some s => s.toNat ≤ 5 | none => true)
  | .st _ _ ord _ _ _ _ => match ord with | some s => s.toNat ≤ 5 | none => true
  | .ldp _ w sx _ _ _ => !sx || w = .b8 || w = .b16
  | .lds _ w sx tag _ _ _ => (!sx || w = .b8 || w = .b16) && tag.toNat ≤ 2
  | .sts _ _ tag _ _ _ => tag.toNat = 1 || tag.toNat = 2
  | .atom _ _ _ _ sc _ _ _ _ => sc.toNat ≤ 5
  | .cget _ _ _ f k => !(f = .pos || f = .lo || f = .hi || f = .crd || f = .w0) || k == 0
  | .ccoit _ _ _ ca cb => ca != cb
  | .csrr _ _ csr | .csrw _ _ csr => csrOk csr
  | _ => true

/-- An instruction the encodings admit, in the form of a lane or of the front thread. -/
def Instr.wf (front : Bool) (i : Instr) : Bool :=
  let r := i.roles front
  issuerOk front r && pairsOk front r && scalarOk front r && shapeOk i &&
    (match i.hdr? with | some h => guardOk front h && holdOk r h | none => true)

end Sys2Proof
end

