-- ==== Sys2Proof/Decode.lean ====
section
/-! DEFINITION. Decode.lean: the decoder of R267 to R279 and of each entry's encoding, total on any bytes, and the encoder. -/
namespace Sys2Proof

/-- Why a word is no instruction; every one of these raises illegal-instruction (R273). -/
inductive DecodeErr where
  /-- OP is not in the opcode map (R278). -/
  | unassigned
  /-- A field that the layout or entry marks 0 holds another value (R268, R271). -/
  | reservedField
  /-- A type, mode, condition or selector code is reserved (R270). -/
  | badCode
  /-- A field breaks the entry's own rule, the register class, the guard or the hold rule (R273). -/
  | notWellFormed
  /-- Fewer bytes than the instruction needs. -/
  | tooShort
  deriving DecidableEq, Repr

/-- The fields of a first word (R267). -/
structure Fields where
  h  : Hdr
  op : BitVec 10
  d  : BitVec 8
  a  : BitVec 8
  b  : BitVec 8
  c  : BitVec 12
  deriving DecidableEq, Repr

/-- The fields of a 64-bit word (R267). -/
def Fields.ofWord (w : DWord) : Fields :=
  { h := { e := w.getLsbD 63, h := w.extractLsb' 61 2, ge := w.getLsbD 60, gr := w.extractLsb' 52 8,
           gb := w.extractLsb' 47 5, gn := w.getLsbD 46 },
    op := w.extractLsb' 36 10, d := w.extractLsb' 28 8, a := w.extractLsb' 20 8, b := w.extractLsb' 12 8,
    c := w.extractLsb' 0 12 }

/-- The 64-bit word of the fields (R267). -/
def Fields.toWord (f : Fields) : DWord :=
  BitVec.ofBool f.h.e ++ (f.h.h ++ (BitVec.ofBool f.h.ge ++ (f.h.gr ++ (f.h.gb ++ (BitVec.ofBool f.h.gn ++
    (f.op ++ (f.d ++ (f.a ++ (f.b ++ f.c)))))))))

/-! ### Code tables -/

/-- The type codes of R270. -/
def Ty.ofCode (c : BitVec 4) : Option Ty :=
  match c.toNat with
  | 0 => some .i32 | 1 => some .u32 | 2 => some .f32 | 3 => some .f16 | 4 => some .bf16
  | 5 => some .e4m3 | 6 => some .e5m2 | 7 => some .d2 | 8 => some .h2 | _ => none

/-- The code of a type (R270). -/
def Ty.code : Ty → BitVec 4
  | .i32 => 0 | .u32 => 1 | .f32 => 2 | .f16 => 3 | .bf16 => 4 | .e4m3 => 5 | .e5m2 => 6 | .d2 => 7 | .h2 => 8

/-- The width codes of R270. -/
def Width.code : Width → BitVec 2
  | .b8 => 0 | .b16 => 1 | .b32 => 2 | .b64 => 3

/-- The width of OP<1:0>. -/
def Width.ofCode (c : BitVec 2) : Width :=
  match c.toNat with
  | 0 => .b8 | 1 => .b16 | 2 => .b32 | _ => .b64

/-- ISET conditions (R340). -/
def ICond.ofCode (c : BitVec 3) : Option ICond :=
  match c.toNat with
  | 0 => some .eq | 1 => some .ne | 2 => some .lt | 3 => some .le | 4 => some .gt | 5 => some .ge | _ => none

/-- Code of an ISET condition. -/
def ICond.code : ICond → BitVec 3
  | .eq => 0 | .ne => 1 | .lt => 2 | .le => 3 | .gt => 4 | .ge => 5

/-- FSET conditions (R335). -/
def FCond.ofCode (c : BitVec 3) : FCond :=
  match c.toNat with
  | 0 => .eq | 1 => .ne | 2 => .lt | 3 => .le | 4 => .gt | 5 => .ge | 6 => .un | _ => .ordered

/-- Code of an FSET condition. -/
def FCond.code : FCond → BitVec 3
  | .eq => 0 | .ne => 1 | .lt => 2 | .le => 3 | .gt => 4 | .ge => 5 | .un => 6 | .ordered => 7

/-- FSF functions (R336). -/
def SFn.ofCode (c : BitVec 3) : SFn :=
  match c.toNat with
  | 0 => .rcp | 1 => .rsq | 2 => .sqrt | 3 => .exp2 | 4 => .log2 | 5 => .sin | 6 => .cos | _ => .tanh

/-- Code of an FSF function. -/
def SFn.code : SFn → BitVec 3
  | .rcp => 0 | .rsq => 1 | .sqrt => 2 | .exp2 => 3 | .log2 => 4 | .sin => 5 | .cos => 6 | .tanh => 7

/-- QROW destination formats (R378). -/
def QFmt.ofCode (c : BitVec 2) : QFmt :=
  match c.toNat with
  | 0 => .q4m3 | 1 => .q5m2 | 2 => .qi8 | _ => .qd2

/-- Code of a QROW format. -/
def QFmt.code : QFmt → BitVec 2
  | .q4m3 => 0 | .q5m2 => 1 | .qi8 => 2 | .qd2 => 3

/-- SHFL modes (R387). -/
def ShflMode.ofCode (c : BitVec 2) : ShflMode :=
  match c.toNat with
  | 0 => .idx | 1 => .xor | 2 => .up | _ => .down

/-- Code of a SHFL mode. -/
def ShflMode.code : ShflMode → BitVec 2
  | .idx => 0 | .xor => 1 | .up => 2 | .down => 3

/-- VOTE modes (R401). -/
def VoteMode.ofCode (c : BitVec 2) : VoteMode :=
  match c.toNat with
  | 0 => .ballot | 1 => .any | 2 => .all | _ => .eq

/-- Code of a VOTE mode. -/
def VoteMode.code : VoteMode → BitVec 2
  | .ballot => 0 | .any => 1 | .all => 2 | .eq => 3

/-- RED and SCAN operations (R380). -/
def RedOp.ofCode (c : BitVec 3) : Option RedOp :=
  match c.toNat with
  | 0 => some .add | 1 => some .min | 2 => some .max | 3 => some .and | 4 => some .or | 5 => some .xor | _ => none

/-- Code of a RED operation. -/
def RedOp.code : RedOp → BitVec 3
  | .add => 0 | .min => 1 | .max => 2 | .and => 3 | .or => 4 | .xor => 5

/-- CGET fields (R309). -/
def CField.ofCode (c : BitVec 4) : Option CField :=
  match c.toNat with
  | 0 => some .pos | 1 => some .lo | 2 => some .hi | 3 => some .crd | 4 => some .w0 | 8 => some .done
  | 9 => some .app | 10 => some .own | 11 => some .ovf | 12 => some .fnd | 13 => some .spec | _ => none

/-- Code of a CGET field. -/
def CField.code : CField → BitVec 4
  | .pos => 0 | .lo => 1 | .hi => 2 | .crd => 3 | .w0 => 4 | .done => 8
  | .app => 9 | .own => 10 | .ovf => 11 | .fnd => 12 | .spec => 13

/-- SREG selectors (R389). -/
def Sel.ofCode (c : BitVec 12) : Option Sel :=
  match c.toNat with
  | 0 => some .laneid | 1 => some .groupid | 2 => some .teamid | 3 => some .clusterid | 4 => some .gridid
  | 5 => some .coreid | 6 => some .dieid | 7 => some .time | _ => none

/-- Code of an SREG selector. -/
def Sel.code : Sel → BitVec 12
  | .laneid => 0 | .groupid => 1 | .teamid => 2 | .clusterid => 3 | .gridid => 4 | .coreid => 5 | .dieid => 6
  | .time => 7

/-! ### Decoding -/

/-- The decoder's answer. -/
abbrev Dec := Except DecodeErr Instr

/-- Fields the entry marks 0 are 0. -/
def rz (ok : Bool) (k : Dec) : Dec := if ok then k else .error .reservedField

/-- A code that some table reads. -/
def code {α : Type} (o : Option α) (k : α → Dec) : Dec :=
  match o with
  | some x => k x
  | none => .error .badCode

/-- C<7:0>. -/
def Fields.c8 (f : Fields) : BitVec 8 := f.c.extractLsb' 0 8

/-- C<11:8>, the modifier nibble of layout T. -/
def Fields.nib (f : Fields) : BitVec 4 := f.c.extractLsb' 8 4

/-- B<3:0>, the modifier nibble of layout I. -/
def Fields.inib (f : Fields) : BitVec 4 := f.b.extractLsb' 0 4

/-- B<7:4> of layout I, marked 0. -/
def Fields.iz (f : Fields) : BitVec 4 := f.b.extractLsb' 4 4

/-- A cursor number in a field (R268). -/
def curF (x : BitVec 8) : Option (BitVec 3) := if x.extractLsb' 3 5 == 0 then some (x.extractLsb' 0 3) else none

/-- A matrix or barrier register number in a field (R268). -/
def f4 (x : BitVec 8) : Option (BitVec 4) := if x.extractLsb' 4 4 == 0 then some (x.extractLsb' 0 4) else none

/-- A window number in a field (R268). -/
def f5 (x : BitVec 8) : Option (BitVec 5) := if x.extractLsb' 5 3 == 0 then some (x.extractLsb' 0 5) else none

/-- Fields other than the header and OP all 0. -/
def Fields.z0 (f : Fields) : Bool := f.d == 0 && f.a == 0 && f.b == 0 && f.c == 0

/-- Three-register words with a type nibble. -/
def decDABt (f : Fields) (k : Hdr → BitVec 8 → BitVec 8 → BitVec 8 → Ty → Instr) : Dec :=
  rz (f.c8 == 0) (code (Ty.ofCode f.nib) fun ty => .ok (k f.h f.d f.a f.b ty))

/-- Three-register words with C = 0. -/
def decDAB (f : Fields) (k : Hdr → BitVec 8 → BitVec 8 → BitVec 8 → Instr) : Dec :=
  rz (f.c == 0) (.ok (k f.h f.d f.a f.b))

/-- Two-register words with B = 0 and C = 0. -/
def decDA (f : Fields) (k : Hdr → BitVec 8 → BitVec 8 → Instr) : Dec :=
  rz (f.b == 0 && f.c == 0) (.ok (k f.h f.d f.a))

/-- Layout I words with a type nibble. -/
def decIt (f : Fields) (k : Hdr → BitVec 8 → BitVec 8 → BitVec 12 → Ty → Instr) : Dec :=
  rz (f.iz == 0) (code (Ty.ofCode f.inib) fun ty => .ok (k f.h f.d f.a f.c ty))

/-- Layout I words with B = 0. -/
def decI (f : Fields) (k : Hdr → BitVec 8 → BitVec 8 → BitVec 12 → Instr) : Dec :=
  rz (f.b == 0) (.ok (k f.h f.d f.a f.c))

/-- Class 000, integer and logic, and its immediate forms (R279). -/
def decInt (f : Fields) (w2 : DWord) : Dec :=
  match f.op.toNat with
  | 0x001 => rz (f.c8 == 0 && f.c.extractLsb' 9 3 == 0) (.ok (.and f.h f.d f.a f.b (f.c.getLsbD 8)))
  | 0x002 => decDAB f .or
  | 0x003 => decDAB f .xor
  | 0x004 => decDABt f .iadd
  | 0x005 => decDABt f .isub
  | 0x006 => decDABt f .imul
  | 0x007 => decDABt f .imulh
  | 0x008 => code (Ty.ofCode f.nib) fun ty => .ok (.imad f.h f.d f.a f.b f.c8 ty)
  | 0x009 => decDABt f .idiv
  | 0x00A => decDABt f .irem
  | 0x00B => decDABt f .imin
  | 0x00C => decDABt f .imax
  | 0x00D => decDA f .iabs
  | 0x00E =>
    code (ICond.ofCode (f.c.extractLsb' 5 3)) fun cd => code (Ty.ofCode f.nib) fun ty =>
      .ok (.iset f.h f.d f.a f.b (f.c.extractLsb' 0 5) cd ty)
  | 0x00F => rz (f.nib == 0) (.ok (.sel f.h f.d f.a f.b f.c8))
  | 0x010 => decDAB f .shl
  | 0x011 => decDAB f .shr
  | 0x012 => decDAB f .sha
  | 0x013 => decDAB f .rot
  | 0x014 => decDABt f .bfx
  | 0x015 => rz (f.nib == 0) (.ok (.bfi f.h f.d f.a f.b f.c8))
  | 0x016 => decDA f .brev
  | 0x017 => decDA f .clz
  | 0x018 => decDA f .ctz
  | 0x019 => decDA f .popc
  | 0x01A => rz (f.b == 0 && f.c8 == 0 && f.c.extractLsb' 9 3 == 0) (.ok (.icvt f.h f.d f.a (f.c.getLsbD 8)))
  | 0x01B => rz (f.nib == 0) (.ok (.zord f.h f.d f.a f.b f.c8))
  | 0x01C => rz (f.b == 0 && f.c8 == 0 && f.c.extractLsb' 9 3 == 0) (.ok (.mov f.h f.d f.a (f.c.getLsbD 8)))
  | 0x01D =>
    rz (f.c.extractLsb' 9 3 == 0)
      (if f.c.getLsbD 8 then rz (f.d == 0) (.ok (.movx f.h true f.c8 f.a f.b))
       else rz (f.c8 == 0) (.ok (.movx f.h false f.d f.a f.b)))
  | 0x01E =>
    rz (f.a == 0 && f.b == 0 && f.c == 0 && w2.extractLsb' 32 32 == 0) (.ok (.movi f.h f.d (w2.extractLsb' 0 32)))
  | 0x041 => rz (f.b.extractLsb' 1 7 == 0) (.ok (.andImm f.h f.d f.a f.c (f.b.getLsbD 0)))
  | 0x042 => decI f .orImm
  | 0x043 => decI f .xorImm
  | 0x044 => decIt f .iaddImm
  | 0x045 => decIt f .isubImm
  | 0x046 => decIt f .imulImm
  | 0x04B => decIt f .iminImm
  | 0x04C => decIt f .imaxImm
  | 0x050 => decI f .shlImm
  | 0x051 => decI f .shrImm
  | 0x052 => decI f .shaImm
  | 0x053 => decI f .rotImm
  | 0x05C => rz (f.a == 0 && f.b == 0) (.ok (.movImm f.h f.d f.c))
  | _ => .error .unassigned

/-- Class 001, floating point (R279). -/
def decFloat (f : Fields) : Dec :=
  match f.op.toNat with
  | 0x080 => decDABt f .fadd
  | 0x081 => decDABt f .fsub
  | 0x082 => decDABt f .fmul
  | 0x083 => code (Ty.ofCode f.nib) fun ty => .ok (.ffma f.h f.d f.a f.b f.c8 ty)
  | 0x084 => rz (f.c8 == 0) (if f.nib == 2 then .ok (.fdiv f.h f.d f.a f.b) else .error .badCode)
  | 0x085 => decDABt f .fmin
  | 0x086 => decDABt f .fmax
  | 0x087 => code (Ty.ofCode f.nib) fun ty =>
      .ok (.fset f.h f.d f.a f.b (f.c.extractLsb' 0 5) (FCond.ofCode (f.c.extractLsb' 5 3)) ty)
  | 0x088 => rz (f.b == 0 && f.c8 == 0) (code (Ty.ofCode f.nib) fun ty => .ok (.fclass f.h f.d f.a ty))
  | 0x089 =>
    rz (f.b == 0 && f.c.extractLsb' 4 4 == 0)
      (code (Ty.ofCode f.nib) fun td => code (Ty.ofCode (f.c.extractLsb' 0 4)) fun ts => .ok (.fcvt f.h f.d f.a td ts))
  | 0x08A =>
    rz (f.b == 0 && f.c.extractLsb' 3 5 == 0)
      (if f.nib == 2 then .ok (.fsf f.h f.d f.a (SFn.ofCode (f.c.extractLsb' 0 3))) else .error .badCode)
  | 0x08B =>
    rz (f.c.extractLsb' 4 4 == 0)
      (code (Ty.ofCode f.nib) fun ty =>
        .ok (.qrow f.h f.d f.a f.b (QFmt.ofCode (f.c.extractLsb' 0 2)) (f.c.extractLsb' 2 2) ty))
  | _ => .error .unassigned

/-- Class 010, lane and group (R279). -/
def decLane (f : Fields) : Dec :=
  match f.op.toNat with
  | 0x100 =>
    rz (f.c.extractLsb' 5 7 == 0)
      (.ok (.shfl f.h f.d f.a f.b (ShflMode.ofCode (f.c.extractLsb' 0 2)) (f.c.extractLsb' 2 3)))
  | 0x101 =>
    rz (f.b == 0)
      (.ok (.vote f.h f.d f.a (f.c.extractLsb' 0 5) (f.c.extractLsb' 5 5) (VoteMode.ofCode (f.c.extractLsb' 10 2))))
  | 0x102 => rz (f.b == 0 && f.c8 == 0 && f.c.extractLsb' 9 3 == 0) (.ok (.matchL f.h f.d f.a (f.c.getLsbD 8)))
  | 0x103 =>
    rz (f.b == 0 && f.c.extractLsb' 3 5 == 0)
      (code (RedOp.ofCode (f.c.extractLsb' 0 3)) fun o => code (Ty.ofCode f.nib) fun ty => .ok (.red f.h f.d f.a o ty))
  | 0x104 =>
    rz (f.b == 0 && f.c.extractLsb' 4 4 == 0)
      (code (RedOp.ofCode (f.c.extractLsb' 0 3)) fun o => code (Ty.ofCode f.nib) fun ty =>
        .ok (.scan f.h f.d f.a o (f.c.getLsbD 3) ty))
  | 0x105 =>
    rz (f.c.extractLsb' 4 4 == 0)
      (if f.nib == 2 then .ok (.tkins f.h f.d f.a f.b (f.c.extractLsb' 0 4)) else .error .badCode)
  | 0x106 =>
    rz (f.a.extractLsb' 2 5 == 0) (.ok (.mfld f.h f.d f.b f.c (f.a.extractLsb' 0 2) (f.a.getLsbD 7)))
  | _ => .error .unassigned

/-- The scope and order bits of layout M when only ORD may order (R269). -/
def ordOf (f : Fields) : Option (Option (BitVec 3)) :=
  if f.a.getLsbD 3 then some (some (f.a.extractLsb' 4 3))
  else if f.a.extractLsb' 4 3 == 0 then some none else none

/-- A layout M word with A<7:3> = 0. -/
def decMplain (f : Fields) (k : Hdr → BitVec 8 → BitVec 3 → BitVec 8 → BitVec 12 → Instr) : Dec :=
  rz (f.a.extractLsb' 3 5 == 0) (.ok (k f.h f.d (f.a.extractLsb' 0 3) f.b f.c))

/-- EVSIG and EVWAIT in a lane (R324). -/
def decEv (f : Fields) (k : Hdr → BitVec 8 → BitVec 3 → BitVec 3 → BitVec 8 → BitVec 12 → Instr) : Dec :=
  rz (f.a.getLsbD 3 && !f.a.getLsbD 7) (.ok (k f.h f.d (f.a.extractLsb' 0 3) (f.a.extractLsb' 4 3) f.b f.c))

/-- A barrier number in D with B and A as registers. -/
def decBar (f : Fields) (k : Hdr → BitVec 4 → BitVec 8 → BitVec 8 → Instr) : Dec :=
  rz (f.c == 0 && f.d.extractLsb' 4 4 == 0) (.ok (k f.h (f.d.extractLsb' 0 4) f.a f.b))

/-- Class 011, control and synchronisation (R279). -/
def decControl (front : Bool) (f : Fields) (w2 : DWord) : Dec :=
  match f.op.toNat with
  | 0x180 => rz (f.z0 && w2.extractLsb' 32 32 == 0) (.ok (.bra f.h (w2.extractLsb' 0 32)))
  | 0x181 => rz (f.d == 0 && f.b == 0 && f.c == 0) (.ok (.brx f.h f.a))
  | 0x182 =>
    rz (f.a == 0 && f.b == 0 && f.c == 0 && w2.extractLsb' 32 32 == 0) (.ok (.call f.h f.d (w2.extractLsb' 0 32)))
  | 0x183 => rz (f.d == 0 && f.b == 0 && f.c == 0) (.ok (.ret f.h f.a))
  | 0x184 =>
    rz (f.d == 0 && f.b == 0 && f.c.extractLsb' 1 11 == 0)
      (if f.c.getLsbD 0 then .ok (.join f.h (some f.a)) else rz (f.a == 0) (.ok (.join f.h none)))
  | 0x185 => rz f.z0 (.ok (.exit f.h))
  | 0x186 => rz f.z0 (.ok (.nop f.h))
  | 0x187 =>
    rz (!f.h.e && f.h.h == 0 && !f.h.ge && f.h.gr == 0 && f.h.gb == 0 && !f.h.gn && f.d.extractLsb' 4 4 == 0 &&
        f.a.extractLsb' 4 4 == 0 && f.b.extractLsb' 4 4 == 0 && f.c.extractLsb' 6 2 == 0)
      (.ok (.rep (f.c.extractLsb' 0 6) (f.d.extractLsb' 0 4) (f.a.extractLsb' 0 4) (f.b.extractLsb' 0 4)
        (f.c.extractLsb' 8 4)))
  | 0x188 =>
    rz (f.d.extractLsb' 6 2 == 0 && f.a.extractLsb' 6 2 == 0 && f.b.extractLsb' 6 2 == 0 && f.c.extractLsb' 4 8 == 0)
      (.ok (.wait f.h (f.d.extractLsb' 0 6) (f.a.extractLsb' 0 6) (f.b.extractLsb' 0 6) (f.c.extractLsb' 0 4)))
  | 0x189 => rz (f.d == 0 && f.a == 0 && f.b == 0) (.ok (.trap f.h f.c))
  | 0x18A => rz f.z0 (.ok (.tret f.h))
  | 0x18C =>
    rz (f.d == 0 && f.a == 0 && f.b == 0 && f.c.extractLsb' 3 9 == 0) (.ok (.fence f.h (f.c.extractLsb' 0 3)))
  | 0x18D => rz f.z0 (.ok (.lfence f.h))
  | 0x190 => decBar f .binit
  | 0x191 => rz (f.a == 0 && f.b == 0) (decBar f fun h n _ _ => .barv h n)
  | 0x192 => rz (f.a == 0 && f.b == 0) (decBar f fun h n _ _ => .bwait h n)
  | 0x193 => decBar f .bxpc
  | 0x194 =>
    rz (f.a == 0 && f.b == 0 && f.c.extractLsb' 5 7 == 0)
      (.ok (.bqry f.h f.d (f.c.extractLsb' 0 4) (f.c.getLsbD 4)))
  | 0x195 => rz f.z0 (.ok (.clbar f.h))
  | 0x196 =>
    if front then rz (f.b == 0 && f.c == 0) (.ok (.evsigFront f.h f.d f.a)) else decEv f .evsig
  | 0x197 =>
    if front then rz (f.b == 0 && f.c == 0) (.ok (.evwaitFront f.h f.d f.a)) else decEv f .evwait
  | _ => .error .unassigned

/-- The width of OP<1:0>. -/
def Fields.w (f : Fields) : Width := Width.ofCode (f.op.extractLsb' 0 2)

/-- LD (R343). -/
def decLd (f : Fields) : Dec :=
  match ordOf f with
  | some o => .ok (.ld f.h f.w (f.a.getLsbD 7) o f.d (f.a.extractLsb' 0 3) f.b f.c)
  | none => .error .reservedField

/-- ST (R390). -/
def decSt (f : Fields) : Dec :=
  match ordOf f with
  | some o => rz (!f.a.getLsbD 7) (.ok (.st f.h f.w o f.d (f.a.extractLsb' 0 3) f.b f.c))
  | none => .error .reservedField

/-- Layout P words: A<6:2> = 0 (R269). -/
def pz (f : Fields) : Bool := f.a.extractLsb' 2 5 == 0

/-- The space tag of layout P. -/
def Fields.tag (f : Fields) : BitVec 2 := f.a.extractLsb' 0 2

/-- LDP (R345). -/
def decLdp (f : Fields) : Dec :=
  rz (pz f) (if f.tag == 3 then .ok (.ldp f.h f.w (f.a.getLsbD 7) f.d f.b f.c) else .error .badCode)

/-- STP (R392). -/
def decStp (f : Fields) : Dec :=
  rz (pz f && !f.a.getLsbD 7) (if f.tag == 3 then .ok (.stp f.h f.w f.d f.b f.c) else .error .badCode)

/-- LDS (R346). -/
def decLds (f : Fields) : Dec := rz (pz f) (.ok (.lds f.h f.w (f.a.getLsbD 7) f.tag f.d f.b f.c))

/-- STS (R393). -/
def decSts (f : Fields) : Dec := rz (pz f && !f.a.getLsbD 7) (.ok (.sts f.h f.w f.tag f.d f.b f.c))

/-- XST (R405). -/
def decXst (f : Fields) : Dec :=
  rz (pz f && !f.a.getLsbD 7) (if f.tag == 1 then .ok (.xst f.h f.w f.d f.b f.c) else .error .badCode)

/-- ATOM (R288). -/
def decAtom (f : Fields) (w64 : Bool) : Dec :=
  .ok (.atom f.h w64 (f.a.getLsbD 3) (f.a.getLsbD 7) (f.a.extractLsb' 4 3) f.d (f.a.extractLsb' 0 3) f.b f.c)

/-- Class 100, memory and copies (R279). -/
def decMem (f : Fields) : Dec :=
  match f.op.toNat with
  | 0x200 => decLd f
  | 0x201 => decLd f
  | 0x202 => decLd f
  | 0x203 => decLd f
  | 0x204 => decSt f
  | 0x205 => decSt f
  | 0x206 => decSt f
  | 0x207 => decSt f
  | 0x208 => decLdp f
  | 0x209 => decLdp f
  | 0x20A => decLdp f
  | 0x20B => decLdp f
  | 0x20C => decStp f
  | 0x20D => decStp f
  | 0x20E => decStp f
  | 0x20F => decStp f
  | 0x210 => decLds f
  | 0x211 => decLds f
  | 0x212 => decLds f
  | 0x213 => decLds f
  | 0x214 => decSts f
  | 0x215 => decSts f
  | 0x216 => decSts f
  | 0x217 => decSts f
  | 0x218 => decXst f
  | 0x219 => decXst f
  | 0x21A => decXst f
  | 0x21B => decXst f
  | 0x21C => decAtom f false
  | 0x21D => decAtom f true
  | 0x220 => decMplain f .cctl
  | 0x221 => decMplain f .prsq
  | 0x230 =>
    code (curF f.a) fun ca => .ok (.rgnset f.h (f.d.extractLsb' 0 5) (f.d.extractLsb' 5 3) ca f.b f.c)
  | 0x231 =>
    rz (f.a == 0 && f.b == 0 && f.c.extractLsb' 1 11 == 0)
      (code (f5 f.d) fun w => .ok (.rgnclr f.h w (f.c.getLsbD 0)))
  | 0x232 => rz (f.a == 0 && f.b == 0 && f.c == 0) (code (f5 f.d) fun w => .ok (.touch f.h w))
  | _ => .error .unassigned

/-- Class 101, cursors (R302). -/
def decCursor (f : Fields) : Dec :=
  match f.op.toNat with
  | 0x280 =>
    rz (f.b == 0 && f.c.extractLsb' 1 11 == 0) (code (curF f.d) fun cd => .ok (.cmk f.h (f.c.getLsbD 0) cd f.a))
  | 0x281 =>
    rz (f.b == 0 && f.c.extractLsb' 1 11 == 0)
      (code (curF f.d) fun cd => code (curF f.a) fun ca => .ok (.cdesc f.h (f.c.getLsbD 0) cd ca))
  | 0x282 =>
    rz (f.nib == 0) (code (curF f.d) fun cd => code (curF f.a) fun ca => .ok (.cnrw f.h cd ca f.b f.c8))
  | 0x283 => rz (f.b == 0 && f.c == 0) (code (curF f.a) fun ca => .ok (.cnext f.h f.d ca))
  | 0x284 => rz (f.c == 0) (code (curF f.a) fun ca => .ok (.cseek f.h f.d ca f.b))
  | 0x285 =>
    rz (f.b == 0 && f.c.extractLsb' 9 3 == 0)
      (code (curF f.a) fun ca => code (CField.ofCode (f.c.extractLsb' 0 4)) fun fl =>
        .ok (.cget f.h f.d ca fl (f.c.extractLsb' 4 5)))
  | 0x286 =>
    rz (f.c.extractLsb' 1 11 == 0)
      (code (curF f.a) fun ca => code (curF f.b) fun cb => .ok (.ccoit f.h (f.c.getLsbD 0) f.d ca cb))
  | 0x287 => rz (f.c == 0) (code (curF f.a) fun ca => .ok (.capp f.h f.d ca f.b))
  | 0x288 => rz (f.d == 0 && f.b == 0 && f.c == 0) (code (curF f.a) fun ca => .ok (.cfin f.h ca))
  | _ => .error .unassigned

/-- Class 110, matrix (R187, R315). -/
def decMatrix (f : Fields) : Dec :=
  match f.op.toNat with
  | 0x300 =>
    rz (f.d == 0 && f.c.extractLsb' 1 11 == 0)
      (if f.c.getLsbD 0 then rz (f.a == 0 && f.b == 0) (.ok (.crewEnd f.h)) else .ok (.crew f.h f.a f.b))
  | 0x301 => rz (f.c == 0) (code (curF f.d) fun o => .ok (.obres f.h o f.a f.b))
  | 0x302 => rz (f.a == 0 && f.b == 0 && f.c == 0) (code (curF f.d) fun o => .ok (.obrel f.h o))
  | 0x303 => rz (f.d == 0 && f.c == 0) (.ok (.ufcfg f.h f.a f.b))
  | 0x310 =>
    rz (f.nib == 0)
      (code (f4 f.d) fun m => code (curF f.a) fun oa => code (curF f.b) fun ob => .ok (.mma f.h m oa ob f.c8))
  | 0x311 =>
    rz (f.c == 0) (code (f4 f.d) fun d => code (f4 f.a) fun a => code (f4 f.b) fun b => .ok (.mmal f.h d a b))
  | 0x312 =>
    rz (f.c == 0) (code (f4 f.d) fun d => code (f4 f.a) fun a => code (f4 f.b) fun b => .ok (.madd f.h d a b))
  | 0x313 => rz (f.c == 0) (code (f4 f.d) fun d => code (f4 f.a) fun a => .ok (.mscl f.h d a f.b))
  | 0x314 => rz (f.b == 0 && f.c == 0) (code (f4 f.d) fun d => code (f4 f.a) fun a => .ok (.mdense f.h d a))
  | 0x315 => rz (f.c == 0) (code (f4 f.d) fun d => code (f4 f.a) fun a => .ok (.mrcmp f.h d a f.b))
  | 0x316 => rz (f.a == 0 && f.b == 0 && f.c == 0) (code (f4 f.d) fun d => .ok (.mzero f.h d))
  | 0x317 => rz (f.b == 0 && f.c == 0) (code (f4 f.a) fun a => .ok (.mrank f.h f.d a))
  | 0x318 => code (f4 f.d) fun d => code (curF f.a) fun ca => .ok (.mld f.h d ca f.b f.c)
  | 0x319 => code (f4 f.d) fun d => code (curF f.a) fun ca => .ok (.mst f.h d ca f.b f.c)
  | _ => .error .unassigned

/-- Class 111, named data, tasks and system (R204, R279). -/
def decSystem (front : Bool) (f : Fields) (w2 : DWord) : Dec :=
  match f.op.toNat with
  | 0x380 =>
    rz (f.c.extractLsb' 5 7 == 0)
      (if f.c.getLsbD 4 then rz (f.d == 0 && f.c.extractLsb' 0 4 == 0) (.ok (.nsubWarm f.h f.a f.b))
       else code (f5 f.d) fun w => .ok (.nsub f.h w f.a f.b (f.c.extractLsb' 0 4)))
  | 0x381 =>
    rz (f.c.extractLsb' 4 8 == 0 && w2.extractLsb' 5 3 == 0 && w2.extractLsb' 13 51 == 0)
      (code (f5 f.d) fun w =>
        .ok (.nsubSpec f.h w f.a f.b (f.c.extractLsb' 0 4) (w2.extractLsb' 0 5) (w2.extractLsb' 8 5)))
  | 0x382 =>
    rz (f.b == 0 && f.c.extractLsb' 1 11 == 0) (code (f5 f.d) fun w => .ok (.npub f.h (f.c.getLsbD 0) w f.a))
  | 0x383 => rz (f.b == 0 && f.c.extractLsb' 5 7 == 0) (.ok (.ncan f.h f.d f.a (f.c.extractLsb' 0 5)))
  | 0x384 => rz (f.a == 0 && f.b == 0 && f.c.extractLsb' 5 7 == 0) (.ok (.nstat f.h f.d (f.c.extractLsb' 0 5)))
  | 0x385 => rz (f.d == 0 && f.c == 0) (.ok (.ntol f.h f.a f.b))
  | 0x386 => rz (f.d == 0 && f.c == 0) (.ok (.nrtw f.h f.a f.b))
  | 0x387 => rz (f.a == 0 && f.b == 0 && f.c == 0) (.ok (.spec f.h f.d))
  | 0x3C0 => rz (f.d == 0 && f.c == 0) (.ok (.dqpush f.h f.a f.b))
  | 0x3C1 => rz (f.a == 0 && f.c.extractLsb' 5 7 == 0) (.ok (.dqpop f.h f.d f.b (f.c.extractLsb' 0 5)))
  | 0x3C2 =>
    if front then rz (f.b == 0 && f.c == 0) (.ok (.launchFront f.h f.d f.a)) else decMplain f .launch
  | 0x3D0 => rz (f.a == 0 && f.b == 0) (code (Sel.ofCode f.c) fun s => .ok (.sreg f.h f.d s))
  | 0x3D1 => rz (f.a == 0 && f.b == 0) (.ok (.csrr f.h f.d f.c))
  | 0x3D2 => rz (f.d == 0 && f.b == 0) (.ok (.csrw f.h f.a f.c))
  | 0x3E0 => rz f.z0 (.ok (.xacq f.h))
  | 0x3E1 => rz f.z0 (.ok (.xrel f.h))
  | 0x3E8 => rz (f.d == 0 && f.c == 0) (.ok (.tlbinv f.h f.a f.b))
  | _ => .error .unassigned

/-- The fields read by class (R278), before the entry's own field rules. -/
def decFields (front : Bool) (f : Fields) (w2 : DWord) : Dec :=
  match (f.op.extractLsb' 7 3).toNat with
  | 0 => decInt f w2
  | 1 => decFloat f
  | 2 => decLane f
  | 3 => decControl front f w2
  | 4 => decMem f
  | 5 => decCursor f
  | 6 => decMatrix f
  | _ => decSystem front f w2

/-- The field rules of R273 that depend on the word and the issuer's class alone. -/
def decChecked (front : Bool) (f : Fields) (w2 : DWord) : Dec :=
  match decFields front f w2 with
  | .ok i => if i.wf front then .ok i else .error .notWellFormed
  | .error e => .error e

/-- Opcodes with a second word (R271). -/
def twoWords (op : BitVec 10) : Bool := op == 0x01E || op == 0x180 || op == 0x182 || op == 0x381

/-- The decoder on a first word and the word behind it; the second is ignored where the opcode takes none. -/
def decodeWords (front : Bool) (w w2 : DWord) : Dec :=
  decChecked front (Fields.ofWord w) w2

/-- Eight bytes as a little-endian word (R4). -/
def wordOfBytes (l : List Byte) : DWord :=
  l.foldr (fun b acc => (acc <<< 8) ||| b.zeroExtend 64) 0

/-- A word's eight bytes, the lowest address first (R4). -/
def bytesOfWord (w : DWord) : List Byte := (List.range 8).map fun i => w.extractLsb' (8 * i) 8

/-- The decoder on bytes: the instruction and the bytes behind it. -/
def decodeBytes (front : Bool) (l : List Byte) : Except DecodeErr (Instr × List Byte) :=
  if l.length < 8 then .error .tooShort
  else
    let w := wordOfBytes (l.take 8)
    let two := twoWords (Fields.ofWord w).op
    if two && l.length < 16 then .error .tooShort
    else
      match decodeWords front w (if two then wordOfBytes ((l.drop 8).take 8) else 0) with
      | .ok i => .ok (i, l.drop (if two then 16 else 8))
      | .error e => .error e

/-- The host's question: the instruction in the low bits of `w`, first word lowest, decoded as a lane's, else as the
front thread's. -/
def decodeTableWord (_nbits w : Nat) : Option Instr :=
  let l := bytesOfWord (BitVec.ofNat 64 w) ++ bytesOfWord (BitVec.ofNat 64 (w / 2 ^ 64))
  match decodeBytes false l with
  | .ok (i, _) => some i
  | .error _ =>
    match decodeBytes true l with
    | .ok (i, _) => some i
    | .error _ => none

/-! ### Encoding -/

/-- One-word encodings are built from their fields; the second word is 0 where there is none. -/
abbrev Enc := Fields × DWord

/-- Layout T and K words. -/
def enc (h : Hdr) (op : BitVec 10) (d a b : BitVec 8) (c : BitVec 12) : Enc := ({ h, op, d, a, b, c }, 0)

/-- C of layout T: nibble and low byte. -/
def cc (nib : BitVec 4) (lo : BitVec 8) : BitVec 12 := nib ++ lo

/-- A 3-bit number in an 8-bit field. -/
def x3 (x : BitVec 3) : BitVec 8 := (0 : BitVec 5) ++ x

/-- A 4-bit number in an 8-bit field. -/
def x4 (x : BitVec 4) : BitVec 8 := (0 : BitVec 4) ++ x

/-- A 5-bit number in an 8-bit field. -/
def x5 (x : BitVec 5) : BitVec 8 := (0 : BitVec 3) ++ x

/-- One bit above an 8-bit field. -/
def c9 (b : Bool) (lo : BitVec 8) : BitVec 12 := (0 : BitVec 3) ++ (BitVec.ofBool b ++ lo)

/-- One bit at the bottom of C. -/
def c1 (b : Bool) : BitVec 12 := (0 : BitVec 11) ++ BitVec.ofBool b

/-- A of layout M: SX or REL, scope, ORD, cursor. -/
def amf (hi : Bool) (sc : BitVec 3) (ord : Bool) (cur : BitVec 3) : BitVec 8 :=
  BitVec.ofBool hi ++ (sc ++ (BitVec.ofBool ord ++ cur))

/-- The scope and order bits of an optional scope. -/
def amo (hi : Bool) (o : Option (BitVec 3)) (cur : BitVec 3) : BitVec 8 :=
  match o with
  | some s => amf hi s true cur
  | none => amf hi 0 false cur

/-- A of layout P: SX, zeros, tag. -/
def apf (hi : Bool) (tag : BitVec 2) : BitVec 8 := BitVec.ofBool hi ++ ((0 : BitVec 5) ++ tag)

/-- An opcode with a width code in OP<1:0>. -/
def opw (base : BitVec 8) (w : Width) : BitVec 10 := base ++ w.code

/-- The fields and the second word of each instruction, written from the same encoding tables; a device step has none. -/
def encodeFields : Instr → Option Enc
  | .and h d a b n => enc h 0x001 d a b (c9 n 0)
  | .andImm h d a imm n => enc h 0x041 d a ((0 : BitVec 7) ++ BitVec.ofBool n) imm
  | .or h d a b => enc h 0x002 d a b 0
  | .orImm h d a imm => enc h 0x042 d a 0 imm
  | .xor h d a b => enc h 0x003 d a b 0
  | .xorImm h d a imm => enc h 0x043 d a 0 imm
  | .iadd h d a b ty => enc h 0x004 d a b (cc ty.code 0)
  | .iaddImm h d a imm ty => enc h 0x044 d a (x4 ty.code) imm
  | .isub h d a b ty => enc h 0x005 d a b (cc ty.code 0)
  | .isubImm h d a imm ty => enc h 0x045 d a (x4 ty.code) imm
  | .imul h d a b ty => enc h 0x006 d a b (cc ty.code 0)
  | .imulImm h d a imm ty => enc h 0x046 d a (x4 ty.code) imm
  | .imulh h d a b ty => enc h 0x007 d a b (cc ty.code 0)
  | .imad h d a b c ty => enc h 0x008 d a b (cc ty.code c)
  | .idiv h d a b ty => enc h 0x009 d a b (cc ty.code 0)
  | .irem h d a b ty => enc h 0x00A d a b (cc ty.code 0)
  | .imin h d a b ty => enc h 0x00B d a b (cc ty.code 0)
  | .iminImm h d a imm ty => enc h 0x04B d a (x4 ty.code) imm
  | .imax h d a b ty => enc h 0x00C d a b (cc ty.code 0)
  | .imaxImm h d a imm ty => enc h 0x04C d a (x4 ty.code) imm
  | .iabs h d a => enc h 0x00D d a 0 0
  | .iset h d a b k cond ty => enc h 0x00E d a b (cc ty.code (cond.code ++ k))
  | .sel h d a b c => enc h 0x00F d a b (cc 0 c)
  | .shl h d a b => enc h 0x010 d a b 0
  | .shlImm h d a imm => enc h 0x050 d a 0 imm
  | .shr h d a b => enc h 0x011 d a b 0
  | .shrImm h d a imm => enc h 0x051 d a 0 imm
  | .sha h d a b => enc h 0x012 d a b 0
  | .shaImm h d a imm => enc h 0x052 d a 0 imm
  | .rot h d a b => enc h 0x013 d a b 0
  | .rotImm h d a imm => enc h 0x053 d a 0 imm
  | .bfx h d a b ty => enc h 0x014 d a b (cc ty.code 0)
  | .bfi h d a b c => enc h 0x015 d a b (cc 0 c)
  | .brev h d a => enc h 0x016 d a 0 0
  | .clz h d a => enc h 0x017 d a 0 0
  | .ctz h d a => enc h 0x018 d a 0 0
  | .popc h d a => enc h 0x019 d a 0 0
  | .icvt h d a ext => enc h 0x01A d a 0 (c9 ext 0)
  | .zord h d a b c => enc h 0x01B d a b (cc 0 c)
  | .mov h d a p => enc h 0x01C d a 0 (c9 p 0)
  | .movImm h d imm => enc h 0x05C d 0 0 imm
  | .movi h d imm => some ({ h, op := 0x01E, d, a := 0, b := 0, c := 0 }, (0 : BitVec 32) ++ imm)
  | .movx h dir r a n => if dir then enc h 0x01D 0 a n (c9 true r) else enc h 0x01D r a n (c9 false 0)
  | .fadd h d a b ty => enc h 0x080 d a b (cc ty.code 0)
  | .fsub h d a b ty => enc h 0x081 d a b (cc ty.code 0)
  | .fmul h d a b ty => enc h 0x082 d a b (cc ty.code 0)
  | .ffma h d a b c ty => enc h 0x083 d a b (cc ty.code c)
  | .fdiv h d a b => enc h 0x084 d a b (cc 2 0)
  | .fmin h d a b ty => enc h 0x085 d a b (cc ty.code 0)
  | .fmax h d a b ty => enc h 0x086 d a b (cc ty.code 0)
  | .fset h d a b k cond ty => enc h 0x087 d a b (cc ty.code (cond.code ++ k))
  | .fclass h d a ty => enc h 0x088 d a 0 (cc ty.code 0)
  | .fcvt h d a td ts => enc h 0x089 d a 0 (cc td.code (x4 ts.code))
  | .fsf h d a fn => enc h 0x08A d a 0 (cc 2 (x3 fn.code))
  | .qrow h d a b q blk ty => enc h 0x08B d a b (cc ty.code ((0 : BitVec 4) ++ (blk ++ q.code)))
  | .shfl h d a b mode w => enc h 0x100 d a b ((0 : BitVec 7) ++ (w ++ mode.code))
  | .vote h d a k j mode => enc h 0x101 d a 0 (mode.code ++ (j ++ k))
  | .matchL h d a w64 => enc h 0x102 d a 0 (c9 w64 0)
  | .red h d a op ty => enc h 0x103 d a 0 (cc ty.code (x3 op.code))
  | .scan h d a op excl ty => enc h 0x104 d a 0 (cc ty.code ((0 : BitVec 4) ++ (BitVec.ofBool excl ++ op.code)))
  | .tkins h d a b n => enc h 0x105 d a b (cc 2 (x4 n))
  | .mfld h d b imm tag w16 => enc h 0x106 d (apf w16 tag) b imm
  | .bra h off => some ({ h, op := 0x180, d := 0, a := 0, b := 0, c := 0 }, (0 : BitVec 32) ++ off)
  | .brx h a => enc h 0x181 0 a 0 0
  | .call h d off => some ({ h, op := 0x182, d, a := 0, b := 0, c := 0 }, (0 : BitVec 32) ++ off)
  | .ret h a => enc h 0x183 0 a 0 0
  | .join h mask =>
    match mask with
    | some a => enc h 0x184 0 a 0 (c1 true)
    | none => enc h 0x184 0 0 0 0
  | .exit h => enc h 0x185 0 0 0 0
  | .nop h => enc h 0x186 0 0 0 0
  | .rep n sd sa sb sc =>
    enc ⟨false, 0, false, 0, 0, false⟩ 0x187 (x4 sd) (x4 sa) (x4 sb) (sc ++ ((0 : BitVec 2) ++ n))
  | .wait h l s c t =>
    enc h 0x188 ((0 : BitVec 2) ++ l) ((0 : BitVec 2) ++ s) ((0 : BitVec 2) ++ c) ((0 : BitVec 8) ++ t)
  | .trap h c => enc h 0x189 0 0 0 c
  | .tret h => enc h 0x18A 0 0 0 0
  | .fence h sc => enc h 0x18C 0 0 0 ((0 : BitVec 9) ++ sc)
  | .lfence h => enc h 0x18D 0 0 0 0
  | .binit h n a b => enc h 0x190 (x4 n) a b 0
  | .barv h n => enc h 0x191 (x4 n) 0 0 0
  | .bwait h n => enc h 0x192 (x4 n) 0 0 0
  | .bxpc h n a b => enc h 0x193 (x4 n) a b 0
  | .bqry h d n w => enc h 0x194 d 0 0 ((0 : BitVec 7) ++ (BitVec.ofBool w ++ n))
  | .clbar h => enc h 0x195 0 0 0 0
  | .evsig h d cur sc b imm => enc h 0x196 d (amf false sc true cur) b imm
  | .evsigFront h d a => enc h 0x196 d a 0 0
  | .evwait h d cur sc b imm => enc h 0x197 d (amf false sc true cur) b imm
  | .evwaitFront h d a => enc h 0x197 d a 0 0
  | .ld h w sx ord d cur b imm => enc h (opw 0x80 w) d (amo sx ord cur) b imm
  | .st h w ord d cur b imm => enc h (opw 0x81 w) d (amo false ord cur) b imm
  | .ldp h w sx d b imm => enc h (opw 0x82 w) d (apf sx 3) b imm
  | .stp h w d b imm => enc h (opw 0x83 w) d (apf false 3) b imm
  | .lds h w sx tag d b imm => enc h (opw 0x84 w) d (apf sx tag) b imm
  | .sts h w tag d b imm => enc h (opw 0x85 w) d (apf false tag) b imm
  | .xst h w d b imm => enc h (opw 0x86 w) d (apf false 1) b imm
  | .atom h w64 acq rel sc d cur b imm => enc h (if w64 then 0x21D else 0x21C) d (amf rel sc acq cur) b imm
  | .cctl h d cur b imm => enc h 0x220 d (x3 cur) b imm
  | .prsq h d cur b imm => enc h 0x221 d (x3 cur) b imm
  | .rgnset h w cd ca b imm => enc h 0x230 (cd ++ w) (x3 ca) b imm
  | .rgnclr h w u => enc h 0x231 (x5 w) 0 0 (c1 u)
  | .touch h w => enc h 0x232 (x5 w) 0 0 0
  | .cmk h app cd a => enc h 0x280 (x3 cd) a 0 (c1 app)
  | .cdesc h app cd ca => enc h 0x281 (x3 cd) (x3 ca) 0 (c1 app)
  | .cnrw h cd ca b c => enc h 0x282 (x3 cd) (x3 ca) b (cc 0 c)
  | .cnext h d ca => enc h 0x283 d (x3 ca) 0 0
  | .cseek h d ca b => enc h 0x284 d (x3 ca) b 0
  | .cget h d ca f k => enc h 0x285 d (x3 ca) 0 ((0 : BitVec 3) ++ (k ++ f.code))
  | .ccoit h union d ca cb => enc h 0x286 d (x3 ca) (x3 cb) (c1 union)
  | .capp h d ca b => enc h 0x287 d (x3 ca) b 0
  | .cfin h ca => enc h 0x288 0 (x3 ca) 0 0
  | .crew h a b => enc h 0x300 0 a b 0
  | .crewEnd h => enc h 0x300 0 0 0 (c1 true)
  | .obres h o a b => enc h 0x301 (x3 o) a b 0
  | .obrel h o => enc h 0x302 (x3 o) 0 0 0
  | .ufcfg h a b => enc h 0x303 0 a b 0
  | .mma h m oa ob c => enc h 0x310 (x4 m) (x3 oa) (x3 ob) (cc 0 c)
  | .mmal h d a b => enc h 0x311 (x4 d) (x4 a) (x4 b) 0
  | .madd h d a b => enc h 0x312 (x4 d) (x4 a) (x4 b) 0
  | .mscl h d a b => enc h 0x313 (x4 d) (x4 a) b 0
  | .mdense h d a => enc h 0x314 (x4 d) (x4 a) 0 0
  | .mrcmp h d a b => enc h 0x315 (x4 d) (x4 a) b 0
  | .mzero h d => enc h 0x316 (x4 d) 0 0 0
  | .mrank h d a => enc h 0x317 d (x4 a) 0 0
  | .mld h d cur b imm => enc h 0x318 (x4 d) (x3 cur) b imm
  | .mst h d cur b imm => enc h 0x319 (x4 d) (x3 cur) b imm
  | .nsub h w a b n => enc h 0x380 (x5 w) a b ((0 : BitVec 8) ++ n)
  | .nsubWarm h a b => enc h 0x380 0 a b 0x010
  | .nsubSpec h w a b n h1 h2 =>
    some ({ h, op := 0x381, d := x5 w, a, b, c := (0 : BitVec 8) ++ n },
      (0 : BitVec 51) ++ (h2 ++ ((0 : BitVec 3) ++ h1)))
  | .npub h f w a => enc h 0x382 (x5 w) a 0 (c1 f)
  | .ncan h d a w => enc h 0x383 d a 0 ((0 : BitVec 7) ++ w)
  | .nstat h d w => enc h 0x384 d 0 0 ((0 : BitVec 7) ++ w)
  | .ntol h a b => enc h 0x385 0 a b 0
  | .nrtw h a b => enc h 0x386 0 a b 0
  | .spec h d => enc h 0x387 d 0 0 0
  | .dqpush h a b => enc h 0x3C0 0 a b 0
  | .dqpop h d b k => enc h 0x3C1 d 0 b ((0 : BitVec 7) ++ k)
  | .launch h d cur b imm => enc h 0x3C2 d (x3 cur) b imm
  | .launchFront h d a => enc h 0x3C2 d a 0 0
  | .sreg h d s => enc h 0x3D0 d 0 0 s.code
  | .csrr h d csr => enc h 0x3D1 d 0 0 csr
  | .csrw h a csr => enc h 0x3D2 0 a 0 csr
  | .xacq h => enc h 0x3E0 0 0 0 0
  | .xrel h => enc h 0x3E1 0 0 0 0
  | .tlbinv h a b => enc h 0x3E8 0 a b 0
  | _ => none

/-- The words of an instruction, the first one first; none for a device step. -/
def encode (i : Instr) : List DWord :=
  match encodeFields i with
  | some (f, w2) => if twoWords f.op then [f.toWord, w2] else [f.toWord]
  | none => []

/-- The bytes of an instruction in memory (R4). -/
def encodeBytes (i : Instr) : List Byte := (encode i).flatMap bytesOfWord

end Sys2Proof
end

