-- ==== Sys2Proof/Config.lean ====
section
/-! DEFINITION. Config.lean: the constants of the part and the free values, which nothing in Lean can evaluate. -/
namespace Sys2Proof

/-- The registers of a Chrysalis core, an RV64IMAFDCV processor with VLEN = 512 in user mode (R136): integer, floating-point and
vector registers, the program counter, the CSRs, and the reservation of its load-reserved. -/
structure Rv where
  x    : Vector (BitVec 64) 32
  f    : Vector (BitVec 64) 32
  v    : Vector (BitVec 512) 32
  pc   : Nat
  csr  : List (Nat × BitVec 64)
  resv : Option Nat
  deriving DecidableEq, Repr, Inhabited

/-- An access of a Chrysalis core to its memory: address, bytes and, for a store, the value. -/
structure RvAcc where
  addr  : Nat
  width : Nat
  val   : Nat
  deriving DecidableEq, Repr, Inhabited

namespace Config

/-- Cores of the package (R9, R11). -/
def cores : Nat := 256

/-- Bytes of DRAM (R15). -/
def dramTop : Nat := 0x0048_0000_0000

/-- Base of the Beylas link window (R15). -/
def linkBase : Nat := 0x8000_0000_0000

/-- Base of the host window (R15). -/
def hostBase : Nat := 0xC000_0000_0000

/-- End of the host window (R15). -/
def hostTop : Nat := 0xD000_0000_0000

/-- Base of device control space (R15). -/
def devBase : Nat := 0xF000_0000_0000

/-- End of device control space (R15). -/
def devTop : Nat := 0xF001_0000_0000

/-- FEATCAP (R246). -/
def featcap : Nat := 0x1FF

/-- The opaque values the model's own free-value counter picks (log entry 6): words a squash leaves unspecified. -/
opaque freeWord : Nat → BitVec 32

/-- Y-store bytes that were a crew's matrix area, after the crew: the spec states no contents (R184, R316). -/
opaque freeByte : Nat → BitVec 8

/-- Data that a read of the host window returns: the host's memory is no part of the package (R242). -/
opaque hostRead : Nat → BitVec 64

/-- The size code that compressing a block gives (R103): the spec states no compression. -/
opaque sizeCode : Nat → Nat

/-- A coordinate or position that malformed metadata leaves open (R165). -/
opaque freeCoord : Nat → BitVec 32

/-- The RV64IMAFDCV instruction set, an external standard that the spec names and does not give (R136): what an instruction word
reads of memory in a state of the registers, none where it is illegal. -/
opaque rvReads : Rv → Nat → Option (List RvAcc)

/-- What it does with the values read: the registers after it and its stores in order. The first argument tells instructions apart
whose result the registers and memory do not fix, such as a read of a counter. -/
opaque rvExec : Nat → Rv → Nat → List Nat → Rv × List RvAcc

/-- The registers of a Chrysalis core that R136 does not set when a routine is entered, by use of the free-value counter. -/
opaque rvEntry : Nat → Rv

/-- Bytes of a Chrysalis core's stream buffers that R136 does not set, by use and address. -/
opaque rvStale : Nat → Nat → BitVec 8

/-- The stop address that ra holds when a routine is entered: the spec gives no number (R136). -/
opaque rvStop : BitVec 64

/-- Instructions that a routine executes in 65,536 core cycles, by use: the spec gives no rate (R136). -/
opaque rvSteps : Nat → Nat

/-- The LMS public key of Prisal in the encoding of RFC 8554, whose hash is fused (R263): the spec does not give it. -/
opaque prisalKey : List (BitVec 8)

/-- The bytes of code in a routine image, for which the spec states no place (R259): a function of the bytes. -/
opaque routineLen : List (BitVec 8) → Nat

/-- The code of the standard routines in bank 0 of slots 0 to 6 (R137), which the spec does not give as bytes. -/
opaque standardCode : Nat → List (BitVec 8)

/-- The version word of a firmware image (R262), whose place in the image the spec does not state. -/
opaque imageVersion : List (BitVec 8) → BitVec 64

/-- What a spill writes into its region (R255, R257), as bytes at offsets: the spec states no format. -/
opaque spillBytes : Nat → List (Nat × BitVec 8)

/-- Requests that a die's queue toward the base die holds, and requests that a region of so many units of 2 MiB takes (R257): the
spec states neither size. -/
opaque dieQueueRoom : Nat
opaque dieSpillRoom : Nat → Nat

/-- The package at the other end of a Beylas port (R251, R255), to which its credits go: the spec gives no register for it. -/
opaque linkPeer : Nat → Nat

/-- The nonce of an attestation request that comes on the sideband (R24, R262). -/
opaque sideNonce : Nat → BitVec 256

/-- The boot key's public key and the identity key's signature over it, by boot (R263, R265); and the boot key's signature of a
report, by boot, by the number of reports it has signed, and by the bytes signed (R264). The private keys are no state that the
spec gives. -/
opaque bootKey : Nat → List (BitVec 8)
opaque bootCert : Nat → List (BitVec 8)
opaque bootSign : Nat → Nat → List (BitVec 8) → List (BitVec 8)

/-- Whether the grants of the seven activities fit what every target serves in a period (R84): the spec states no capacity
of a target. -/
opaque budgetFits : List Nat → Bool

/-- DRAM contents after a package reset (R244), as bytes at addresses: the spec states none. -/
opaque resetDram : Nat → List (Nat × BitVec 8)

/-- Whether a store or atomic of a killed team that was issued and not yet performed is still performed, by the
operation's number (R237 speaks only of stores already performed). -/
opaque killKeeps : Nat → Bool

/-- Sensor values at a tick, by index (R262). -/
opaque sensor : Nat → Nat → BitVec 16

end Config
end Sys2Proof
end

