-- ==== Sys2Proof/Machine/State.lean ====
section
/-! DEFINITION. Machine/State.lean: everything the spec gives the machine, as plain data, and the machine after reset. -/
namespace Sys2Proof.Machine
open Sys2Proof

/-- Why the machine stops. -/
inductive Fault where
  /-- Raised by the meaning of an instruction that is called while no pack and no front thread issues; `step` never makes
  such a call. Safe: nothing is claimed of such a call. -/
  | noIssuer
  deriving DecidableEq, Repr

/-- Why an instruction has no meaning. -/
inductive Refusal where
  /-- Raised by an arm of `exec` whose instruction the model gives no meaning yet. Safe: nothing is claimed of it. -/
  | notModelled (mnemonic : String)
  deriving DecidableEq, Repr

/-! ### Pages -/

/-- The attributes of a page that its accesses carry (R102): ALLOC, WB, EVP and CMP. -/
structure Attr where
  alloc : Nat
  wb    : Bool
  evp   : Nat
  cmp   : Bool
  deriving DecidableEq, Repr

/-! ### Lanes -/

/-- What a parked lane waits for. -/
inductive Wait where
  /-- The page walk of a missed translation (R104). -/
  | walk (asid page kind : Nat)
  /-- The driver's answer to a translation fault (R105). -/
  | xlate (asid page kind : Nat)
  /-- The next phase of a barrier register (R299). -/
  | barrier (n : Nat)
  /-- The next read of an event word (R326, R327). -/
  | event (op : Nat)
  /-- The end of the cluster phase (R310). -/
  | clbar
  /-- Presence bits of bytes whose window RGNCLR has undeclared: a window over them again, and its bits (R383). -/
  | orphan (isX : Bool) (base len : Nat)
  /-- An extended block (R51). -/
  | xacq
  /-- The rendezvous latch of a crew (R77). -/
  | latch
  /-- The formation latch (R315). -/
  | form
  /-- The verdict of the group's task (R223). -/
  | verdict
  /-- The wait counters at or below four bounds (R402). -/
  | counters (l s c t : Nat)
  /-- A fence record's next condition (R115). -/
  | fence (id : Nat)
  /-- Operations of the group with identifiers below a bound have left (R111, R118). -/
  | laneOps (bound : Nat)
  /-- Presence bits of a store's bytes (R131). -/
  | line (x : Bool) (base len : Nat)
  /-- A window that may be set, touched, cleared or published (R130, R195, R209, R384). -/
  | window (w : Nat) (k : Nat)
  /-- An eligible entry of the decision queue, or the end of work (R39); packs are served in this order. -/
  | dqpop (order : Nat)
  /-- Room in the decision queue (R37). -/
  | dqpush
  /-- Room in the device launch queue (R45). -/
  | dlq
  /-- Room in the interest list (R209). -/
  | ilist
  /-- A cancelled entry's delivery (R212). -/
  | cancel (w : Nat)
  /-- Room for the group's buffered lines (R223). -/
  | specLines
  /-- A wait counter below its maximum (R81). -/
  | room (k : Nat)
  /-- Places in the range-lock table (R122). -/
  | locks (n : Nat)
  /-- The end of a TLB invalidation: accesses of an ASID (4096 for all) with identifiers below a bound have left (R396). -/
  | tlbinv (asid bound : Nat)
  /-- Fewer than four crews on the core (R315). -/
  | crews
  /-- The frame accesses of a trap's entry or return (R233, R238). -/
  | frame (asid page kind : Nat)
  /-- The reads that instructions of the group make at targets outside DRAM (R97, R254). -/
  | far
  /-- The home of an address, whose bucket moves or whose channel retrains (R100, R258). -/
  | home (die pa alloc : Nat)
  /-- A core cycle after this one: a target has no grant left for the core's Loopers (R83). -/
  | grant (cycle : Nat)
  /-- Room in the buffer of fault records (R250). -/
  | faultRoom
  deriving DecidableEq, Repr

/-- A lane's state (R28). -/
inductive LSt where
  | eligible
  | parked (w : Wait)
  | held
  | exited
  deriving DecidableEq, Repr

/-- A register an asynchronous writeback names (R57). -/
inductive PReg where
  | g (n : Nat)
  | bit (n k : Nat)
  | c (n : Nat)
  | s (n : Nat)
  deriving DecidableEq, Repr

/-- An asynchronous writeback that has not landed (R57, R59): its registers and values, whether its data has come, and
the counter token it completes. -/
structure Pend where
  id    : Nat
  regs  : List (PReg × Nat)
  ready : Bool
  tok   : Option Nat
  deriving DecidableEq, Repr

/-- A lane's part of a counted instruction: the token, and where the instruction stands (R81). -/
structure LaneTok where
  tok : Nat
  pc  : BitVec 56
  rep : Option Nat
  deriving DecidableEq, Repr

/-- One lane, or the front thread (R28, R47). -/
structure Lane where
  pc    : BitVec 56
  stamp : BitVec 16
  st    : LSt
  /-- Repetition index while the PC names a REP prefix (R276, R238). -/
  rep   : Option Nat
  /-- Mask of the JOIN that holds the lane (R32). -/
  jmask : BitVec 32
  /-- Wait parity of b0 to b15 (R299). -/
  wpar  : BitVec 16
  /-- g0 to g255 (R47). -/
  regs  : Tab (BitVec 32)
  /-- s0 to s63 of the front thread (R47). -/
  sregs : Tab (BitVec 64)
  /-- c0 to c7 (R166). -/
  curs  : Tab (BitVec 128)
  /-- The first run of the fibre of each cursor of a run-length level, which the Loopers remember from the CMK or CDESC that made it,
  as they read no run outside it (R165, log entry 132). -/
  runs  : Tab Nat
  pend  : List Pend
  /-- Its part of a counted instruction that it is parked at, with that instruction's PC and repetition (R81, R105). -/
  held  : Option LaneTok
  deriving DecidableEq, Repr

/-! ### Groups -/

/-- An operation of a wait counter (0 loads, 1 stores, 2 copies, 3 tiles) and what is outstanding (R81). The counter does not
count a buffered store before its task commits, since it counts as not yet issued (R121). -/
structure Tok where
  ctr  : Nat
  left : Nat
  counted : Bool
  deriving DecidableEq, Repr

/-- A fence in progress for a pack (R115): stage 0 drains, 1 waits for markers and times, 2 is complete. -/
structure FenceRec where
  id      : Nat
  /-- Lanes, PC and repetition of the pack that issued it. -/
  lanes   : List Nat
  pc      : BitVec 56
  rep     : Option Nat
  scope   : Nat
  /-- Operations with identifiers below this one are covered. -/
  cut     : Nat
  /-- Only the pack's own lanes are covered (R291). -/
  ownLanes : Bool
  stage   : Nat
  markers : List Nat
  deriving DecidableEq, Repr

/-- What trap entry wrote into one lane's frame, W0 to W3 (R231), and the mask of the JOIN that held the lane, which its
return restores (R32, R238), and the lane's part of the counted instruction at its PC (R81, R105). -/
structure Frame where
  jm : BitVec 32
  held : Option LaneTok
  w0 : BitVec 32
  w1 : BitVec 32
  w2 : BitVec 32
  w3 : BitVec 32
  deriving DecidableEq, Repr

/-- A trap that waits: for a frame write's translation (R233), or for the verdict (R239). -/
structure HeldTrap where
  /-- Faulting lanes and their causes. -/
  flt   : List (Nat × Nat)
  /-- Lanes of the pack. -/
  lanes : List Nat
  /-- The REP prefix and the trapping repetition (R233). -/
  rep   : Option (BitVec 56 × Nat)
  order : Nat
  deriving DecidableEq, Repr

/-- A buffered store of a speculative group (R121, R223). -/
structure BufSt where
  lane  : Nat
  /-- Private (R94) or global. -/
  priv  : Bool
  va    : Nat
  pa    : Nat
  width : Nat
  data  : BitVec 64
  attr  : Attr
  rel   : Option Nat
  /-- The token of its instruction, which the counter counts from the commit on (R81, R121). -/
  tok   : Option Nat
  /-- The number that the next operation had when it was translated (R396). -/
  id    : Nat := 0
  deriving DecidableEq, Repr

/-- A decision-queue entry with its push order (R37, R225). -/
structure DqEntry where
  item  : BitVec 64
  imask : BitVec 32
  omask : BitVec 32
  order : Nat
  /-- Returned by a squash (R225). -/
  sq    : Bool
  deriving DecidableEq, Repr

/-- A speculative publish of a task: its name, its tag and whether its last flit has left (R223). -/
structure SpecPub where
  t    : Nat
  i    : Nat
  n    : Nat
  stag : Nat
  deriving DecidableEq, Repr

/-- A running task (R223): its item, its level, the DQPOP that began it and what it holds. -/
structure Task where
  item   : DqEntry
  level  : Nat
  pc     : BitVec 56
  rep    : Option Nat
  /-- Lanes that had not exited when it began. -/
  lanes  : List Nat
  inputs : List Nat
  owned  : List Nat
  pubs   : List SpecPub
  buf    : List BufSt
  deriving DecidableEq, Repr

/-- ESTAT and the handler's state (R232, R236). -/
structure Estat where
  cause  : BitVec 8
  inh    : Bool
  sup    : Bool
  frames : Tab Frame
  /-- A trap whose frames are not written yet. -/
  entry  : Option HeldTrap
  deriving DecidableEq, Repr

/-- MXSTAT, MXAREA and the crew a group belongs to (R76, R185). -/
structure CrewCsr where
  mask      : BitVec 32
  no        : Nat
  valid     : Bool
  ovf       : Bool
  keptDense : Bool
  lastK     : Nat
  fellBack  : Bool
  free      : Nat
  base      : Nat
  count     : Nat
  deriving DecidableEq, Repr

/-- One group, or the front thread kept in the same form with one lane (R25, R35). -/
structure Group where
  slot     : Nat
  front    : Bool
  finished : Bool
  lanes    : List Lane
  /-- B′ (R49). -/
  bsize    : Nat
  /-- Extended block: none, or whether it came from the team reserve (R51, R52). -/
  xblk     : Option Bool
  loads    : Nat
  stores   : Nat
  copies   : Nat
  tiles    : Nat
  toks     : Tab Tok
  stklim   : BitVec 24
  fpflags  : BitVec 6
  /-- The core cycle in which flags were last raised, and those raised in it (R157). -/
  ffRaised : Nat × BitVec 6
  naninfo  : BitVec 32
  crew     : CrewCsr
  es       : Estat
  kwct     : Nat
  /-- Latest L3 write completion time of the group's forwarded bytes, returned at its next .pkg marker (R113). -/
  wct3     : Nat
  pathDie  : List Nat
  pathPkg  : List Nat
  fences   : List FenceRec
  task     : Option Task
  heldTraps : List HeldTrap
  lastSq   : Bool
  /-- What SPEC reads (R388): the group's state at the end of the last core cycle, once it has changed; none before. -/
  sampled  : Option Nat
  /-- Arrived in the current cluster phase (R310). -/
  clArr    : Bool
  /-- Candidate packs passed over: stamp, PC, repetition and count (R30). -/
  ages     : List ((Nat × Nat × Nat) × Nat)
  deriving DecidableEq, Repr

/-! ### Teams -/

/-- An update of a barrier register (R135, R294): BINIT's expectations, an arrival with bytes, the arrival of a member (R34),
BXPC's additions (R300), never-produced (R211), or a window's failure with its cause and code. -/
inductive BarUpd where
  | init (expa : BitVec 8) (expb : BitVec 32)
  | count (arr bytes : Nat)
  | arrive (who : Nat)
  | expect (arr bytes : Nat)
  | never
  | fail (win cause code : Nat)
  deriving DecidableEq, Repr

/-- A barrier register (R134). -/
structure Bar where
  expa  : BitVec 8
  arra  : BitVec 8
  phase : Bool
  nprod : Bool
  cfail : Bool
  cfcause : BitVec 3
  arrmask : BitVec 33
  cfcode  : BitVec 8
  expb  : BitVec 32
  arrb  : BitVec 32
  /-- Updates of the present core cycle: they are applied and tested together at its end (R135, R294, R295). -/
  upds  : List BarUpd
  deriving DecidableEq, Repr

/-- The states of a region window (R130). -/
inductive WSt where
  | absent | filling | full | empty | predicted
  deriving DecidableEq, Repr

/-- A region window (R128, R130). -/
structure Win where
  st    : WSt
  cur   : BitVec 128
  /-- The window descriptor's four words. -/
  d0 : BitVec 64
  d1 : BitVec 64
  d2 : BitVec 64
  d3 : BitVec 64
  /-- Presence bits, one a line, or one a tile for DSTFMT 9. -/
  pres  : Nat
  /-- F of the last tile delivered (R218). -/
  f     : Bool
  /-- Level of speculative contents, 0 for none; `delivered` when they came from a publish, with its STAG. -/
  level : Nat
  stag  : Option Nat
  /-- The group whose task owns it (R223). -/
  owner : Option Nat
  /-- Publishes of the window that have not been sent (R126). -/
  unsent : Nat
  deriving DecidableEq, Repr

/-- What a .spec interest records (R219): policy, format, patience in ticks, tolerances, histories. -/
structure SpecInfo where
  policy : Nat
  fmt    : Nat
  patience : Nat
  abs    : BitVec 32
  rel    : BitVec 32
  h1     : Nat
  h2     : Nat
  deriving DecidableEq, Repr

/-- An interest-list entry (R207). -/
structure IEnt where
  t : Nat
  i : Nat
  n : Nat
  win  : Nat
  bar  : Nat
  expiry : Nat
  /-- Issue tick of the interest. -/
  issued : Nat
  /-- Token of the issuer's COPIES counter. -/
  grp  : Nat
  tok  : Nat
  /-- The .spec flag with what it records. -/
  spec : Option SpecInfo
  /-- A header of the real tile has reached the core. -/
  header : Bool
  /-- Prediction (R220): 0 not tested yet, 1 being written, 2 tested, written or abandoned. -/
  pred : Nat
  /-- STAG of the speculative tile that the entry has taken (R215). -/
  stag : Option Nat
  /-- NCANs that wait for its delivery: group, lane and writeback (R212, R365). -/
  ncan : List (Nat × Nat × Nat)
  deriving DecidableEq, Repr

/-- An entry of the speculation table (R219). -/
structure SEnt where
  a : BitVec 64
  b : BitVec 64
  deriving DecidableEq, Repr

/-- The identity of a team, fixed at admission (R26, R27, R41, R67). -/
structure TeamId where
  launch : Nat
  teamid : Nat
  clusterid : Nat
  pos    : Nat
  gridid : Nat
  asid   : Nat
  prio   : Nat
  clw    : Nat
  clh    : Nat
  groups : Nat
  weight : Nat
  bsize  : Nat
  priv   : Nat
  /-- Base of the private area, as an offset in the core's region (R93). -/
  area   : Nat
  hasFront : Bool
  /-- Holds an exchange area (R404). -/
  exch   : Bool
  deriving DecidableEq, Repr

/-- A team's control registers before the writes of a core cycle (R149, R319). -/
structure CsrOld where
  cycle   : Nat
  rm      : BitVec 2
  nantrap : Bool
  lrbase  : BitVec 64
  uhvec   : BitVec 64
  uhdeleg : BitVec 32
  deriving DecidableEq, Repr

/-- One team (R25). -/
structure Team where
  id    : TeamId
  core  : Nat
  /-- Groups by %groupid; the front thread at 32. -/
  grps  : Tab Group
  bars  : Tab Bar
  wins  : Tab Win
  dq    : List DqEntry
  ilist : List IEnt
  stab  : Tab SEnt
  rm    : BitVec 2
  nantrap : Bool
  /-- The core cycle of the last write of FPCTL, LRBASE, UHVEC or UHDELEG, and their values before that cycle's writes. -/
  csrOld : Option CsrOld
  lrbase  : BitVec 64
  uhvec   : BitVec 64
  uhdeleg : BitVec 32
  reserveHeld : Bool
  /-- What NSTAT reads (R368): the status of each window at the end of the last core cycle. -/
  sampled : Tab Nat
  deriving DecidableEq, Repr

/-! ### Cores -/

/-- A line of the L1 (R95, R112). The lists of a cache's lines stand in the order of last use, the latest first (R96). -/
structure L1Line where
  line  : Nat
  data  : BitVec 1024
  /-- Bytes that stores of this core have written and that have not been written back. -/
  dirty : BitVec 128
  /-- The groups whose stores those are: team and group (R113, R116). -/
  owners : List (Nat × Nat)
  lease : Nat
  evp   : Nat
  cmp   : Bool
  /-- In the core's private region (R115). -/
  priv  : Bool
  deriving DecidableEq, Repr

/-- A read-only copy of a line: metadata cache, instruction path, layout-record cache (R182, R418, R124). -/
structure RoLine where
  line  : Nat
  data  : BitVec 1024
  lease : Nat
  deriving DecidableEq, Repr

/-- A translation (R102, R104): page base and size as powers of two, physical base and attributes. -/
structure TlbE where
  asid  : Nat
  /-- VA of the page and log2 of its size. -/
  va    : Nat
  lg    : Nat
  pa    : Nat
  rd    : Bool
  wr    : Bool
  ex    : Bool
  usr   : Bool
  alloc : Nat
  wb    : Bool
  cmp   : Bool
  evp   : Nat
  deriving DecidableEq, Repr

/-- The attributes of a translation's page. -/
def TlbE.attr (e : TlbE) : Attr := ⟨e.alloc, e.wb, e.evp, e.cmp⟩

/-- A non-leaf entry in the walk cache (R104): the ASID, log2 of the span it covers, the span's number, and the next table. -/
structure WalkE where
  asid  : Nat
  lg    : Nat
  span  : Nat
  table : Nat
  deriving DecidableEq, Repr

/-- A range-lock entry (R122): space 0 global, 1 W-store, 2 X-store, 3 Y-store; its operation. -/
structure Lock where
  op    : Nat
  space : Nat
  asid  : Nat
  base  : Nat
  len   : Nat
  dst   : Bool
  /-- The rows of a copy's source that lie apart: how many such intervals, and the distance from one to the next (log entry 53). -/
  rows  : Nat := 1
  step  : Nat := 0
  deriving DecidableEq, Repr

/-- A matrix register (R197): rank 63 is a dense tile in `u`. -/
structure MReg where
  rank : Nat
  u : List (BitVec 32)
  v : List (BitVec 32)
  deriving DecidableEq, Repr

/-- A record of the rendezvous latch (R77). -/
structure LatchRec where
  grp   : Nat
  lanes : List Nat
  /-- Active lanes. -/
  act   : List Nat
  rep   : Option (BitVec 64 × Nat)
  instr : Instr
  /-- The TILES token that counts it (R81). -/
  tok   : Option Nat
  deriving DecidableEq, Repr

/-- A crew (R76, R184). -/
structure Crew where
  no      : Nat
  team    : Nat
  members : List Nat
  base    : Nat
  count   : Nat
  ovf     : Bool
  m       : Tab MReg
  slots   : Tab (BitVec 128)
  uf0     : BitVec 64
  uf1     : BitVec 64
  latch   : List LatchRec
  deriving DecidableEq, Repr

/-- A crew instruction that has passed its rendezvous (R186). -/
structure Job where
  id      : Nat
  team    : Nat
  crew    : Nat
  recs    : List LatchRec
  instr   : Instr
  rm      : BitVec 2
  nantrap : Bool
  started : Bool
  /-- The core cycle of its rendezvous (R186). -/
  cycle   : Nat
  /-- The result to be written at completion: matrix register and its contents. -/
  res     : Option (Nat × MReg)
  /-- KEPTDENSE and LASTK, or FELLBACK, to be written at completion. -/
  kept    : Option (Bool × Nat)
  fell    : Option Bool
  /-- Image bytes of MST in pieces: translation, VA, bytes. -/
  img     : List (TlbE × Nat × List (BitVec 8))
  /-- Its image is parked on a fault of this page (R105). -/
  parked  : Option Nat
  /-- Bytes whose presence bits may not be cleared before it has read them, beside its source ranges: store, base, length (R195). -/
  reads   : List (Nat × Nat × Nat) := []
  deriving DecidableEq, Repr

/-- A formation-latch record (R315). -/
structure FormRec where
  team : Nat
  grp  : Nat
  mask : BitVec 32
  ctl  : BitVec 32
  deriving DecidableEq, Repr

/-- A copy of a window in the copy queue (R132): kind 0 a copy, 1 a prediction (R220). -/
structure Copy where
  id    : Nat
  kind  : Nat
  team  : Nat
  win   : Nat
  cur   : BitVec 128
  d0 : BitVec 64
  d1 : BitVec 64
  d2 : BitVec 64
  d3 : BitVec 64
  rm    : BitVec 2
  /-- Bank of the routine when the copy was queued (R259). -/
  bank  : Nat
  /-- Blocks in flight: index, start tick, parked on a page fault (ASID, page). -/
  inflight : List (Nat × Nat × Option (Nat × Nat))
  done  : List Nat
  /-- Issuer's counter token: group and token. -/
  tok   : Option (Nat × Nat)
  /-- Stores of the issuing group that its reads wait for (R123). -/
  grp   : Nat
  cut   : Nat
  abandoned : Bool
  /-- Storage bytes the compressing write port has used so far, the tiles it has stored, and expanded bytes that wait for
  their tile (R138). -/
  stored : Nat
  tiles  : Nat
  buf    : Mem
  /-- The tick that must have passed before the first read: the starting group's stores are performed at .die (R123). -/
  hold   : Option Nat
  /-- Its source ranges are registered (R122). -/
  locked : Bool
  /-- Source elements that routine 2 has read, by number (R137, R420). -/
  seen   : Tab Nat
  deriving DecidableEq, Repr

/-- The verdict buffer (R221): the team, the entry's window and the real tile. -/
structure VBuf where
  team  : Nat
  win   : Nat
  f     : Bool
  data  : List (BitVec 8)
  deriving DecidableEq, Repr

/-- A group's request for an extended block: the core cycle in which it parked, and its slot (R52). -/
structure XWait where
  team  : Nat
  grp   : Nat
  cycle : Nat
  slot  : Nat
  deriving DecidableEq, Repr

/-- One core. -/
structure Core where
  /-- Store units w, x, y, l1 (R67). -/
  carve   : List Nat
  wst     : Mem
  xst     : Mem
  yst     : Mem
  poolAsid : Option Nat
  l1      : List L1Line
  mdc     : List RoLine
  ipath   : List RoLine
  /-- Layout-record cache: key ASID × 2^56 + VA of 64 bytes, and its bytes as a number (R124). -/
  lrc     : Tab Nat
  tlb     : List TlbE
  locks   : List Lock
  crews   : List Crew
  forms   : List FormRec
  engine  : List Job
  copies  : List Copy
  limit   : BitVec 12
  /-- The core cycle of the last CSRW of ENBUDGET, and LIMIT before it (R319). -/
  limitOld : Option (Nat × BitVec 12)
  privsz  : BitVec 32
  privbase : BitVec 64
  /-- PRECTL.STATE, the request tick and QUIET reached (R85). -/
  pre     : Nat
  preT0   : Nat
  quiet   : Bool
  retire  : Bool
  eccCorr : BitVec 32
  eccUncorr : BitVec 16
  /-- Contents kept by a 64-row extent (key 4 × slot + extent; 0 and 1 the base block's, 2 the extended block's): the ASID
  and the lanes' registers (R56). -/
  kept    : Tab (Nat × List (Tab (BitVec 32)))
  /-- Ready lists of the pipes, by pipe: team and group (R72). -/
  ready   : Tab (List (Nat × Nat))
  /-- The groups whose runs were open on the pipes when the ready lists were last made (R72). -/
  running : List (Nat × Nat)
  /-- The teams whose front threads the scalar port serves, the next to be served first (R75). -/
  scalarQ : List Nat
  /-- The last core cycle in which groups issued, and their slots, 256 and above for front threads (R39, R52, R149). -/
  cycle   : Nat
  issued  : List Nat
  verdict : Option VBuf
  /-- Groups waiting for an extended block, oldest first (R52). -/
  xwait   : List XWait
  /-- Scratch memory of the core's Chrysalis processor, and the ASID of the routine that ran last (R136). -/
  scratch : Mem
  scratchAsid : Nat
  deriving DecidableEq, Repr

/-! ### Dies, routers, packets -/

/-- A line of the L2 (R95, R112, R113). -/
structure L2Line where
  line  : Nat
  data  : BitVec 1024
  lease : Nat
  evp   : Nat
  cmp   : Bool
  deriving DecidableEq, Repr

/-- A line the L3 keeps (R95, R96); its bytes are those of the memory. -/
structure L3Line where
  line  : Nat
  evp   : Nat
  cmp   : Bool
  deriving DecidableEq, Repr

/-- Bytes a slice has not forwarded to the L3 (R113): line, byte mask, bytes, the groups that stored them (team and group)
and the tick. -/
structure Fwd where
  line  : Nat
  mask  : BitVec 128
  data  : BitVec 1024
  owners : List (Nat × Nat)
  tick  : Nat
  deriving DecidableEq, Repr

/-- A bucket move (R100). -/
structure Move where
  bucket : Nat
  src    : Nat
  dst    : Nat
  /-- Accesses with identifiers below this one entered before the bucket was marked. -/
  cut    : Nat
  /-- Lines flushed and table entries written, each with its grant (R82). -/
  paid   : Nat
  deriving DecidableEq, Repr

/-- One die. -/
structure Die where
  /-- SLICEMAP entries that differ from bucket mod 64 (R98). -/
  slicemap : Tab Nat
  move    : Option Move
  /-- Buckets still to move off retiring slices. -/
  pendingMoves : List Move
  /-- Lower bound a moved bucket's writes keep in their WCT (R100). -/
  floors  : Tab Nat
  rbEn    : Bool
  rbThresh : BitVec 24
  /-- Accesses that a slice has served of a bucket in this period, by 4,096 × slice + bucket (R99). -/
  counts  : Tab Nat
  l2      : List L2Line
  /-- Latest expiry granted to copies below the L2, by line, whether or not the L2 still holds it (R112). -/
  granted : Tab Nat
  fwd     : List Fwd
  l2tlb   : List TlbE
  cocoon  : Nat
  sliceRetire : List Nat
  sliceRetired : List Nat
  qBase   : BitVec 64
  qSize   : BitVec 16
  qFull   : Bool
  /-- Requests toward the base die that wait in the spill region, and the tick of the last credit (R257). -/
  qSpilled : List Nat
  qCredit : Nat
  deriving DecidableEq, Repr

/-- An NRT entry (R206). -/
structure NrtE where
  pfx  : Nat
  len  : Nat
  port : Nat
  v    : Bool
  deriving DecidableEq, Repr

/-- A port slot of a PIT entry (R207). -/
structure PSlot where
  expiry : Nat
  specok : Bool
  served : Option Nat
  deriving DecidableEq, Repr

/-- A PIT entry (R207). -/
structure PitE where
  t : Nat
  i : Nat
  n : Nat
  fwd   : Nat
  up    : Nat
  slots : Tab PSlot
  deriving DecidableEq, Repr

/-- A copy in a Cocoon store (R216). -/
structure CocoonE where
  t : Nat
  i : Nat
  n : Nat
  f : Bool
  data : List (BitVec 8)
  /-- Still being written (COCOON_COPY_COMPLETE, R415). -/
  busy : Bool
  deriving DecidableEq, Repr

/-- Where a named packet goes (R205): router 0 to 255, the exchange, or a core; with the port it arrives on. -/
inductive Place where
  | router (r port : Nat)
  | exchange (port : Nat)
  | core (c : Nat)
  deriving DecidableEq, Repr

/-- Packet types (R208). -/
inductive PktType where
  | interest | data | noRoute | commit | squash | cancel | refresh
  deriving DecidableEq, Repr

/-- A named packet in flight (R208). -/
structure Packet where
  id     : Nat
  ty     : PktType
  t : Nat
  i : Nat
  n : Nat
  expiry : Nat
  spec   : Bool
  level  : Nat
  specok : Bool
  warm   : Bool
  f      : Bool
  stag   : Nat
  data   : List (BitVec 8)
  at_    : Place
  /-- The header has been taken by the core's interest list: teams and windows it is delivered to (R215). A counted warm
  interest that has been taken by its router stays, with no window, until its tile is stored or it expires (R209). -/
  taken  : Option (List (Nat × Nat))
  /-- A publish whose last flit has not left the core: team, group, window, token (R213). The packet on its way is another
  one. -/
  src    : Option (Nat × Nat × Nat × Nat)
  /-- A publish that waits for its release: PC, lowest lane and repetition of its pack (R126). -/
  rel    : Option (Nat × Nat × Option Nat)
  /-- A commit packet that waits at the publishing core for a fence of a group: team, group, fence (R224). -/
  behind : Option (Nat × Nat × Nat)
  /-- The warm interest's counter: team, group, token. -/
  wtok   : Option (Nat × Nat × Nat)
  deriving DecidableEq, Repr

/-- A router, or the exchange (R205). -/
structure Router where
  nrt    : Tab NrtE
  pit    : List PitE
  cocoon : List CocoonE
  deriving DecidableEq, Repr

/-! ### Operations in flight -/

/-- The kinds of access in flight. -/
inductive OpKind where
  | load | store | atomic | evwait | presence | clean | nrtw | xst
  /-- The acknowledgement of an STS (R81): its bytes are written at issue. -/
  | sts
  /-- A read that an instruction or an engine makes of a target outside DRAM (R97, R254): `opc` is 0 while it is out, 1 when
  its value is in `data`, 2 when it was refused, 3 when nothing answers the address. -/
  | far
  deriving DecidableEq, Repr

/-- An access in flight: issued, translated and checked, not yet performed (R111, R113). -/
structure Op where
  id    : Nat
  kind  : OpKind
  team  : Nat
  grp   : Nat
  lane  : Nat
  core  : Nat
  asid  : Nat
  va    : Nat
  pa    : Nat
  width : Nat
  attr  : Attr
  priv  : Bool
  data  : BitVec 64
  cmp   : BitVec 64
  opc   : Nat
  scope : Nat
  acq   : Bool
  rel   : Bool
  /-- Pending writeback that receives the result. -/
  pend  : Option Nat
  sext  : Bool
  tok   : Option Nat
  /-- Request sent to a link or host target. -/
  sent  : Bool
  /-- Cluster phase of an XST: held until the swap (R405). -/
  hold  : Bool
  /-- The instruction that issued it, for a refusal that comes back (R253). -/
  pc    : BitVec 56
  rep   : Option Nat
  /-- A store that a commit drains: the lane's stores keep their program order (R121). -/
  drain : Bool
  /-- Made by a Looper's job: its bytes are a range of the range-lock table (R122, R181). -/
  loop  : Bool := false
  deriving DecidableEq, Repr

/-- ALLOC of an operation's page. -/
def Op.alloc (o : Op) : Nat := o.attr.alloc

/-- A translation miss waiting for a walk (R104): kind 0 read, 1 write, 2 atomic, 3 fetch, 4 presence query (no right), 5 prefetch,
whose fault is not recorded (R306). -/
structure Miss where
  core : Nat
  asid : Nat
  page : Nat
  va   : Nat
  kind : Nat
  /-- Missed by a speculative group: a fault writes no record before commit (R105). -/
  spec : Bool
  deriving DecidableEq, Repr

/-- A translation fault outstanding at the driver (R105); `recorded` is false for a speculative group's (R105). -/
structure Outst where
  asid : Nat
  page : Nat
  kind : Nat
  cause : Nat
  recorded : Bool
  /-- Its record waits for room in the buffer of fault records (R250). -/
  owed : Bool
  deriving DecidableEq, Repr

/-- A fault record (R105). -/
structure FRec where
  va     : Nat
  cause  : Nat
  asid   : Nat
  kind   : Nat
  master : Nat
  tick   : Nat
  deriving DecidableEq, Repr

/-! ### Launches -/

/-- A launch record (R41). -/
structure LRec where
  entry : Nat
  front : Nat
  gx : Nat
  gy : Nat
  gz : Nat
  clw : Nat
  clh : Nat
  groups : Nat
  regs : Nat
  energy : Nat
  priv : Nat
  carve : List Nat
  waitev : Nat
  waitn : Nat
  sigev : Nat
  seq : Nat
  args : Nat
  deriving DecidableEq, Repr

/-- States of a launch (R40, R65, R43). -/
inductive LaunchSt where
  /-- Read; its wait event is not satisfied. -/
  | waiting
  /-- The wait event has been read as satisfied, or there is none. -/
  | satisfied
  /-- Started; pending admission or running. -/
  | started
  /-- Every team has finished; the release of R43 is complete and the signal is next. -/
  | signalling
  deriving DecidableEq, Repr

/-- A launch that the device has read and that has not left it. -/
structure Launch where
  gridid : Nat
  lr     : LRec
  asid   : Nat
  prio   : Nat
  /-- Host queue, or none for the device launch queue. -/
  queue  : Option Nat
  st     : LaunchSt
  /-- Order of start. -/
  order  : Nat
  /-- Next cluster to admit and teams that have finished. -/
  next   : Nat
  finished : Nat
  /-- Tick since which the next cluster has not fitted (R66). -/
  since  : Nat
  blocking : Bool
  /-- A team of it was killed: it never signals (R237). -/
  killed : Bool
  /-- Its event-word access is parked on a fault: page and kind (R419). -/
  parked : Option (Nat × Nat)
  /-- Latest write completion time of its finished groups (R43). -/
  wct    : Nat
  /-- Slot of the device launch queue's ring (R249). -/
  slot   : Nat
  deriving DecidableEq, Repr

/-- A host launch queue (R247). -/
structure HQ where
  base : BitVec 64
  asid : Nat
  size : Nat
  prio : Nat
  en   : Bool
  err  : Bool
  head : BitVec 32
  tail : BitVec 32
  /-- A record read is parked on a fault of this ASID and page (R248). -/
  parked : Option (Nat × Nat)
  deriving DecidableEq, Repr

/-- How a walk that the base-die scheduler asked for has ended (R104, R419): the leaf, or the cause of the fault. -/
structure WalkR where
  asid  : Nat
  page  : Nat
  leaf  : Option TlbE
  cause : Nat
  deriving DecidableEq, Repr

/-- An expert-affinity record that the scheduler is to read (R217): the launch, its ASID, the record's VA and the lowest core of
the launch's first cluster. -/
structure SeqReq where
  gridid : Nat
  asid   : Nat
  va     : Nat
  core   : Nat
  deriving DecidableEq, Repr

/-- The launch machinery. -/
structure LaunchUnit where
  hq       : Tab HQ
  dlqEn    : Bool
  dlqBase  : BitVec 64
  dlqAppended : BitVec 32
  launches : List Launch
  nextGrid : BitVec 32
  /-- Walks that have ended for accesses of the scheduler that are still to be made. -/
  walked   : List WalkR
  /-- Expert-affinity records to be read (R217). -/
  seqs     : List SeqReq
  deriving DecidableEq, Repr

/-! ### Package registers -/

/-- Device control registers of the base die. -/
structure Regs where
  enweight : BitVec 64
  budget   : List Nat
  /-- Counts that take effect at the next period boundary (R84). -/
  budgetNext : List Nat
  budgetErr : BitVec 2
  l1lease  : Nat
  l2lease  : Nat
  shvec    : BitVec 64
  featacc  : BitVec 64
  featlock : Bool
  pkgid    : BitVec 13
  rtSlot   : Nat
  rtPa     : BitVec 48
  rtBusy   : Bool
  rtOk     : Bool
  rtSigfail : Bool
  /-- DRAMCTL channel and BUSY by controller (R258). -/
  dramChan : Tab Nat
  dramBusy : List Nat
  /-- CMPMETA's PA: where the size codes stand in DRAM (R103). -/
  cmpmeta  : BitVec 64
  trip     : Nat
  tripped  : Bool
  deriving DecidableEq, Repr

/-- The fault queue (R250): `wait` is the buffer of 256 records; `late` are the records that found it full, in the order in which
their faults were detected, each with whether an access stays parked for it. -/
structure FaultQ where
  base : BitVec 64
  size : Nat
  head : BitVec 32
  tail : BitVec 32
  wait : List FRec
  late : List (FRec × Bool)
  deriving DecidableEq, Repr

/-- A routine slot (R137, R259): two banks of code; slots 0 to 6 hold the standard routines at reset. -/
structure Routine where
  standard : Bool
  bank0 : List (BitVec 8)
  bank1 : List (BitVec 8)
  active : Nat
  deriving DecidableEq, Repr

/-- Dehenan, its mailbox, images and fuses (R260 to R265). -/
structure Dehenan where
  opc   : Nat
  len   : Nat
  pa    : BitVec 48
  /-- OPC, LEN and MBPA as GO found them: the command that runs (R261). -/
  cmd   : Nat × Nat × BitVec 48
  busy  : Bool
  done  : Bool
  err   : Nat
  rlen  : Nat
  imgA  : List (BitVec 8)
  imgB  : List (BitVec 8)
  /-- The image that runs, and the marked one: 0 A, 1 B. -/
  active : Nat
  marked : Nat
  fails : Nat
  restarting : Bool
  ownerKey : Option (List (BitVec 8))
  /-- Leaves of the identity key that boots have used; it numbers the boot key in use (R263). -/
  leafCtr : Nat
  reports : Nat
  deriving DecidableEq, Repr

/-- A Beylas port (R251, R255). -/
structure Port where
  ovBase : BitVec 64
  ovSize : BitVec 16
  down   : Bool
  ovfull : Bool
  blocked : Bool
  rx     : List LinkPkt
  spilled : List LinkPkt
  nextSeq : Nat
  fails  : Nat
  unacked : List LinkPkt
  /-- Write acknowledgements that wait for the time base to pass their write completion times (R254). -/
  acks   : List (Nat × LinkPkt)
  /-- Packets of a port that went down, to be sent again by a new route (R256). -/
  lost   : List LinkPkt
  /-- Link sequence number of the next flit (R251). -/
  txSeq  : Nat
  /-- Packets that wait for a credit of the peer, the credits held, and the tick of the last one held (R255). -/
  txq    : List LinkPkt
  credits : Nat
  creditT : Nat
  deriving DecidableEq, Repr

/-- The links of the package. -/
structure Links where
  routes : Tab (BitVec 16)
  apertures : Tab (BitVec 64)
  ports  : Tab Port
  /-- End-to-end sequence numbers accepted, by source package (R254). -/
  e2eSeen : List (Nat × Nat)
  e2eNext : Tab Nat
  deriving DecidableEq, Repr

/-- How a read of the host's is completed (R108, R242): with bytes, with a Completer Abort, or as an unsupported request. -/
inductive Completion where
  | data (bytes : List (BitVec 8))
  | abort
  | unsupported
  deriving DecidableEq, Repr

/-- A read or an atomic that the package asks of the host (R242): PCIe address, bytes, and for an atomic its operation of R288
with its operands. -/
structure HostReq where
  addr  : Nat
  width : Nat
  atom  : Option (Nat × Nat × Nat)
  deriving DecidableEq, Repr

/-- What leaves the package: MSI-X vectors, PCIe writes to the host and requests of it, completions of the host's reads, flits of
Beylas ports with their link sequence numbers, and replies on the sideband (R24), newest last. -/
structure Output where
  msix    : List Nat
  hostOut : List (Nat × List (BitVec 8))
  hostReq : List HostReq
  reads   : List (Nat × Completion)
  linkOut : List (Nat × Nat × LinkPkt)
  side    : List (List (BitVec 8))
  deriving DecidableEq, Repr

/-! ### Runs and the schedule -/

/-- The repetition a run is issuing (R276): index, count and the REP word. -/
structure RepCtx where
  ix   : Nat
  n    : Nat
  word : BitVec 64
  deriving DecidableEq, Repr

/-- A run in progress (R73): pipe 8 is the scalar port. The issuing pack is `lanes` of group `grp` (32 the front). -/
structure Run where
  core  : Nat
  pipe  : Nat
  team  : Nat
  grp   : Nat
  lanes : List Nat
  /-- The core cycle of its first issue (R73). -/
  start : Option Nat
  words : Nat
  /-- The operand latch: first register kept, registers, and the instructions they are kept for (R60). -/
  latch : List (Nat × Nat × Nat)
  /-- Set while a repetition issues. -/
  rep   : Option RepCtx
  deriving DecidableEq, Repr

/-- A cache whose clean lines or entries may leave at any time: the spec states no replacement for it (R104, R124, R182, R418). -/
inductive CacheId where
  | mdc (core : Nat)
  | ipath (core : Nat)
  | lrc (core : Nat)
  | tlb (core : Nat)
  | l2tlb (die : Nat)
  | walk
  deriving DecidableEq, Repr

/-- One choice of what moves next (log entry 2). -/
inductive Choice where
  /-- The run of a core's pipe issues its next instruction. -/
  | issue (core pipe : Nat)
  /-- A device step. -/
  | event (e : Instr)
  /-- Time passes. -/
  | tick (n : Nat)
  /-- A clean entry leaves a cache: its line, its key, or its place. -/
  | evict (cache : CacheId) (key : Nat)
  deriving DecidableEq, Repr

/-- A core set saved by context save (R88, R89): pending interests carry their remaining lifetimes, and `frames` the trap
frames of groups in a handler (team, group, bytes). -/
structure CoreSet where
  id    : Nat
  asid  : Nat
  carve : List Nat
  wst   : Mem
  xst   : Mem
  yst   : Mem
  teams : Tab Team
  crews : List Crew
  /-- Crew instructions past their rendezvous, with the ranges they hold (R86, R87). -/
  engine : List Job
  locks : List Lock
  copies : List Copy
  pubs  : List Packet
  /-- The tick since which the set has not fitted, and whether it is blocking (R66, R89). -/
  since : Nat
  blocking : Bool
  frames : List (Nat × Nat × List (BitVec 8))
  /-- EVWAITs of its lanes, which stay parked (R327), and answers that came for parked instructions (log entry 48). -/
  ops   : List Op
  /-- The groups that wait for an extended block, in the order in which they parked (R52, R87). -/
  xwait : List XWait
  /-- No copy that any cache leased before the save lives from this tick on (R110, R112). -/
  ready : Nat
  deriving DecidableEq, Repr

/-- A request of the host that PCIe has delivered (R242): a write of bytes, or a read of so many. -/
inductive HostQ where
  | write (pa : Nat) (bytes : List (BitVec 8))
  | read (pa n : Nat)
  deriving DecidableEq, Repr

/-- The whole machine. -/
structure State where
  time  : Nat
  mem   : Mem
  /-- Lines present in the L3 (R95). -/
  l3    : List L3Line
  /-- Latest L2 lease the L3 has granted per line (R112). -/
  l3Granted : Tab Nat
  /-- Poisoned bytes, by aligned 8-byte word (R241). -/
  poison : List Nat
  regs  : Regs
  asidTab : Tab (BitVec 64)
  /-- ASID-table entries the walkers have read and keep until TLBINV (R106, R396). -/
  asidCache : Tab (BitVec 64)
  /-- The walk cache (R104). -/
  walkCache : List WalkE
  /-- What activities have taken in this period, by (activity × 4096 + agent) × 1024 + target (R82). -/
  spent : Tab Nat
  /-- Lines whose grants an instruction or an engine's work has taken and which it has yet to use: team, group, lane and line, as
  `Op.sameFar` names its work (R82, R83). -/
  paid : List (Nat × Nat × Nat × Nat)
  /-- The last core cycle in which a target served a request of a budgeted activity, one more than its number (R83). -/
  claimed : Tab Nat
  /-- Access-table words by (t × 529 + m) × 8 + word (R107). -/
  acc   : Tab (BitVec 64)
  lu    : LaunchUnit
  fq    : FaultQ
  routines : Tab Routine
  deh   : Dehenan
  links : Links
  dies  : Tab Die
  cores : Tab Core
  teams : Tab Team
  routers : Tab Router
  packets : List Packet
  ops   : List Op
  misses : List Miss
  outst : List Outst
  saved : List CoreSet
  /-- Requests of the host that wait for grants or for a retraining channel, in the order of PCIe (R83, R242, R258). -/
  hostq : List HostQ
  out   : Output
  runs  : List Run
  schedule : List Choice
  nextId : Nat
  freeCtr : Nat
  /-- Budget periods that have ended (R82). -/
  periods : Nat
  deriving DecidableEq, Repr

/-! ### Reset values -/

/-- A barrier register at reset (R134). -/
def Bar.reset : Bar := ⟨0, 0, false, false, false, 0, 0, 0, 0, 0, []⟩

/-- A core at reset (R244): the carve of an empty core is the model's own choice (log entry 7). -/
def Core.reset : Core :=
  { carve := [0, 0, 0, 24], wst := [], xst := [], yst := [], poolAsid := none, l1 := [], mdc := [], ipath := [], lrc := [],
    tlb := [], locks := [], crews := [], forms := [], engine := [], copies := [], limit := 400, limitOld := none, privsz := 0x0080_0000,
    privbase := 0, pre := 0, preT0 := 0, quiet := false, retire := false, eccCorr := 0, eccUncorr := 0,
    kept := [], ready := [], running := [], scalarQ := [], cycle := 0, issued := [], verdict := none, xwait := [],
    scratch := [], scratchAsid := 0 }

/-- A die at reset (R98, R99, R216, R257). -/
def Die.reset : Die :=
  { slicemap := [], move := none, pendingMoves := [], floors := [], rbEn := true, rbThresh := 0x10000, counts := [],
    l2 := [], granted := [], fwd := [], l2tlb := [], cocoon := 0, sliceRetire := [], sliceRetired := [], qBase := 0, qSize := 32,
    qFull := false, qSpilled := [], qCredit := 0 }

/-- A router at reset (R205). -/
def Router.reset : Router := ⟨[], [], []⟩

/-- A host launch queue at reset (R247). -/
def HQ.reset : HQ := ⟨0, 0, 0, 0, false, false, 0, 0, none⟩

/-- A Beylas port at reset (R255). -/
def Port.reset : Port := ⟨0, 32, false, false, false, [], [], 0, 0, [], [], [], 0, [], 4096, 0⟩

/-- The base die's registers at reset. -/
def Regs.reset : Regs :=
  { enweight := 0x4038302820181008, budget := [128, 64, 256, 512, 1024, 512, 256],
    budgetNext := [128, 64, 256, 512, 1024, 512, 256], budgetErr := 0, l1lease := 512, l2lease := 2048, shvec := 0,
    featacc := 0, featlock := false, pkgid := 0, rtSlot := 0, rtPa := 0, rtBusy := false, rtOk := false,
    rtSigfail := false, dramChan := [], dramBusy := [], cmpmeta := 0, trip := 0xFFFF, tripped := false }

/-- The fault queue at reset (R250). -/
def FaultQ.reset : FaultQ := ⟨0, 0, 0, 0, [], []⟩

/-- A standard routine (R137). -/
def Routine.std : Routine := ⟨true, [], [], 0⟩

/-- An empty slot (R136). -/
def Routine.empty : Routine := ⟨false, [], [], 0⟩

/-- Dehenan before the first command (log entry 5). -/
def Dehenan.reset : Dehenan :=
  { opc := 0, len := 0, pa := 0, cmd := (0, 0, 0), busy := false, done := false, err := 0, rlen := 0, imgA := [], imgB := [], active := 0,
    marked := 0, fails := 0, restarting := false, ownerKey := none, leafCtr := 1, reports := 0 }

/-- The launch machinery at reset (R247, R249; %gridid start is log entry 3). -/
def LaunchUnit.reset : LaunchUnit := ⟨[], false, 0, 0, [], 0, [], []⟩

/-- The machine right after a package reset (R244). -/
def State.reset : State :=
  { time := 0, mem := [], l3 := [], l3Granted := [], poison := [], regs := Regs.reset, asidTab := [], asidCache := [],
    walkCache := [], spent := [], paid := [], claimed := [], acc := [],
    lu := LaunchUnit.reset, fq := FaultQ.reset,
    routines := (List.range 7).map fun k => (k, Routine.std),
    deh := Dehenan.reset, links := ⟨[], [], [], [], []⟩, dies := [], cores := [], teams := [], routers := [],
    packets := [], ops := [], misses := [], outst := [], saved := [], hostq := [], out := ⟨[], [], [], [], [], []⟩, runs := [], schedule := [],
    nextId := 1, freeCtr := 0, periods := 0 }

end Sys2Proof.Machine
end

