-- ==== Sys2Proof/Machine/Access.lean ====
section
/-! DEFINITION. Machine/Access.lean: named reads and updates of the state's parts: cores, dies, teams, groups, lanes, registers. -/
namespace Sys2Proof.Machine
open Sys2Proof

/-- The key of the front thread among a team's groups. -/
def frontKey : Nat := 32

/-! ### Parts -/

/-- A core. -/
def State.core (s : State) (c : Nat) : Core := s.cores.getD c Core.reset

/-- Changes a core. -/
def State.modCore (s : State) (c : Nat) (f : Core → Core) : State := { s with cores := s.cores.upd c Core.reset f }

/-- A die. -/
def State.die (s : State) (d : Nat) : Die := s.dies.getD d Die.reset

/-- Changes a die. -/
def State.modDie (s : State) (d : Nat) (f : Die → Die) : State := { s with dies := s.dies.upd d Die.reset f }

/-- A router, 256 for the exchange. -/
def State.router (s : State) (r : Nat) : Router := s.routers.getD r Router.reset

/-- Changes a router. -/
def State.modRouter (s : State) (r : Nat) (f : Router → Router) : State :=
  { s with routers := s.routers.upd r Router.reset f }

/-- A Beylas port. -/
def State.port (s : State) (p : Nat) : Port := s.links.ports.getD p Port.reset

/-- Changes a Beylas port. -/
def State.modPort (s : State) (p : Nat) (f : Port → Port) : State :=
  { s with links := { s.links with ports := s.links.ports.upd p Port.reset f } }

/-- A resident team. -/
def State.team? (s : State) (t : Nat) : Option Team := s.teams.get? t

/-- Changes a resident team. -/
def State.modTeam (s : State) (t : Nat) (f : Team → Team) : State :=
  match s.teams.get? t with
  | some x => { s with teams := s.teams.set t (f x) }
  | none => s

/-- A group of a team, or its front thread. -/
def Team.grp? (x : Team) (g : Nat) : Option Group := x.grps.get? g

/-- Changes a group of a team. -/
def Team.modGrp (x : Team) (g : Nat) (f : Group → Group) : Team :=
  match x.grps.get? g with
  | some y => { x with grps := x.grps.set g (f y) }
  | none => x

/-- A group. -/
def State.grp? (s : State) (t g : Nat) : Option Group :=
  match s.team? t with
  | some x => x.grp? g
  | none => none

/-- Changes a group. -/
def State.modGrp (s : State) (t g : Nat) (f : Group → Group) : State := s.modTeam t fun x => x.modGrp g f

/-- Changes a lane. -/
def State.modLane (s : State) (t g l : Nat) (f : Lane → Lane) : State :=
  s.modGrp t g fun y => { y with lanes := listUpd y.lanes l f }

/-- A lane with nothing in it, for lookups that cannot fail. -/
def Lane.zero : Lane := ⟨0, 0, .exited, none, 0, 0, [], [], [], [], [], none⟩

/-- A lane of a group. -/
def Group.lane (y : Group) (l : Nat) : Lane := y.lanes.getD l Lane.zero

/-- A fresh identifier. -/
def State.fresh (s : State) : Nat × State := (s.nextId, { s with nextId := s.nextId + 1 })

/-- The next free value's index; the step advances it (log entry 6). -/
def State.free (s : State) : Nat × State := (s.freeCtr, { s with freeCtr := s.freeCtr + 1 })

/-- The core cycle of a tick (R2). -/
def cycleOf (now : Nat) : Nat := now / 2

/-- The place of a group among those of its core in a cycle: its slot, the front threads last (R149). -/
def Group.place (y : Group) (t : Nat) : Nat := if y.front then 256 + t else y.slot

/-- The team as an instruction that issues now finds it: its control registers before the writes of this core cycle (R149,
R319). -/
def Team.atIssue (x : Team) (now : Nat) : Team :=
  match x.csrOld with
  | some o =>
    if o.cycle = cycleOf now then
      { x with rm := o.rm, nantrap := o.nantrap, lrbase := o.lrbase, uhvec := o.uhvec, uhdeleg := o.uhdeleg }
    else x
  | none => x

/-- A control register of the team is about to be written: the values before the first write of this core cycle are kept. -/
def Team.keepCsrs (x : Team) (now : Nat) : Team :=
  let y := x.atIssue now
  { x with csrOld := some ⟨cycleOf now, y.rm, y.nantrap, y.lrbase, y.uhvec, y.uhdeleg⟩ }

/-- ENBUDGET.LIMIT as an instruction that issues now finds it (R319). -/
def Core.limitAt (z : Core) (now : Nat) : BitVec 12 :=
  match z.limitOld with
  | some (c, v) => if c = cycleOf now then v else z.limit
  | none => z.limit

/-- Flags are raised in a core cycle (R157). -/
def Group.raise (y : Group) (now : Nat) (f : BitVec 6) : Group :=
  { y with fpflags := y.fpflags ||| f
           ffRaised := (cycleOf now, if y.ffRaised.1 = cycleOf now then y.ffRaised.2 ||| f else f) }

/-- FPFLAGS is written: the written bits clear, and the flags raised in this core cycle stay (R157). -/
def Group.clearFlags (y : Group) (now : Nat) (v : BitVec 6) : Group :=
  { y with fpflags := (y.fpflags &&& ~~~v) ||| (if y.ffRaised.1 = cycleOf now then y.ffRaised.2 else 0) }

/-- The operation makes an access to memory, as opposed to a store bank, a table or a notice. -/
def OpKind.mem (k : OpKind) : Bool :=
  match k with
  | .load | .store | .atomic | .evwait | .presence | .clean | .far => true
  | .nrtw | .xst | .sts => false

/-- A read of a target outside DRAM has its answer (R97, R254). -/
def Op.got (o : Op) : Bool := o.kind == .far && o.opc != 0

/-! ### Registers (R47, R57) -/

/-- The width of a register operand: 32 in lanes, 64 in the front thread (R277). -/
def regW (front : Bool) : Nat := if front then 64 else 32

/-- A general or scalar register. -/
def Lane.get (front : Bool) (x : Lane) (r : Nat) : Nat :=
  if front then (x.sregs.getD r 0).toNat else (x.regs.getD r 0).toNat

/-- Writes a general or scalar register. -/
def Lane.put (front : Bool) (x : Lane) (r v : Nat) : Lane :=
  if front then { x with sregs := x.sregs.set r (BitVec.ofNat 64 v) }
  else { x with regs := x.regs.set r (BitVec.ofNat 32 v) }

/-- A 64-bit operand: a pair, or one scalar register (R4, R277). -/
def Lane.get64 (front : Bool) (x : Lane) (r : Nat) : Nat :=
  if front then x.get true r else x.get false r + 2 ^ 32 * x.get false (r + 1)

/-- Writes a 64-bit operand. -/
def Lane.put64 (front : Bool) (x : Lane) (r v : Nat) : Lane :=
  if front then x.put true r v else (x.put false r v).put false (r + 1) (v / 2 ^ 32)

/-- A cursor register (R166). -/
def Lane.cur (x : Lane) (c : Nat) : BitVec 128 := x.curs.getD c 0

/-- Writes a register named by an asynchronous writeback (R57); above a cursor's 128 bits stands the run that the Loopers remember. -/
def Lane.land (x : Lane) : PReg × Nat → Lane
  | (.g n, v) => x.put false n v
  | (.bit n k, v) =>
    let old := x.get false n
    let cleared := old - (if bit old k then 2 ^ k else 0)
    x.put false n (cleared + (v % 2) * 2 ^ k)
  | (.c n, v) => { x with curs := x.curs.set n (BitVec.ofNat 128 v), runs := x.runs.set n (v / 2 ^ 128) }
  | (.s n, v) => x.put true n v

/-- A general or scalar register with a write pending (R57). -/
def Lane.pendingReg (front : Bool) (x : Lane) (r : Nat) : Bool :=
  x.pend.any fun p => p.regs.any fun q =>
    match q.1 with
    | .g n => !front && n == r
    | .bit n _ => !front && n == r
    | .s n => front && n == r
    | .c _ => false

/-- A cursor register with a write pending (R57). -/
def Lane.pendingCur (x : Lane) (c : Nat) : Bool :=
  x.pend.any fun p => p.regs.any fun q => q.1 == .c c

/-! ### The issuer -/

/-- The issuing pack, with its team and group as they stand at issue. -/
structure Ctx where
  run  : Run
  tm   : Team
  gp   : Group
  deriving DecidableEq, Repr

/-- The issuer of the next instruction: the first open run. -/
def State.issuer? (s : State) : Option Ctx :=
  match s.runs with
  | [] => none
  | r :: _ =>
    match s.team? r.team with
    | none => none
    | some x =>
      match x.grp? r.grp with
      | none => none
      | some y => some ⟨r, x.atIssue s.time, y⟩

/-- The issuer is the front thread. -/
def Ctx.front (x : Ctx) : Bool := x.gp.front

/-- A lane of the issuing group at issue. -/
def Ctx.lane (x : Ctx) (l : Nat) : Lane := x.gp.lane l

/-- The lowest lane of a list, or 0. -/
def low (l : List Nat) : Nat := l.headD 0

/-- The PC of the issuing pack: that of the instruction, or of its REP prefix. -/
def Ctx.pc (x : Ctx) : BitVec 56 := (x.lane (low x.run.lanes)).pc

/-- Changes a lane of the issuing group. -/
def State.onLane (s : State) (x : Ctx) (l : Nat) (f : Lane → Lane) : State := s.modLane x.run.team x.run.grp l f

/-- Changes the issuing group. -/
def State.onGrp (s : State) (x : Ctx) (f : Group → Group) : State := s.modGrp x.run.team x.run.grp f

/-- Changes the issuing team. -/
def State.onTeam (s : State) (x : Ctx) (f : Team → Team) : State := s.modTeam x.run.team f

/-- Ends the run of a pack. -/
def State.dropRun (s : State) (t g : Nat) : State :=
  { s with runs := s.runs.filter fun r => !(r.team == t && r.grp == g) }

/-- Ends the issuer's run (R73). -/
def State.endRun (s : State) (x : Ctx) : State := s.dropRun x.run.team x.run.grp

/-- Every group of every team: team, group key and group. -/
def State.allGroups (s : State) : List (Nat × Nat × Group) :=
  s.teams.flatMap fun p => p.2.grps.map fun q => (p.1, q.1, q.2)

/-- The teams resident on a core. -/
def State.residents (s : State) (c : Nat) : List (Nat × Team) := s.teams.filter fun p => p.2.core == c

/-- The die of a core (R14). -/
def dieOf (c : Nat) : Nat := c / 64

/-- A group runs a task (R223). -/
def Group.spec (y : Group) : Bool := y.task.isSome

/-- The lanes of a list that are lanes of the group. -/
def Group.lanesWith (y : Group) (p : Lane → Bool) : List Nat :=
  ((List.range y.lanes.length).filter fun l => p (y.lane l))

end Sys2Proof.Machine
end

