-- ==== Sys2Proof/Machine/Mem.lean ====
section
/-! DEFINITION. Machine/Mem.lean: physical memory, caches, leases and write completion times (R15, R16, R95 to R98, R109 to R113). -/
namespace Sys2Proof.Machine
open Sys2Proof

/-- A feature is not declined: declined is one whose bit is 0 at LOCK, and before LOCK none is (R246, log entry 125). -/
def State.feat (s : State) (b : Nat) : Bool := !s.regs.featlock || s.regs.featacc.getLsbD b

/-! ### The physical map -/

/-- The parts of the physical map (R15). -/
inductive Region where
  | dram | link | host | dev | unmapped
  deriving DecidableEq, Repr

/-- The part a physical address lies in (R15). -/
def regionOf (pa : Nat) : Region :=
  if pa < Config.dramTop then .dram
  else if Config.linkBase ≤ pa ∧ pa < Config.hostBase then .link
  else if Config.hostBase ≤ pa ∧ pa < Config.hostTop then .host
  else if Config.devBase ≤ pa ∧ pa < Config.devTop then .dev
  else .unmapped

/-- The DRAM controller of an address (R16). -/
def dramCtl (pa : Nat) : Nat := xorFold 3 12 (pa / 2 ^ 12)

/-- The L3 home slice of an address (R16). -/
def l3Slice (pa : Nat) : Nat := 8 * dramCtl pa + xorFold 3 14 (pa / 2 ^ 7)

/-- The channel of an address within its controller (R16). -/
def dramChannel (pa : Nat) : Nat := xorFold 4 9 (pa / 2 ^ 15)

/-- The bucket of an address (R98). -/
def bucketOf (pa : Nat) : Nat := bits pa 7 12 ^^^ bits pa 19 12 ^^^ bits pa 31 12 ^^^ bits pa 43 5

/-- The slice that serves a bucket on a die (R98). -/
def Die.sliceOfBucket (d : Die) (b : Nat) : Nat := d.slicemap.getD b (b % 64)

/-- The slice that serves an address on a die (R98). -/
def State.sliceOf (s : State) (d pa : Nat) : Nat := (s.die d).sliceOfBucket (bucketOf pa)

/-! ### Access tables (R107) -/

/-- A word of a window of master `m` at target `t`: word 0 or 1 of window `w`. -/
def State.accWord (s : State) (t m w k : Nat) : BitVec 64 :=
  s.acc.getD ((t * 529 + m) * 8 + 2 * w + k)
    (if m = 528 ∧ w = 0 then (if k = 0 then 0x1F else 0xFFFF_FFFF_0000) else 0)

/-- One window covers every byte of an access with the right of this bit (1 read, 2 write, 3 atomic, 4 fetch). -/
def State.winCovers (s : State) (t m w right pa len : Nat) : Bool :=
  let a := s.accWord t m w 0
  let b := s.accWord t m w 1
  a.getLsbD 0 && a.getLsbD right &&
    (a.extractLsb' 16 32).toNat ≤ pa / 65536 && (pa + len - 1) / 65536 ≤ (b.extractLsb' 16 32).toNat

/-- A single enabled window of the master covers the access (R107). -/
def State.accOk (s : State) (t m right pa len : Nat) : Bool :=
  (List.range 4).any fun w => s.winCovers t m w right pa len

/-- The right an access kind needs: 0 read, 1 write, 2 atomic, 3 fetch; a presence query, kind 4, reads (R377). -/
def rightOf (kind : Nat) : Nat := if kind = 4 then 1 else kind + 1

/-- The port of an aperture's destination, where the aperture and the route are valid (R252, R253). -/
def State.linkPort (s : State) (pa : Nat) : Option Nat :=
  let ap := s.links.apertures.getD ((pa - Config.linkBase) / 2 ^ 36) 0
  let rt := s.links.routes.getD (ap.extractLsb' 0 13).toNat 0
  if rt.getLsbD 4 then some (rt.extractLsb' 0 4).toNat else none

/-- Causes of R230 used by the memory system. -/
def cIllegal : Nat := 0x01
def cRegBound : Nat := 0x02
def cDeadlock : Nat := 0x03
def cMisaligned : Nat := 0x04
def cStoreBound : Nat := 0x05
def cStack : Nat := 0x06
def cCursorBound : Nat := 0x07
def cRangeLock : Nat := 0x08
def cUnmapped : Nat := 0x09
def cRefused : Nat := 0x0A
def cPageAbsent : Nat := 0x0B
def cPageRights : Nat := 0x0C
def cPageMalformed : Nat := 0x0D
def cLaunch : Nat := 0x10
def cUndeclared : Nat := 0x11
def cWinInvalid : Nat := 0x12
def cNotFull : Nat := 0x13
def cCopyFailed : Nat := 0x14
def cLayout : Nat := 0x15
def cPair : Nat := 0x16
def cHeap : Nat := 0x17
def cCrewAbsent : Nat := 0x18
def cCrewMismatch : Nat := 0x19
def cOperand : Nat := 0x1A
def cYFull : Nat := 0x1B
def cRank : Nat := 0x1C
def cImage : Nat := 0x1D
def cNan : Nat := 0x1E
def cName : Nat := 0x20
def cRoute : Nat := 0x21
def cTile : Nat := 0x22
def cNever : Nat := 0x23
def cUser : Nat := 0x28
def cDouble : Nat := 0x30
def cFrame : Nat := 0x31
def cEcc : Nat := 0x32

/-- What stands in the way of an access to the link window whoever makes it: the feature or the aperture is absent, or its
destination has no route (R246, R252, R253). -/
def State.linkBad (s : State) (pa : Nat) : Option Nat :=
  let ap := s.links.apertures.getD ((pa - Config.linkBase) / 2 ^ 36) 0
  if !s.feat 6 || !ap.getLsbD 13 then some cUnmapped
  else if (s.linkPort pa).isNone then some cRefused
  else none

/-- The tables of a master's own unit, which checks what the unit asks for: a copy engine's or a receiving link port's (R107,
R253). -/
def ownTables (m : Nat) : List Nat :=
  if 256 ≤ m ∧ m < 512 then [72 + (m - 256)] else if 512 ≤ m ∧ m < 528 then [328 + (m - 512)] else []

/-- The access tables that an access of a master to an address passes (R107): for DRAM its L3 home slice's, and for a master
that is no core its DRAM controller's as well (R82); the port's for a link, the host window's; and the master's own unit's
(log entry 123). -/
def State.tablesFor (s : State) (m pa : Nat) : List Nat :=
  (match regionOf pa with
   | .dram => if m < 256 then [l3Slice pa] else [l3Slice pa, 64 + dramCtl pa]
   | .link => match s.linkPort pa with | some p => [328 + p] | none => []
   | .host => [344]
   | _ => []) ++ ownTables m

/-- Every table that an access passes lets it through (R107). -/
def State.tablesOk (s : State) (m kind pa len : Nat) : Bool :=
  (s.tablesFor m pa).all fun t => s.accOk t m (rightOf kind) pa len

/-- The physical check of an access by a master: none when it may be made (R15, R107, R252, R253, R228). `sup` says the
access is a supervisor's; a user's access to device control space raises illegal-instruction (R5, R15). -/
def State.physCheck (s : State) (master kind pa len : Nat) (sup : Bool) : Option Nat :=
  match regionOf pa with
  | .dram | .host => if s.tablesOk master kind pa len then none else some cRefused
  | .link => (s.linkBad pa).orElse fun _ => if s.tablesOk master kind pa len then none else some cRefused
  | .dev =>
    if !sup then some cIllegal
    -- the mailbox answers the host alone (R261)
    else if Config.devBase + 0xA000 ≤ pa && pa < Config.devBase + 0xA018 && master != 528 then some cRefused
    else none
  | .unmapped => some cUnmapped

/-- The physical check of an access of the base-die scheduler, which no access table checks (R249, R419); a user-level one to
device control space is refused (R5, R15, log entry 124). -/
def State.schedCheck (s : State) (pa : Nat) (sup : Bool) : Option Nat :=
  match regionOf pa with
  | .dram | .host => none
  | .link => s.linkBad pa
  -- the mailbox answers the host alone (R261)
  | .dev => if sup && !(Config.devBase + 0xA000 ≤ pa && pa < Config.devBase + 0xA018) then none else some cRefused
  | .unmapped => some cUnmapped

/-! ### Lines -/

/-- A line's bytes in memory. -/
def State.memLine (s : State) (line : Nat) : BitVec 1024 := BitVec.ofNat 1024 (leNat (s.mem.readN (line * 128) 128))

/-- Bytes of a line from an offset on. -/
def lineBytes (d : BitVec 1024) (off n : Nat) : List (BitVec 8) := (List.range n).map fun i => d.extractLsb' (8 * (off + i)) 8

/-- One byte put into a line. -/
def lineByte (d : BitVec 1024) (i : Nat) (b : BitVec 8) : BitVec 1024 :=
  (d &&& ~~~(BitVec.ofNat 1024 (255 * 2 ^ (8 * i)))) ||| BitVec.ofNat 1024 (b.toNat * 2 ^ (8 * i))

/-- Bytes put into a line from an offset on. -/
def linePut (d : BitVec 1024) (off : Nat) : List (BitVec 8) → BitVec 1024
  | [] => d
  | b :: t => linePut (lineByte d off b) (off + 1) t

/-- The mask of `n` bytes from an offset on. -/
def byteMask (off n : Nat) : BitVec 128 := BitVec.ofNat 128 ((2 ^ n - 1) * 2 ^ off)

/-- The bytes a mask selects from `new`, the others from `old`. -/
def lineMerge (old new : BitVec 1024) (mask : BitVec 128) : BitVec 1024 :=
  (List.range 128).foldl (fun d i => if mask.getLsbD i then lineByte d i (new.extractLsb' (8 * i) 8) else d) old

/-- A write clears the mark of every poisoned word that it covers whole (R241). -/
def State.unpoison (s : State) (pa n : Nat) : State :=
  { s with poison := s.poison.filter fun w => !(pa ≤ 8 * w && 8 * w + 8 ≤ pa + n) }

/-- Bytes written at the L3 home: the coherence order of R110. -/
def State.memPut (s : State) (pa : Nat) (bs : List (BitVec 8)) : State := { s with mem := s.mem.writeN pa bs }

/-- Bytes written at the L3 home by a master that has no cache (R241). -/
def State.memStore (s : State) (pa : Nat) (bs : List (BitVec 8)) : State := (s.memPut pa bs).unpoison pa bs.length

/-- Masked bytes of a line written at the L3 home. -/
def State.memPutLine (s : State) (line : Nat) (d : BitVec 1024) (mask : BitVec 128) : State :=
  (List.range 128).foldl
    (fun t i => if mask.getLsbD i then t.memPut (line * 128 + i) [d.extractLsb' (8 * i) 8] else t) s

/-! ### Victims (R96) -/

/-- The victim among lines that stand in the order of last use, the latest first (R96): the least recently used of those with
the lowest eviction priority. -/
def victim {α : Type} (evp : α → Nat) (l : List α) : Option α :=
  let m := leastOf (l.map evp)
  l.reverse.find? fun x => evp x == m

/-! ### The L3 and its compressed pages (R95, R103) -/

/-- The lines of an L3 slice: 16 MiB (R9). -/
def l3Lines : Nat := 131072

/-- The L3 holds a line. -/
def State.l3Has (s : State) (line : Nat) : Bool := s.l3.any fun x => x.line == line

/-- An address's channel retrains (R258). -/
def State.retraining (s : State) (pa : Nat) : Bool :=
  s.regs.dramBusy.contains (dramCtl pa) && s.regs.dramChan.getD (dramCtl pa) 0 == dramChannel pa

/-- A line waits for its channel's retraining (R258): its channel retrains and the L3 does not hold it. -/
def State.pinned (s : State) (pa : Nat) : Bool := s.retraining pa && !s.l3Has (pa / 128)

/-- A line of an interval waits for its channel's retraining (R258). -/
def State.pinnedIn (s : State) (pa n : Nat) : Bool :=
  (List.range ((pa % 128 + n + 127) / 128)).any fun k => s.pinned (pa / 128 * 128 + 128 * k)

/-- A die's requests for an address are held: its bucket moves (R100). -/
def State.bucketHeld (s : State) (d pa : Nat) : Bool :=
  match (s.die d).move with
  | some m => bucketOf pa == m.bucket
  | none => false

/-- The home of a DRAM address answers a request that a die makes now for a page of an ALLOC (R100, R258). -/
def State.homeOpen (s : State) (d pa alloc : Nat) : Bool := !(alloc ≥ 2 && s.bucketHeld d pa) && !s.pinned pa

/-- The byte of the metadata array that holds the size code of an address's block, and the code's lowest bit in it: the spec
states no order of the two codes of a byte, and the lower block's stands in the lower half (log entry 122). -/
def State.codePlace (s : State) (pa : Nat) : Nat × Nat :=
  ((s.regs.cmpmeta.extractLsb' 12 36).toNat * 4096 + pa / 1024, 4 * (pa / 512 % 2))

/-- The size code of an address's block (R103); a block whose code stands in no DRAM is read as uncompressed (log entry 126). -/
def State.sizeCode (s : State) (pa : Nat) : Nat :=
  if Config.dramTop ≤ (s.codePlace pa).1 then 15 else bits (s.mem.read (s.codePlace pa).1).toNat (s.codePlace pa).2 4

/-- A block is compressed again after a write (R103): its code is one of 1 to 8, or 0 to 8 where the block is all zero; the
spec states no compression, so which one is a free value. -/
def State.recode (s : State) (pa : Nat) : State :=
  let zero := (s.mem.readN (pa / 512 * 512) 512).all (· == 0)
  let f := Config.sizeCode s.freeCtr
  let c := if zero then f % 9 else 1 + f % 8
  let p := s.codePlace pa
  let old := (s.mem.read p.1).toNat
  if Config.dramTop ≤ p.1 then s
  else { s with freeCtr := s.freeCtr + 1, mem := s.mem.write p.1 (BitVec.ofNat 8 (old - bits old p.2 4 * 2 ^ p.2 + c * 2 ^ p.2)) }

/-- A compressible block whose code is 0 is all zero (R103), but for its lines that the L3 holds. -/
def State.unpack (s : State) (line : Nat) (a : Attr) : State :=
  if a.cmp && s.sizeCode (line * 128) == 0 then
    (List.range 4).foldl (fun u k =>
      let n := line / 4 * 4 + k
      if u.l3Has n then u else { u with mem := u.mem.clear (n * 128) 128 }) s
  else s

/-- The L3 keeps a line, and a victim of a full slice leaves (R95, R96); the lines of a channel that retrains are pinned, and a
line for which no other can leave is not kept (R258). -/
def State.l3Keep (s : State) (line : Nat) (a : Attr) : State :=
  match s.l3.find? fun x => x.line == line with
  | some x => { s with l3 := { x with cmp := x.cmp || a.cmp } :: s.l3.filter fun y => y.line != line }
  | none =>
    let s1 := s.unpack line a
    let mine := s1.l3.filter fun y => l3Slice (y.line * 128) == l3Slice (line * 128)
    if mine.length < l3Lines then { s1 with l3 := ⟨line, a.evp, a.cmp⟩ :: s1.l3 }
    else
      match victim (·.evp) (mine.filter fun y => !s1.retraining (y.line * 128)) with
      | some v => { s1 with l3 := ⟨line, a.evp, a.cmp⟩ :: s1.l3.filter fun y => y.line != v.line }
      | none => s1

/-- An access at the L3 home finds the line: kept for ALLOC 1 and above, else served without being kept (R95). -/
def State.l3Serve (s : State) (line : Nat) (a : Attr) : State :=
  if 1 ≤ a.alloc then s.l3Keep line a else if s.l3Has line then s else s.unpack line a

/-- Bytes that an access with page attributes writes at the L3 home (R95, R103). -/
def State.homePut (s : State) (pa : Nat) (bs : List (BitVec 8)) (a : Attr) : State :=
  let s1 := (s.l3Serve (pa / 128) a).memPut pa bs
  if a.cmp then s1.recode pa else s1

/-- An address's block is known to lie in a compressible page: the L3 keeps a line of it as one, or a TLB holds its leaf (R103). An
access that comes with no page, from the host, a link or a base-die unit, has no other way to know it (log entry 145). -/
def State.cmpAt (s : State) (pa : Nat) : Bool :=
  let has := fun (e : TlbE) => e.cmp && e.pa ≤ pa && pa < e.pa + 2 ^ e.lg
  (s.l3.any fun x => x.cmp && x.line / 4 == pa / 512) || (s.cores.any fun p => p.2.tlb.any has) || s.dies.any fun p => p.2.l2tlb.any has

/-- The attributes of an access that comes with no page: the home serves it without keeping the line (R95). -/
def State.bareAttr (s : State) (pa : Nat) : Attr := ⟨0, false, 0, s.cmpAt pa⟩

/-- The pieces of an interval that lie in one line each: address and length. -/
def linePieces (pa n : Nat) : List (Nat × Nat) :=
  (List.range ((pa % 128 + n + 127) / 128)).map fun k =>
    let lo := max pa (pa / 128 * 128 + 128 * k)
    (lo, min (pa + n) (pa / 128 * 128 + 128 * k + 128) - lo)

/-- Bytes that an access with page attributes reads at the L3 home (R95, R103). -/
def State.homeGet (s : State) (pa n : Nat) (a : Attr) : List (BitVec 8) × State :=
  let s1 := (linePieces pa n).foldl (fun (u : State) p => u.l3Serve (p.1 / 128) a) s
  (s1.mem.readN pa n, s1)

/-- Bytes that an access with no page reads at the L3 home. -/
def State.bareGet (s : State) (pa n : Nat) : List (BitVec 8) × State :=
  let s1 := (linePieces pa n).foldl (fun (u : State) p => u.l3Serve (p.1 / 128) (u.bareAttr p.1)) s
  (s1.mem.readN pa n, s1)

/-- Bytes that an access with no page writes at the L3 home, which clears the marks of poisoned words that it covers (R241). -/
def State.barePut (s : State) (pa : Nat) (bs : List (BitVec 8)) : State :=
  ((linePieces pa bs.length).foldl (fun (u : State) p => u.homePut p.1 ((bs.drop (p.1 - pa)).take p.2) (u.bareAttr p.1)) s).unpoison
    pa bs.length

/-- The L3's write completion time for a line (R113). -/
def State.l3Wct (s : State) (line : Nat) : Nat := max s.time (s.l3Granted.getD line 0)

/-! ### The L2 of a die -/

/-- A line of the die's L2. -/
def Die.l2Find (d : Die) (line : Nat) : Option L2Line := d.l2.find? fun x => x.line == line

/-- Puts a line into the die's L2, as the latest used. -/
def Die.l2Set (d : Die) (x : L2Line) : Die := { d with l2 := x :: d.l2.filter fun y => y.line != x.line }

/-- Drops a line from the die's L2. -/
def Die.l2Drop (d : Die) (line : Nat) : Die := { d with l2 := d.l2.filter fun y => y.line != line }

/-- The ordinary lines of an L2 slice: 4 MiB less the Cocoon carve of 64 KiB units (R96, R216). -/
def Die.l2Lines (d : Die) : Nat := 32768 - 512 * d.cocoon

/-- A group receives a write completion time (R113). -/
def State.kwct (s : State) (t g w : Nat) : State := s.modGrp t g fun y => { y with kwct := max y.kwct w }

/-- The attributes with which the L3 receives a line of a die: ALLOC 2 or 3 (R95). -/
def L2Line.attr (x : L2Line) : Attr := ⟨2, false, x.evp, x.cmp⟩

/-- Forwards one entry to the L3 home and records its write completion time for the groups that stored it (R113). -/
def State.forwardOne (s : State) (d : Nat) (f : Fwd) : State :=
  let a := match (s.die d).l2Find f.line with | some x => x.attr | none => ⟨2, false, 0, s.cmpAt (f.line * 128)⟩
  let s1 := (s.l3Keep f.line a).memPutLine f.line f.data f.mask
  let s2 := if a.cmp then s1.recode (f.line * 128) else s1
  f.owners.foldl (fun u p => u.modGrp p.1 p.2 fun y => { y with wct3 := max y.wct3 (s2.l3Wct f.line) }) s2

/-- Forwards a die's entries in order as long as `n` says, keeping those that do not match (R113). -/
def forwardList (d : Nat) (keep : Fwd → Bool) : List Fwd → State → State × List Fwd
  | [], s => (s, [])
  | f :: t, s =>
    if keep f then
      let r := forwardList d keep t s
      (r.1, f :: r.2)
    else forwardList d keep t (s.forwardOne d f)

/-- Forwards every entry of a die that a test selects, in order. -/
def State.forward (s : State) (d : Nat) (sel : Fwd → Bool) : State :=
  let r := forwardList d (fun f => !sel f) (s.die d).fwd s
  r.1.modDie d fun x => { x with fwd := r.2 }

/-- The entries of the line's slice up to the last one of the line: forwarding them keeps the slice's order (R113). -/
def State.forwardLine (s : State) (d line : Nat) : State :=
  let q := (s.die d).fwd
  let sl := s.sliceOf d (line * 128)
  let inSlice := fun (f : Fwd) => s.sliceOf d (f.line * 128) == sl
  let k := (q.reverse.dropWhile fun f => f.line != line).length
  let marked := (q.take k).filter inSlice
  if marked.any (fun f => f.line == line) then
    let s1 := marked.foldl (fun t f => t.forwardOne d f) s
    s1.modDie d fun x => { x with fwd := (q.take k).filter (fun f => !inSlice f) ++ q.drop k }
  else s

/-- A line leaves a die's L2, its unforwarded bytes first (R110, R113). -/
def State.l2Evict (s : State) (d line : Nat) : State := (s.forwardLine d line).modDie d fun z => z.l2Drop line

/-- Lines leave a slice that holds more than its carve allows, victims first (R96, R216); `n` bounds them. -/
def State.l2Trim (s : State) (d sl : Nat) : Nat → State
  | 0 => s
  | n + 1 =>
    let mine := (s.die d).l2.filter fun y => s.sliceOf d (y.line * 128) == sl
    if mine.length ≤ (s.die d).l2Lines then s
    else match victim (·.evp) mine with
      | some v => (s.l2Evict d v.line).l2Trim d sl n
      | none => s

/-- Every slice of a die holds no more lines than its carve allows (R96, R216). -/
def State.l2TrimAll (s : State) (d : Nat) : State :=
  (List.range 64).foldl (fun u sl => u.l2Trim d sl (u.die d).l2.length) s

/-- The slice of a line that is not in the L2 has room for it: a victim of a full one leaves (R96). -/
def State.l2Room (s : State) (d line : Nat) : State :=
  let z := s.die d
  if z.l2.length < z.l2Lines then s
  else
    let mine := z.l2.filter fun y => s.sliceOf d (y.line * 128) == s.sliceOf d (line * 128)
    if mine.length < z.l2Lines then s
    else match victim (·.evp) mine with
      | some v => s.l2Evict d v.line
      | none => s

/-- The L3 grants a lease on a line to an L2 (R112). -/
def State.l3Grant (s : State) (line : Nat) (a : Attr) : State :=
  { s with l3Granted := s.l3Granted.set line (max (s.time + s.regs.l2lease) (s.l3Granted.getD line 0)) }.l3Keep line a

/-- The die's L2 holds a valid copy of a line; a missing or expired one is fetched with a new lease (R95, R112). A line
with unforwarded bytes is forwarded first and never refilled before (R110). -/
def State.l2Fetch (s : State) (d line : Nat) (a : Attr) : State :=
  match (s.die d).l2Find line with
  | some x =>
    if s.time < x.lease then s.modDie d fun z => z.l2Set x
    else
      let s2 := (s.forwardLine d line).l3Grant line a
      s2.modDie d fun z => z.l2Set { x with data := s2.memLine line, lease := s2.time + s2.regs.l2lease, cmp := x.cmp || a.cmp }
  | none =>
    let s2 := (s.l2Room d line).l3Grant line a
    s2.modDie d fun z => z.l2Set ⟨line, s2.memLine line, s2.time + s2.regs.l2lease, a.evp, a.cmp⟩

/-- The L2's bytes of a line that has just been fetched. -/
def State.l2Data (s : State) (d line : Nat) : BitVec 1024 :=
  match (s.die d).l2Find line with
  | some x => x.data
  | none => s.memLine line

/-- The slice that serves an access of a bucket counts it for the rebalancer (R99). -/
def State.countAccess (s : State) (d pa : Nat) : State :=
  s.modDie d fun x => { x with counts := x.counts.upd (4096 * x.sliceOfBucket (bucketOf pa) + bucketOf pa) 0 (· + 1) }

/-- A line fetched into the L2 for an access that its slice serves. -/
def State.l2Serve (s : State) (d pa : Nat) (a : Attr) : State := (s.l2Fetch d (pa / 128) a).countAccess d pa

/-- A lease granted to a copy below the L2: expiry min(now + L1LEASE, the L2's own expiry) (R112). -/
def State.grantL1 (s : State) (d line : Nat) : Nat × State :=
  match (s.die d).l2Find line with
  | some x =>
    let e := min (s.time + s.regs.l1lease) x.lease
    (e, s.modDie d fun z => { z.l2Set x with granted := z.granted.upd line 0 (max e) })
  | none => (s.time, s)

/-- The latest expiry a die's L2 has granted on a line, kept when the line leaves it, with the floor a moved bucket keeps (R100,
R112, R113). -/
def Die.latest (z : Die) (line : Nat) : Nat := max (z.granted.getD line 0) (z.floors.getD (bucketOf (line * 128)) 0)

/-- The L2's write completion time for a line (R113). -/
def State.l2Wct (s : State) (d line : Nat) : Nat := max s.time ((s.die d).latest line)

/-- A store of a group is written at a slice, which joins both path sets (R116). -/
def State.addPath (s : State) (t g sl : Nat) : State :=
  s.modGrp t g fun y =>
    { y with pathDie := if y.pathDie.contains sl then y.pathDie else sl :: y.pathDie,
             pathPkg := if y.pathPkg.contains sl then y.pathPkg else sl :: y.pathPkg }

/-- A line's bytes change at the die's L2 home for groups (R113): the changed bytes wait to be forwarded, each group receives
the write completion time, and the slice joins its path sets. -/
def State.l2Take (s : State) (d line : Nat) (a : Attr) (owners : List (Nat × Nat)) (mask : BitVec 128) (data : BitVec 1024)
    (upd : BitVec 1024 → BitVec 1024) : State :=
  let s1 := s.l2Fetch d line a
  let s2 := s1.modDie d fun z =>
    match z.l2Find line with
    | some x => { z.l2Set { x with data := upd x.data } with fwd := z.fwd ++ [⟨line, mask, data, owners, s1.time⟩] }
    | none => z
  owners.foldl (fun u p => (u.kwct p.1 p.2 (s2.l2Wct d line)).addPath p.1 p.2 (s2.sliceOf d (line * 128))) s2

/-- Bytes written at the die's L2 home by a master of the die for a group (R113). -/
def State.l2Write (s : State) (d t g pa : Nat) (a : Attr) (bs : List (BitVec 8)) : State :=
  let off := pa % 128
  s.l2Take d (pa / 128) a [(t, g)] (byteMask off bs.length) (linePut 0 off bs) fun x => linePut x off bs

/-! ### The L1 of a core -/

/-- A line of the core's L1. -/
def Core.l1Find (c : Core) (line : Nat) : Option L1Line := c.l1.find? fun x => x.line == line

/-- Puts a line into the core's L1, as the latest used. -/
def Core.l1Set (c : Core) (x : L1Line) : Core := { c with l1 := x :: c.l1.filter fun y => y.line != x.line }

/-- Drops a line from the core's L1. -/
def Core.l1Drop (c : Core) (line : Nat) : Core := { c with l1 := c.l1.filter fun y => y.line != line }

/-- Drops a line from the core's metadata cache. -/
def Core.mdcDrop (c : Core) (line : Nat) : Core := { c with mdc := c.mdc.filter fun y => y.line != line }

/-- Puts a line into the core's metadata cache of 256 KiB, as the latest used; the least recently used leaves a full one (R19,
R182). -/
def Core.mdcSet (c : Core) (y : RoLine) : Core := { c with mdc := (y :: (c.mdcDrop y.line).mdc).take 2048 }

/-- The lines of the L1: its carve units of 256 KiB (R20, R95). -/
def Core.l1Lines (c : Core) : Nat := 2048 * c.carve.getD 3 0

/-- Bytes written into the core's present copies of a line, in its L1 and its metadata cache (R95, R110, R182); older bytes of
stores of the core under them are not written back any more; what the instruction path holds of the line goes, so that a later
fetch sees the bytes (R418). -/
def State.l1Refresh (s : State) (c pa : Nat) (bs : List (BitVec 8)) : State :=
  s.modCore c fun z =>
    let z1 := { z with
      mdc := z.mdc.map fun (y : RoLine) => if y.line = pa / 128 then { y with data := linePut y.data (pa % 128) bs } else y
      ipath := z.ipath.filter fun y => y.line != pa / 128 }
    match z1.l1Find (pa / 128) with
    | some x => z1.l1Set { x with data := linePut x.data (pa % 128) bs, dirty := x.dirty &&& ~~~byteMask (pa % 128) bs.length }
    | none => z1

/-- The attributes of a line the L1 holds. -/
def L1Line.attr (x : L1Line) : Attr := ⟨3, true, x.evp, x.cmp⟩

/-- Writes the bytes of a line that stores of the core left in its L1 back to the L2 home, as stores of the groups that made
them and of those that `who` names (R95, R113, R115). -/
def State.writeBack (s : State) (c : Nat) (who : List (Nat × Nat)) (x : L1Line) : State :=
  if x.dirty = 0 then s
  else
    let s1 := (s.l2Take (dieOf c) x.line x.attr (x.owners ++ who.filter fun p => !x.owners.contains p) x.dirty
      (lineMerge 0 x.data x.dirty) fun d => lineMerge d x.data x.dirty).countAccess (dieOf c) (x.line * 128)
    s1.modCore c fun z => { z with l1 := z.l1.map fun y => if y.line = x.line then { y with dirty := 0, owners := [] } else y }

/-- What stores of the core left in its L1 of a line is written back. -/
def State.cleanLine (s : State) (c line : Nat) (who : List (Nat × Nat)) : State :=
  match (s.core c).l1Find line with
  | some x => s.writeBack c who x
  | none => s

/-- A line leaves the L1, written back first (R95, R96). -/
def State.l1Evict (s : State) (c line : Nat) : State := (s.cleanLine c line []).modCore c fun z => z.l1Drop line

/-- What stores of the core left of a line in its L1 may be written back now (R100, R258): its home answers. -/
def State.cleanOpen (s : State) (c : Nat) (x : L1Line) : Bool := x.dirty == 0 || s.homeOpen (dieOf c) (x.line * 128) 3

/-- Every line of a core's L1 may be written back now. -/
def State.allOpen (s : State) (c : Nat) : Bool := (s.core c).l1.all (s.cleanOpen c)

/-- What stores of the core left outside its private region may all be written back now (R100, R115). -/
def State.pubOpen (s : State) (c : Nat) : Bool := (s.core c).l1.all fun x => x.priv || s.cleanOpen c x

/-- The L1 takes a line now: it holds it, has room, or its victim may leave (R96, R100). -/
def State.fillOpen (s : State) (c line : Nat) : Bool :=
  ((s.core c).l1Find line).isSome || (s.core c).l1.length < (s.core c).l1Lines ||
    (match victim (·.evp) (s.core c).l1 with
     | some v => s.cleanOpen c v
     | none => true)

/-- What a fill of the L1 waits for: the home of the victim's line (R100, R258). -/
def State.fillWait (s : State) (c line : Nat) : Option Wait :=
  if s.fillOpen c line then none
  else match victim (·.evp) (s.core c).l1 with
    | some v => some (.home (dieOf c) (v.line * 128) 3)
    | none => none

/-- The L1 has room for a line that is not in it: a victim of a full one leaves (R96). -/
def State.l1Room (s : State) (c : Nat) : State :=
  if (s.core c).l1.length < (s.core c).l1Lines then s
  else match victim (·.evp) (s.core c).l1 with
    | some v => s.l1Evict c v.line
    | none => s

/-- Lines leave an L1 whose carve has become smaller, victims first; `n` bounds them. -/
def State.l1Trim (s : State) (c : Nat) : Nat → State
  | 0 => s
  | n + 1 =>
    if (s.core c).l1.length ≤ (s.core c).l1Lines then s
    else match victim (·.evp) (s.core c).l1 with
      | some v => (s.l1Evict c v.line).l1Trim c n
      | none => s

/-- The core's L1 holds a valid copy of a line: an expired or missing one is fetched again from the L2, and bytes that the
core's stores have written stay (R95, R112). -/
def State.l1Fetch (s : State) (c line : Nat) (a : Attr) (priv : Bool) : State :=
  match (s.core c).l1Find line with
  | some x =>
    if s.time < x.lease then s.modCore c fun z => z.l1Set x
    else
      let s1 := s.l2Serve (dieOf c) (line * 128) a
      let (e, s2) := s1.grantL1 (dieOf c) line
      let d := lineMerge (s2.l2Data (dieOf c) line) x.data x.dirty
      s2.modCore c fun z => (z.l1Set { x with data := d, lease := e }).mdcDrop line
  | none =>
    let s1 := (s.l1Room c).l2Serve (dieOf c) (line * 128) a
    let (e, s2) := s1.grantL1 (dieOf c) line
    s2.modCore c fun z => (z.l1Set ⟨line, s2.l2Data (dieOf c) line, 0, [], e, a.evp, a.cmp, priv⟩).mdcDrop line

/-- The L1's bytes of a line that has just been fetched. -/
def State.l1Data (s : State) (c line : Nat) : BitVec 1024 :=
  match (s.core c).l1Find line with
  | some x => x.data
  | none => s.memLine line

/-! ### Performing accesses to DRAM -/

/-- The bytes a load of a core returns, by the page's ALLOC (R95, R112). -/
def State.loadBytes (s : State) (c pa n : Nat) (a : Attr) (priv : Bool) : List (BitVec 8) × State :=
  let line := pa / 128
  if a.alloc ≥ 3 then
    let s1 := s.l1Fetch c line a priv
    (lineBytes (s1.l1Data c line) (pa % 128) n, s1)
  else if a.alloc = 2 then
    let s1 := s.l2Serve (dieOf c) pa a
    (lineBytes (s1.l2Data (dieOf c) line) (pa % 128) n, s1)
  else
    let s1 := s.l3Serve line a
    (s1.mem.readN pa n, s1)

/-- A store of a core is performed (R95, R109, R113): in the L1 for a plain store to a write-back page, at the L2 home for
other cached pages, at the L3 home for ALLOC 0 and 1. -/
def State.storeBytes (s : State) (c t g pa : Nat) (a : Attr) (rel priv : Bool) (bs : List (BitVec 8)) : State :=
  let line := pa / 128
  let s := s.unpoison pa bs.length
  if a.alloc ≥ 3 && a.wb && !rel then
    let s1 := (s.l1Fetch c line a priv).l1Refresh c pa bs
    s1.modCore c fun z =>
      { z with l1 := z.l1.map fun x =>
          if x.line = line then
            { x with dirty := x.dirty ||| byteMask (pa % 128) bs.length
                     owners := if x.owners.contains (t, g) then x.owners else (t, g) :: x.owners }
          else x }
  else if a.alloc ≥ 2 then
    ((s.l2Write (dieOf c) t g pa a bs).countAccess (dieOf c) pa).l1Refresh c pa bs
  else (s.homePut pa bs a).kwct t g s.time

/-- The bytes at the home of an atomic or event word of a scope, with the home brought up to date (R109, R119, R326): the
L2 home for scopes up to .die on pages with ALLOC 2 or 3, else the L3 home. -/
def State.homeBytes (s : State) (c pa n : Nat) (a : Attr) (scope : Nat) : List (BitVec 8) × State :=
  let d := dieOf c
  let line := pa / 128
  let s0 := s.cleanLine c line []
  if a.alloc ≥ 2 && scope ≤ 3 then
    let s1 := s0.l2Serve d pa a
    (lineBytes (s1.l2Data d line) (pa % 128) n, s1)
  else
    let s1 := (s0.forwardLine d line).l3Serve line a
    (s1.mem.readN pa n, s1)

/-- New bytes written at the home that `homeBytes` read; the core's own copies follow, so that no later load of the lane
returns an older write (R110, R119). -/
def State.homeWrite (s : State) (c t g pa : Nat) (a : Attr) (scope : Nat) (bs : List (BitVec 8)) : State :=
  let d := dieOf c
  let line := pa / 128
  let s := s.unpoison pa bs.length
  if a.alloc ≥ 2 && scope ≤ 3 then (s.l2Write d t g pa a bs).l1Refresh c pa bs
  else
    let s1 := s.homePut pa bs a
    let s2 := s1.modDie d fun z =>
      match z.l2Find line with
      | some x => z.l2Set { x with data := linePut x.data (pa % 128) bs }
      | none => z
    (s2.kwct t g (if a.alloc < 2 then s2.time else s2.l3Wct line)).l1Refresh c pa bs

/-- An interval has poisoned bytes (R241). -/
def State.poisoned (s : State) (pa n : Nat) : Bool := s.poison.any fun w => overlaps (8 * w) 8 pa n

end Sys2Proof.Machine
end

