-- ==== Sys2Proof/Machine/Trans.lean ====
section
/-! DEFINITION. Machine/Trans.lean: page tables, TLBs, walks and translation faults (R101 to R106). -/
namespace Sys2Proof.Machine
open Sys2Proof

/-- The 64 KiB page of an address, by which misses merge and faults are reported (R104, R105). -/
def pageOf (va : Nat) : Nat := va / 65536

/-- An entry covers an address of an ASID (R104). -/
def TlbE.covers (e : TlbE) (asid va : Nat) : Bool := e.asid == asid && va / 2 ^ e.lg == e.va / 2 ^ e.lg

/-- The access kind is permitted by the leaf (R102): 0 read, 1 write, 2 atomic, 3 fetch, 4 presence query (R377). -/
def TlbE.permits (e : TlbE) (kind : Nat) (sup : Bool) : Bool :=
  (sup || e.usr) &&
    (match kind with
     | 0 => e.rd
     | 1 => e.wr
     | 2 => e.wr
     | 3 => e.ex
     | _ => true)

/-- The physical address an entry gives. -/
def TlbE.phys (e : TlbE) (va : Nat) : Nat := e.pa + va % 2 ^ e.lg

/-- The translation of an address in the core's TLB or its die's (R104). -/
def State.tlbFind (s : State) (c asid va : Nat) : Option TlbE :=
  match (s.core c).tlb.find? fun e => e.covers asid va with
  | some e => some e
  | none => (s.die (dieOf c)).l2tlb.find? fun e => e.covers asid va

/-- An aligned 8-byte word at the L3 home. -/
def State.memWord (s : State) (pa : Nat) : Nat := leNat (s.mem.readN pa 8)

/-- The levels of the walk (R101): VA bits indexed (low bit, width) and log2 of a leaf's page, 0 where no leaf may stand. -/
def walkLevels : List (Nat × Nat × Nat) := [(48, 8, 0), (39, 9, 0), (30, 9, 30), (21, 9, 21), (16, 5, 16)]

/-- An entry is malformed at a level whose leaf has this page size, `last` for level 4 (R102). -/
def pteBad (w lg : Nat) (last : Bool) : Bool :=
  let leaf := bit w 1
  bits w 48 16 != 0 || (leaf && lg == 0) || (!leaf && last) || (!leaf && bits w 2 10 != 0) ||
    (leaf && lg != 0 && (bits w 12 36 * 4096) % 2 ^ lg != 0) || (leaf && bit w 8 && bits w 6 2 < 3)

/-- The leaf an entry describes. -/
def pteLeaf (asid va w lg : Nat) (cmpOn : Bool) : TlbE :=
  { asid, va := va / 2 ^ lg * 2 ^ lg, lg, pa := bits w 12 36 * 4096, rd := bit w 2, wr := bit w 3, ex := bit w 4,
    usr := bit w 5, alloc := bits w 6 2, wb := bit w 8, cmp := bit w 9 && cmpOn, evp := bits w 10 2 }

/-- A translation to a physical address that nothing answers stands for a walk whose table lies there: its accesses meet
physical-unmapped (R15, log entry 127). -/
def TlbE.nowhere (asid va table : Nat) : TlbE :=
  { asid, va := pageOf va * 65536, lg := 16, pa := table / 65536 * 65536, rd := true, wr := true, ex := true, usr := true,
    alloc := 0, wb := false, cmp := false, evp := 0 }

/-- A compressible leaf whose block's size code stands at an address that nothing answers: its accesses meet physical-unmapped (R15,
R103). -/
def State.codeGone (s : State) (e : TlbE) (va : Nat) : Bool := e.cmp && regionOf (s.codePlace (e.phys va)).1 == .unmapped

/-- The walk from a table on: a leaf, or the cause of the fault (R101, R102). The non-leaf entries that it reads enter the walk
cache, which answers in their place until TLBINV removes them (R101, R104). -/
def walkFrom (asid va : Nat) : List (Nat × Nat × Nat) → Nat → State → Except Nat TlbE × State
  | [], _, s => (.error cPageMalformed, s)
  | (lo, wd, lg) :: t, table, s =>
    match s.walkCache.find? fun e => e.asid == asid && e.lg == lo && e.span == va / 2 ^ lo with
    | some e => walkFrom asid va t e.table s
    | none =>
      if regionOf table = .unmapped then (.ok (TlbE.nowhere asid va table), s)
      else
        let w := s.memWord (table + 8 * bits va lo wd)
        if !bit w 0 then (.error cPageAbsent, s)
        else if pteBad w lg t.isEmpty then (.error cPageMalformed, s)
        else if bit w 1 then
          let e := pteLeaf asid va w lg (s.feat 5)
          (.ok (if s.codeGone e va then TlbE.nowhere asid va (s.codePlace (e.phys va)).1 else e), s)
        else
          let next := bits w 12 36 * 4096
          walkFrom asid va t next { s with walkCache := ⟨asid, lo, va / 2 ^ lo, next⟩ :: s.walkCache }

/-- A walk of an ASID's table; the ASID's table entry is kept until TLBINV, and one with V = 0 maps nothing (R106). -/
def State.walk (s : State) (asid va : Nat) : Except Nat TlbE × State :=
  let e := s.asidCache.getD asid (s.asidTab.getD asid 0)
  let s1 := { s with asidCache := s.asidCache.set asid e }
  if !bit e.toNat 0 then (.error cPageAbsent, s1) else walkFrom asid va walkLevels (bits e.toNat 12 36 * 4096) s1

/-- A leaf enters the core's TLB and its die's, the oldest entry leaving a full one (R104). -/
def State.tlbFill (s : State) (c : Nat) (e : TlbE) : State :=
  (s.modCore c fun z => { z with tlb := (e :: z.tlb).take 256 }).modDie (dieOf c) fun z =>
    { z with l2tlb := (e :: z.l2tlb).take 8192 }

/-- The buffer of 256 fault records that wait for the ring has no room for another (R250): a new faulting access parks without a
record. -/
def FaultQ.buffered (f : FaultQ) : Bool := 256 ≤ f.wait.length || !f.late.isEmpty

/-- A record joins the buffer, or where that is full those that wait for it, so that records are written in the order in which
their faults were detected (R250); `held` says that an access stays parked for it. -/
def FaultQ.push (f : FaultQ) (r : FRec) (held : Bool) : FaultQ :=
  if f.buffered then { f with late := f.late ++ [(r, held)] } else { f with wait := f.wait ++ [r] }

/-- A fault record joins the records that wait to be written (R105, R250). -/
def State.pushFault (s : State) (va cause asid kind master : Nat) : State :=
  { s with fq := s.fq.push ⟨va, cause, asid, kind, master, s.time⟩ false }

/-- A refused access is reported (R108); no other physical cause is. -/
def State.pushRefused (s : State) (va cause asid kind master : Nat) : State :=
  if cause = cRefused then s.pushFault va cause asid kind master else s

/-- The KIND under which the faults of an access are recorded (R105): a presence query's as a read's. -/
def recKind (kind : Nat) : Nat := if kind = 4 then 0 else kind

/-- The outstanding fault of an ASID, page and kind (R105). -/
def State.outstFind (s : State) (asid page kind : Nat) : Option Outst :=
  s.outst.find? fun o => o.asid == asid && o.page == page && o.kind == recKind kind

/-- A translation fault is reported once per (ASID, page, kind) while it is outstanding; a speculative group's only when
its task has committed (R105). -/
def State.reportXlate (s : State) (va cause asid kind master : Nat) (spec : Bool) : State :=
  let o := (s.outstFind asid (pageOf va) kind).getD ⟨asid, pageOf va, recKind kind, cause, false, false⟩
  let put := fun (u : State) (p : Outst) => { u with outst := (u.outst.filter fun q => q != o) ++ [p] }
  let u := { s with fq := s.fq.push ⟨va, cause, asid, recKind kind, master, s.time⟩ true }
  if o.recorded || o.owed then s
  else if spec then put s o
  else put u { o with recorded := !s.fq.buffered, owed := s.fq.buffered }

/-- The buffer of fault records has room again: the oldest record that waits for it takes it (R250). -/
def State.payOwed (s : State) : State :=
  match s.fq.late with
  | [] => s
  | (r, held) :: rest =>
    if 256 ≤ s.fq.wait.length then s
    else
      let mine := fun (o : Outst) => held && o.owed && o.asid == r.asid && o.page == pageOf r.va && o.kind == r.kind
      { s with
        fq := { s.fq with wait := s.fq.wait ++ [r], late := rest }
        outst := s.outst.map fun o => if mine o then { o with recorded := true, owed := false } else o }

/-- The accesses of an ASID to a page are made again: the records that they wait to write go (R105, R250). -/
def FaultQ.forget (f : FaultQ) (asid page : Nat) : FaultQ :=
  { f with late := f.late.filter fun p => !(p.2 && p.1.asid == asid && pageOf p.1.va == page) }

/-- What the TLBs say of an access. -/
inductive Xl where
  | ok (e : TlbE)
  | miss
  | fault (cause : Nat)
  deriving DecidableEq, Repr

/-- The translation of an access at issue (R102, R104, R105). A page that is absent or malformed, and whose fault is
outstanding, faults; the rights are those of the leaf that the TLBs hold. -/
def State.xlate (s : State) (c asid va kind : Nat) (sup : Bool) : Xl :=
  match s.tlbFind c asid va with
  | some e => if e.permits kind sup then .ok e else .fault cPageRights
  | none =>
    match s.outstFind asid (pageOf va) kind with
    | some o => if o.cause = cPageRights then .miss else .fault o.cause
    | none => .miss

/-- The misses of the base die by the walk they wait for (R104): ASID and page. -/
def State.walks (s : State) : List (Nat × Nat) := (s.misses.map fun m => (m.asid, m.page)).eraseDups

/-- A miss joins the walk of its page (R104); the base die holds at most 4,096, and one that finds no room comes again. -/
def State.addMiss (s : State) (c asid va kind : Nat) (spec : Bool) : State :=
  if s.misses.any fun m => m.core == c && m.asid == asid && m.page == pageOf va && m.kind == kind then s
  else if 4096 ≤ s.misses.length then s
  else { s with misses := s.misses ++ [⟨c, asid, pageOf va, va, kind, spec⟩] }

/-- The core whose unit missed: a copy engine is master 256 + its core (R107). -/
def Miss.home (m : Miss) : Nat := m.core % 256

/-- The agent whose page-walk grant a miss's walk takes (R82): its die; the base die stands for the scheduler (log entry 146). -/
def Miss.agent (m : Miss) : Nat := if m.core = 529 then 8 else dieOf m.home

/-- A walk of the base-die scheduler has ended: its access finds the result (R104, R419). -/
def State.schedWalked (s : State) (m : Miss) (leaf : Option TlbE) (cause : Nat) : State :=
  { s with lu := { s.lu with walked := s.lu.walked ++ [⟨m.asid, m.page, leaf, cause⟩] } }

/-- The walk for a page ends (R104): the leaf fills the TLBs of every core that missed, or each miss's fault is reported
(R105); the base-die scheduler, master 529, keeps the leaf for its access. -/
def State.endWalk (s : State) (m : Miss) : State :=
  let mine := s.misses.filter fun x => x.asid == m.asid && x.page == m.page
  let r := State.walk { s with misses := s.misses.filter fun x => !(x.asid == m.asid && x.page == m.page) } m.asid m.va
  match r.1 with
  | .ok e => mine.foldl (fun u x => if x.core = 529 then u.schedWalked x (some e) 0 else u.tlbFill x.home e) r.2
  | .error c => mine.foldl (fun u x =>
      if x.core = 529 then u.schedWalked x none c else if x.kind = 5 then u else u.reportXlate x.va c x.asid x.kind x.core x.spec) r.2

/-- What the TLBs and the page tables as they stand say of an address, for the steps that the spec makes whole: the save and the
restore of trap frames, and the lines of a private area. Nothing is walked for it. -/
def State.lookup (s : State) (c asid va kind : Nat) (sup : Bool) : Except Nat TlbE :=
  let allow := fun (e : TlbE) => if e.permits kind sup then Except.ok e else .error cPageRights
  match s.xlate c asid va kind sup with
  | .ok e => .ok e
  | .fault cause => .error cause
  | .miss =>
    match (s.walk asid va).1 with
    | .error cause => .error cause
    | .ok e => allow e

/-! ### Grants (R82, R83) -/

/-- Targets of budgeted activities, in one numbering. -/
def l2Target (d slice : Nat) : Nat := 64 * d + slice
def l3Target (pa : Nat) : Nat := 256 + l3Slice pa
def dramTarget (pa : Nat) : Nat := 320 + dramCtl pa
def linkTarget (p : Nat) : Nat := 328 + p
def routerTarget (r : Nat) : Nat := 344 + r
def walkTarget : Nat := 601

/-- A request takes `n` units of its agent's grants at a target, one grant being `unit` of them (R82). -/
def State.charge (s : State) (act agent target n : Nat) : State :=
  { s with
    spent := s.spent.upd ((act * 4096 + agent) * 1024 + target) 0 (· + n)
    claimed := s.claimed.set target (cycleOf s.time + 1) }

/-- What an agent's grants at a target still serve in this period (R82). -/
def State.left (s : State) (act agent target unit : Nat) : Nat :=
  unit * s.regs.budget.getD act 0 - s.spent.getD ((act * 4096 + agent) * 1024 + target) 0

/-- A request takes what it needs at a target (R82, R83): grants of its agent; or, where none is left, the target's present cycle
if no request has claimed it; none where it must wait (log entry 129). -/
def State.spend (s : State) (act agent target n unit : Nat) : Option State :=
  if 0 < s.left act agent target unit then some (s.charge act agent target n)
  else if s.claimed.getD target 0 == cycleOf s.time + 1 then none
  else some { s with claimed := s.claimed.set target (cycleOf s.time + 1) }

/-- Requests of one grant each, up to `n` of them, take what they find at a target: how many, and the state. -/
def State.spendMany (s : State) (act agent target n : Nat) : Nat × State :=
  let k := min n (s.left act agent target 1)
  if 0 < k then (k, s.charge act agent target k)
  else if n = 0 then (0, s)
  else match s.spend act agent target 1 1 with
    | some u => (1, u)
    | none => (0, s)

/-- The targets of one request each give way, or the request waits. -/
def State.spendAll (s : State) (act agent n unit : Nat) (targets : List Nat) : Option State :=
  targets.foldl (fun u t => u.bind fun v => v.spend act agent t n unit) (some s)

/-- The grants that an attempt took before it had to wait stay taken, and what it took them for is kept (R83). -/
def State.keepPaid (s u : State) : State := { s with spent := u.spent, claimed := u.claimed, paid := u.paid }

/-- A line that work (team, group, lane) reads takes its grants once (R82, R83); none where it must wait. -/
def State.payLine (s : State) (w : Nat × Nat × Nat) (line act agent n unit : Nat) (targets : List Nat) : Option State :=
  if s.paid.contains (w.1, w.2.1, w.2.2, line) then some s
  else (s.spendAll act agent n unit targets).map fun u => { u with paid := (w.1, w.2.1, w.2.2, line) :: u.paid }

end Sys2Proof.Machine
end

