-- ==== Sys2Proof/Machine/Ops.lean ====
section
/-! DEFINITION. Machine/Ops.lean: the shared operations over groups and teams: counters, barriers, windows, tasks, killing a team,
taking a trap and returning from one (R80, R134, R130, R225, R237, R233, R238). -/
namespace Sys2Proof.Machine
open Sys2Proof

/-! ### Wait counters (R80, R81) -/

/-- A wait counter of a group: 0 loads, 1 stores, 2 copies, 3 tiles. -/
def Group.ctr (y : Group) (k : Nat) : Nat :=
  match k with
  | 0 => y.loads
  | 1 => y.stores
  | 2 => y.copies
  | _ => y.tiles

/-- Changes a wait counter. -/
def Group.modCtr (y : Group) (k : Nat) (f : Nat → Nat) : Group :=
  match k with
  | 0 => { y with loads := f y.loads }
  | 1 => { y with stores := f y.stores }
  | 2 => { y with copies := f y.copies }
  | _ => { y with tiles := f y.tiles }

/-- The largest value of a counter (R81). -/
def ctrMax (k : Nat) : Nat := if k = 3 then 15 else 63

/-- A new operation with `n` parts outstanding: its token (R81). -/
def State.newTokOf (s : State) (t g k n : Nat) (counted : Bool) : Nat × State :=
  (s.nextId, State.modGrp { s with nextId := s.nextId + 1 } t g fun y =>
    { (if counted then y.modCtr k (· + 1) else y) with toks := y.toks.set s.nextId (Tok.mk k n counted) })

/-- A new counted operation. -/
def State.newTok (s : State) (t g k n : Nat) : Nat × State := s.newTokOf t g k n true

/-- A group's operations that were not counted are counted (R121): its buffered stores, at the commit. -/
def Group.countAll (y : Group) : Group :=
  { y with
    stores := y.stores + (y.toks.filter fun p => !p.2.counted).length
    toks := y.toks.map fun p => (p.1, { p.2 with counted := true }) }

/-- A counted operation has one part more outstanding. -/
def State.addPart (s : State) (t g tok : Nat) : State :=
  s.modGrp t g fun y => { y with toks := y.toks.upd tok ⟨0, 0, true⟩ fun k => { k with left := k.left + 1 } }

/-- One part of a counted operation is done; the last one decreases the counter (R81). -/
def State.decTok (s : State) (t g tok : Nat) : State :=
  s.modGrp t g fun y =>
    match y.toks.get? tok with
    | none => y
    | some k =>
      if k.left ≤ 1 then { (if k.counted then y.modCtr k.ctr (· - 1) else y) with toks := y.toks.erase tok }
      else { y with toks := y.toks.set tok { k with left := k.left - 1 } }

/-- One part of an operation that may be counted is done. -/
def State.decTok? (s : State) (t g : Nat) (tok : Option Nat) : State :=
  match tok with
  | some k => s.decTok t g k
  | none => s

/-- The token of the counted instruction at a place that a lane holds its part of (R81). -/
def Lane.tokAt (x : Lane) (pc : BitVec 56) (rep : Option Nat) : Option Nat :=
  match x.held with
  | some k => if k.pc = pc ∧ k.rep = rep then some k.tok else none
  | none => none

/-- A lane gives up its part of a counted instruction (R81). -/
def State.releaseHeld (t g : Nat) (s : State) (l : Nat) : State :=
  match (s.grp? t g).bind fun y => (y.lane l).held with
  | none => s
  | some k => (s.modLane t g l fun x => { x with held := none }).decTok t g k.tok

/-- Lanes of a list that hold a part of a counted instruction give it up. -/
def State.releaseAll (s : State) (t g : Nat) (lanes : List Nat) : State :=
  match s.grp? t g with
  | none => s
  | some y => (lanes.filter fun l => (y.lane l).held.isSome).foldl (State.releaseHeld t g) s

/-- The answers that lanes of a list have had from targets outside DRAM go, as their instruction has ended (R97, R254), and what
they took grants for (R83). -/
def State.dropFar (s : State) (t g : Nat) (lanes : List Nat) : State :=
  { s with
    ops := s.ops.filter fun o => !(o.kind == .far && o.team == t && o.grp == g && lanes.contains o.lane)
    paid := s.paid.filter fun p => !(p.1 == t && p.2.1 == g && lanes.contains p.2.2.1) }

/-- The reads that an engine's work has made of targets outside DRAM go, and what it took grants for. -/
def State.dropFarOf (s : State) (t g : Nat) : State :=
  { s with ops := s.ops.filter fun o => !(o.kind == .far && o.team == t && o.grp == g)
           paid := s.paid.filter fun p => !(p.1 == t && p.2.1 == g) }

/-! ### Asynchronous writebacks (R57, R59) -/

/-- A pending writeback joins a lane. -/
def State.addPend (s : State) (t g l : Nat) (regs : List (PReg × Nat)) (ready : Bool) (tok : Option Nat) : Nat × State :=
  (s.nextId, State.modLane { s with nextId := s.nextId + 1 } t g l fun x =>
    { x with pend := x.pend ++ [Pend.mk s.nextId regs ready tok] })

/-- The data of a pending writeback has come: 32-bit destinations take the value, a pair its two halves. -/
def fillRegs : List (PReg × Nat) → Nat → List (PReg × Nat)
  | [], _ => []
  | (.s n, _) :: t, v => (.s n, v) :: fillRegs t (v / 2 ^ 64)
  | (r, _) :: t, v => (r, v % 2 ^ 32) :: fillRegs t (v / 2 ^ 32)

/-- A load's value reaches its pending writeback. -/
def State.fillPend (s : State) (t g l : Nat) (id v : Nat) : State :=
  s.modLane t g l fun x =>
    { x with pend := x.pend.map fun p => if p.id = id then { p with regs := fillRegs p.regs v, ready := true } else p }

/-- A pending writeback that will not come is dropped with its part of the counter. -/
def State.dropPend (s : State) (t g l : Nat) (id : Nat) : State :=
  match s.grp? t g with
  | none => s
  | some y =>
    match (y.lane l).pend.find? fun p => p.id == id with
    | none => s
    | some p => (s.modLane t g l fun x => { x with pend := x.pend.filter fun q => q.id != id }).decTok? t g p.tok

/-- A general register that a writeback names. -/
def PReg.num? : PReg → Option Nat
  | .g n | .bit n _ | .s n => some n
  | .c _ => none

/-- An asynchronous writeback invalidates what the operand latch of the group's run keeps of its registers (R60). -/
def Run.unkeep (r : Run) (t g : Nat) (regs : List (PReg × Nat)) : Run :=
  if r.team = t ∧ r.grp = g then
    { r with latch := r.latch.filter fun p => regs.all fun q => match q.1.num? with
        | some n => n < p.1 || p.1 + p.2.1 ≤ n
        | none => true }
  else r

/-- The first ready writeback of a lane at an index lands (R57). -/
def State.landPend (s : State) (t g l k : Nat) : State :=
  match s.grp? t g with
  | none => s
  | some y =>
    match (y.lane l).pend[k]? with
    | none => s
    | some p =>
      if p.ready then
        (State.modLane { s with runs := s.runs.map fun r => r.unkeep t g p.regs } t g l fun x =>
          { (p.regs.foldl Lane.land x) with pend := x.pend.filter fun q => q.id != p.id }).decTok? t g p.tok
      else s

/-! ### Levels and handlers -/

/-- The group runs at supervisor level (R228). -/
def Group.sup (y : Group) : Bool := y.es.inh && y.es.sup

/-- VA of word `w` of lane 0 of a group's private area; lane `l` lies 4·l bytes further (R93). -/
def State.privVa (s : State) (x : Team) (g w : Nat) : Nat :=
  ((s.core x.core).privbase.extractLsb' 16 40).toNat * 65536 + x.id.area + ((g * x.id.priv + w) * 32) * 4

/-! ### Windows (R128, R130) -/

/-- STORE of a window: 0 W-store, 1 X-store. -/
def Win.store (w : Win) : Nat := (w.d0.extractLsb' 0 2).toNat
/-- MODE: a buffer window. -/
def Win.buffer (w : Win) : Bool := w.d0.getLsbD 2
/-- DSTFMT. -/
def Win.dstfmt (w : Win) : Nat := (w.d0.extractLsb' 7 4).toNat
/-- BAR. -/
def Win.bar (w : Win) : Nat := (w.d0.extractLsb' 15 4).toNat
/-- OFFSET. -/
def Win.off (w : Win) : Nat := (w.d1.extractLsb' 0 23).toNat
/-- LENGTH in lines. -/
def Win.lines (w : Win) : Nat := (w.d1.extractLsb' 32 14).toNat
/-- LENGTH in bytes, the expanded length for DSTFMT 9. -/
def Win.bytes (w : Win) : Nat := 128 * w.lines
/-- The window's storage is an elided image; DSTFMT means nothing in a buffer window (R129, R138). -/
def Win.elided (w : Win) : Bool := w.dstfmt == 9 && !w.buffer
/-- The bytes one presence bit covers (R130). -/
def Win.unit (w : Win) : Nat := if w.elided then 4096 else 128
/-- CAP of a DSTFMT 9 window (R128). -/
def Win.cap (w : Win) : Nat := (w.d3.extractLsb' 0 23).toNat
/-- The bytes a window's image occupies in the store: CAP for DSTFMT 9, else its length. -/
def Win.span (w : Win) : Nat := if w.elided then w.cap else w.bytes
/-- All presence bits set. -/
def Win.allPres (w : Win) : Nat := 2 ^ cdiv w.bytes w.unit - 1

/-- Changes a window of a team. -/
def Team.modWin (x : Team) (w : Nat) (f : Win → Win) : Team :=
  match x.wins.get? w with
  | some y => { x with wins := x.wins.set w (f y) }
  | none => x

/-! ### Runs and the R30 bookkeeping are in Runs.lean -/

/-- A physical line lies in a team's private area (R93, R94), by the area's translation. -/
def State.inPrivArea (s : State) (x : Team) (line : Nat) : Bool :=
  let lo := s.privVa x 0 0
  let n := x.id.priv * 128 * x.id.groups
  n != 0 && (List.range (pageOf (lo + n - 1) - pageOf lo + 1)).any fun k =>
    let pv := (pageOf lo + k) * 65536
    match s.lookup x.core x.id.asid pv 0 true with
    | .ok e =>
      let a := max lo pv
      let b := min (lo + n) (pv + 65536)
      overlaps (line * 128) 128 (e.phys a) (b - a)
    | .error _ => false

/-! ### Register contents kept by extents (R56) -/

/-- A finished group whose asynchronous writebacks have all landed: its slot, base block and extended block have gone back (R328). -/
def Group.gone (y : Group) : Bool := y.finished && y.lanes.all fun l => l.pend.isEmpty

/-- The 64-row extents of a group: its number in the slot, its first register and its registers (R49, R51, R56). -/
def Group.extents (y : Group) : List (Nat × Nat × Nat) :=
  (0, 0, min 64 y.bsize) :: (if 64 < y.bsize then [(1, 64, y.bsize - 64)] else []) ++
    (if y.xblk.isSome then [(2, 128, 64)] else [])

/-- What an extent of a slot keeps for a group of an ASID: the lanes' registers, nothing of another ASID's (R56). -/
def Core.keptFor (c : Core) (slot e asid : Nat) : List (Tab (BitVec 32)) :=
  match c.kept.get? (4 * slot + e) with
  | some (a, l) => if a = asid then l else []
  | none => []

/-- An extent keeps the contents of a group's rows; rows of it outside the group's block keep theirs where the ASID is the
same (R56). -/
def Core.keepExtent (asid slot : Nat) (lanes : List Lane) (c : Core) (e : Nat × Nat × Nat) : Core :=
  let old := c.keptFor slot e.1 asid
  { c with kept := c.kept.set (4 * slot + e.1) (asid, (List.range lanes.length).map fun l =>
      ((lanes.getD l Lane.zero).regs.filter fun p => e.2.1 ≤ p.1 && p.1 < e.2.1 + e.2.2).foldl (fun t p => t.set p.1 p.2)
        ((old.getD l []).filter fun p => e.2.1 + e.2.2 ≤ p.1)) }

/-- The contents of a group's registers stay with the extents of its slot (R56). -/
def Core.keepGroup (c : Core) (asid : Nat) (y : Group) : Core :=
  if y.front then c else y.extents.foldl (Core.keepExtent asid y.slot y.lanes) c

/-- The contents of the registers of a team's groups that still hold them stay with their slots (R56). -/
def Core.keepTeam (c : Core) (x : Team) : Core :=
  x.grps.foldl (fun z p => if p.2.gone then z else z.keepGroup x.id.asid p.2) c

/-- The registers `lo` to `lo + n - 1` of a lane as an extent of the slot keeps them (R56). -/
def Core.keptRows (c : Core) (slot e asid lo n l : Nat) : Tab (BitVec 32) :=
  ((c.keptFor slot e asid).getD l []).filter fun p => lo ≤ p.1 && p.1 < lo + n

/-- What a team's removal does to the core and the rest of the machine (R36, R237): its registers' contents stay with the
slots (R56), its crews and their locks go, its copies and in-flight accesses go, and runs of it end. Issued stores and
atomics on global memory that a kill leaves unperformed are performed later or never (`Config.killKeeps`). -/
def State.removeTeam (s : State) (t : Nat) : State :=
  match s.team? t with
  | none => s
  | some x =>
    let gone := ((s.core x.core).copies.filter fun z => z.team == t).map (·.id) ++
      ((s.core x.core).engine.filter fun j => j.team == t).map (·.id) ++
      (s.packets.filter fun p => match p.src with | some q => q.1 == t | none => false).map (·.id)
    let s1 := s.modCore x.core fun c =>
      { c.keepTeam x with
               crews := c.crews.filter fun z => z.team != t,
               engine := c.engine.filter fun j => j.team != t,
               forms := c.forms.filter fun f => f.team != t,
               copies := c.copies.filter fun z => z.team != t,
               verdict := c.verdict.filter fun v => v.team != t,
               xwait := c.xwait.filter fun p => p.team != t,
               ready := c.ready.map fun p => (p.1, p.2.filter fun q => q.1 != t),
               locks := c.locks.filter fun l => !gone.contains l.op,
               l1 := c.l1.filter fun l => !(l.priv && s.inPrivArea x l.line) }
    let alone := s.teams.all fun p => p.1 == t || p.2.core != x.core
    { s1 with
      teams := s1.teams.erase t
      -- no access waits for the walks of a core without teams
      misses := if alone then s1.misses.filter fun m => m.core != x.core && m.core != 256 + x.core else s1.misses
      paid := s1.paid.filter fun p => p.1 != t
      packets := (s1.packets.filter fun p => match p.src, p.wtok with
        | some q, _ => q.1 != t
        | none, some q => q.1 != t || p.taken.isNone
        | none, none => true).map fun p =>
        { p with wtok := p.wtok.filter fun q => q.1 != t, taken := p.taken.map fun l => l.filter fun q => q.1 != t }
      runs := s1.runs.filter fun r => r.team != t
      ops := s1.ops.filter fun o =>
        o.team != t || ((o.kind == .store || o.kind == .atomic) && !o.priv && Config.killKeeps o.id) }

/-- A team of a launch has finished, or was killed (R36, R237). -/
def State.launchTeamDone (s : State) (gridid wct : Nat) (killed : Bool) : State :=
  { s with lu := { s.lu with launches := s.lu.launches.map fun l =>
      if l.gridid = gridid then
        { l with finished := l.finished + 1, killed := l.killed || killed, wct := max l.wct wct }
      else l } }

/-! ### Named packets a core sends (R208) -/

/-- The router above a core, by package-wide number (R205). -/
def routerOf (c : Nat) : Nat := c

/-- A packet with nothing in it. -/
def Packet.mk0 (ty : PktType) (t i n : Nat) : Packet :=
  { id := 0, ty, t, i, n, expiry := 0, spec := false, level := 0, specok := false, warm := false, f := false, stag := 0,
    data := [], at_ := .core 0, taken := none, src := none, rel := none, behind := none, wtok := none }

/-- A packet starts on its way. -/
def State.send (s : State) (p : Packet) : State :=
  { s with packets := s.packets ++ [{ p with id := s.nextId }], nextId := s.nextId + 1 }

/-- The core of any team still holds an interest in a name, apart from one entry (R212). -/
def State.coreHolds (s : State) (c t i n : Nat) : Bool :=
  (s.residents c).any fun p => p.2.ilist.any fun e => e.t == t && e.i == i && e.n == n

/-- A window leaves a state of R130 for another with its presence bits set as given. -/
def State.setWin (s : State) (t w : Nat) (f : Win → Win) : State := s.modTeam t fun x => x.modWin w f

/-- An interest-list entry is freed: it leaves the list, the COPIES counter falls, and the NCANs that waited for its delivery
return 1 (R81, R211, R212). -/
def State.freeEntry (s : State) (t : Nat) (e : IEnt) : State :=
  let s1 := (s.modTeam t fun x => { x with ilist := x.ilist.filter fun z => z.tok != e.tok }).decTok t e.grp e.tok
  e.ncan.foldl (fun u p => u.fillPend t p.1 p.2.1 p.2.2 1) s1

/-- A cancel packet goes out when no other entry of the core holds the name (R212). -/
def State.sendCancel (s : State) (c : Nat) (e : IEnt) : State :=
  if s.coreHolds c e.t e.i e.n then s
  else s.send { Packet.mk0 .cancel e.t e.i e.n with at_ := .router (routerOf c) 5 }

/-! ### Tasks (R223 to R226) -/

/-- Inserts a squashed entry among the squashed ones at the head, by push order (R225). -/
def dqReturn (e : DqEntry) : List DqEntry → List DqEntry
  | [] => [{ e with sq := true }]
  | y :: t => if y.sq && y.order < e.order then y :: dqReturn e t else { e with sq := true } :: y :: t

/-- Register contents a squash leaves: free values for every register (R225). -/
def freeRegs (base : Nat) : Tab (BitVec 32) := (List.range 256).map fun r => (r, Config.freeWord (base + r))

/-- Cursor contents a squash leaves: free values (R225). -/
def freeCurs (base : Nat) : Tab (BitVec 128) :=
  (List.range 8).map fun c =>
    (c, Config.freeWord (base + 256 + 4 * c) ++ Config.freeWord (base + 257 + 4 * c) ++
      Config.freeWord (base + 258 + 4 * c) ++ Config.freeWord (base + 259 + 4 * c))

/-- What the Loopers remember of such cursors. -/
def freeRuns (base : Nat) : Tab Nat := (List.range 8).map fun c => (c, (Config.freeWord (base + 288 + c)).toNat)

/-- A lane as a squash leaves it (R225): eligible at the task's DQPOP with stamp 0, its registers free values. -/
def squashLane (k : Task) (base l : Nat) (x : Lane) : Lane :=
  if k.lanes.contains l then
    { x with pc := k.pc, stamp := 0, st := .eligible, rep := k.rep, pend := [], regs := freeRegs (base + 512 * l),
             curs := freeCurs (base + 512 * l), runs := freeRuns (base + 512 * l) }
  else x

/-- The publishes of a group that wait for their release, or only those of its packs that a test selects, are dropped. -/
def State.dropPublishes (s : State) (t g : Nat) : State :=
  (s.packets.filter fun p => p.rel.isSome && (match p.src with | some q => q.1 == t && q.2.1 == g | none => false)).foldl
    (fun u p => match p.src, u.team? t with
      | some (_, _, w, tok), some x =>
        let u1 := (State.setWin { u with packets := u.packets.filter fun q => q.id != p.id } t w fun z =>
          { z with unsent := z.unsent - 1 }).decTok t g tok
        u1.modCore x.core fun c => { c with locks := c.locks.filter fun l => l.op != p.id }
      | _, _ => u) s

/-- A latch record of a group has one of these lanes. -/
def LatchRec.of (r : LatchRec) (g : Nat) (lanes : List Nat) : Bool := r.grp == g && r.lanes.any lanes.contains

/-- The TILES tokens of the crew instructions that lanes of a group have at their crew's latch (R77, R81). -/
def State.latched (s : State) (c t g : Nat) (lanes : List Nat) : List Nat :=
  (s.core c).crews.flatMap fun k => if k.team = t then (k.latch.filter fun r => r.of g lanes).filterMap (·.tok) else []

/-- The records of lanes that leave their instructions go from the rendezvous and the formation latches (R77, R315). -/
def State.unlatchLanes (s : State) (c t g : Nat) (lanes : List Nat) : State :=
  let forming : Bool := match s.grp? t g with
    | some y => lanes.any fun l => (y.lane l).st == .parked .form
    | none => false
  s.modCore c fun z => { z with
    crews := z.crews.map fun k => if k.team = t then { k with latch := k.latch.filter fun r => !r.of g lanes } else k
    forms := if forming then z.forms.filter fun f => !(f.team == t && f.grp == g) else z.forms }

/-- A task is squashed (R225): buffered stores and pending loads go, owned windows become empty, its publishes send squash
packets, its lanes return to the DQPOP and its item to the head of the queue. -/
def State.squash (s : State) (t g : Nat) : State :=
  match s.team? t with
  | none => s
  | some x =>
    match x.grp? g with
    | none => s
    | some y =>
      match y.task with
      | none => s
      | some k =>
        let dropped := s.ops.filter fun o => o.team == t && o.grp == g &&
          (o.kind == .load || o.kind == .presence || o.kind == .far || (o.kind == .evwait && k.lanes.contains o.lane))
        let s1 := { s with ops := s.ops.filter fun o => !(dropped.contains o), freeCtr := s.freeCtr + 512 * 32,
                           outst := s.outst.filter fun o => o.recorded || o.owed
                           paid := s.paid.filter fun p => !(p.1 == t && p.2.1 == g) }
        -- loads, event waits, crew instructions of packs that wait at the latch, and buffered stores that never complete leave the
        -- wait counters (R81, R225)
        let toks := (dropped.filter fun o => o.pend.isNone).filterMap (·.tok) ++
          (k.lanes.flatMap fun l => (y.lane l).pend.filterMap (·.tok)) ++ k.buf.filterMap (·.tok) ++ s.latched x.core t g k.lanes
        let s2 := (((toks.foldl (fun u n => u.decTok t g n) s1).releaseAll t g k.lanes).dropPublishes t g).unlatchLanes x.core t g k.lanes
        let s3 := k.owned.foldl (fun u w => u.setWin t w fun z => { z with st := .empty, owner := none }) s2
        let s4 := k.pubs.foldl (fun u p => u.send
          { Packet.mk0 .squash p.t p.i p.n with stag := p.stag, at_ := .router (routerOf x.core) 5 }) s3
        let s5 := s4.modGrp t g fun z =>
          { z with task := none, lastSq := true, heldTraps := [], fences := z.fences.filter fun f => f.lanes.isEmpty,
                   lanes := (List.range z.lanes.length).map fun l => squashLane k s.freeCtr l (z.lane l) }
        (s5.modTeam t fun z => { z with dq := dqReturn k.item z.dq }).dropRun t g

/-- The groups whose running task reads a window (R222). -/
def Team.readers (x : Team) (w : Nat) : List Nat :=
  x.grps.filterMap fun p =>
    match p.2.task with
    | some k => if k.inputs.contains w then some p.1 else none
    | none => none

/-- The readers of a window are squashed (R222). -/
def State.squashReaders (s : State) (t w : Nat) : State :=
  match s.team? t with
  | none => s
  | some x => (x.readers w).foldl (fun u g => u.squash t g) s

/-- The last-resort cancellation of one pending entry, as NCAN makes it (R212): readers of a predicted window are squashed,
the window becomes absent, the entry is freed and a cancel packet goes out. -/
def State.cancelEntry (s : State) (t : Nat) (e : IEnt) : State :=
  match s.team? t with
  | none => s
  | some x =>
    let pred : Bool := match x.wins.get? e.win with
      | some w => w.st == .predicted
      | none => false
    let s1 := if pred then s.squashReaders t e.win else s
    let s2 := s1.setWin t e.win fun w => { w with st := .absent, pres := 0, level := 0, stag := none }
    let s3 := s2.modCore x.core fun c => { c with copies := c.copies.filter fun z => !(z.kind == 1 && z.team == t && z.win == e.win) }
    (s3.freeEntry t e).sendCancel x.core e

/-! ### Killing a team (R237) -/

/-- The window that an entry names holds a prediction or a speculative tile, whole. -/
def Team.predicted (x : Team) (e : IEnt) : Bool :=
  match x.wins.get? e.win with
  | some w => w.st == .predicted
  | none => false

/-- A speculative tile is on its way into an entry's window (R212, R215). -/
def Team.delivering (x : Team) (e : IEnt) : Bool := e.stag.isSome && !x.predicted e

/-- Every pending interest of a team is cancelled (R36, R237), but for those whose delivery is in progress, which completes first: a
real tile frees its entry then, and a speculative one's entry is cancelled then (`State.cancelEnded`). -/
def State.cancelAll (s : State) (t : Nat) : State :=
  match s.team? t with
  | none => s
  | some x => (x.ilist.filter fun e => !e.header && !x.delivering e).foldl (fun u e => u.cancelEntry t e) s

/-- A team is ended without a record (R237, R245). -/
def State.endTeam (s : State) (t : Nat) : State :=
  match s.team? t with
  | none => s
  | some x =>
    let s1 := x.grps.foldl (fun u p => if p.2.spec then u.squash t p.1 else u) s
    let s2 := s1.cancelAll t
    (s2.removeTeam t).launchTeamDone x.id.gridid 0 true

/-- A team is killed (R237): everything of it is squashed, cancelled, abandoned and freed, and one record is written. -/
def State.killTeam (s : State) (t cause va : Nat) : State :=
  match s.team? t with
  | none => s
  | some x => (s.endTeam t).pushFault va cause x.id.asid 3 x.core

/-! ### Taking a trap (R229 to R237) -/

/-- How a cause is routed (R230): 0 user, 1 delegable, 2 supervisor. -/
def routeOf (cause : Nat) : Nat :=
  if cause = cHeap ∨ cause = cRank ∨ cause = cNan ∨ cause = cNever then 0
  else if cause = cMisaligned ∨ cause = cStoreBound ∨ cause = cStack ∨ cause = cCursorBound ∨ cause = cPair ∨ cause = cUser
  then 1 else 2

/-- UHDELEG's bit of a delegable cause (R229). -/
def delegBit (cause : Nat) : Nat :=
  if cause = cCursorBound then 0 else if cause = cMisaligned then 1 else if cause = cStoreBound then 2
  else if cause = cStack then 3 else if cause = cUser then 4 else 5

/-- UHVEC names a user handler (R229). -/
def Team.hasUser (x : Team) : Bool := x.uhvec.extractLsb' 3 53 != 0

/-- A cause goes to the supervisor (R229). -/
def Team.toSup (x : Team) (cause : Nat) : Bool :=
  match routeOf cause with
  | 0 => !x.hasUser
  | 1 => !(x.hasUser && x.uhdeleg.getLsbD (delegBit cause))
  | _ => true

/-- The frame of a lane at entry (R231, R233). -/
def frameOf (h : HeldTrap) (l : Nat) (x : Lane) : Frame :=
  let flt := h.flt.find? fun p => p.1 == l
  let inPack := h.lanes.contains l
  let (pc, rv, ix) : BitVec 56 × Bool × Nat :=
    match h.rep, inPack with
    -- a lane whose access parked at this repetition has not completed it (R105)
    | some (p, i), true => (p, true, if flt.isSome || (x.pc == p && x.rep == some i) then i else i + 1)
    | _, _ =>
      match x.rep with
      | some i => (x.pc, true, i)
      | none => (x.pc, false, 0)
  let st : Nat :=
    match x.st with
    | .exited => 3
    | .held => 2
    | .parked _ => if flt.isSome then 0 else 1
    | .eligible => 0
  { jm := x.jmask, held := x.held, w0 := pc.extractLsb' 0 32,
    w1 := BitVec.ofNat 32 ((pc.extractLsb' 32 24).toNat + st * 2 ^ 24 + b2n flt.isSome * 2 ^ 26 + b2n rv * 2 ^ 27),
    w2 := BitVec.ofNat 32 (x.stamp.toNat + (ix % 64) * 2 ^ 16),
    w3 := BitVec.ofNat 32 (match flt with | some p => p.2 | none => 0) }

/-- The 512 bytes of the 32 frames in memory order: word by word, lane by lane (R93, R231). -/
def frameBytes (fs : List Frame) : List (BitVec 8) :=
  let col := fun (f : Frame → BitVec 32) => fs.flatMap fun x => leBytes 4 (f x).toNat
  col (·.w0) ++ col (·.w1) ++ col (·.w2) ++ col (·.w3)

/-- VA of word `k` of lane 0's frame (R231). -/
def State.frameVa (s : State) (x : Team) (g k : Nat) : Nat := s.privVa x g (x.id.priv - 4 + k)

/-- What the translations of the four 128-byte lines of a group's frames say. -/
inductive FrameX where
  | ok (es : List TlbE)
  | miss (va : Nat)
  | fault (va cause : Nat)
  | bad (va cause : Nat)
  deriving DecidableEq, Repr

/-- Translation and physical check of the frame lines (R233, R238): kind 1 for entry, 0 for return. -/
def State.frameXlate (s : State) (x : Team) (g kind : Nat) (sup : Bool) : FrameX :=
  let go := (List.range 4).foldl (fun (acc : FrameX) k =>
    match acc with
    | .ok es =>
      let va := s.frameVa x g k
      (match s.xlate x.core x.id.asid va kind sup with
       | .miss => .miss va
       | .fault c => .fault va c
       | .ok e => match s.physCheck x.core kind (e.phys va) 128 sup with | some c => .bad va c | none => .ok (es ++ [e]))
    | other => other) (.ok [])
  go

/-- An earlier access of a group to its frames' lines has not been performed (R111, R233, R238), or the home of one of them does not
answer now (R100, R258). -/
def State.frameBusy (s : State) (x : Team) (t g : Nat) (es : List TlbE) : Bool :=
  (List.range 4).any fun k => match es[k]? with
    | some e =>
      let pa := e.phys (s.frameVa x g k)
      (s.ops.any fun o => o.team == t && o.grp == g && (o.kind == .load || o.kind == .store || o.kind == .atomic) &&
        overlaps pa 128 o.pa o.width) ||
      (regionOf pa == .dram && (!s.homeOpen (dieOf x.core) pa e.alloc || (3 ≤ e.alloc && !s.fillOpen x.core (pa / 128))))
    | none => false

/-- A store of a frame word by its lane, to a page outside DRAM (R97, R233). -/
def frameStore (x : Team) (t g l va pa : Nat) (e : TlbE) (v : BitVec 32) (id : Nat) : Op :=
  { id, kind := .store, team := t, grp := g, lane := l, core := x.core, asid := x.id.asid, va, pa, width := 4, attr := e.attr,
    priv := true, data := v.setWidth 64, cmp := 0, opc := 0, scope := 0, acq := false, rel := false, pend := none, sext := false,
    tok := none, sent := false, hold := false, pc := 0, rep := none, drain := false }

/-- Line `k` of a group's frames is written (R233): its bytes in DRAM, or stores of the lanes to a target outside it, which go out in
issue order (R97). -/
def State.frameWrite (s : State) (x : Team) (t g k : Nat) (e : TlbE) (bs : List (BitVec 8)) : State :=
  let va := s.frameVa x g k
  if regionOf (e.phys va) = .dram then s.storeBytes x.core t g (e.phys va) e.attr false true bs
  else
    (List.range 32).foldl (fun u l =>
      let w := BitVec.ofNat 32 (leNat ((bs.drop (4 * l)).take 4))
      { u with ops := u.ops ++ [frameStore x t g l (va + 4 * l) (e.phys va + 4 * l) e w u.nextId], nextId := u.nextId + 1 }) s

/-- The entry of a trap whose frames can be written (R233): frames, ESTAT, all 32 lanes at the handler. -/
def State.enterNow (s : State) (t g : Nat) (x : Team) (y : Group) (h : HeldTrap) (es : List TlbE) : State :=
  let fs := (List.range 32).map fun l => frameOf h l (y.lane l)
  let bytes := frameBytes fs
  let s1 := (List.range 4).foldl (fun u k =>
    match es[k]? with
    | some e => u.frameWrite x t g k e ((bytes.drop (128 * k)).take 128)
    | none => u) s
  let sup := h.flt.any fun p => x.toSup p.2
  let vec : BitVec 56 := if sup then (s.regs.shvec.extractLsb' 3 53 ++ (0 : BitVec 3)) else (x.uhvec.extractLsb' 3 53 ++ (0 : BitVec 3))
  s1.modGrp t g fun z =>
    { z with es := { cause := BitVec.ofNat 8 (leastOf (h.flt.map (·.2))), inh := true, sup,
                     frames := (List.range 32).map fun l => (l, frameOf h l (y.lane l)), entry := none },
             fences := z.fences.filter fun f => f.lanes.isEmpty, ages := [],
             lanes := z.lanes.map fun l => { l with st := .eligible, stamp := 0, pc := vec, rep := none, held := none } }

/-- No handler takes the causes: they reach the supervisor while SHVEC is 0 (R229). -/
def State.noHandler (s : State) (x : Team) (h : HeldTrap) : Bool :=
  h.flt.any (fun p => x.toSup p.2) && s.regs.shvec.extractLsb' 3 53 == 0

/-- A trap whose frames are not written yet is tried (R233): it enters behind the lanes' earlier stores to their frames, parks
on a translation, or is a double fault; with no handler it kills the team (R229). -/
def State.tryEntry (s : State) (t g : Nat) : State :=
  match s.team? t with
  | none => s
  | some x0 =>
    -- the handler registers are those at issue (R319)
    let x := x0.atIssue s.time
    match x.grp? g with
    | none => s
    | some y =>
      match y.es.entry with
      | none => s
      | some h =>
        let va := (y.lane (leastOf (h.flt.map (·.1)))).pc.toNat
        if s.noHandler x h then s.killTeam t (leastOf (h.flt.map (·.2))) va
        else
        match s.frameXlate x g 1 y.sup with
        | .ok es => if s.frameBusy x t g es then s else s.enterNow t g x y h es
        | .miss va => s.addMiss x.core x.id.asid va 1 false
        | .fault v c => s.reportXlate v c x.id.asid 1 x.core false
        | .bad v c => (s.pushRefused v c x.id.asid 1 x.core).killTeam t cDouble va

/-- A trap is taken (R233): the run ends; the front thread's kills its team (R240), a trap in a handler is a double fault
(R236), a speculative group's is held (R239), a team without frames is killed (R231), and a supervisor trap without a handler
kills (R229). A group that is held at the entry of an earlier trap takes no other: its lanes are recorded parked at their
instructions (R233). `flt` lists the faulting lanes with their causes; `lanes` is the pack. -/
def State.takeTrap (s : State) (t g : Nat) (flt : List (Nat × Nat)) (lanes : List Nat) (rep : Option (BitVec 56 × Nat)) : State :=
  match s.team? t with
  | none => s
  | some x =>
    match x.grp? g with
    | none => s
    | some y =>
      let cause := leastOf (flt.map (·.2))
      let va := (y.lane (leastOf (flt.map (·.1)))).pc.toNat
      let h : HeldTrap := ⟨flt, lanes, rep, s.nextId⟩
      let s1 := State.dropRun { s with nextId := s.nextId + 1 } t g
      if y.front then s1.killTeam t cause va
      else if y.es.inh then s1.killTeam t cDouble va
      else if y.spec then
        s1.modGrp t g fun z =>
          { z with heldTraps := z.heldTraps ++ [h],
                   lanes := (List.range z.lanes.length).map fun l =>
                     if flt.any (fun p => p.1 == l) then { z.lane l with st := .parked .verdict } else z.lane l }
      else if x.id.priv < 4 then s1.killTeam t cFrame va
      else if y.es.entry.isSome then s1
      else
        (s1.modGrp t g fun z => { z with es := { z.es with entry := some h } }).tryEntry t g

/-! ### Crews and the end of a group (R79, R315, R316, R328) -/

/-- The crew status a group has outside a crew (R76, R185). -/
def CrewCsr.zero : CrewCsr := ⟨0, 0, false, false, false, 0, false, 0, 0, 0⟩

/-- The crew a group belongs to. -/
def State.crewOf (s : State) (c t g : Nat) : Option Crew :=
  (s.core c).crews.find? fun k => k.team == t && k.members.contains g

/-- Changes a crew of a core. -/
def State.modCrew (s : State) (c no : Nat) (f : Crew → Crew) : State :=
  s.modCore c fun z => { z with crews := z.crews.map fun k => if k.no = no then f k else k }

/-- A lane of a latched pack that does not fault goes to its next PC (R61, R233). -/
def latchNextLane (r : LatchRec) (x : Lane) : Lane :=
  match r.rep with
  | some p => { x with st := .eligible, rep := some (p.2 + 1) }
  | none => { x with st := .eligible, pc := x.pc + 8 }

/-- A latched pack traps (R79, R234): its active lanes, or all of it when none is active, form the faulting pack mask. -/
def State.latchTrap (s : State) (t cause : Nat) (r : LatchRec) : State :=
  match s.grp? t r.grp with
  | none => s
  | some y =>
    let flt := if r.act.isEmpty then r.lanes else r.act
    let pc := (y.lane (low r.lanes)).pc
    let s0 := s.decTok? t r.grp r.tok
    let s1 := s0.modGrp t r.grp fun z => { z with lanes := (List.range z.lanes.length).map fun l =>
      if (r.lanes.contains l && !flt.contains l) then latchNextLane r (z.lane l) else z.lane l }
    s1.takeTrap t r.grp (flt.map fun l => (l, cause)) r.lanes (r.rep.map fun p => (pc, p.2))

/-- A crew is dissolved (R316): it leaves the core, and its members' status returns to 0. The spec states no contents of the
Y-store bytes that were its matrix area: each is a free value. -/
def State.dissolve (s : State) (c : Nat) (k : Crew) : State :=
  let n := k.count * 2048
  let s0 := { s with freeCtr := s.freeCtr + n }
  let s1 := s0.modCore c fun z =>
    { z with crews := z.crews.filter fun y => y.no != k.no,
             yst := z.yst.fill (k.base * 2048) n fun i => Config.freeByte (s.freeCtr + i) }
  k.members.foldl (fun u g => u.modGrp k.team g fun y => { y with crew := CrewCsr.zero }) s1

/-- Groups of a formation latch that trap with a cause: the lanes parked there (R315). -/
def State.formTrap (s : State) (t cause g : Nat) : State :=
  match s.grp? t g with
  | none => s
  | some y =>
    let w := y.lanesWith fun l => l.st == .parked .form
    let z := y.lane (low w)
    if w.isEmpty then s else s.takeTrap t g (w.map fun l => (l, cause)) w (z.rep.map fun i => (z.pc, i))

/-- A crew's member has finished (R79, R316): the crew is dissolved with its last member, else its latched packs trap. -/
def State.crewExit (s : State) (c t g : Nat) : State :=
  match s.crewOf c t g with
  | none => s
  | some k =>
    let gone := k.members.all fun m =>
      match s.grp? t m with
      | none => true
      | some z => z.finished
    if gone then s.dissolve c k
    else
      k.latch.foldl (fun u r => u.latchTrap t cCrewMismatch r)
        (s.modCrew c k.no fun z => { z with latch := [] })

/-- Every group of a team and its front thread have finished (R36). -/
def Team.ended (x : Team) : Bool := x.grps.all fun p => p.2.finished

/-- A speculative tile is whole, or has been dropped, in an entry of a team that has ended: the entry is cancelled (R36). -/
def State.cancelEnded (s : State) (t : Nat) (e : IEnt) : State :=
  match s.team? t with
  | none => s
  | some x => if x.ended && x.ilist.any (fun q => q.tok == e.tok) then s.cancelEntry t { e with ncan := [], stag := none } else s

/-- The slot, the base block and the extended block of a finished group return to the core once every asynchronous writeback to them
has landed, and their contents stay with the extents (R56, R328). -/
def State.groupLeaves (s : State) (t g : Nat) : State :=
  match s.team? t with
  | none => s
  | some x =>
    match x.grp? g with
    | none => s
    | some y =>
      if !y.gone then s
      else
        (s.modTeam t fun z =>
          { z.modGrp g (fun q => { q with xblk := none }) with reserveHeld := z.reserveHeld && y.xblk != some true }).modCore x.core
            fun c => c.keepGroup x.id.asid y

/-- All lanes of a group have exited (R328, R36): what it holds of the core returns, its waiting request goes, its crews and
formations act under R79, R315 and R316, and the team's last group cancels the pending interests. -/
def State.groupFinished (s : State) (t g : Nat) : State :=
  match s.team? t with
  | none => s
  | some x =>
    match x.grp? g with
    | none => s
    | some y =>
      let s1 := (s.modGrp t g fun q => { q with finished := true, ages := [] }).groupLeaves t g
      let named := (s1.core x.core).forms.filter fun f => f.team == t && f.mask.getLsbD g
      let s2 := s1.modCore x.core fun c =>
        { c with
          xwait := c.xwait.filter fun p => !(p.team == t && p.grp == g)
          forms := c.forms.filter fun f => !named.contains f }
      let s3 := named.foldl (fun u f => u.formTrap t cCrewMismatch f.grp) s2
      let s4 := s3.crewExit x.core t g
      match s4.team? t with
      | some z => if z.ended then s4.cancelAll t else s4
      | none => s4

/-! ### Barrier registers (R134, R135) -/

/-- A barrier register of a team. -/
def Team.bar (x : Team) (n : Nat) : Bar := x.bars.getD n Bar.reset

/-- Changes a barrier register. -/
def Team.modBar (x : Team) (n : Nat) (f : Bar → Bar) : Team := { x with bars := x.bars.upd n Bar.reset f }

/-- Arrivals and bytes are added, saturating at their maxima (R135). -/
def Bar.count (b : Bar) (arr bytes : Nat) : Bar :=
  { b with arra := BitVec.ofNat 8 (min 255 (b.arra.toNat + arr)), arrb := BitVec.ofNat 32 (min (2 ^ 32 - 1) (b.arrb.toNat + bytes)) }

/-- The test of R135 after an update. -/
def Bar.ready (b : Bar) : Bool := b.expa.toNat ≤ b.arra.toNat && b.expb.toNat ≤ b.arrb.toNat

/-- The advance of R135. -/
def Bar.advance (b : Bar) : Bar :=
  { b with arra := b.arra - b.expa, arrb := b.arrb - b.expb, phase := !b.phase, arrmask := 0 }

/-- An update takes effect (R135); BINIT and failures have places of their own. A member arrives once in a phase (R34). -/
def BarUpd.apply (b : Bar) : BarUpd → Bar
  | .count arr bytes => b.count arr bytes
  | .arrive who => if b.arrmask.getLsbD who then b else { b.count 1 0 with arrmask := b.arrmask ||| BitVec.ofNat 33 (2 ^ who) }
  | .expect arr bytes =>
    { b with expa := BitVec.ofNat 8 (min 255 (b.expa.toNat + arr)), expb := BitVec.ofNat 32 (min (2 ^ 32 - 1) (b.expb.toNat + bytes)) }
  | .never => { b with nprod := true }
  | .init .. | .fail .. => b

/-- An update that the test of R135 follows: counts, expectations and first arrivals of members (log entry 131). -/
def BarUpd.tested (b : Bar) : BarUpd → Bool
  | .count .. | .expect .. => true
  | .arrive who => !b.arrmask.getLsbD who
  | .init .. | .never | .fail .. => false

/-- The register once the cycle's BINIT has been applied, which comes before every other update (R294). -/
def Bar.base (b : Bar) : Bar :=
  b.upds.foldl (fun a u => match u with
    | .init expa expb => { Bar.reset with expa, expb }
    | _ => a) { b with upds := [] }

/-- Of the failures of a cycle the one of the lowest cause, then of the lowest window, is recorded; an earlier one stays
(R135). -/
def Bar.fail (b : Bar) (l : List BarUpd) : Bar :=
  let first := fun (m : Option (Nat × Nat × Nat)) (u : BarUpd) => match u, m with
    | .fail win cause code, some k => if cause < k.1 || (cause == k.1 && win < k.2.1) then some (cause, win, code) else some k
    | .fail win cause code, none => some (cause, win, code)
    | _, _ => m
  match l.foldl first none with
  | some k => if b.cfail then b else { b with cfail := true, cfcause := BitVec.ofNat 3 k.1, cfcode := BitVec.ofNat 8 k.2.2 }
  | none => b

/-- The register with every update of the cycle applied (R135). -/
def Bar.applied (b : Bar) : Bar := (b.upds.foldl BarUpd.apply b.base).fail b.upds

/-- The phase advances at the end of the cycle (R135). -/
def Bar.advances (b : Bar) : Bool := b.upds.any (BarUpd.tested b.base) && b.applied.ready

/-- The register after the cycle: its updates applied, then tested once (R135). -/
def Bar.settle (b : Bar) : Bar := if b.advances then b.applied.advance else b.applied

/-- A lane whose BWAIT completes moves past it (R299). -/
def bwaitDone (n : Nat) (phase : Bool) (x : Lane) : Lane :=
  { x with wpar := if phase then x.wpar ||| BitVec.ofNat 16 (2 ^ n) else x.wpar &&& ~~~(BitVec.ofNat 16 (2 ^ n)),
           st := .eligible, pc := x.pc + 8 }

/-- Parked BWAIT lanes of a group are evaluated again (R299): a failed copy or never-produced traps the pack of the lowest lane
(log entry 137), otherwise each lane whose parity differs from the phase completes. -/
def State.wakeBar (s : State) (t g n : Nat) : State :=
  match s.team? t with
  | none => s
  | some x =>
    match x.grp? g with
    | none => s
    | some y =>
      let b := x.bar n
      let w := y.lanesWith fun l => l.st == .parked (.barrier n)
      match w with
      | [] => s
      | l0 :: _ =>
        let key := fun l => ((y.lane l).stamp, (y.lane l).pc)
        let pack := w.filter fun l => key l == key l0
        if b.cfail then s.takeTrap t g (pack.map fun l => (l, cCopyFailed)) pack none
        else if b.nprod then s.takeTrap t g (pack.map fun l => (l, cNever)) pack none
        else
          s.modGrp t g fun z =>
            { z with lanes := z.lanes.map fun l =>
                if l.st == .parked (.barrier n) && l.wpar.getLsbD n != b.phase then bwaitDone n b.phase l else l }

/-- Every waiter of a barrier register is evaluated again. -/
def State.wakeBars (s : State) (t n : Nat) : State :=
  match s.team? t with
  | none => s
  | some x => x.grps.foldl (fun u p => u.wakeBar t p.1 n) s

/-- An update reaches a barrier register in this core cycle (R135). -/
def State.barUpdate (s : State) (t n : Nat) (u : BarUpd) : State :=
  s.modTeam t fun x => x.modBar n fun b => { b with upds := b.upds ++ [u] }

/-- A register at the end of a core cycle (R135): BINIT clears its wait parities (R294), and an advance makes the empty buffer
windows counted on it full (R130). -/
def Team.settleBar (x : Team) (n : Nat) : Team :=
  let b := x.bar n
  let bit := BitVec.ofNat 16 (2 ^ n)
  let cleared := b.upds.any fun u => match u with
    | .init .. => true
    | _ => false
  { x.modBar n (fun _ => b.settle) with
    grps := if cleared then x.grps.map fun p =>
        (p.1, { p.2 with lanes := p.2.lanes.map fun l => { l with wpar := l.wpar &&& ~~~bit } })
      else x.grps
    wins := if b.advances then x.wins.map fun p =>
        if p.2.buffer && p.2.bar == n && p.2.st == .empty && p.2.owner.isNone then (p.1, { p.2 with st := .full }) else p
      else x.wins }

/-- The end of a core cycle at one register: its updates are applied and tested, and its waiters evaluated again (R135, R299). -/
def State.settleBar (s : State) (t n : Nat) : State :=
  match s.team? t with
  | none => s
  | some x => if (x.bar n).upds.isEmpty then s else (s.modTeam t fun z => z.settleBar n).wakeBars t n

/-- The end of a core cycle: every barrier register that has been updated in it is tested (R135). -/
def State.settleBars (s : State) : State :=
  s.teams.foldl (fun u p => p.2.bars.foldl (fun v q => v.settleBar p.1 q.1) u) s

/-! ### Groups and windows of a team -/

/-- Lanes of a group that exist and have not exited. -/
def Group.alive (y : Group) : List Nat := y.lanesWith fun l => l.st != .exited

/-- The entry of an interest list that names a window. -/
def Team.entryOf (x : Team) (w : Nat) : Option IEnt := x.ilist.find? fun e => e.win == w

/-- A window of a team, where it is declared. -/
def Team.win? (x : Team) (w : Nat) : Option Win := x.wins.get? w

/-- A task of the team has an input or holds a window. -/
def Team.ownedBy (x : Team) (w : Nat) : Option Nat :=
  match x.win? w with
  | some z => z.owner
  | none => none

/-! ### JOIN (R32) -/

/-- The lanes held at a JOIN. -/
def Group.heldAt (y : Group) (p : BitVec 56) : List Nat := y.lanesWith fun l => l.st == .held && l.pc == p

/-- Every lane that a held lane's mask names is held there too or has exited (R32). -/
def Group.joinReady (y : Group) (p : BitVec 56) : Bool :=
  let w := y.heldAt p
  !w.isEmpty && w.all fun l => (List.range 32).all fun k =>
    !(y.lane l).jmask.getLsbD k || w.contains k || (y.lane k).st == .exited

/-- The release of a JOIN: stamp 0, past the JOIN, eligible (R32). -/
def State.releaseJoin (s : State) (t g : Nat) (p : BitVec 56) : State :=
  match s.grp? t g with
  | none => s
  | some y =>
    if y.joinReady p then
      s.modGrp t g fun z => { z with lanes := z.lanes.map fun l =>
        if l.st == .held && l.pc == p then { l with stamp := 0, pc := p + 8, st := .eligible } else l }
    else s

/-- Every JOIN of a group whose lanes may go lets them go (R32). -/
def State.releaseJoins (s : State) (t g : Nat) : State :=
  match s.grp? t g with
  | none => s
  | some y => (((y.lanesWith fun l => l.st == .held).map fun l => (y.lane l).pc).eraseDups).foldl (fun u p => u.releaseJoin t g p) s

end Sys2Proof.Machine
end

