-- ==== Sys2Proof/Machine/Pool.lean ====
section
/-! DEFINITION. Machine/Pool.lean: the store pool, windows over it and the range-lock table (R20, R68, R91, R122, R131, R138). -/
namespace Sys2Proof.Machine
open Sys2Proof

/-- Space codes of range locks: 0 global, 1 W-store, 2 X-store, 3 Y-store; a store tag's space. -/
def spaceOf (tag : Nat) : Nat := tag + 1

/-- Bytes of a store's carve: tag 0 w, 1 x, 2 y (R91). -/
def Core.carveBytes (c : Core) (tag : Nat) : Nat := 262144 * c.carve.getD tag 0

/-- A store's bytes. -/
def Core.pool (c : Core) (tag : Nat) : Mem :=
  match tag with
  | 0 => c.wst
  | 1 => c.xst
  | _ => c.yst

/-- Writes a store's bytes. -/
def Core.poolPut (c : Core) (tag a : Nat) (bs : List (BitVec 8)) : Core :=
  match tag with
  | 0 => { c with wst := c.wst.writeN a bs }
  | 1 => { c with xst := c.xst.writeN a bs }
  | _ => { c with yst := c.yst.writeN a bs }

/-- The declared window of any team of a core that covers a byte of a store (R68, R131): team, number, window. -/
def State.winAt (s : State) (c tag a : Nat) : Option (Nat × Nat × Win) :=
  (s.residents c).findSome? fun p =>
    p.2.wins.findSome? fun q =>
      if q.2.store == tag && q.2.off ≤ a && a < q.2.off + q.2.bytes then some (p.1, q.1, q.2) else none

/-- Every window of a core that overlaps an interval of a store. -/
def State.winsOver (s : State) (c tag a n : Nat) : List (Nat × Nat × Win) :=
  (s.residents c).flatMap fun p =>
    p.2.wins.filterMap fun q =>
      if q.2.store == tag && overlaps q.2.off q.2.bytes a n then some (p.1, q.1, q.2) else none

/-- Presence bits of a window over an interval of the store are set (R130, R131). -/
def Win.present (w : Win) (a n : Nat) : Bool :=
  let lo := (max a w.off) - w.off
  let hi := (min (a + n) (w.off + w.bytes)) - w.off
  hi ≤ lo || (List.range (cdiv hi w.unit - lo / w.unit)).all fun k => bit w.pres (lo / w.unit + k)

/-- One byte of a zero-chunk elision image at an expanded offset (R138). -/
def elidedByte (m : Mem) (base e : Nat) : BitVec 8 :=
  let tile := e / 4096
  let ent := leNat (m.readN (base + 4 * tile) 4)
  let tb := base + bits ent 0 24
  let chunk := e % 4096 / 64
  let bm := leNat (m.readN tb 8)
  if bit bm chunk then
    let rank := ((List.range chunk).filter fun k => bit bm k).length
    m.read (tb + 64 + 64 * rank + e % 64)
  else 0

/-- One byte of a store as lanes and the engine read it: windows with DSTFMT 9 give their expanded image (R131, R138). -/
def State.poolByte (s : State) (c tag a : Nat) : BitVec 8 :=
  match s.winAt c tag a with
  | some (_, _, w) =>
    if w.elided then elidedByte ((s.core c).pool tag) w.off (a - w.off) else ((s.core c).pool tag).read a
  | none => ((s.core c).pool tag).read a

/-- Bytes of a store as lanes and the engine read them. -/
def State.poolRead (s : State) (c tag a n : Nat) : List (BitVec 8) :=
  if (s.winsOver c tag a n).any fun p => p.2.2.elided then (List.range n).map fun i => s.poolByte c tag (a + i)
  else ((s.core c).pool tag).readN a n

/-- Writes bytes of a store. -/
def State.poolWrite (s : State) (c tag a : Nat) (bs : List (BitVec 8)) : State := s.modCore c fun z => z.poolPut tag a bs

/-! ### Range locks (R122) -/

/-- A core holds an exchange area (R404). -/
def State.exchTeam (s : State) (c : Nat) : Option Nat :=
  ((s.residents c).find? fun p => p.2.id.exch).map (·.1)

/-- A range of the table overlaps an interval. -/
def Lock.meets (l : Lock) (a n : Nat) : Bool := (List.range l.rows).any fun k => overlaps (l.base + k * l.step) l.len a n

/-- A Looper's access that is on its way holds its bytes as a range of its core's table (R122, R181). -/
def Op.ranged (o : Op) (c asid : Nat) : Bool := o.loop && o.core == c && o.asid == asid && !o.got

/-- An interval overlaps a destination range: the table's, a Looper's, a crew's matrix area (R184) or the shadow bank (R404). -/
def State.dstLocked (s : State) (c space asid a n : Nat) : Bool :=
  ((s.core c).locks.any fun l => l.dst && l.space == space && (space != 0 || l.asid == asid) && l.meets a n) ||
  (space == 0 && s.ops.any fun o => o.ranged c asid && (o.kind == .store || o.scope != 0) && overlaps o.va o.width a n) ||
  (space == 3 && (s.core c).crews.any fun k => overlaps (k.base * 2048) (k.count * 2048) a n) ||
  (space == 2 && (s.exchTeam c).isSome && overlaps 0x8000 0x8000 a n)

/-- An interval overlaps a source range. -/
def State.srcLocked (s : State) (c space asid a n : Nat) : Bool :=
  ((s.core c).locks.any fun l => !l.dst && l.space == space && (space != 0 || l.asid == asid) && l.meets a n) ||
  (space == 0 && s.ops.any fun o => o.ranged c asid && o.kind == .far && o.scope == 0 && overlaps o.va o.width a n)

/-- A lane access of a core meets the table: a load only destination ranges, a store either (R122). -/
def State.lockHit (s : State) (c space asid a n : Nat) (store : Bool) : Bool :=
  s.dstLocked c space asid a n || (store && s.srcLocked c space asid a n)

/-- Registers a range of an operation. -/
def State.lock (s : State) (c op space asid base len : Nat) (dst : Bool) : State :=
  s.modCore c fun z => { z with locks := z.locks ++ [{ op, space, asid, base, len, dst }] }

/-- Releases the ranges of an operation. -/
def State.unlock (s : State) (c op : Nat) : State := s.modCore c fun z => { z with locks := z.locks.filter fun l => l.op != op }

/-- The table has room for `n` more ranges (R122); the matrix area of every crew is one of its entries (R184). -/
def State.lockRoom (s : State) (c n : Nat) : Bool :=
  (s.core c).locks.length + (s.core c).crews.length + (s.ops.filter fun o => o.loop && o.core == c && !o.got).length + n ≤ 64

/-- A crew instruction still has to read bytes of a window (R195). -/
def State.crewReads (s : State) (c : Nat) (w : Win) : Bool :=
  (s.core c).engine.any fun j =>
    (j.reads.any fun p => p.1 == w.store && overlaps p.2.1 p.2.2 w.off w.bytes) ||
      (s.core c).locks.any fun l => l.op == j.id && !l.dst && l.space == spaceOf w.store && l.meets w.off w.bytes

/-! ### Starting copies and window changes (R130) -/

/-- Decision queues and presence waiters look at window states themselves; this is the state change of TOUCH and of a first
access (R130): presence cleared, the copy queued with the rounding mode of the moment (R149, R397). -/
def State.startCopy (s : State) (t w : Nat) (tok : Option (Nat × Nat)) (grp : Nat) : State :=
  match s.team? t with
  | none => s
  | some x =>
    match x.win? w with
    | none => s
    | some z =>
      let slot := (z.d0.extractLsb' 11 4).toNat
      let bank := (s.routines.getD slot Routine.empty).active
      let cp : Copy :=
        { id := s.nextId, kind := 0, team := t, win := w, cur := z.cur, d0 := z.d0, d1 := z.d1, d2 := z.d2, d3 := z.d3,
          rm := (x.atIssue s.time).rm, bank, inflight := [], done := [], tok, grp, cut := s.nextId, abandoned := false, stored := 0, tiles := 0,
          buf := [], hold := none, locked := false, seen := [] }
      (State.setWin { s with nextId := s.nextId + 1 } t w fun v => { v with st := .filling, pres := 0, f := false }).modCore x.core
        fun c => { c with copies := c.copies ++ [cp] }

/-- A first access to absent lines of a copy window starts its copy (R131); an access by a group is not counted (R81). -/
def State.touchAbsent (s : State) (c tag a n g : Nat) : State :=
  (s.winsOver c tag a n).foldl (fun u p =>
    if p.2.2.st == .absent && !p.2.2.buffer then u.startCopy p.1 p.2.1 none g else u) s

/-- A window does not keep an access of a group to an interval waiting. -/
def State.winReady (s : State) (a n t g : Nat) (p : Nat × Nat × Win) : Bool :=
  p.2.2.present a n && !(p.2.2.st == .absent && !p.2.2.buffer) &&
    (p.2.2.st != .predicted ||
      (p.1 == t && (match s.team? t with
        | some x => (x.readers p.2.1).contains g
        | none => false)))

/-- An access of a group to an interval may proceed: every line present, no absent copy window (R130), and no predicted window
that the group does not read (R131, R222). -/
def State.poolReady (s : State) (c tag a n t g : Nat) : Bool :=
  (s.winsOver c tag a n).all (s.winReady a n t g)

end Sys2Proof.Machine
end

