-- ==== Sys2Proof/Machine/Operands.lean ====
section
/-! DEFINITION. Machine/Operands.lean: how an instruction is issued (R272): illegality by state, guards, register bounds,
interlocks, each lane's end, and what happens to the pack and the run afterwards (R31, R50, R57, R61, R73, R233, R276). -/
namespace Sys2Proof.Machine
open Sys2Proof

/-! ### When a parked lane may go on -/

/-- An access of a group is in flight with an identifier below a bound: a pack that waits for accesses of its own stays
together. Exchange stores and EVWAITs, which may wait for the group itself, are left out. -/
def State.opsBelow (s : State) (t g bound : Nat) : Bool :=
  s.ops.any fun o => o.team == t && o.grp == g && o.kind.mem && o.kind != .evwait && o.kind != .far && o.id < bound

/-- An operation of a group covered by a fence is in flight: private accesses are not waited for (R111), and an EVWAIT is
no access that a fence of another pack waits for before its read. -/
def State.fenceOps (s : State) (t g : Nat) (f : FenceRec) : Bool :=
  s.ops.any fun o => o.team == t && o.grp == g && o.id < f.cut && !o.priv && o.kind != .evwait && !o.got &&
    (!f.ownLanes || f.lanes.contains o.lane) &&
    -- link and host stores are waited for at scope .sys only once they have been sent (R115)
    !(o.sent && o.kind == .store && regionOf o.pa != .dram && f.scope != 5)

/-- An image of a member group that a fence covers is still moved by the matrix engine (R201). -/
def State.fenceJobs (s : State) (t g : Nat) (f : FenceRec) : Bool :=
  match s.team? t with
  | none => false
  | some x => (s.core x.core).engine.any fun j =>
      j.team == t && j.id < f.cut && (match j.instr with | .mld .. | .mst .. => true | _ => false) &&
        j.recs.any fun r => r.grp == g && (!f.ownLanes || r.lanes.any f.lanes.contains)

/-- A fence's next condition holds (R115). -/
def State.fenceReady (s : State) (t g : Nat) (y : Group) (id : Nat) : Bool :=
  match y.fences.find? fun f => f.id == id with
  | none => true
  | some f =>
    if f.stage = 0 then
      !s.fenceOps t g f && !s.fenceJobs t g f && (f.scope < 2 || f.ownLanes || (match s.team? t with | some x => s.pubOpen x.core | none => true))
    else f.markers.isEmpty && y.kwct < s.time && (f.scope != 5 || !s.fenceOps t g f)

/-- An entry of the decision queue is eligible (R38): every input full, or predicted through a .spec interest whose policy
is not off; every output empty. -/
def Team.dqEligible (x : Team) (e : DqEntry) : Bool :=
  (List.range 32).all fun w =>
    (!e.imask.getLsbD w ||
      (match x.win? w with
       | none => false
       | some z => z.st == .full ||
           (z.st == .predicted && (match x.entryOf w with
             | some q => (match q.spec with | some p => p.policy != 0 | none => false)
             | none => false)))) &&
    (!e.omask.getLsbD w || (match x.win? w with | some z => z.st == .empty | none => false))

/-- No more work can come (R39). -/
def Team.dqEnd (x : Team) : Bool :=
  x.dq.isEmpty && (match x.grp? frontKey with | none => true | some f => f.finished)

/-- Order numbers of the packs parked in DQPOP. -/
def Team.dqWaiters (x : Team) : List Nat :=
  x.grps.flatMap fun p => p.2.lanes.filterMap fun l => match l.st with | .parked (.dqpop k) => some k | _ => none

/-- An instruction that changes a window may act (R130, R195, R209, R383, R384). `k`: 0 RGNSET, 1 RGNCLR, 2 TOUCH, 3 NSUB. -/
def State.winFree (s : State) (x : Team) (w k : Nat) : Bool :=
  match x.win? w with
  | none => true
  | some z =>
    z.unsent == 0 && !s.crewReads x.core z &&
      (match k with
       | 0 => z.st != .filling && z.st != .predicted && z.owner.isNone
       | 1 => z.owner.isNone
       | 2 => true
       | _ => z.st != .filling && z.owner.isNone)

/-- Records in the device launch queue that have not started (R249). -/
def State.dlqCount (s : State) : Nat :=
  (s.lu.launches.filter fun l => l.queue.isNone && (l.st == .waiting || l.st == .satisfied)).length

/-- Buffered lines of a group (R223): distinct 128-byte lines. -/
def Task.lines (k : Task) : Nat := ((k.buf.map fun b => b.va / 128 * 2 + b2n b.priv).eraseDups).length

/-- The condition of a parked lane holds, so it may issue its instruction again. Waits that an event ends (barriers, event
words, swaps, blocks, latches, invalidations) never hold by themselves. -/
def State.waitOver (s : State) (t g : Nat) (x : Team) (y : Group) : Wait → Bool
  | .walk a p k => !s.misses.any fun m => m.asid == a && m.page == p && m.kind == k && m.core == x.core
  -- a fault met speculatively is met again, and recorded, once the task has committed (R105)
  | .xlate a p k => (match s.outstFind a p k with | none => true | some o => !o.recorded && !o.owed && !y.spec)
  | .frame a p k => (s.outstFind a p k).isNone && !s.misses.any fun m => m.asid == a && m.page == p && m.kind == k && m.core == x.core
  | .verdict => y.task.isNone
  | .counters a b c d => y.loads ≤ a && y.stores ≤ b && y.copies ≤ c && y.tiles ≤ d
  | .fence id => s.fenceReady t g y id
  | .laneOps b => !s.opsBelow t g b
  | .line isX base len => s.poolReady x.core (b2n isX) base len t g
  | .orphan isX base len => !(s.winsOver x.core (b2n isX) base len).isEmpty && s.poolReady x.core (b2n isX) base len t g
  | .window w k => s.winFree x w k
  | .dqpop k => ((x.dq.any x.dqEligible) || x.dqEnd) && x.dqWaiters.all fun j => k ≤ j
  | .dqpush => x.dq.length < 64
  | .dlq => s.dlqCount < 4096
  | .ilist => x.ilist.length < 64
  | .cancel w => !x.ilist.any fun e => e.win == w && (e.header || x.delivering e)
  | .specLines => (match y.task with | none => true | some k => k.lines ≤ 512)
  | .room k => y.ctr k < ctrMax k
  | .locks n => s.lockRoom x.core n
  | .far => !s.ops.any fun o => o.kind == .far && o.team == t && o.grp == g && o.opc == 0
  | .home d pa a => s.homeOpen d pa a
  | .grant c => c < cycleOf s.time
  | .faultRoom => !s.fq.buffered
  | .barrier _ | .event _ | .clbar | .xacq | .latch | .form | .tlbinv _ _ | .crews => false

/-- A lane may be chosen for issue: eligible, or parked on a condition that holds. -/
def State.laneReady (s : State) (t g l : Nat) (x : Team) (y : Group) : Bool :=
  match (y.lane l).st with
  | .eligible => true
  | .parked w => s.waitOver t g x y w
  | .held | .exited => false

/-! ### How a lane's part of an instruction ends -/

/-- The end of a lane's part of an instruction. -/
inductive LEnd where
  /-- Completed: the next PC. -/
  | done
  /-- A taken branch (R296). -/
  | goto (pc : BitVec 56) (stamp : BitVec 16)
  /-- In the faulting pack mask, with its cause (R285). -/
  | fault (cause : Nat)
  /-- Parks at the instruction. -/
  | park (w : Wait)
  /-- Completed, and parks with its pack (R105). -/
  | parkNext (w : Wait)
  /-- Held at JOIN (R32). -/
  | hold (mask : BitVec 32)
  | exit
  /-- A REP prefix has been accepted: the lane goes on at repetition 0 (R276). -/
  | repStart
  /-- Stalls: stays eligible at the instruction (R57, R81). -/
  | stall
  /-- The body has set the lane's PC and state itself (R238). -/
  | keep
  deriving DecidableEq, Repr

/-- The lane does not stay at its instruction. -/
def LEnd.moves : LEnd → Bool
  | .park _ | .stall | .fault _ => false
  | .done | .goto _ _ | .parkNext _ | .hold _ | .exit | .repStart | .keep => true

/-- The lane gives up its part of the counted instruction: it completes or faults (R81, R233). -/
def LEnd.leaves : LEnd → Bool
  | .park _ | .stall | .keep => false
  | .fault _ | .done | .goto _ _ | .parkNext _ | .hold _ | .exit | .repStart => true

/-- A JOIN of the group may be satisfied by this end (R32). -/
def LEnd.joins : LEnd → Bool
  | .hold _ | .exit | .keep => true
  | .fault _ | .park _ | .stall | .done | .goto _ _ | .parkNext _ | .repStart => false

/-- What a body gives: the state, the ends of lanes (lanes not listed complete), and whether the run ends regardless. -/
structure Res where
  st   : State
  ends : List (Nat × LEnd)
  stop : Bool := false

/-- The end listed for a lane. -/
def endOf (ends : List (Nat × LEnd)) (l : Nat) : LEnd :=
  match ends.find? fun p => p.1 == l with
  | some p => p.2
  | none => .done

/-- The next PC and repetition of a lane that completes: the next repetition, or past the repeated word (R276). -/
def nextPc (r : Run) (len : Nat) (x : Lane) : Lane :=
  match r.rep with
  | some c => if c.ix + 1 < c.n then { x with rep := some (c.ix + 1) } else { x with pc := x.pc + 16, rep := none }
  | none => { x with pc := x.pc + BitVec.ofNat 56 (8 * len), rep := none }

/-- A lane after its part of the instruction. -/
def applyEnd (r : Run) (len : Nat) (e : LEnd) (x : Lane) : Lane :=
  let rep := r.rep.map (·.ix)
  match e with
  | .done => { nextPc r len x with st := .eligible }
  | .goto pc stamp => { x with pc, stamp, rep := none, st := .eligible }
  | .fault _ => { x with st := .eligible, rep }
  | .park w => { x with st := .parked w, rep }
  | .parkNext w => { nextPc r len x with st := .parked w }
  | .hold m => { x with st := .held, jmask := m, rep }
  | .exit => { nextPc r len x with st := .exited }
  | .repStart => { x with rep := some 0, st := .eligible }
  | .stall => { x with st := .eligible, rep }
  | .keep => x

/-- E ends the run after the last repetition (R267, R381). -/
def eEnds (r : Run) (i : Instr) : Bool :=
  (match i.hdr? with | some h => h.e | none => false) &&
    (match r.rep with | some c => c.ix + 1 ≥ c.n | none => true)

/-- The faulting lanes of an instruction with their causes. -/
def faultsOf (ends : List (Nat × LEnd)) : List (Nat × Nat) :=
  ends.filterMap fun p => match p.2 with | .fault c => some (p.1, c) | _ => none

/-- Fence records of a pack whose lanes have moved on are dropped. -/
def Group.dropFences (y : Group) (lanes : List Nat) (pc : BitVec 56) (rep : Option Nat) : Group :=
  { y with fences := y.fences.filter fun f => !(!f.lanes.isEmpty && f.lanes.all lanes.contains && f.pc == pc && f.rep == rep) }

/-- A lane passes the guard (R61, R63). -/
def guardPass (front : Bool) (h : Option Hdr) (x : Lane) : Bool :=
  match h with
  | none => true
  | some h => !h.ge || (bit (x.get front h.gr.toNat) h.gb.toNat != h.gn)

/-- The lanes of the pack that pass the guard: the active lanes (R61). -/
def activeOf (x : Ctx) (i : Instr) : List Nat := x.run.lanes.filter fun l => guardPass x.front i.hdr? (x.lane l)

/-- The register a hold field keeps (R60). -/
def holdReg (i : Instr) : Option Nat :=
  match i.hdr?, encodeFields i with
  | some h, some (f, _) =>
    match h.h.toNat with
    | 1 => some f.a.toNat
    | 2 => some f.b.toNat
    | 3 => some f.c8.toNat
    | _ => none
  | _, _ => none

/-- The registers an instruction writes: those its fields name, and the one MOVX computes in each active lane (R358). -/
def writesOf (x : Ctx) (i : Instr) (act : List Nat) : List RegUse :=
  (i.roles x.front).wr ++
    (match i with
     | .movx _ true _ a n => act.map fun l => ⟨n.toNat + (x.lane l).get x.front a.toNat % 2 ^ 32, 1⟩
     | _ => [])

/-- Registers from a start on are outside a use. -/
def useMisses (u : RegUse) (start count : Nat) : Bool := u.start + u.count ≤ start || start + count ≤ u.start

/-- The entry a hold field makes: the register, or the pair, and the two instructions it lasts (R60). -/
def holdEntry (front : Bool) (i : Instr) : List (Nat × Nat × Nat) :=
  match holdReg i with
  | none => []
  | some k =>
    match (i.roles front).rd.find? fun u => u.start == k with
    | some u => [(k, u.count, 2)]
    | none => [(k, 1, 2)]

/-- The operand latch after an instruction: an entry lasts two instructions, a write to a register it keeps invalidates it, one of the
instruction that makes it among them, three entries (R60). -/
def latchNext (x : Ctx) (i : Instr) : List (Nat × Nat × Nat) :=
  let wr := writesOf x i (activeOf x i)
  let old := x.run.latch.filterMap fun p => if p.2.2 ≤ 1 then none else some (p.1, p.2.1, p.2.2 - 1)
  (((holdEntry x.front i ++ old).take 3).filter fun p => wr.all fun u => useMisses u p.1 p.2.1)

/-- A wait on a translation, for which the whole pack parks (R105). -/
def Wait.xlates : Wait → Bool
  | .walk _ _ _ | .xlate _ _ _ => true
  | _ => false

/-- What the end of one lane of the pack means for the lanes that are guarded off: a pack that stalls has not issued the
instruction (R57, R81), and the pack of a lane whose access is stopped by its translation parks (R105). -/
def LEnd.forOff : LEnd → Option LEnd
  | .stall => some .stall
  | .park w => match w with
    | .room _ => some (.park w)
    | _ => if w.xlates then some (.parkNext w) else none
  | .parkNext w => some (.parkNext w)
  | _ => none

/-- The end of a lane that its guard keeps out (R61): its PC advances past the instruction. It takes no part in the wait of
the lanes that park in it, but for the cases of `LEnd.forOff`. -/
def offEnd (ends : List (Nat × LEnd)) : LEnd := (ends.findSome? fun p => p.2.forOff).getD .done

/-- The ends of every lane of the pack: those that the body lists, completion for the other active ones, and those of the
lanes that are guarded off. -/
def allEnds (x : Ctx) (i : Instr) (ends : List (Nat × LEnd)) : List (Nat × LEnd) :=
  let act := activeOf x i
  x.run.lanes.map fun l =>
    (l, match ends.find? fun p => p.1 == l with
      | some p => p.2
      | none => if act.contains l then .done else offEnd ends)

/-- A task's buffered stores and other effects are in the state already; this settles the pack (R31, R61, R73, R233):
every lane's PC and state, the run, and a trap for the faulting lanes. -/
def finish (x : Ctx) (i : Instr) (r : Res) : State :=
  let run := x.run
  let len := (i.roles x.front).words
  let ends := allEnds x i r.ends
  -- a lane that leaves a counted instruction gives up its part (R81)
  let gone := (ends.filter fun p => p.2.leaves).map (·.1)
  let st := (r.st.releaseAll run.team run.grp gone).dropFar run.team run.grp gone
  let allDone := ends.all fun p => p.2 == .done || p.2 == .repStart
  let moved := ends.all fun p => p.2.moves
  let pc := x.pc
  let s0 := st.modGrp run.team run.grp fun y =>
    let y1 := { y with lanes := (List.range y.lanes.length).map fun l =>
      if run.lanes.contains l then applyEnd run len (endOf ends l) (y.lane l) else y.lane l }
    if moved then y1.dropFences run.lanes pc (run.rep.map (·.ix)) else y1
  -- a JOIN is evaluated whenever a lane is held or exits (R32)
  let s1 := if ends.any fun p => p.2.joins then s0.releaseJoins run.team run.grp else s0
  let flt := faultsOf ends
  let ended : Bool := match s1.grp? run.team run.grp with
    | none => false
    | some y => !y.finished && ends.any (fun p => p.2 == .exit || p.2 == .keep) && y.lanes.all fun l => l.st == .exited
  let together : Bool := match s1.grp? run.team run.grp with
    | none => false
    | some y => run.lanes.all fun l => (y.lane l).stamp == (y.lane (low run.lanes)).stamp
  let s2 :=
    if !allDone || !together || r.stop || eEnds run i then s1.dropRun run.team run.grp
    else { s1 with runs := s1.runs.map fun q =>
      if q.team == run.team && q.grp == run.grp then { q with latch := latchNext x i } else q }
  if ended then s2.groupFinished run.team run.grp
  else if flt.isEmpty then s2
  else s2.takeTrap run.team run.grp flt run.lanes (run.rep.map fun c => (pc, c.ix))

/-! ### Checks at issue (R272) -/

/-- A general register index is valid (R50); an s register is checked at decode. -/
def Group.regOk (y : Group) (n : Nat) : Bool :=
  y.front && n < 64 || (!y.front && (n < y.bsize || (128 ≤ n && n < 192 && y.xblk.isSome)))

/-- Every register of a use is valid. -/
def Group.useOk (y : Group) (u : RegUse) : Bool := (List.range u.count).all fun k => y.regOk (u.start + k)

/-- The issuer's state makes the word illegal (R273): a device step, the fields, a declined feature, the privilege, a
handler, a TRET outside one, ENBUDGET at user level (R319), or REP before a word that may not follow it (R275). -/
def illegalNow (s : State) (x : Ctx) (i : Instr) : Bool :=
  let r := i.roles x.front
  !i.wf x.front || r.feats.any (fun b => !s.feat b) || (r.sup && !x.gp.sup) || (r.noHandler && x.gp.es.inh) ||
    (r.crewI && x.gp.es.inh) || (x.run.rep.isSome && r.noRep) ||
    (match i with
     | .tret _ => !x.gp.es.inh
     | .csrr _ _ c => c == 0x048#12 && !x.gp.sup
     | .csrw _ _ c => c == 0x048#12 && !x.gp.sup
     | _ => false)

/-- The cursor registers an instruction names. -/
def Instr.cursNamed : Instr → List Nat
  | .evsig _ _ c _ _ _ | .evwait _ _ c _ _ _ | .ld _ _ _ _ _ c _ _ | .st _ _ _ _ c _ _ | .atom _ _ _ _ _ _ c _ _
  | .cctl _ _ c _ _ | .prsq _ _ c _ _ | .mld _ _ c _ _ | .mst _ _ c _ _ | .launch _ _ c _ _ => [c.toNat]
  | .rgnset _ _ cd ca _ _ => [cd.toNat, ca.toNat]
  | .cmk _ _ cd _ => [cd.toNat]
  | .cdesc _ _ cd ca => [cd.toNat, ca.toNat]
  | .cnrw _ cd ca _ _ => [cd.toNat, ca.toNat]
  | .cnext _ _ ca | .cseek _ _ ca _ | .cget _ _ ca _ _ | .capp _ _ ca _ | .cfin _ ca => [ca.toNat]
  | .ccoit _ _ _ ca cb => [ca.toNat, cb.toNat]
  | _ => []

/-- A register that the instruction reads or writes still has a write pending in some lane of a list (R57). -/
def interlock (x : Ctx) (i : Instr) (lanes : List Nat) : Bool :=
  let r := i.roles x.front
  lanes.any fun l =>
    let z := x.lane l
    ((r.rd ++ r.wr).any fun u => (List.range u.count).any fun k => z.pendingReg x.front (u.start + k)) ||
      (Instr.cursNamed i).any fun c => z.pendingCur c

/-- The guard register still has a write pending in some lane of the pack (R57). -/
def guardLock (x : Ctx) (i : Instr) : Bool :=
  match i.hdr? with
  | some h => h.ge && x.run.lanes.any fun l => (x.lane l).pendingReg x.front h.gr.toNat
  | none => false

/-- The guard register lies outside the lane's block (R50, R272). -/
def guardOut (x : Ctx) (i : Instr) : Bool :=
  match i.hdr? with
  | some h => h.ge && !x.gp.regOk h.gr.toNat
  | none => false

/-- Every lane of a list ends the same way. -/
def allEnd (lanes : List Nat) (e : LEnd) : List (Nat × LEnd) := lanes.map fun l => (l, e)

/-- The meaning of an instruction's body: the context at issue, the active lanes and the state. -/
abbrev Body := Ctx → List Nat → State → Res

/-- What an issued instruction does (R272), in the order of the spec's procedure. -/
def issueRes (i : Instr) (body : Body) (x : Ctx) (s : State) : Res :=
  let r := i.roles x.front
  if illegalNow s x i then ⟨s, allEnd x.run.lanes (.fault cIllegal), true⟩
  else if guardOut x i then ⟨s, allEnd x.run.lanes (.fault cRegBound), true⟩
  else if guardLock x i then ⟨s, allEnd x.run.lanes .stall, true⟩
  else
    let act := activeOf x i
    if act.isEmpty && !(r.crewI && x.gp.crew.valid) then ⟨s, [], false⟩
    else if !act.isEmpty && (r.rd ++ r.wr).any (fun u => !x.gp.useOk u) then ⟨s, allEnd act (.fault cRegBound), true⟩
    else if interlock x i act then ⟨s, allEnd x.run.lanes .stall, true⟩
    else if r.crewI && !x.gp.crew.valid then ⟨s, allEnd act (.fault cCrewAbsent), true⟩
    else if x.gp.spec && r.specWait then ⟨s, allEnd (if act.isEmpty || r.crewI then x.run.lanes else act) (.park .verdict), true⟩
    else body x act s

/-- Issues an instruction: the one operation every instruction's meaning is built on. -/
def issue (i : Instr) (body : Body) (s : State) : Host.Outcome State Fault Refusal :=
  match s.issuer? with
  | none => .fault .noIssuer
  | some x => .next (finish x i (issueRes i body x s))

/-- A body that changes each active lane on its own and always completes. -/
def laneBody (f : Ctx → Nat → Lane → Lane) : Body := fun x act s =>
  ⟨act.foldl (fun u l => u.onLane x l (f x l)) s, [], false⟩

/-- A body that writes one register of each active lane from the lanes as they stood at issue. -/
def regBody (d : BitVec 8) (f : Ctx → Nat → Lane → Nat) : Body :=
  laneBody fun x l z => z.put x.front d.toNat (f x l (x.lane l))

/-- A body that gives an asynchronous writeback to each active lane (R57), its data ready. -/
def asyncBody (f : Ctx → Nat → Lane → List (PReg × Nat)) : Body := fun x act s =>
  ⟨act.foldl (fun u l => (u.addPend x.run.team x.run.grp l (f x l (x.lane l)) true none).2) s, [], false⟩

/-- The destination of an asynchronous writeback of one register. -/
def pregOf (front : Bool) (d : Nat) : PReg := if front then .s d else .g d

end Sys2Proof.Machine
end

