-- ==== Sys2Proof/Machine/Runs.lean ====
section
/-! DEFINITION. Machine/Runs.lean: fetch, packs, runs and their ends (R28 to R33, R72 to R75, R267, R274, R276, R418). -/
namespace Sys2Proof.Machine
open Sys2Proof

/-! ### Fetch (R267, R418) -/

/-- What a fetch of a word gives. -/
inductive Fetch where
  | ok (w : BitVec 64) (s : State)
  | miss
  | fault (cause : Nat)
  | trap (cause : Nat)
  | wait (w : Wait)
  | poison

/-- One line through the core's instruction path, under its lease (R418). -/
def State.ipathLine (s : State) (c line : Nat) (a : Attr) : BitVec 1024 × State :=
  match (s.core c).ipath.find? fun x => x.line == line && s.time < x.lease with
  | some x => (x.data, s)
  | none =>
    let s1 := (s.cleanLine c line []).l2Serve (dieOf c) (line * 128) a
    let (e, s2) := s1.grantL1 (dieOf c) line
    let d := s2.l2Data (dieOf c) line
    (d, s2.modCore c fun z => { z with ipath := ⟨line, d, e⟩ :: z.ipath.filter fun y => y.line != line })

/-- The instruction word at a PC of a group (R267): translation and rights (kind 3), the physical check, then the
instruction path; pages with ALLOC below 2 are read at the L3 home (R95). The spec does not say what a fetch from the link window,
the host window or device control space meets: the model traps with access-refused (log entry 151). -/
def State.fetchWord (s : State) (x : Team) (y : Group) (pc : BitVec 56) : Fetch :=
  let va := pc.toNat
  match s.xlate x.core x.id.asid va 3 y.sup with
  | .miss => .miss
  | .fault c => .fault c
  | .ok e =>
    let pa := e.phys va
    match s.physCheck x.core 3 pa 8 y.sup with
    | some c => if c = cRefused && s.fq.buffered then .wait .faultRoom else .trap c
    | none =>
      match regionOf pa with
      | .dram =>
        if s.poisoned pa 8 then .poison
        else if !s.homeOpen (dieOf x.core) pa e.alloc then .wait (.home (dieOf x.core) pa e.alloc)
        else if e.alloc ≥ 2 then
          let (d, s1) := s.ipathLine x.core (pa / 128) e.attr
          .ok (d.extractLsb' (8 * (pa % 128)) 64) s1
        else let r := s.homeGet pa 8 e.attr; .ok (BitVec.ofNat 64 (leNat r.1)) r.2
      | _ => .trap cRefused

/-! ### Packs (R30, R31) -/

/-- A pack's key: stamp, PC, and the repetition index with none smallest (R30). -/
def laneKey (x : Lane) : Nat × Nat × Nat :=
  (x.stamp.toNat, x.pc.toNat, match x.rep with | none => 0 | some i => i + 1)

/-- Keys compare stamp first, then PC, then repetition. -/
def keyLt (a b : Nat × Nat × Nat) : Bool :=
  a.1 < b.1 || (a.1 == b.1 && (a.2.1 < b.2.1 || (a.2.1 == b.2.1 && a.2.2 < b.2.2)))

/-- The smallest key of a list. -/
def minKey : List (Nat × Nat × Nat) → Option (Nat × Nat × Nat)
  | [] => none
  | k :: t =>
    match minKey t with
    | none => some k
    | some m => if keyLt m k then some m else some k

/-- The lanes of a group that may be chosen for issue. -/
def State.readyLanes (s : State) (t g : Nat) (x : Team) (y : Group) : List Nat :=
  if y.finished || y.es.entry.isSome then []
  else (List.range y.lanes.length).filter fun l => s.laneReady t g l x y

/-- The candidate packs' keys. -/
def candKeys (y : Group) (ready : List Nat) : List (Nat × Nat × Nat) := (ready.map fun l => laneKey (y.lane l)).eraseDups

/-- The chosen key (R30): the pack aged longest, the smaller pair among equals, else the smallest. -/
def chooseKey (ages : List ((Nat × Nat × Nat) × Nat)) (cands : List (Nat × Nat × Nat)) : Option (Nat × Nat × Nat) :=
  let aged := cands.filterMap fun k => (ages.find? fun p => p.1 == k && 8 ≤ p.2).map fun p => (k, p.2)
  let top := aged.foldl (fun m p => max m p.2) 0
  if aged.isEmpty then minKey cands else minKey ((aged.filter fun p => p.2 == top).map (·.1))

/-- The counts after a choice: the chosen pack's is dropped, the others' rise (R30). -/
def nextAges (ages : List ((Nat × Nat × Nat) × Nat)) (cands : List (Nat × Nat × Nat)) (k : Nat × Nat × Nat) :
    List ((Nat × Nat × Nat) × Nat) :=
  (cands.filter fun c => c != k).map fun c =>
    (c, match ages.find? fun p => p.1 == c with | some p => p.2 + 1 | none => 1)

/-- The word a pack would issue next, as the instruction path or memory holds it, for the readiness test of R72. -/
def State.peek (s : State) (x : Team) (y : Group) (pc : BitVec 56) : Option Instr :=
  match s.fetchWord x y pc with
  | .ok w _ =>
    match s.fetchWord x y (pc + 8) with
    | .ok w2 _ => (decodeWords y.front w w2).toOption
    | _ => (decodeWords y.front w 0).toOption
  | _ => none

/-- The pack's first instruction waits for an asynchronous register write (R57, R72). -/
def State.firstStalls (s : State) (t g : Nat) (x : Team) (y : Group) (lanes : List Nat) : Bool :=
  match s.peek x y (y.lane (low lanes)).pc with
  | none => false
  | some i =>
    let run : Run := ⟨0, 0, t, g, lanes, none, 0, [], none⟩
    let c : Ctx := ⟨run, x, y⟩
    guardLock c i || interlock c i (activeOf c i)

/-- The pack a group would issue (R30), unless its first instruction waits for a register (R72). -/
def State.packOf (s : State) (t g : Nat) (x : Team) (y : Group) : Option (List Nat × List ((Nat × Nat × Nat) × Nat)) :=
  let ready := s.readyLanes t g x y
  let cands := candKeys y ready
  match chooseKey y.ages cands with
  | none => none
  | some k =>
    let lanes := ready.filter fun l => laneKey (y.lane l) == k
    if s.firstStalls t g x y lanes then none else some (lanes, nextAges y.ages cands k)

/-! ### Starting and ending runs (R72, R73, R75) -/

/-- The pipe a group issues on: slot mod 8, or the scalar port (R72, R75). -/
def Group.pipe (y : Group) : Nat := if y.front then 8 else y.slot % 8

/-- The ready groups of a core whose runs are not open, in ascending slot order: pipe, team and group. -/
def State.readyOf (s : State) (c : Nat) : List (Nat × Nat × Nat) :=
  let all := (s.residents c).flatMap fun p => p.2.grps.filterMap fun q =>
    if !(s.runs.any fun r => r.team == p.1 && r.grp == q.1) && (s.packOf p.1 q.1 p.2 q.2).isSome
    then some ((q.2.pipe, p.1, q.1), q.2.slot) else none
  (sortBy (·.2) all).map (·.1)

/-- A run is open on a pipe. -/
def State.pipeBusy (s : State) (c pipe : Nat) : Bool := s.runs.any fun r => r.core == c && r.pipe == pipe

/-- The ready list of a pipe as it stands (R72): groups still ready keep their places; groups newly ready follow in slot
order, and behind them the group whose run has just ended. A group whose run is open is not listed. -/
def Core.readyList (z : Core) (ready : List (Nat × Nat × Nat)) (pipe : Nat) : List (Nat × Nat) :=
  let now := (ready.filter fun p => p.1 == pipe).map (·.2)
  let old := (z.ready.getD pipe []).filter fun p => now.contains p
  let new := now.filter fun p => !old.contains p
  old ++ new.filter (fun p => !z.running.contains p) ++ new.filter fun p => z.running.contains p

/-- The ready lists of a core are brought up to date at the end of a core cycle, so that groups that became ready in one cycle follow in
slot order (R72, log entry 14). -/
def State.sampleReady (s : State) (c : Nat) : State :=
  let now := s.readyOf c
  let lists := (List.range 9).filterMap fun p => match (s.core c).readyList now p with
    | [] => none
    | l => some (p, l)
  s.modCore c fun z =>
    { z with ready := lists, running := (s.runs.filter fun r => r.core == c).map fun r => (r.team, r.grp) }

/-- A lane taken into a run is eligible; one that waits in DQPOP keeps its place until it issues (R39). -/
def Lane.taken (x : Lane) : Lane :=
  match x.st with
  | .parked (.dqpop _) => x
  | _ => { x with st := .eligible }

/-- The order in which the scalar port serves front threads (R75): the one served longest ago first, and those that it meets for the
first time behind all others, so that none waits for more runs than there are other front threads. -/
def frontOrder (q : List Nat) (l : List (Nat × Nat)) : List Nat :=
  q ++ ((sortBy (·.1) l).map (·.1)).filter fun t => !q.contains t

/-- The front thread that the scalar port serves next. -/
def nextFront (q : List Nat) (l : List (Nat × Nat)) : Option (Nat × Nat) :=
  (frontOrder q l).findSome? fun t => l.find? fun p => p.1 == t

/-- The order after a team's front thread is served; teams that have left the core leave it. -/
def State.frontServed (s : State) (c : Nat) (q : List Nat) (l : List (Nat × Nat)) (t : Nat) : List Nat :=
  ((frontOrder q l).filter fun k => k != t && (s.residents c).any fun p => p.1 == k) ++ [t]

/-- The satisfied JOINs of the groups homed to a pipe let their lanes go (R32). -/
def State.pipeJoins (s : State) (c pipe : Nat) : State :=
  (s.residents c).foldl (fun u p => p.2.grps.foldl (fun v q => if q.2.pipe == pipe then v.releaseJoins p.1 q.1 else v) u) s

/-- A pipe gives its next run to the group at the head of its ready list; the scalar port serves front threads round-robin
(R73, R75). A core that drains or has halted starts none (R86). -/
def State.startRun (s0 : State) (c pipe : Nat) : State :=
  if s0.pipeBusy c pipe || (s0.core c).pre != 0 then s0
  else
    let s := s0.pipeJoins c pipe
    let lst := (s.core c).readyList (s.readyOf c) pipe
    let pick := if pipe = 8 then nextFront (s.core c).scalarQ lst else lst.head?
    match pick with
    | none => s
    | some p =>
      match s.team? p.1 with
      | none => s
      | some x =>
        match x.grp? p.2 with
        | none => s
        | some y =>
          match s.packOf p.1 p.2 x y with
          | none => s
          | some (lanes, ages) =>
            let s1 := s.modGrp p.1 p.2 fun z =>
              { z with ages, lanes := (List.range z.lanes.length).map fun l =>
                  if lanes.contains l then (z.lane l).taken else z.lane l }
            let s2 := s1.modCore c fun z =>
              { z with ready := z.ready.set pipe ((z.ready.getD pipe []).filter fun q => q != p && lst.contains q)
                       running := p :: z.running.filter (· != p)
                       scalarQ := if pipe = 8 then s.frontServed c z.scalarQ lst p.1 else z.scalarQ }
            { s2 with runs := s2.runs ++ [⟨c, pipe, p.1, p.2, lanes, none, 0, [], none⟩] }

/-- The forced end is due: the next instruction would issue in the run's 256th core cycle or later, counted from the cycle of
its first issue (R73); a run that has issued nothing is no run in progress once its core drains (R86). -/
def State.forcedDue (s : State) (r : Run) : Bool :=
  match r.start with
  | some c => 255 ≤ cycleOf s.time - c
  | none => (s.core r.core).pre != 0

/-- The forced end of a pipe's run. -/
def State.forceEnd (s : State) (c pipe : Nat) : State :=
  { s with runs := s.runs.filter fun r => !(r.core == c && r.pipe == pipe && s.forcedDue r) }

/-! ### The next instruction of a run -/

/-- What a run's pack does next. -/
inductive NextI where
  /-- Issue this instruction with the run as given. -/
  | instr (i : Instr) (r : Run) (s : State)
  /-- The word is no instruction: illegal-instruction for the pack, at the repetition in the run (R273). -/
  | illegal (r : Run) (s : State)
  /-- Something else than an instruction happened. -/
  | other (s : State)

/-- The pack parks on its fetch (R105, R267), traps, or its team is killed on poison (R241). -/
def State.fetchStop (s : State) (x : Ctx) (pc : BitVec 56) (f : Fetch) : State :=
  let tm := x.tm
  let park := fun (w : Wait) (u : State) =>
    (u.modGrp x.run.team x.run.grp fun z => { z with lanes := (List.range z.lanes.length).map fun l =>
      if (x.run.lanes.contains l) then { (z.lane l) with st := .parked w } else z.lane l }).endRun x
  match f with
  | .ok _ _ => s
  | .miss => park (.walk tm.id.asid (pageOf pc.toNat) 3) (s.addMiss tm.core tm.id.asid pc.toNat 3 x.gp.spec)
  | .fault c => park (.xlate tm.id.asid (pageOf pc.toNat) 3) (s.reportXlate pc.toNat c tm.id.asid 3 tm.core x.gp.spec)
  | .trap c => (s.pushRefused pc.toNat c tm.id.asid 3 tm.core).takeTrap x.run.team x.run.grp (x.run.lanes.map fun l => (l, c)) x.run.lanes (x.run.rep.map fun r => (x.pc, r.ix))
  | .wait w => park w s
  | .poison => s.killTeam x.run.team cEcc x.pc.toNat

/-- The largest number a stepped field may hold (R268). -/
def kindMax (front : Bool) : FieldKind → Nat
  | .none => 255
  | .g | .pair => if front then 63 else 255
  | .idx => 255
  | .cur | .slot => 7
  | .mat | .bar => 15
  | .win => 31

/-- A stepped field: none when the number leaves its class (R276). A cursor field steps in its low three bits. -/
def stepField (front : Bool) (k : FieldKind) (f : BitVec 8) (st : BitVec 4) (i : Nat) : Option (BitVec 8) :=
  if k = .none then some f
  else
    let base : Nat := if k = .cur then f.toNat % 8 else f.toNat
    let v : Int := base + i * st.toInt
    if v < 0 ∨ (kindMax front k : Int) < v then none
    else some (BitVec.ofNat 8 (if k = .cur then f.toNat / 8 * 8 + v.toNat else v.toNat))

/-- The repeated word with its fields stepped for repetition `i` (R276). -/
def stepWord (front : Bool) (r : Roles) (w : BitVec 64) (sd sa sb sc : BitVec 4) (i : Nat) : Option (BitVec 64) :=
  let f := Fields.ofWord w
  match stepField front r.fd f.d sd i, stepField front r.fa f.a sa i, stepField front r.fb f.b sb i,
      stepField front r.fc f.c8 sc i with
  | some d, some a, some b, some c => some (Fields.toWord { f with d, a, b, c := f.nib ++ c })
  | _, _, _, _ => none

/-- A lane's acquire has not its value yet (R118). -/
def State.acqPending (s : State) (x : Ctx) (l : Nat) : Bool :=
  s.ops.any fun o => o.team == x.run.team && o.grp == x.run.grp && o.lane == l && o.acq && o.kind != .evwait

/-- The next instruction of the pack (R267, R271, R274, R276): words are fetched, counted against the 24 of a run, and a
repetition in progress takes its stepped word. No word is fetched ahead of an acquire of the pack (R418, log entry 128). -/
def State.nextInstr (s : State) (x : Ctx) : NextI :=
  let y := x.gp
  let pc := x.pc
  let run0 := { x.run with rep := none }
  if x.run.lanes.any (s.acqPending x) then .other (s.fetchStop x pc (.wait (.laneOps s.nextId)))
  else
  match s.fetchWord x.tm y pc with
  | .ok w s1 =>
    (match (x.lane (low x.run.lanes)).rep with
     | some ix =>
       (match decodeWords y.front w 0 with
        | .ok (.rep n sd sa sb sc) =>
          let cnt := n.toNat + 1
          if cnt ≤ ix then
            .other (s1.modGrp run0.team run0.grp fun z => { z with lanes := (List.range z.lanes.length).map fun l =>
              if (run0.lanes.contains l) then { (z.lane l) with pc := pc + 16, rep := none } else z.lane l })
          else
            let run1 := { run0 with rep := some ⟨ix, cnt, w⟩, words := if run0.words = 0 then 2 else run0.words }
            (match s1.fetchWord x.tm y (pc + 8) with
             | .ok w1 s2 =>
               (match decodeWords y.front w1 0 with
                | .ok i0 =>
                  (match stepWord y.front (i0.roles y.front) w1 sd sa sb sc ix with
                   | some w2 =>
                     (match decodeWords y.front w2 0 with
                      | .ok i => .instr i run1 s2
                      | .error _ => .illegal run1 s2)
                   | none => .illegal run1 s2)
                | .error _ => .illegal run1 s2)
             | f => .other (s1.fetchStop x (pc + 8) f))
        | _ =>
          .other (s1.modGrp run0.team run0.grp fun z => { z with lanes := (List.range z.lanes.length).map fun l =>
            if (run0.lanes.contains l) then { (z.lane l) with rep := none } else z.lane l }))
     | none =>
       let two := twoWords (Fields.ofWord w).op
       let isRep := (Fields.ofWord w).op == 0x187
       let need := run0.words + (if two || isRep then 2 else 1)
       if 24 < need then .other (s1.endRun x)
       else
         let run1 := { run0 with words := need }
         if two then
           (match s1.fetchWord x.tm y (pc + 8) with
            | .ok w2 s2 =>
              (match decodeWords y.front w w2 with
               | .ok i => .instr i run1 s2
               | .error _ => .illegal run1 s2)
            | f =>
              -- a first word that is illegal whatever follows it traps before its second word is fetched (R272)
              (match decodeWords y.front w 0 with
               | .ok i => if illegalNow s1 { x with run := run1 } i then .illegal run1 s1 else .other (s1.fetchStop x (pc + 8) f)
               | .error _ => .illegal run1 s1))
         else
           (match decodeWords y.front w 0 with
            | .ok i => .instr i run1 s1
            | .error _ => .illegal run1 s1))
  | f => .other (s.fetchStop x pc f)

/-- The run that issues, with its counters as the next instruction needs them. -/
def State.setRun (s : State) (r : Run) : State :=
  { s with runs := s.runs.map fun q => if q.team == r.team && q.grp == r.grp then r else q }

/-- Illegal-instruction for the whole pack at a word that is no instruction (R273). -/
def State.illegalPack (s : State) (r : Run) (pc : BitVec 56) : State :=
  let s1 := s.modGrp r.team r.grp fun z => { z with lanes := (List.range z.lanes.length).map fun l =>
    if (r.lanes.contains l) then { (z.lane l) with rep := r.rep.map (·.ix) } else z.lane l }
  s1.takeTrap r.team r.grp (r.lanes.map fun l => (l, cIllegal)) r.lanes (r.rep.map fun c => (pc, c.ix))

/-- Rotates the run of a pipe to the head, so that it issues next. -/
def State.rotate (s : State) (c pipe : Nat) : State :=
  { s with runs := (s.runs.filter fun r => r.core == c && r.pipe == pipe) ++ s.runs.filter fun r => !(r.core == c && r.pipe == pipe) }

end Sys2Proof.Machine
end

