-- ==== Sys2Proof/Machine/Int.lean ====
section
/-! DEFINITION. Machine/Int.lean: the integer and logic instructions (class 000; R287 to R406). -/
namespace Sys2Proof.Machine
open Sys2Proof

/-! ### Shared computations on W-bit values -/

/-- Register width of the issuer. -/
def Ctx.w (x : Ctx) : Nat := regW x.front

/-- A register of a lane as the issuer reads it. -/
def Ctx.rd (x : Ctx) (z : Lane) (r : BitVec 8) : Nat := z.get x.front r.toNat

/-- SignExtend(imm) taken to W bits. -/
def immW (w : Nat) (imm : BitVec 12) : Nat := wrap imm.toInt w

/-- The complement in W bits. -/
def notW (w v : Nat) : Nat := 2 ^ w - 1 - v % 2 ^ w

/-- A value read under a type: signed or unsigned (R337). -/
def tyVal (ty : Ty) (w v : Nat) : Int := if ty = .i32 then signed v w else ((v % 2 ^ w : Nat) : Int)

/-- One bit of a value replaced. -/
def setBit (v k : Nat) (b : Bool) : Nat := v - (if bit v k then 2 ^ k else 0) + (if b then 2 ^ k else 0)

/-- Instructions with two register sources (R337): the same computation in every active lane. -/
def exec2 (i : Instr) (d a b : BitVec 8) (f : Nat → Nat → Nat → Nat) (s : State) : Host.Outcome State Fault Refusal :=
  issue i (regBody d fun x _ z => f x.w (x.rd z a) (x.rd z b)) s

/-- Instructions with one register source and an immediate. -/
def execI (i : Instr) (d a : BitVec 8) (imm : BitVec 12) (f : Nat → Nat → Nat → Nat) (s : State) :
    Host.Outcome State Fault Refusal :=
  issue i (regBody d fun x _ z => f x.w (x.rd z a) (immW x.w imm)) s

/-- Instructions with one register source. -/
def exec1 (i : Instr) (d a : BitVec 8) (f : Nat → Nat → Nat) (s : State) : Host.Outcome State Fault Refusal :=
  issue i (regBody d fun x _ z => f x.w (x.rd z a)) s

/-- Instructions with three register sources. -/
def exec3 (i : Instr) (d a b c : BitVec 8) (f : Nat → Nat → Nat → Nat → Nat) (s : State) :
    Host.Outcome State Fault Refusal :=
  issue i (regBody d fun x _ z => f x.w (x.rd z a) (x.rd z b) (x.rd z c)) s

/-- IADD, ISUB, IMUL, IMULH, IMIN and IMAX by type (R337). -/
def addW (w a b : Nat) : Nat := (a + b) % 2 ^ w
/-- (a − b) mod 2^W. -/
def subW (w a b : Nat) : Nat := (a + notW w b + 1) % 2 ^ w
/-- (a × b) mod 2^W. -/
def mulW (w a b : Nat) : Nat := a * b % 2 ^ w
/-- (a × b) div 2^W toward −∞, mod 2^W. -/
def mulhW (ty : Ty) (w a b : Nat) : Nat := wrap (tyVal ty w a * tyVal ty w b / 2 ^ w) w
/-- The smaller. -/
def minW (ty : Ty) (w a b : Nat) : Nat := if tyVal ty w b < tyVal ty w a then b % 2 ^ w else a % 2 ^ w
/-- The larger. -/
def maxW (ty : Ty) (w a b : Nat) : Nat := if tyVal ty w a < tyVal ty w b then b % 2 ^ w else a % 2 ^ w
/-- The quotient toward zero, with the cases of R339. -/
def divW (ty : Ty) (w a b : Nat) : Nat :=
  if b % 2 ^ w = 0 then 2 ^ w - 1 else wrap ((tyVal ty w a).tdiv (tyVal ty w b)) w
/-- The remainder, with the cases of R339. -/
def remW (ty : Ty) (w a b : Nat) : Nat :=
  if b % 2 ^ w = 0 then a % 2 ^ w else wrap ((tyVal ty w a).tmod (tyVal ty w b)) w
/-- The result of an ISET condition (R340). -/
def icond (c : ICond) (a b : Int) : Bool :=
  match c with
  | .eq => a == b
  | .ne => a != b
  | .lt => decide (a < b)
  | .le => decide (a ≤ b)
  | .gt => decide (b < a)
  | .ge => decide (b ≤ a)
/-- SHL (R385). -/
def shlW (w a n : Nat) : Nat := if w ≤ n then 0 else a * 2 ^ n % 2 ^ w
/-- SHR. -/
def shrW (w a n : Nat) : Nat := a % 2 ^ w / 2 ^ n
/-- SHA. -/
def shaW (w a n : Nat) : Nat := wrap (signed a w / 2 ^ n) w
/-- ROT: left by n mod W. -/
def rotW (w a n : Nat) : Nat := let k := n % w; (a % 2 ^ w * 2 ^ k) % 2 ^ w + a % 2 ^ w / 2 ^ (w - k)
/-- BFX (R293). -/
def bfxW (ty : Ty) (w a b : Nat) : Nat :=
  let pos := b % 256
  let len := min (b / 256 % 256) w
  let f := wrap (tyVal ty w a / 2 ^ pos) len
  if ty = .i32 then wrap (signed f len) w else f
/-- BFI (R292). -/
def bfiW (w a b c : Nat) : Nat :=
  let mask := ((2 ^ (c / 256 % 256) - 1) * 2 ^ (c % 256)) % 2 ^ w
  (b &&& notW w mask) ||| (a * 2 ^ (c % 256) % 2 ^ w &&& mask)
/-- Bits in reverse order. -/
def brevW (w a : Nat) : Nat := (List.range w).foldl (fun r i => 2 * r + b2n (bit a i)) 0
/-- Zero bits from the top (R311). -/
def clzW (w a : Nat) : Nat := if a % 2 ^ w = 0 then w else w - 1 - Nat.log2 (a % 2 ^ w)
/-- Zero bits from the bottom (R320). -/
def ctzW (w a : Nat) : Nat := ((List.range w).find? fun i => bit a i).getD w
/-- One bits (R376). -/
def popcW (w a : Nat) : Nat := ((List.range w).filter fun i => bit a i).length
/-- The Morton interleave of R174. -/
def zordW (a b c : Nat) : Nat :=
  (List.range 10).foldl (fun r i => r + (b2n (bit a i) + 2 * b2n (bit b i) + 4 * b2n (bit c i)) * 2 ^ (3 * i)) 0

/-! ### Meanings -/

/-- AND: A and B, or A and the complement of B (R287). -/
def execAnd (h : Hdr) (d a b : BitVec 8) (n : Bool) (s : State) : Host.Outcome State Fault Refusal :=
  exec2 (.and h d a b n) d a b (fun w x y => x &&& (if n then notW w y else y)) s

/-- AND with an immediate (R287). -/
def execAndImm (h : Hdr) (d a : BitVec 8) (imm : BitVec 12) (n : Bool) (s : State) : Host.Outcome State Fault Refusal :=
  execI (.andImm h d a imm n) d a imm (fun w x y => x &&& (if n then notW w y else y)) s

/-- OR (R375). -/
def execOr (h : Hdr) (d a b : BitVec 8) (s : State) : Host.Outcome State Fault Refusal :=
  exec2 (.or h d a b) d a b (fun _ x y => x ||| y) s

/-- OR with an immediate (R375). -/
def execOrImm (h : Hdr) (d a : BitVec 8) (imm : BitVec 12) (s : State) : Host.Outcome State Fault Refusal :=
  execI (.orImm h d a imm) d a imm (fun _ x y => x ||| y) s

/-- XOR (R375). -/
def execXor (h : Hdr) (d a b : BitVec 8) (s : State) : Host.Outcome State Fault Refusal :=
  exec2 (.xor h d a b) d a b (fun _ x y => x ^^^ y) s

/-- XOR with an immediate (R375). -/
def execXorImm (h : Hdr) (d a : BitVec 8) (imm : BitVec 12) (s : State) : Host.Outcome State Fault Refusal :=
  execI (.xorImm h d a imm) d a imm (fun _ x y => x ^^^ y) s

/-- IADD (R337). -/
def execIadd (h : Hdr) (d a b : BitVec 8) (ty : Ty) (s : State) : Host.Outcome State Fault Refusal :=
  exec2 (.iadd h d a b ty) d a b addW s

/-- IADD with an immediate (R337). -/
def execIaddImm (h : Hdr) (d a : BitVec 8) (imm : BitVec 12) (ty : Ty) (s : State) : Host.Outcome State Fault Refusal :=
  execI (.iaddImm h d a imm ty) d a imm addW s

/-- ISUB (R337). -/
def execIsub (h : Hdr) (d a b : BitVec 8) (ty : Ty) (s : State) : Host.Outcome State Fault Refusal :=
  exec2 (.isub h d a b ty) d a b subW s

/-- ISUB with an immediate (R337). -/
def execIsubImm (h : Hdr) (d a : BitVec 8) (imm : BitVec 12) (ty : Ty) (s : State) : Host.Outcome State Fault Refusal :=
  execI (.isubImm h d a imm ty) d a imm subW s

/-- IMUL (R337). -/
def execImul (h : Hdr) (d a b : BitVec 8) (ty : Ty) (s : State) : Host.Outcome State Fault Refusal :=
  exec2 (.imul h d a b ty) d a b mulW s

/-- IMUL with an immediate (R337). -/
def execImulImm (h : Hdr) (d a : BitVec 8) (imm : BitVec 12) (ty : Ty) (s : State) : Host.Outcome State Fault Refusal :=
  execI (.imulImm h d a imm ty) d a imm mulW s

/-- IMULH (R337). -/
def execImulh (h : Hdr) (d a b : BitVec 8) (ty : Ty) (s : State) : Host.Outcome State Fault Refusal :=
  exec2 (.imulh h d a b ty) d a b (mulhW ty) s

/-- IMAD (R337). -/
def execImad (h : Hdr) (d a b c : BitVec 8) (ty : Ty) (s : State) : Host.Outcome State Fault Refusal :=
  exec3 (.imad h d a b c ty) d a b c (fun w x y z => (x * y + z) % 2 ^ w) s

/-- IDIV, an asynchronous writeback (R339). -/
def execIdiv (h : Hdr) (d a b : BitVec 8) (ty : Ty) (s : State) : Host.Outcome State Fault Refusal :=
  issue (.idiv h d a b ty)
    (asyncBody fun x _ z => [(pregOf x.front d.toNat, divW ty x.w (x.rd z a) (x.rd z b))]) s

/-- IREM, an asynchronous writeback (R339). -/
def execIrem (h : Hdr) (d a b : BitVec 8) (ty : Ty) (s : State) : Host.Outcome State Fault Refusal :=
  issue (.irem h d a b ty)
    (asyncBody fun x _ z => [(pregOf x.front d.toNat, remW ty x.w (x.rd z a) (x.rd z b))]) s

/-- IMIN (R337). -/
def execImin (h : Hdr) (d a b : BitVec 8) (ty : Ty) (s : State) : Host.Outcome State Fault Refusal :=
  exec2 (.imin h d a b ty) d a b (minW ty) s

/-- IMIN with an immediate (R337). -/
def execIminImm (h : Hdr) (d a : BitVec 8) (imm : BitVec 12) (ty : Ty) (s : State) : Host.Outcome State Fault Refusal :=
  execI (.iminImm h d a imm ty) d a imm (minW ty) s

/-- IMAX (R337). -/
def execImax (h : Hdr) (d a b : BitVec 8) (ty : Ty) (s : State) : Host.Outcome State Fault Refusal :=
  exec2 (.imax h d a b ty) d a b (maxW ty) s

/-- IMAX with an immediate (R337). -/
def execImaxImm (h : Hdr) (d a : BitVec 8) (imm : BitVec 12) (ty : Ty) (s : State) : Host.Outcome State Fault Refusal :=
  execI (.imaxImm h d a imm ty) d a imm (maxW ty) s

/-- IABS (R337). -/
def execIabs (h : Hdr) (d a : BitVec 8) (s : State) : Host.Outcome State Fault Refusal :=
  exec1 (.iabs h d a) d a (fun w x => wrap ((signed x w).natAbs : Int) w) s

/-- ISET: the comparison written to bit k of D (R340). -/
def execIset (h : Hdr) (d a b : BitVec 8) (k : BitVec 5) (cond : ICond) (ty : Ty) (s : State) : Host.Outcome State Fault Refusal :=
  issue (.iset h d a b k cond ty)
    (regBody d fun x _ z => setBit (x.rd z d) k.toNat (icond cond (tyVal ty x.w (x.rd z a)) (tyVal ty x.w (x.rd z b)))) s

/-- SEL (R386). -/
def execSel (h : Hdr) (d a b c : BitVec 8) (s : State) : Host.Outcome State Fault Refusal :=
  exec3 (.sel h d a b c) d a b c (fun w x y z => (x &&& z) ||| (y &&& notW w z)) s

/-- SHL by g[B]<7:0> (R385). -/
def execShl (h : Hdr) (d a b : BitVec 8) (s : State) : Host.Outcome State Fault Refusal :=
  exec2 (.shl h d a b) d a b (fun w x y => shlW w x (y % 256)) s

/-- SHL by an immediate (R385). -/
def execShlImm (h : Hdr) (d a : BitVec 8) (imm : BitVec 12) (s : State) : Host.Outcome State Fault Refusal :=
  exec1 (.shlImm h d a imm) d a (fun w x => shlW w x imm.toNat) s

/-- SHR by g[B]<7:0> (R385). -/
def execShr (h : Hdr) (d a b : BitVec 8) (s : State) : Host.Outcome State Fault Refusal :=
  exec2 (.shr h d a b) d a b (fun w x y => shrW w x (y % 256)) s

/-- SHR by an immediate (R385). -/
def execShrImm (h : Hdr) (d a : BitVec 8) (imm : BitVec 12) (s : State) : Host.Outcome State Fault Refusal :=
  exec1 (.shrImm h d a imm) d a (fun w x => shrW w x imm.toNat) s

/-- SHA by g[B]<7:0> (R385). -/
def execSha (h : Hdr) (d a b : BitVec 8) (s : State) : Host.Outcome State Fault Refusal :=
  exec2 (.sha h d a b) d a b (fun w x y => shaW w x (y % 256)) s

/-- SHA by an immediate (R385). -/
def execShaImm (h : Hdr) (d a : BitVec 8) (imm : BitVec 12) (s : State) : Host.Outcome State Fault Refusal :=
  exec1 (.shaImm h d a imm) d a (fun w x => shaW w x imm.toNat) s

/-- ROT by g[B]<7:0> (R385). -/
def execRot (h : Hdr) (d a b : BitVec 8) (s : State) : Host.Outcome State Fault Refusal :=
  exec2 (.rot h d a b) d a b (fun w x y => rotW w x (y % 256)) s

/-- ROT by an immediate (R385). -/
def execRotImm (h : Hdr) (d a : BitVec 8) (imm : BitVec 12) (s : State) : Host.Outcome State Fault Refusal :=
  exec1 (.rotImm h d a imm) d a (fun w x => rotW w x imm.toNat) s

/-- BFX (R293). -/
def execBfx (h : Hdr) (d a b : BitVec 8) (ty : Ty) (s : State) : Host.Outcome State Fault Refusal :=
  exec2 (.bfx h d a b ty) d a b (bfxW ty) s

/-- BFI (R292). -/
def execBfi (h : Hdr) (d a b c : BitVec 8) (s : State) : Host.Outcome State Fault Refusal :=
  exec3 (.bfi h d a b c) d a b c bfiW s

/-- BREV (R297). -/
def execBrev (h : Hdr) (d a : BitVec 8) (s : State) : Host.Outcome State Fault Refusal :=
  exec1 (.brev h d a) d a brevW s

/-- CLZ (R311). -/
def execClz (h : Hdr) (d a : BitVec 8) (s : State) : Host.Outcome State Fault Refusal :=
  exec1 (.clz h d a) d a clzW s

/-- CTZ (R320). -/
def execCtz (h : Hdr) (d a : BitVec 8) (s : State) : Host.Outcome State Fault Refusal :=
  exec1 (.ctz h d a) d a ctzW s

/-- POPC (R376). -/
def execPopc (h : Hdr) (d a : BitVec 8) (s : State) : Host.Outcome State Fault Refusal :=
  exec1 (.popc h d a) d a popcW s

/-- ICVT: .sat8 clamps and sets SAT, .ext8 sign-extends the low byte (R338). -/
def execIcvt (h : Hdr) (d a : BitVec 8) (ext : Bool) (s : State) : Host.Outcome State Fault Refusal :=
  issue (.icvt h d a ext) (fun x act s =>
    let v := fun l => signed (x.rd (x.lane l) a) (if ext then 8 else x.w)
    let s1 := act.foldl (fun u l => u.onLane x l fun z => z.put x.front d.toNat (wrap (max (-128) (min 127 (v l))) x.w)) s
    let sat := act.any fun l => decide (v l < -128) || decide (127 < v l)
    ⟨if sat then s1.onGrp x (fun y => y.raise s.time (BitVec.ofNat 6 fSAT)) else s1, [], false⟩) s

/-- ZORD (R406). -/
def execZord (h : Hdr) (d a b c : BitVec 8) (s : State) : Host.Outcome State Fault Refusal :=
  exec3 (.zord h d a b c) d a b c (fun _ x y z => zordW x y z) s

/-- MOV: a register or, for lanes, a pair (R357). -/
def execMov (h : Hdr) (d a : BitVec 8) (p : Bool) (s : State) : Host.Outcome State Fault Refusal :=
  issue (.mov h d a p) (laneBody fun x l z =>
    let y := x.lane l
    if p then z.put64 x.front d.toNat (y.get64 x.front a.toNat) else z.put x.front d.toNat (x.rd y a)) s

/-- MOV of an immediate (R357). -/
def execMovImm (h : Hdr) (d : BitVec 8) (imm : BitVec 12) (s : State) : Host.Outcome State Fault Refusal :=
  issue (.movImm h d imm) (regBody d fun x _ _ => immW x.w imm) s

/-- MOVI: 32 bits, sign-extended in the front thread (R357). -/
def execMovi (h : Hdr) (d : BitVec 8) (imm : BitVec 32) (s : State) : Host.Outcome State Fault Refusal :=
  issue (.movi h d imm) (regBody d fun x _ _ => wrap imm.toInt x.w) s

/-- MOVX: `r` is the destination (read) or the source (write); the other register is n + g[A] (R358). -/
def execMovx (h : Hdr) (dir : Bool) (r a n : BitVec 8) (s : State) : Host.Outcome State Fault Refusal :=
  issue (.movx h dir r a n) (fun x act s =>
    let j := fun l => n.toNat + x.rd (x.lane l) a % 2 ^ 32
    if act.any fun l => !x.gp.regOk (j l) then ⟨s, allEnd act (.fault cRegBound), true⟩
    else if act.any fun l => (x.lane l).pendingReg x.front (j l) then ⟨s, allEnd act .stall, true⟩
    else
      asyncBody (fun x l z =>
        if dir then [(pregOf x.front (j l), x.rd z r)] else [(pregOf x.front r.toNat, z.get x.front (j l))]) x act s) s

end Sys2Proof.Machine
end

