-- ==== Sys2Proof/Machine/Real.lean ====
section
/-! DEFINITION. Machine/Real.lean: the functions of FSF, evaluated in 512-bit fixed point and rounded once (R151, R336; log
entry 10). -/
namespace Sys2Proof.Machine
open Sys2Proof

/-- Fraction bits of the fixed point. -/
def fixP : Nat := 512

/-- 1.0. -/
def fixOne : Nat := 2 ^ fixP

/-- Sum of y^k / k! from a term on: the exponential of a number below 1, to `n` terms. -/
def expTail (y : Nat) : Nat → Nat → Nat → Nat
  | 0, _, _ => 0
  | n + 1, k, t => t + expTail y n (k + 1) (t * y / fixOne / (k + 1))

/-- The exponential of a fixed-point number below 1. -/
def expFix (y : Nat) : Nat := expTail y 130 0 fixOne

/-- Sum of p × z2^k / (2k + 1) from k on. -/
def oddTail (z2 unit : Nat) : Nat → Nat → Nat → Nat
  | 0, _, _ => 0
  | n + 1, k, p => p / (2 * k + 1) + oddTail z2 unit n (k + 1) (p * z2 / unit)

/-- atanh of a fixed-point number up to 1/3. -/
def atanhFix (z : Nat) : Nat := oddTail (z * z / fixOne) fixOne 180 0 z

/-- ln 2. -/
def ln2Fix : Nat := 2 * atanhFix (fixOne / 3)

/-- Bits of π's own fixed point, for large arguments. -/
def piP : Nat := 1024

/-- Alternating sum 1/d − 1/(3 d³) + … in that fixed point: positive and negative parts. -/
def atanInv (d : Nat) : Nat → Nat → Nat → Nat × Nat
  | 0, _, _ => (0, 0)
  | n + 1, k, p =>
    let r := atanInv d n (k + 1) (p / (d * d))
    if k % 2 = 0 then (r.1 + p / (2 * k + 1), r.2) else (r.1, r.2 + p / (2 * k + 1))

/-- π / 2 in that fixed point (Machin). -/
def halfPi : Nat :=
  let a := atanInv 5 260 0 (2 ^ piP / 5)
  let b := atanInv 239 80 0 (2 ^ piP / 239)
  8 * (a.1 - a.2) - 2 * (b.1 - b.2)

/-- Alternating Taylor sum of sin or cos: positive and negative parts; `j` the next factorial factor. -/
def trigTail (y2 : Nat) : Nat → Nat → Nat → Bool → Nat × Nat
  | 0, _, _, _ => (0, 0)
  | n + 1, j, t, neg =>
    let r := trigTail y2 n (j + 2) (t * y2 / fixOne / (j * (j + 1))) (!neg)
    if neg then (r.1, r.2 + t) else (r.1 + t, r.2)

/-- sin of a fixed-point number of [0, π/2]. -/
def sinFix (y : Nat) : Nat := let r := trigTail (y * y / fixOne) 80 2 y false; r.1 - r.2

/-- cos of a fixed-point number of [0, π/2]. -/
def cosFix (y : Nat) : Nat := let r := trigTail (y * y / fixOne) 80 1 fixOne false; r.1 - r.2

/-- An irrational fixed-point value, with a low odd bit standing for the digits that follow. -/
def jamFix (neg : Bool) (m : Nat) (e : Int) : FV := .fin neg (2 * m + 1) (e - fixP - 1)

/-- sin or cos of |x| = m × 2^e, nonzero: the quadrant's sign and the magnitude. -/
def trig (isCos : Bool) (m : Nat) (e : Int) : Bool × Nat :=
  let x := if 0 ≤ e + piP then m * 2 ^ (e + piP).toNat else m / 2 ^ (-(e + piP)).toNat
  let k := x / halfPi
  let r := (x % halfPi) / 2 ^ (piP - fixP)
  let q := (k + b2n isCos) % 4
  match q with
  | 0 => (false, sinFix r)
  | 1 => (false, cosFix r)
  | 2 => (true, sinFix r)
  | _ => (true, cosFix r)

/-- The square root by bits: `n` bits still to try. -/
def isqrtGo (x : Nat) : Nat → Nat → Nat
  | 0, r => r
  | n + 1, r => let c := r + 2 ^ n; isqrtGo x n (if c * c ≤ x then c else r)

/-- The integer square root. -/
def isqrt (x : Nat) : Nat := isqrtGo x (Nat.log2 x / 2 + 1) 0

/-- A value with an even exponent. -/
def evenExp (m : Nat) (e : Int) : Nat × Int := if e % 2 = 0 then (m, e) else (2 * m, e - 1)

/-- The square root of m × 2^e. -/
def sqrtFV (m : Nat) (e : Int) : FV :=
  let (a, k) := evenExp m e
  let r := isqrt (a * 2 ^ 128)
  .fin false (2 * r + b2n (r * r != a * 2 ^ 128)) (k / 2 - 65)

/-- The reciprocal square root of m × 2^e. -/
def rsqFV (m : Nat) (e : Int) : FV :=
  let (a, k) := evenExp m e
  let s := 256
  let q := 2 ^ s / a
  let r := isqrt q
  .fin false (2 * r + b2n (r * r * a != 2 ^ s)) (-(k / 2) - 129)

/-- 2 to a finite value. Beyond ±400 the exponent is cut: the result is out of FP32's range all the same. -/
def exp2FV (neg : Bool) (m : Nat) (e : Int) : FV :=
  if m = 0 then .fin false 1 0
  else if 9 ≤ (Nat.log2 m : Int) + e then .fin false 1 (if neg then -400 else 400)
  else
    let x : Int := if 0 ≤ e + fixP then ((m * 2 ^ (e + fixP).toNat : Nat) : Int) else 0
    let y := if neg then -x else x
    let n := y / (fixOne : Int)
    let f := (y % (fixOne : Int)).toNat
    if f = 0 then .fin false 1 n else jamFix false (expFix (f * ln2Fix / fixOne)) n

/-- The binary logarithm of m × 2^e > 0. -/
def log2FV (m : Nat) (e : Int) : FV :=
  let top := Nat.log2 m
  let k : Int := (top : Int) + e
  if m = 2 ^ top then fvOfInt k
  else
    -- m / 2^top = (1 + z) / (1 − z)
    let z := (m - 2 ^ top) * fixOne / (m + 2 ^ top)
    let l := 2 * atanhFix z * fixOne / ln2Fix
    let v : Int := k * (fixOne : Int) + (l : Int)
    jamFix (decide (v < 0)) v.natAbs 0

/-- tanh of |x| = m × 2^e, nonzero. -/
def tanhFix (m : Nat) (e : Int) : Nat :=
  if 8 ≤ (Nat.log2 m : Int) + e then fixOne - 1
  else
    let y := 2 * (if 0 ≤ e + fixP then m * 2 ^ (e + fixP).toNat else 0)
    let n := y / ln2Fix
    let ex := expFix (y % ln2Fix) * 2 ^ n
    (ex - fixOne) * fixOne / (ex + fixOne)

/-- The functions of FSF on a decoded FP32 value, with the special cases of R151. -/
def fsfFV (fn : SFn) (v : FV) : FV × Nat :=
  match v with
  | .nan s => (.nan false, flagIf s fNV)
  | .inf n =>
    (match fn with
     | .rcp => (.fin n 0 0, 0)
     | .rsq => if n then (.nan false, fNV) else (.fin false 0 0, 0)
     | .sqrt => if n then (.nan false, fNV) else (.inf false, 0)
     | .exp2 => if n then (.fin false 0 0, 0) else (.inf false, 0)
     | .log2 => if n then (.nan false, fNV) else (.inf false, 0)
     | .sin => (.nan false, fNV)
     | .cos => (.nan false, fNV)
     | .tanh => (.fin n 1 0, 0))
  | .fin n m e =>
    if m = 0 then
      (match fn with
       | .rcp => (.inf n, fDZ)
       | .rsq => (.inf n, fDZ)
       | .sqrt => (.fin n 0 0, 0)
       | .exp2 => (.fin false 1 0, 0)
       | .log2 => (.inf true, fDZ)
       | .sin => (.fin n 0 0, 0)
       | .cos => (.fin false 1 0, 0)
       | .tanh => (.fin n 0 0, 0))
    else
      match fn with
      | .rcp => let q := quotJam 1 m; (.fin n q.1 (q.2 - e), 0)
      | .rsq => if n then (.nan false, fNV) else (rsqFV m e, 0)
      | .sqrt => if n then (.nan false, fNV) else (sqrtFV m e, 0)
      | .exp2 => (exp2FV n m e, 0)
      | .log2 => if n then (.nan false, fNV) else (log2FV m e, 0)
      | .sin => let r := trig false m e; (jamFix (r.1 != n) r.2 0, 0)
      | .cos => let r := trig true m e; (jamFix r.1 r.2 0, 0)
      | .tanh => (jamFix n (tanhFix m e) 0, 0)

/-- FSF on FP32 bits (R336). -/
def fsfBits (fn : SFn) (rm x : Nat) : Nat × Nat := FF.f32.pack rm (fsfFV fn (FF.f32.decode x))

end Sys2Proof.Machine
end

