-- ==== Sys2Proof/Machine/Float.lean ====
section
/-! DEFINITION. Machine/Float.lean: the floating-point instructions (class 001; R329 to R336, R378, R379). -/
namespace Sys2Proof.Machine
open Sys2Proof

/-! ### Shared operations -/

/-- Flags are ORed into the group's FPFLAGS (R157). -/
def State.orFlags (s : State) (x : Ctx) (f : Nat) : State :=
  if f = 0 then s else s.onGrp x fun y => y.raise s.time (BitVec.ofNat 6 f)

/-- What one lane computes: the bits written, the flags raised, and whether the result is a NaN. -/
structure FpR where
  v   : Nat
  fl  : Nat
  nan : Bool
  deriving DecidableEq, Repr

/-- The end of a floating-point instruction (R157, R158): with NANTRAP set and a NaN result, the lanes with a NaN fault and
nothing is written; otherwise every active lane writes its registers and the flags of all lanes are ORed in. -/
def fpEnd (r : Nat → FpR) (write : Body) : Body := fun x act s =>
  let bad := act.filter fun l => (r l).nan
  if x.tm.nantrap && !bad.isEmpty then
    ⟨s.onGrp x (fun y => { y with naninfo := 0 }), allEnd bad (.fault cNan), true⟩
  else write x act (s.orFlags x (act.foldl (fun f l => f ||| (r l).fl) 0))

/-- A floating-point instruction that writes one register as a pipe result. -/
def fpBody (d : BitVec 8) (r : Ctx → Lane → FpR) : Body := fun x act s =>
  fpEnd (fun l => r x (x.lane l)) (regBody d fun x _ z => (r x z).v) x act s

/-- A floating-point instruction whose result is an asynchronous writeback. -/
def fpAsync (d : BitVec 8) (r : Ctx → Lane → FpR) : Body := fun x act s =>
  fpEnd (fun l => r x (x.lane l)) (asyncBody fun x _ z => [(pregOf x.front d.toNat, (r x z).v)]) x act s

/-- The rounding mode at issue (R149). -/
def Ctx.rm (x : Ctx) : Nat := x.tm.rm.toNat

/-- The format of one part of an arithmetic type. -/
def partFmt (ty : Ty) : FF := match ffOf ty with | some f => f | none => .f16

/-- An arithmetic operation on the parts of a type: one part, or the two halves of .h2 (R329). -/
def fpParts (ty : Ty) (op : FF → Nat → Nat → Nat → Nat × Nat) (a b c : Nat) : FpR :=
  let f := partFmt ty
  let part := fun (h : Nat) =>
    op f (bits a (16 * h) f.width) (bits b (16 * h) f.width) (bits c (16 * h) f.width)
  let r0 := part 0
  if ty = .h2 then
    let r1 := part 1
    ⟨r0.1 + 65536 * r1.1, r0.2 ||| r1.2, (f.decode r0.1).isNan || (f.decode r1.1).isNan⟩
  else ⟨r0.1, r0.2, (f.decode r0.1).isNan⟩

/-- FADD of two encodings. -/
def faddOp (rm : Nat) (f : FF) (a b _c : Nat) : Nat × Nat := f.pack rm (fvAdd rm (f.decode a) (f.decode b))
/-- FSUB: b is negated first. -/
def fsubOp (rm : Nat) (f : FF) (a b _c : Nat) : Nat × Nat := f.pack rm (fvAdd rm (f.decode a) (f.decode b).flip)
/-- FMUL. -/
def fmulOp (rm : Nat) (f : FF) (a b _c : Nat) : Nat × Nat := f.pack rm (fvMul (f.decode a) (f.decode b))
/-- FFMA. -/
def ffmaOp (rm : Nat) (f : FF) (a b c : Nat) : Nat × Nat := f.pack rm (fvFma rm (f.decode a) (f.decode b) (f.decode c))

/-! ### Meanings -/

/-- FADD (R329). -/
def execFadd (h : Hdr) (d a b : BitVec 8) (ty : Ty) (s : State) : Host.Outcome State Fault Refusal :=
  issue (.fadd h d a b ty) (fpBody d fun x z => fpParts ty (faddOp x.rm) (x.rd z a) (x.rd z b) 0) s

/-- FSUB (R329). -/
def execFsub (h : Hdr) (d a b : BitVec 8) (ty : Ty) (s : State) : Host.Outcome State Fault Refusal :=
  issue (.fsub h d a b ty) (fpBody d fun x z => fpParts ty (fsubOp x.rm) (x.rd z a) (x.rd z b) 0) s

/-- FMUL (R329). -/
def execFmul (h : Hdr) (d a b : BitVec 8) (ty : Ty) (s : State) : Host.Outcome State Fault Refusal :=
  issue (.fmul h d a b ty) (fpBody d fun x z => fpParts ty (fmulOp x.rm) (x.rd z a) (x.rd z b) 0) s

/-- FFMA (R329). -/
def execFfma (h : Hdr) (d a b c : BitVec 8) (ty : Ty) (s : State) : Host.Outcome State Fault Refusal :=
  issue (.ffma h d a b c ty)
    (fpBody d fun x z => fpParts ty (ffmaOp x.rm) (x.rd z a) (x.rd z b) (x.rd z c)) s

/-- FDIV (R332, R151), an asynchronous writeback. -/
def execFdiv (h : Hdr) (d a b : BitVec 8) (s : State) : Host.Outcome State Fault Refusal :=
  issue (.fdiv h d a b) (fpAsync d fun x z =>
    let r := FF.f32.pack x.rm (fvDiv (FF.f32.decode (x.rd z a)) (FF.f32.decode (x.rd z b)))
    ⟨r.1, r.2, (FF.f32.decode r.1).isNan⟩) s

/-- FMIN (R334). -/
def execFmin (h : Hdr) (d a b : BitVec 8) (ty : Ty) (s : State) : Host.Outcome State Fault Refusal :=
  issue (.fmin h d a b ty) (fpBody d fun x z => fpParts ty (fun f p q _ => f.minmax false p q) (x.rd z a) (x.rd z b) 0) s

/-- FMAX (R334). -/
def execFmax (h : Hdr) (d a b : BitVec 8) (ty : Ty) (s : State) : Host.Outcome State Fault Refusal :=
  issue (.fmax h d a b ty) (fpBody d fun x z => fpParts ty (fun f p q _ => f.minmax true p q) (x.rd z a) (x.rd z b) 0) s

/-- FSET: the comparison written to bit k of D (R335). -/
def execFset (h : Hdr) (d a b : BitVec 8) (k : BitVec 5) (cond : FCond) (ty : Ty) (s : State) :
    Host.Outcome State Fault Refusal :=
  issue (.fset h d a b k cond ty) (fpBody d fun x z =>
    let r := fsetBits (partFmt ty) cond (x.rd z a) (x.rd z b)
    ⟨setBit (x.rd z d) k.toNat r.1, r.2, false⟩) s

/-- FCLASS (R330). -/
def execFclass (h : Hdr) (d a : BitVec 8) (ty : Ty) (s : State) : Host.Outcome State Fault Refusal :=
  issue (.fclass h d a ty) (regBody d fun x _ z => fclassBits (partFmt ty) (x.rd z a)) s

/-- FCVT (R331, R150). -/
def execFcvt (h : Hdr) (d a : BitVec 8) (td ts : Ty) (s : State) : Host.Outcome State Fault Refusal :=
  issue (.fcvt h d a td ts) (fpBody d fun x z =>
    let r := fcvt x.rm td ts (x.rd z a)
    ⟨r.1, r.2.1, r.2.2⟩) s

/-- FSF (R336, R151), an asynchronous writeback. -/
def execFsf (h : Hdr) (d a : BitVec 8) (fn : SFn) (s : State) : Host.Outcome State Fault Refusal :=
  issue (.fsf h d a fn) (fpAsync d fun x z =>
    let r := fsfBits fn x.rm (x.rd z a)
    ⟨r.1, r.2, (FF.f32.decode r.1).isNan⟩) s

/-- The bytes a lane's elements quantise to, packed, with flags and whether any is a NaN. -/
def quantLane (q : QFmt) (scale : Nat) : List FV → FpR
  | [] => ⟨0, 0, false⟩
  | v :: t =>
    let r := quantOne q scale v
    let n := quantLane q scale t
    ⟨r.1 + 256 * n.v, r.2.1 ||| n.fl, r.2.2 || n.nan⟩

/-- QROW: one block across the pack (R378, R379). -/
def execQrow (h : Hdr) (d a b : BitVec 8) (q : QFmt) (blk : BitVec 2) (ty : Ty) (s : State) :
    Host.Outcome State Fault Refusal :=
  issue (.qrow h d a b q blk ty) (fun x act s =>
    let m := 2 ^ blk.toNat
    let elems := fun (l : Nat) => (List.range m).map fun j => tyDecode ty ((x.lane l).get false (a.toNat + j))
    let scale := blockScale q (act.flatMap elems)
    let r := fun l => quantLane q scale (elems l)
    fpEnd r (laneBody fun x l z => ((z.put x.front d.toNat (r l).v).put x.front b.toNat scale)) x act s) s

end Sys2Proof.Machine
end

