-- ==== Sys2Proof/Machine/LaneOps.lean ====
section
/-! DEFINITION. Machine/LaneOps.lean: the lane and group instructions (class 010; R351, R353, R380, R387, R394, R401). -/
namespace Sys2Proof.Machine
open Sys2Proof

/-! ### Shared computations -/

/-- The lane SHFL reads (R387). -/
def shflSrc (mode : ShflMode) (w l n : Nat) : Nat :=
  let sz := 2 ^ w
  let base := l - l % sz
  match mode with
  | .idx => base + n % sz
  | .xor => base + ((l % sz) ^^^ (n % sz))
  | .up => if base + n ≤ l then l - n else l
  | .down => if l + n < base + sz then l + n else l

/-- The mask of the lanes of a list that satisfy a test. -/
def maskOf (lanes : List Nat) (p : Nat → Bool) : Nat := (lanes.filter p).foldl (fun m l => m + 2 ^ l) 0

/-- The identity of a reduction (R155). -/
def redIdent (op : RedOp) (ty : Ty) : Nat :=
  match op with
  | .add => if ty = .f32 then 0x80000000 else 0
  | .min => if ty = .f32 then 0x7F800000 else if ty = .i32 then 0x7FFFFFFF else 0xFFFFFFFF
  | .max => if ty = .f32 then 0xFF800000 else if ty = .i32 then 0x80000000 else 0
  | .and => 0xFFFFFFFF
  | .or => 0
  | .xor => 0

/-- The operation at a node of the tree: bits and flags (R154, R155). -/
def redOp (rm : Nat) (op : RedOp) (ty : Ty) (a b : Nat) : Nat × Nat :=
  match op with
  | .add => if ty = .f32 then faddOp rm .f32 a b 0 else (addW 32 a b, 0)
  | .min => if ty = .f32 then FF.f32.minmax false a b else (minW ty 32 a b, 0)
  | .max => if ty = .f32 then FF.f32.minmax true a b else (maxW ty 32 a b, 0)
  | .and => (a &&& b, 0)
  | .or => (a ||| b, 0)
  | .xor => (a ^^^ b, 0)

/-- The next level of the tree, with the flags of its nodes. -/
def pairUp (f : Nat → Nat → Nat × Nat) : List Nat → List Nat × Nat
  | a :: b :: t =>
    let r := f a b
    let n := pairUp f t
    (r.1 :: n.1, r.2 ||| n.2)
  | l => (l, 0)

/-- The levels of the tree from the lanes up, with the flags of every node. -/
def treeLevels (f : Nat → Nat → Nat × Nat) : Nat → List Nat → List (List Nat) × Nat
  | 0, l => ([l], 0)
  | k + 1, l =>
    let p := pairUp f l
    let r := treeLevels f k p.1
    (l :: r.1, p.2 ||| r.2)

/-- The scan prefix of `m` lanes (R154), from level `k - 1` down: value and flags. -/
def scanGo (f : Nat → Nat → Nat × Nat) (lv : List (List Nat)) (m : Nat) : Nat → Option Nat → Nat → Nat → Option Nat × Nat
  | 0, p, _, fl => (p, fl)
  | k + 1, p, base, fl =>
    if bit m k then
      let t := (lv.getD k []).getD (base / 2 ^ k) 0
      (match p with
       | none => scanGo f lv m k (some t) (base + 2 ^ k) fl
       | some q => let r := f q t; scanGo f lv m k (some r.1) (base + 2 ^ k) (fl ||| r.2))
    else scanGo f lv m k p base fl

/-- RED and SCAN (R380): `pre` gives each lane the number of lanes of its prefix, none for RED. -/
def redBody (d a : BitVec 8) (op : RedOp) (ty : Ty) (pre : Option (Nat → Nat)) : Body := fun x act s =>
  let f := redOp x.rm op ty
  let v := (List.range 32).map fun l => if act.contains l then (x.lane l).get false a.toNat else redIdent op ty
  let t := treeLevels f 5 v
  let r := fun (l : Nat) =>
    let p : Nat × Nat := match pre with
      | none => ((t.1.getD 5 []).getD 0 0, 0)
      | some m => let q := scanGo f t.1 (m l) 6 none 0 0; (q.1.getD (redIdent op ty), q.2)
    let isNan := ty == .f32 && (FF.f32.decode p.1).isNan
    -- a prefix of one lane is written canonical too (R142)
    FpR.mk (if isNan then FF.f32.nan else p.1) (p.2 ||| t.2) isNan
  fpEnd r (regBody d fun _ l _ => (r l).v) x act s

/-- TKINS places (v, i) above (w, j) (R395). -/
def tkAbove (v i w j : Nat) : Bool :=
  let a := FF.f32.decode v
  let b := FF.f32.decode w
  b.isNan || fvBelow b a || (!fvBelow a b && i < j)

/-- The list after an insertion, cut to its length. -/
def tkInsert (v i : Nat) : List (Nat × Nat) → List (Nat × Nat)
  | [] => [(v, i)]
  | p :: t => if tkAbove v i p.1 p.2 then (v, i) :: p :: t else p :: tkInsert v i t

/-- The transposed tile a lane receives in eight registers (R196). -/
def mfldLane (w16 : Bool) (tile : List (BitVec 8)) (l : Nat) : List Nat :=
  let byte := fun (r c : Nat) => (tile.getD (32 * r + c) 0).toNat
  if w16 then
    (List.range 8).map fun k =>
      let half := fun (t : Nat) => byte (16 * (l / 16) + t) (2 * (l % 16)) + 256 * byte (16 * (l / 16) + t) (2 * (l % 16) + 1)
      half (2 * k) + 65536 * half (2 * k + 1)
  else
    (List.range 8).map fun k =>
      byte (4 * k) l + 256 * byte (4 * k + 1) l + 65536 * byte (4 * k + 2) l + 16777216 * byte (4 * k + 3) l

/-! ### Meanings -/

/-- SHFL (R387). -/
def execShfl (h : Hdr) (d a b : BitVec 8) (mode : ShflMode) (w : BitVec 3) (s : State) :
    Host.Outcome State Fault Refusal :=
  issue (.shfl h d a b mode w) (fun x act s =>
    regBody d (fun x l z =>
      let j := shflSrc mode w.toNat l (x.rd z b)
      x.rd (x.lane (if act.contains j then j else l)) a) x act s) s

/-- VOTE (R401). -/
def execVote (h : Hdr) (d a : BitVec 8) (k j : BitVec 5) (mode : VoteMode) (s : State) :
    Host.Outcome State Fault Refusal :=
  issue (.vote h d a k j mode) (fun x act s =>
    let p := fun l => bit (x.rd (x.lane l) a) k.toNat
    regBody d (fun x _ z =>
      match mode with
      | .ballot => maskOf act p
      | .any => setBit (x.rd z d) j.toNat (act.any p)
      | .all => setBit (x.rd z d) j.toNat (act.all p)
      | .eq => setBit (x.rd z d) j.toNat (act.all p || !act.any p)) x act s) s

/-- MATCH (R351). -/
def execMatchL (h : Hdr) (d a : BitVec 8) (w64 : Bool) (s : State) : Host.Outcome State Fault Refusal :=
  issue (.matchL h d a w64) (fun x act s =>
    let v := fun l => if w64 then (x.lane l).get64 false a.toNat else (x.lane l).get false a.toNat
    regBody d (fun _ l _ => maskOf act fun k => v k == v l) x act s) s

/-- RED (R380). -/
def execRed (h : Hdr) (d a : BitVec 8) (op : RedOp) (ty : Ty) (s : State) : Host.Outcome State Fault Refusal :=
  issue (.red h d a op ty) (redBody d a op ty none) s

/-- SCAN (R380). -/
def execScan (h : Hdr) (d a : BitVec 8) (op : RedOp) (excl : Bool) (ty : Ty) (s : State) :
    Host.Outcome State Fault Refusal :=
  issue (.scan h d a op excl ty) (redBody d a op ty (some fun l => if excl then l else l + 1)) s

/-- TKINS (R394, R395): the list's registers are asynchronous writebacks. -/
def execTkins (h : Hdr) (d a b : BitVec 8) (n : BitVec 4) (s : State) : Host.Outcome State Fault Refusal :=
  issue (.tkins h d a b n) (asyncBody fun _ _ z =>
    let cnt := n.toNat + 1
    let old := (List.range cnt).map fun i => (z.get false (d.toNat + 2 * i), z.get false (d.toNat + 2 * i + 1))
    let v := z.get false a.toNat
    let new := if (FF.f32.decode v).isNan then old else (tkInsert v (z.get false b.toNat) old).take cnt
    (List.range cnt).flatMap fun i =>
      let p := new.getD i (0, 0)
      [(PReg.g (d.toNat + 2 * i), p.1), (PReg.g (d.toNat + 2 * i + 1), p.2)]) s

end Sys2Proof.Machine
end

