-- ==== Sys2Proof/Machine/Fence.lean ====
section
/-! DEFINITION. Machine/Fence.lean: what a fence or release does before its instruction goes on (R115, R116, R118, R291). -/
namespace Sys2Proof.Machine
open Sys2Proof

/-- The fence in progress of a pack at its instruction. -/
def Ctx.fence? (x : Ctx) (act : List Nat) : Option FenceRec :=
  x.gp.fences.find? fun f => f.lanes == act && f.pc == x.pc && f.rep == x.run.rep.map (·.ix)

/-- Every dirty sector of the core's L1 outside its private region is written back for a group (R115). -/
def State.writeBackAll (s : State) (c t g : Nat) : State :=
  ((s.core c).l1.filter fun x => x.dirty != 0 && !x.priv).foldl (fun u x => u.writeBack c [(t, g)] x) s

/-- Replaces a fence record of the issuing group. -/
def State.setFence (s : State) (x : Ctx) (f : FenceRec) : State :=
  s.onGrp x fun y => { y with fences := y.fences.map fun z => if z.id = f.id then f else z }

/-- The last part of a fence of scope .clu or wider: every marker acknowledged and the time base past KWCT; the path sets
are cleared (R115). The answer is the fence still to wait for. -/
def State.fenceEnd (s : State) (x : Ctx) (f : FenceRec) : State × Option Nat :=
  match s.grp? x.run.team x.run.grp with
  | none => (s, none)
  | some y =>
    if s.fenceReady x.run.team x.run.grp y f.id then
      let s1 := s.onGrp x fun z =>
        { z with pathDie := [], pathPkg := if f.scope ≥ 4 then [] else z.pathPkg }
      (s1.setFence x { f with stage := 2 }, none)
    else (s, some f.id)

/-- A fence of a scope goes as far as it can (R115): it drains the earlier accesses, writes dirty sectors back once their homes answer
(R100), sends its markers and waits. `own` restricts it to the pack's own lanes (R291). The answer is the fence still to wait for. -/
def State.fenceStep (s : State) (x : Ctx) (act : List Nat) (scope : Nat) (own : Bool) : State × Option Nat :=
  let new : FenceRec := ⟨s.nextId, act, x.pc, x.run.rep.map (·.ix), scope, s.nextId, own, 0, []⟩
  let f := (x.fence? act).getD new
  let s0 := if (x.fence? act).isSome then s
    else State.onGrp { s with nextId := s.nextId + 1 } x fun y => { y with fences := y.fences ++ [new] }
  match f.stage with
  | 0 =>
    if s0.fenceOps x.run.team x.run.grp f || s0.fenceJobs x.run.team x.run.grp f then (s0, some f.id)
    else if scope < 2 || own then (s0.setFence x { f with stage := 2 }, none)
    else if !s0.pubOpen x.tm.core then (s0, some f.id)
    else
      let s1 := s0.writeBackAll x.tm.core x.run.team x.run.grp
      let set := match s1.grp? x.run.team x.run.grp with
        | none => []
        | some y => if scope ≥ 4 then y.pathPkg else y.pathDie
      let f1 := { f with stage := 1, markers := set }
      (s1.setFence x f1).fenceEnd x f1
  | 1 => s0.fenceEnd x f
  | _ => (s0, none)

/-- A body that runs once a fence of a scope has completed; until then the active lanes park (R115, R118). -/
def afterFence (scope : Nat) (own : Bool) (b : Body) : Body := fun x act s =>
  let r := s.fenceStep x act scope own
  match r.2 with
  | some id => ⟨r.1, allEnd act (.park (.fence id)), true⟩
  | none => b x act r.1

/-- Nothing more to do. -/
def doneBody : Body := fun _ _ s => ⟨s, [], false⟩

/-- Another pack's fence of the group that is not complete: its later accesses wait for it (R115). -/
def Ctx.groupFence? (x : Ctx) (act : List Nat) : Option Nat :=
  (x.gp.fences.find? fun f => f.stage < 2 && !f.ownLanes && f.lanes != act).map (·.id)

end Sys2Proof.Machine
end

