-- ==== Sys2Proof/Machine/Regs.lean ====
section
/-! DEFINITION. Machine/Regs.lean: what device control space reads as (R15, R5, R6 and each register's rule). -/
namespace Sys2Proof.Machine
open Sys2Proof

/-- A word from fields: low bit and value. -/
def packW : List (Nat × Nat) → Nat
  | [] => 0
  | (lo, v) :: t => v * 2 ^ lo + packW t

/-- The energy weights of a core's resident teams (R70). -/
def State.energyUsed (s : State) (c : Nat) : Nat := (s.residents c).foldl (fun n p => n + p.2.id.weight) 0

/-- ENBUDGET of a core (R70). -/
def State.enbudget (s : State) (c : Nat) (limit : BitVec 12) : Nat := limit.toNat + 2 ^ 12 * (s.energyUsed c % 4096)

/-- A group's counted operations of R85's QUIET are all complete. -/
def Group.opsZero (y : Group) : Bool := y.loads == 0 && y.stores == 0 && y.copies == 0

/-- PRECTL of a core (R85). -/
def State.prectl (s : State) (c : Nat) : Nat := packW [(1, (s.core c).pre), (3, b2n (s.core c).quiet)]

/-- A word of the 256-byte block of a core. -/
def State.coreWord (s : State) (c off : Nat) : Nat :=
  let z := s.core c
  match off with
  | 0x00 => s.enbudget c z.limit
  | 0x08 => z.privsz.toNat
  | 0x10 => s.prectl c
  | 0x18 => z.privbase.toNat
  | 0x20 => z.eccCorr.toNat + 2 ^ 32 * z.eccUncorr.toNat
  | 0x28 => packW [(0, b2n z.retire), (1, b2n (z.retire && (s.residents c).isEmpty))]
  | _ => 0

/-- One byte of SLICEMAP (R98). -/
def State.slicemapByte (s : State) (d b : Nat) : Nat :=
  let x := s.die d
  x.sliceOfBucket b + (match x.move with | some m => if m.bucket = b then 64 else 0 | none => 0)

/-- A host queue's registers (R247). -/
def State.hqWord (s : State) (q k : Nat) : Nat :=
  let x := s.lu.hq.getD q HQ.reset
  match k with
  | 0 => x.base.toNat
  | 1 => packW [(0, x.asid), (12, x.size), (18, x.prio), (20, b2n x.en), (21, b2n x.err)]
  | 2 => x.head.toNat
  | _ => x.tail.toNat

/-- The fault queue has no room for another record (R250). -/
def FaultQ.full (f : FaultQ) : Bool := 256 * 2 ^ f.size ≤ (f.tail - f.head).toNat

/-- The aligned 8-byte word at an offset of device control space; addresses that hold no register read 0 (R6). -/
def State.regWord (s : State) (a : Nat) : Nat :=
  let r := s.regs
  if a < 0x20 then (if a = 0 then Config.featcap else 0)
  else if a < 0x40 then (if a = 0x20 then r.featacc.toNat else 0)
  else if a = 0x40 then b2n r.featlock
  else if a = 0x48 then s.time % 2 ^ 64
  else if a = 0x50 then r.pkgid.toNat
  else if a = 0x1000 then r.enweight.toNat
  else if 0x2000 ≤ a ∧ a < 0x2038 then r.budgetNext.getD ((a - 0x2000) / 8) 0
  else if a = 0x2040 then r.budgetErr.toNat
  else if 0x3000 ≤ a ∧ a < 0x3100 then
    (let d := s.die ((a - 0x3000) / 0x40)
     if (a - 0x3000) % 0x40 = 0 then packW [(0, b2n (d.rbEn && s.feat 4)), (1, b2n d.move.isSome), (8, d.rbThresh.toNat)] else 0)
  else if a = 0x4008 then s.fq.base.toNat
  else if a = 0x4010 then packW [(0, s.fq.size), (4, b2n (s.fq.full && !s.fq.wait.isEmpty))]
  else if a = 0x4018 then s.fq.head.toNat
  else if a = 0x4020 then s.fq.tail.toNat
  else if a = 0x5000 then r.cmpmeta.toNat
  else if a = 0x6000 then r.l1lease + 2 ^ 16 * r.l2lease
  else if 0x7000 ≤ a ∧ a < 0x7020 then (if s.feat 7 then (s.die ((a - 0x7000) / 8)).cocoon else 0)
  else if a = 0x8000 then r.shvec.toNat
  else if 0x9000 ≤ a ∧ a < 0x9800 then s.hqWord ((a - 0x9000) / 0x20) ((a - 0x9000) % 0x20 / 8)
  else if a = 0x9800 then packW [(0, b2n s.lu.dlqEn), (0, s.lu.dlqBase.toNat)]
  else if a = 0x9808 then s.dlqCount
  else if a = 0x9810 then s.lu.dlqAppended.toNat
  else if a = 0xA000 then packW [(0, s.deh.opc), (32, s.deh.len)]
  else if a = 0xA008 then s.deh.pa.toNat
  else if a = 0xA010 then packW [(0, b2n s.deh.busy), (1, b2n s.deh.done), (8, s.deh.err), (16, s.deh.rlen)]
  else if a = 0xB000 then r.rtSlot
  else if a = 0xB008 then r.rtPa.toNat
  else if a = 0xB010 then packW [(0, b2n r.rtBusy), (1, b2n r.rtOk), (2, b2n r.rtSigfail)]
  else if 0xD000 ≤ a ∧ a < 0xD100 then
    (let p := s.port ((a - 0xD000) / 16)
     if a % 16 = 0 then p.ovBase.toNat else packW [(0, p.ovSize.toNat), (16, b2n p.down), (17, b2n p.ovfull)])
  else if 0xD100 ≤ a ∧ a < 0xD140 then
    (let d := s.die ((a - 0xD100) / 16)
     if a % 16 = 0 then d.qBase.toNat else packW [(0, d.qSize.toNat), (16, b2n d.qFull)])
  else if 0xE000 ≤ a ∧ a < 0xE800 then
    (let k := (a - 0xE000) / 8
     packW [(0, b2n ((s.die (k / 64)).sliceRetire.contains (k % 64))), (1, b2n ((s.die (k / 64)).sliceRetired.contains (k % 64)))])
  else if 0xF000 ≤ a ∧ a < 0xF040 then
    (let k := (a - 0xF000) / 8
     packW [(0, r.dramChan.getD k 0), (5, b2n (r.dramBusy.contains k))])
  else if 0x10000 ≤ a ∧ a < 0x20000 then s.coreWord ((a - 0x10000) / 0x100) (a % 0x100)
  else if 0x30000 ≤ a ∧ a < 0x32000 then (s.links.apertures.getD ((a - 0x30000) / 8) 0).toNat
  else if 0x40000 ≤ a ∧ a < 0x44000 then
    leNat ((List.range 4).flatMap fun k => leBytes 2 (s.links.routes.getD ((a - 0x40000) / 2 + k) 0).toNat)
  else if 0x100000 ≤ a ∧ a < 0x104000 then
    leNat ((List.range 8).flatMap fun k => leBytes 1 (s.slicemapByte ((a - 0x100000) / 0x1000) ((a - 0x100000) % 0x1000 + k)))
  else if 0x200000 ≤ a ∧ a < 0x210000 then
    (if a % 16 = 0 then (s.asidTab.getD ((a - 0x200000) / 16) 0).toNat else 0)
  else if 0x1000000 ≤ a ∧ a < 0x1000000 + 0x10000 * 345 then
    (let t := (a - 0x1000000) / 0x10000
     let m := (a - 0x1000000) % 0x10000 / 0x40
     if m < 529 then (s.accWord t m (a % 0x40 / 0x10) (a % 0x10 / 8)).toNat else 0)
  else 0

/-- `n` bytes of device control space at a physical address, as a number. -/
def State.regRead (s : State) (pa n : Nat) : Nat :=
  let a := pa - Config.devBase
  bits (s.regWord (a / 8 * 8)) (8 * (a % 8)) (8 * n)

end Sys2Proof.Machine
end

