-- ==== Sys2Proof/Machine/Looper.lean ====
section
/-! DEFINITION. Machine/Looper.lean: layout records, cursor registers and the walks of the Loopers (R160 to R183), and the
address of an access through a cursor (R92). -/
namespace Sys2Proof.Machine
open Sys2Proof

/-! ### One lane's part of an access -/

/-- Why a lane's part of an access does not complete. -/
inductive LStop where
  /-- A translation missed: the pack waits for the walk (R104). -/
  | miss (va kind : Nat)
  /-- A translation fault (R105). -/
  | xlate (va kind cause : Nat)
  /-- A fault of the lane alone. -/
  | fault (cause : Nat)
  /-- Refused by an access table or a missing route, which is reported (R108). -/
  | refused (va kind : Nat)
  /-- The pack waits. -/
  | wait (w : Wait)
  /-- No grant is left in this core cycle (R83); what the attempt took of them stays taken. -/
  | grant (cycle : Nat) (spent claimed : Tab Nat) (paid : List (Nat × Nat × Nat × Nat))
  /-- A read of `n` bytes at a target outside DRAM is to go out: it and its lane (R97, R254). -/
  | far (o : Op) (n : Nat)
  /-- A poisoned byte was read: the team is killed (R241). -/
  | poison
  deriving DecidableEq, Repr

/-- A lane's part of an access: a state change with an answer, or a stop that changes nothing. -/
abbrev LM (α : Type) := StateT State (Except LStop) α

/-- Stops. -/
def lmStop {α : Type} (e : LStop) : LM α := fun _ => .error e

/-- Faults the lane. -/
def lmFault {α : Type} (c : Nat) : LM α := lmStop (.fault c)

/-- A function of the state. -/
def lmGet {α : Type} (f : State → α) : LM α := fun s => .ok (f s, s)

/-- A state change with an answer. -/
def lmDo {α : Type} (f : State → α × State) : LM α := fun s => .ok (f s)

/-- A state change. -/
def lmMod (f : State → State) : LM Unit := fun s => .ok ((), f s)

/-- Stops where a condition of the state holds. -/
def lmStopIf (p : State → Bool) (e : State → LStop) : LM Unit := fun s => if p s then .error (e s) else .ok ((), s)

/-- A free 32-bit value (R165). -/
def lmFree : LM Nat := lmDo fun s => ((Config.freeCoord s.freeCtr).toNat, { s with freeCtr := s.freeCtr + 1 })

/-- The state after a stop: the grants taken on the way to one that waits for more of them stay taken (R83). -/
def LStop.after (e : LStop) (s : State) : State :=
  match e with
  | .grant _ spent claimed paid => { s with spent, claimed, paid }
  | _ => s

/-- A stop for want of a grant. -/
def State.noGrant (s : State) : LStop := .grant (cycleOf s.time) s.spent s.claimed s.paid

/-- The work for which a lane, or an engine's part, takes its grants. -/
def Ctx.work (x : Ctx) (l : Nat) : Nat × Nat × Nat := (x.run.team, x.run.grp, l)

/-- The translation and the physical check of an access (R15, R102, R104, R107). -/
def lmXlate (x : Ctx) (va kind n : Nat) : LM (TlbE × Nat) := fun s =>
  match s.xlate x.tm.core x.tm.id.asid va kind x.gp.sup with
  | .miss => .error (.miss va kind)
  | .fault c => .error (.xlate va kind c)
  | .ok e =>
    match s.physCheck x.tm.core kind (e.phys va) n x.gp.sup with
    | some c =>
      .error (if c != cRefused then .fault c else if s.fq.buffered then .wait .faultRoom else .refused va kind)
    | none => .ok ((e, e.phys va), s)

/-- The group's buffered stores put over bytes of memory (R121, R223). -/
def Group.overlay (y : Group) (pa : Nat) (bs : List (BitVec 8)) : List (BitVec 8) :=
  match y.task with
  | none => bs
  | some k =>
    (List.range bs.length).map fun i =>
      k.buf.foldl (fun b st => if st.pa ≤ pa + i && pa + i < st.pa + st.width then st.data.extractLsb' (8 * (pa + i - st.pa)) 8 else b)
        (bs.getD i 0)

/-- An earlier access of the lane that a metadata access must follow (R111): one to the same bytes, and for a write any
load or atomic whose value has not come. -/
def Op.before (o : Op) (x : Ctx) (l pa n : Nat) (write : Bool) : Bool :=
  o.team == x.run.team && o.grp == x.run.grp && o.lane == l && o.kind != .far &&
    (overlaps o.pa o.width pa n || o.acq ||
      (write && (o.kind == .load || o.kind == .atomic || o.kind == .evwait || o.kind == .presence)))

/-- One line through the metadata cache (R182): a dirty L1 copy is written back first, and a fill, which takes one of the core's
Looper grants for the job of a lane (R82), drops the L1 copy; none where it must wait for a grant. -/
def State.mdcLine (s : State) (w : Nat × Nat × Nat) (c line : Nat) (a : Attr) : Option (BitVec 1024 × State) :=
  let d := dieOf c
  let pa := line * 128
  let dirty : Bool := match (s.core c).l1Find line with | some z => z.dirty != 0 | none => false
  let s0 : State := if dirty then (s.l1Evict c line).modCore c fun k => k.mdcDrop line else s
  match (s0.core c).mdc.find? fun y => y.line == line && s0.time < y.lease with
  | some y => some (y.data, s0.modCore c fun z => z.mdcSet y)
  | none =>
    let at_ := l2Target d (s0.sliceOf d pa) :: (if ((s0.die d).l2Find line).isSome then [] else [l3Target pa])
    (s0.payLine w line 1 c 1 1 at_).map fun s1 =>
      let s2 := s1.l2Serve d pa a
      let r := s2.grantL1 d line
      let v := r.2.l2Data d line
      (v, r.2.modCore c fun z => (z.l1Drop line).mdcSet ⟨line, v, r.1⟩)

/-- The way of a read that is made at once: a lane's load, the metadata cache, or the L2 (R123, R182). -/
inductive Via where
  | load | metadata | l2
  deriving DecidableEq, Repr

/-- Bytes of DRAM read at once on a way for the job of a lane; none where the read must wait for a grant. -/
def State.readVia (s : State) (w : Nat × Nat × Nat) (c : Nat) (a : Attr) (pa n : Nat) : Via → Option (List (BitVec 8) × State)
  | .load => some (s.loadBytes c pa n a false)
  | .l2 => some (s.loadBytes c pa n { a with alloc := min a.alloc 2 } false)
  | .metadata =>
    if a.alloc ≥ 3 then (s.mdcLine w c (pa / 128) a).map fun r => (lineBytes r.1 (pa % 128) n, r.2)
    else some (s.loadBytes c pa n a false)

/-- An operation in flight for a lane, with nothing in it but its issuer and address. -/
def Op.mk0 (x : Ctx) (l : Nat) (kind : OpKind) (va : Nat) (e : TlbE) (width : Nat) : Op :=
  { id := 0, kind, team := x.run.team, grp := x.run.grp, lane := l, core := x.tm.core, asid := x.tm.id.asid, va,
    pa := e.phys va, width, attr := e.attr, priv := false, data := 0, cmp := 0, opc := 0, scope := 0,
    acq := false, rel := false, pend := none, sext := false, tok := none, sent := false, hold := false, pc := x.pc,
    rep := x.run.rep.map (·.ix), drain := false }

/-- An operation joins those in flight under a fresh identifier. -/
def State.addOp (s : State) (o : Op) : State :=
  { s with ops := s.ops ++ [{ o with id := s.nextId }], nextId := s.nextId + 1 }

/-- The reads of at most 8 bytes that a read of `n` bytes at a target outside DRAM makes. -/
def Op.farParts (o : Op) (n : Nat) : List Op :=
  (List.range (cdiv n 8)).map fun k => { o with va := o.va + 8 * k, pa := o.pa + 8 * k, width := min 8 (n - 8 * k) }

/-- Two reads outside DRAM are one: of a lane's instruction as it stands, or of an engine's work (groups from 64 on). -/
def Op.sameFar (o q : Op) : Bool :=
  o.kind == .far && q.kind == .far && o.team == q.team && o.grp == q.grp && o.lane == q.lane && o.va == q.va &&
    o.scope == q.scope && o.width == q.width && (64 ≤ o.grp || (o.pc == q.pc && o.rep == q.rep))

/-- The reads of which a read of `n` bytes outside DRAM consists, as they stand. -/
def State.farOps (s : State) (o : Op) (n : Nat) : List Op := (o.farParts n).map fun p => (s.ops.find? p.sameFar).getD p

/-- The reads that are not out yet go out, in issue order with the master's other accesses (R97, R254). -/
def State.askFar (s : State) (o : Op) (n : Nat) : State :=
  (o.farParts n).foldl (fun u p => if u.ops.any p.sameFar then u else u.addOp p) s

/-- Bytes read at a target outside DRAM: the answers of the target, once all have come (R97, R254). -/
def lmFar (o : Op) (n : Nat) : LM (List (BitVec 8)) := fun s =>
  let l := s.farOps o n
  if l.any fun p => p.opc == 2 then .error (.refused o.va (if o.scope = 0 then 0 else 2))
  else if l.any fun p => p.opc == 3 then .error (.fault cUnmapped)
  else if l.all fun p => p.opc == 1 then .ok (l.flatMap fun p => leBytes p.width p.data.toNat, s)
  else .error (.far o n)

/-- Bytes that an instruction or an engine reads on its own account: from DRAM at once, once their home answers (R100, R258),
and from other targets as an access of their master (R97); poisoned ones are met (R241). -/
def lmFetch (x : Ctx) (l va : Nat) (e : TlbE) (n : Nat) (via : Via) : LM (List (BitVec 8)) := fun s =>
  let pa := e.phys va
  let c := x.tm.core
  if regionOf pa = .dram then
    if !s.homeOpen (dieOf c) pa e.alloc then .error (.wait (.home (dieOf c) pa e.alloc))
    else if via == .load && 3 ≤ e.alloc && !s.fillOpen c (pa / 128) then .error (.wait ((s.fillWait c (pa / 128)).getD .far))
    else if s.poisoned pa n then .error .poison
    else match s.readVia (x.work l) c e.attr pa n via with
      | some r => .ok r
      | none => .error s.noGrant
  else lmFar { Op.mk0 x l .far va e n with core := if x.run.pipe = 9 then 256 + c else c, loop := via == .metadata } n s

/-- A metadata read of a lane (R181, R182). -/
def lmRead (x : Ctx) (l va n : Nat) : LM Nat := do
  let va := va % 2 ^ 56
  let (e, pa) ← lmXlate x va 0 n
  lmStopIf (fun s => s.ops.any fun o => o.before x l pa n false) fun s => .wait (.laneOps s.nextId)
  let bs ← lmFetch x l va e n .metadata
  pure (leNat (x.gp.overlay pa bs))

/-- The home of a Looper's write (R177, R181): the L2 home, or the L3 home for pages with ALLOC below 2. A target outside
DRAM receives it as a store in flight (R97). -/
def State.looperPut (s : State) (x : Ctx) (l : Nat) (e : TlbE) (va pa : Nat) (bs : List (BitVec 8)) : State :=
  match regionOf pa with
  | .dram => s.homeWrite x.tm.core x.run.team x.run.grp pa e.attr 3 bs
  | _ =>
    (List.range (cdiv bs.length 8)).foldl (fun u k =>
      let part := (bs.drop (8 * k)).take 8
      u.addOp { Op.mk0 x l .store (va + 8 * k) e part.length with data := BitVec.ofNat 64 (leNat part), loop := true }) s

/-- The home of a DRAM page of the core answers now (R100, R258). -/
def lmOpen (x : Ctx) (e : TlbE) (pa : Nat) : LM Unit :=
  lmStopIf (fun s => regionOf pa == .dram && !s.homeOpen (dieOf x.tm.core) pa e.alloc)
    fun _ => .wait (.home (dieOf x.tm.core) pa e.alloc)

/-- A metadata write of a lane: a store performed at the L2 home (R177). -/
def lmWrite (x : Ctx) (l va n v : Nat) : LM Unit := do
  let va := va % 2 ^ 56
  let (e, pa) ← lmXlate x va 1 n
  lmOpen x e pa
  lmStopIf (fun s => s.ops.any fun o => o.before x l pa n true) fun s => .wait (.laneOps s.nextId)
  lmMod fun s =>
    let s1 := match regionOf pa with
      | .dram => (s.homeBytes x.tm.core pa n e.attr 3).2
      | _ => s
    s1.looperPut x l e va pa (leBytes n v)

/-- The new value of an atomic (R288); operation 11 is the heap unit's allocation, LIMIT in the low half and NEXTC in the high half
of its word (R175). -/
def atomNew (opc w old v cmp : Nat) : Nat :=
  let m := 2 ^ w
  match opc with
  | 0 => (old + v) % m
  | 1 => if signed v w < signed old w then v else old
  | 2 => if signed old w < signed v w then v else old
  | 3 => min old v
  | 4 => max old v
  | 5 => old &&& v
  | 6 => old ||| v
  | 7 => old ^^^ v
  | 8 => v
  | 9 => if old = cmp then v else old
  | 10 => (FF.f32.pack 0 (fvAdd 0 (FF.f32.decode old) (FF.f32.decode v))).1
  | _ => if old / 2 ^ 32 < old % 2 ^ 32 then (old + 2 ^ 32) % m else old

/-- A die-scope indivisible update of a lane (R164, R175, R176), an operation of `atomNew` with its operands: the old value. Outside
DRAM it is one atomic access at its target (R97, R254), and the host window takes the operations of R290. -/
def lmAtom (x : Ctx) (l va n opc v cmp : Nat) : LM Nat := do
  let va := va % 2 ^ 56
  let f := fun (old : Nat) => atomNew opc (8 * n) old v cmp
  let (e, pa) ← lmXlate x va 2 n
  lmOpen x e pa
  lmStopIf (fun s => s.ops.any fun o => o.before x l pa n true) fun s => .wait (.laneOps s.nextId)
  lmStopIf (fun s => regionOf pa == .dram && s.poisoned pa n) fun _ => .poison
  lmStopIf (fun _ => regionOf pa == .host && !(opc == 0 || opc == 8 || opc == 9)) fun _ => .refused va 2
  if regionOf pa = .dram then
    let bs ← lmDo fun s => s.homeBytes x.tm.core pa n e.attr 3
    let old := leNat bs
    lmMod fun s => if f old = old then s else s.looperPut x l e va pa (leBytes n (f old))
    pure old
  else
    let bs ← lmFar { Op.mk0 x l .far va e n with scope := opc + 1, data := BitVec.ofNat 64 v, cmp := BitVec.ofNat 64 cmp, loop := true } n
    pure (leNat bs)

/-! ### Layout records (R160 to R162) -/

/-- The VA of a handle's record (R160). -/
def recordVa (x : Ctx) (handle : Nat) : Nat := ((x.tm.lrbase.extractLsb' 9 47).toNat * 512 + 512 * handle) % 2 ^ 56

/-- The 64 bytes of a record at an offset, as a number, through the layout-record cache (R124): entries carry no lease and
are keyed by ASID and VA. -/
def lmRecord (x : Ctx) (va : Nat) : LM Nat := do
  let key := x.tm.id.asid * 2 ^ 56 + va
  let hit ← lmGet fun s => (s.core x.tm.core).lrc.get? key
  match hit with
  | some v => pure v
  | none =>
    let (e, pa) ← lmXlate x va 0 64
    lmMod fun s => s.cleanLine x.tm.core (pa / 128) []
    let bs ← lmFetch x (low x.run.lanes) va e 64 .l2
    lmMod fun s => s.modCore x.tm.core fun c => { c with lrc := c.lrc.set key (leNat bs) }
    pure (leNat bs)

/-- A level of a record (R161). -/
structure Level where
  kind  : Nat
  esize : Nat
  param : Nat
  ext   : Nat
  posa  : Nat
  crda  : Nat
  vbase : Nat
  aux   : Nat
  deriving DecidableEq, Repr

/-- Entry sizes of POSA and CRDA by kind (R163). -/
def arrayAlign (kind : Nat) : Nat × Nat :=
  match kind with
  | 2 => (4, 4)
  | 3 => (16, 4)
  | 4 => (8, 4)
  | 5 => (1, 8)
  | 6 => (4, 8)
  | 7 => (4, 4)
  | _ => (1, 1)

/-- A level entry of 64 bytes, unless it is malformed (R162). -/
def levelOf (w : Nat) : Option Level :=
  let v : Level :=
    { kind := bits w 0 4, esize := 2 ^ bits w 4 2, param := bits w 8 8, ext := bits w 32 32, posa := bits w 64 56,
      crda := bits w 128 56, vbase := bits w 192 56, aux := bits w 256 56 }
  let reserved := bits w 6 2 != 0 || bits w 16 16 != 0 || bits w 120 8 != 0 || bits w 184 8 != 0 || bits w 248 8 != 0 ||
    bits (w / 2 ^ 256) 56 200 != 0
  let paramOk : Bool := match v.kind with
    | 5 => v.param ≤ 20
    | 7 => 1 ≤ v.param && v.param ≤ 128
    | _ => v.param == 0
  let extOk := !(v.kind == 1 || v.kind == 4) || v.ext != 0
  let al := arrayAlign v.kind
  let auxOk := if v.kind = 3 then v.aux != 0 && v.aux % 64 == 0 else v.aux == 0
  if reserved || v.kind == 0 || 7 < v.kind || !paramOk || !extOk || v.posa % al.1 != 0 || v.crda % al.2 != 0 ||
      v.vbase % v.esize != 0 || !auxOk then none else some v

/-- NLEV of a header, unless it is malformed (R162). -/
def nlevOf (w : Nat) : Option Nat := if w / 8 != 0 || w == 0 || w == 7 then none else some w

/-- The number of levels of a handle's record. -/
def lmNlev (x : Ctx) (handle : Nat) : LM Nat := do
  let w ← lmRecord x (recordVa x handle)
  match nlevOf w with
  | some n => pure n
  | none => lmFault cLayout

/-- A level entry of a handle's record. Levels at and above NLEV are not read (R161), so the header is read with it; a level
that the record does not have counts as malformed. -/
def lmLevel (x : Ctx) (handle level : Nat) : LM Level := do
  let n ← lmNlev x handle
  if n ≤ level then lmFault cLayout
  let w ← lmRecord x ((recordVa x handle + 0x40 + 0x40 * level) % 2 ^ 56)
  match levelOf w with
  | some v => pure v
  | none => lmFault cLayout

/-! ### Cursor registers (R166) -/

/-- A cursor register's fields. -/
structure Cur where
  kind  : Nat
  level : Nat
  done  : Bool
  app   : Bool
  own   : Bool
  ovf   : Bool
  fnd   : Bool
  spec  : Bool
  handle : Nat
  lo  : Nat
  hi  : Nat
  pos : Nat
  /-- The first run of a run-length fibre, which stands in no bit of the register (R165). -/
  first : Nat := 0
  deriving DecidableEq, Repr

/-- The fields of a cursor register. -/
def Cur.of (c : BitVec 128) : Cur :=
  { kind := (c.extractLsb' 0 4).toNat, level := (c.extractLsb' 4 3).toNat, done := c.getLsbD 7, app := c.getLsbD 8,
    own := c.getLsbD 9, ovf := c.getLsbD 10, fnd := c.getLsbD 11, spec := c.getLsbD 12,
    handle := (c.extractLsb' 16 16).toNat, lo := (c.extractLsb' 32 32).toNat, hi := (c.extractLsb' 64 32).toNat,
    pos := (c.extractLsb' 96 32).toNat }

/-- A cursor register of a lane, with what the Loopers remember of it. -/
def Lane.curAt (z : Lane) (n : Nat) : Cur := { Cur.of (z.cur n) with first := z.runs.getD n 0 }

/-- The 128 bits of a cursor register, and above them what the Loopers remember of it. -/
def Cur.toNat (c : Cur) : Nat :=
  packW [(0, c.kind % 16), (4, c.level % 8), (7, b2n c.done), (8, b2n c.app), (9, b2n c.own), (10, b2n c.ovf), (11, b2n c.fnd),
    (12, b2n c.spec), (16, c.handle % 65536), (32, c.lo % 2 ^ 32), (64, c.hi % 2 ^ 32), (96, c.pos % 2 ^ 32), (128, c.first)]

/-- The all-zero cursor. -/
def Cur.zero : Cur := Cur.of 0

/-- A cursor that counts as done (R166). -/
def Cur.isDone (c : Cur) : Bool := c.done || c.kind == 0

/-- CNEXT and CSEEK leave the cursor alone (R171). -/
def Cur.idle (c : Cur) : Bool := c.isDone || c.app

/-- The done coordinate (R168), which is also the `none` of chunk links (R175). -/
def none32 : Nat := 2 ^ 32 - 1

/-- Fuel for walks over 32-bit positions and chunks. -/
def walkFuel : Nat := 2 ^ 33

/-! ### Fibres and coordinates (R163, R165, R167) -/

/-- Bytes of metadata in DRAM as a Looper of the core would read them now (R182), with no effect of the read. -/
def State.seeBytes (s : State) (c : Nat) (a : Attr) (pa n : Nat) : List (BitVec 8) :=
  let line := pa / 128
  let dirty : Bool := match (s.core c).l1Find line with | some z => z.dirty != 0 | none => false
  match (s.core c).mdc.find? fun y => a.alloc ≥ 3 && !dirty && y.line == line && s.time < y.lease with
  | some y => lineBytes y.data (pa % 128) n
  | none => ((s.cleanLine c line []).loadBytes c pa n { a with alloc := min a.alloc 2 } false).1

/-- The metadata that decide whether R165 leaves a fibre's coordinates open, as they stand: no access is made for them, and an entry
that no page maps or that lies outside DRAM decides nothing (log entry 132). -/
def State.see (s : State) (x : Ctx) (va n : Nat) : Option Nat :=
  let va := va % 2 ^ 56
  match s.lookup x.tm.core x.tm.id.asid va 0 x.gp.sup with
  | .error _ => none
  | .ok e =>
    let pa := e.phys va
    if regionOf pa = .dram then some (leNat (x.gp.overlay pa (s.seeBytes x.tm.core e.attr pa n))) else none

/-- Values decrease somewhere from an index on, over `n` steps (R165). -/
def decreases (rd : Nat → Option Nat) (i : Nat) : Nat → Bool
  | 0 => false
  | n + 1 =>
    (match rd i, rd (i + 1) with
     | some a, some b => decide (b < a)
     | _, _ => false) || decreases rd (i + 1) n

/-- The first index from `i` on whose value exceeds a position, as the metadata stand. -/
def seeAbove (rd : Nat → Option Nat) (pos i : Nat) : Nat → Option Nat
  | 0 => some i
  | n + 1 =>
    match rd i with
    | some a => if pos < a then some i else seeAbove rd pos (i + 1) n
    | none => none

/-- The coordinates of a linked fibre from a chunk on, in chain order (R163), as the metadata stand. -/
def seeChain (rd : Nat → Nat → Option Nat) (v : Level) (base : Nat) : Nat → Nat → Option (List Nat)
  | 0, _ => some []
  | fuel + 1, c =>
    if c = none32 then some []
    else
      match rd (base + 16 * c + 4) 2, rd (base + 16 * c) 4 with
      | some u, some n =>
        (seeChain rd v base fuel n).map fun t => (List.range (u % 512)).filterMap (fun i => rd (v.crda + 4 * (256 * c + i)) 4) ++ t
      | _, _ => none

/-- The coordinates of the whole linked fibre that a cursor's chunk belongs to (R163, R175), as the metadata stand. -/
def seeLinked (rd : Nat → Nat → Option Nat) (v : Level) (c : Cur) : Option (List Nat) :=
  match rd v.aux 8 with
  | none => none
  | some w =>
    let base := w % 2 ^ 56
    match (rd (base + 16 * (c.lo / 256) + 8) 4).bind fun p => rd (v.posa + 16 * p) 4 with
    | some first => seeChain rd v base walkFuel first
    | none => none

/-- The positions of the bitmap fibre that a position belongs to and the bits set in its bitmap (R163), as the metadata stand. -/
def seeBitmap (rd : Nat → Nat → Option Nat) (v : Level) (pos : Nat) : Option (Nat × Nat) :=
  match seeAbove (fun i => rd (v.crda + 4 * i) 4) pos 0 (2 ^ 32) with
  | none => none
  | some n =>
    let nw := cdiv v.ext 64
    let set := (List.range v.ext).filter fun j => bit ((rd (v.posa + 8 * (nw * (n - 1) + j / 64)) 8).getD 0) (j % 64)
    match rd (v.crda + 4 * (n - 1)) 4, rd (v.crda + 4 * n) 4 with
    | some a, some b => some (b - a, set.length)
    | _, _ => none

/-- The metadata of a cursor's fibre leave its coordinates open (R165): the coordinates or the VPOS values decrease, or the bitmap has
fewer bits set than the fibre has positions. -/
def disordered (x : Ctx) (v : Level) (c : Cur) (s : State) : Bool :=
  let rd := s.see x
  let xs := fun i => rd (v.crda + 4 * i) 4
  match c.kind with
  | 2 => decreases xs c.lo (c.hi - c.lo - 1)
  | 3 =>
    (match seeLinked rd v c with
     | some cs => decreases (fun i => cs[i]?) 0 (cs.length - 1)
     | none => decreases xs c.lo (c.hi - c.lo - 1))
  | 4 =>
    (match seeBitmap rd v c.lo with
     | some (n, k) => decide (k < max n (c.hi - c.lo))
     | none => false)
  | 7 => decreases (fun q => (xs (q / v.param)).map fun a => (v.param * a + q % v.param) % 2 ^ 32) c.lo (c.hi - c.lo - 1)
  | 6 =>
    let vp := fun i => rd (v.crda + 8 * i + 4) 4
    (match seeAbove vp (c.hi - 1) c.first walkFuel with
     | some n => decreases vp c.first (n - c.first)
     | none => false)
  | _ => false

/-- Chunk descriptors start here (R175). -/
def lmChunka (x : Ctx) (l : Nat) (v : Level) : LM Nat := do
  let w ← lmRead x l v.aux 8
  pure (w % 2 ^ 56)

/-- USED of a chunk (R175). -/
def lmUsed (x : Ctx) (l base c : Nat) : LM Nat := do
  let w ← lmRead x l (base + 16 * c + 4) 2
  pure (w % 512)

/-- NEXT of a chunk (R175). -/
def lmNextChunk (x : Ctx) (l base c : Nat) : LM Nat := lmRead x l (base + 16 * c) 4

/-- The first chunk from `c` on, in chain order, whose USED is nonzero: the chunk and its USED (R167, R171). -/
def lmChain (x : Ctx) (l base : Nat) : Nat → Nat → LM (Option (Nat × Nat))
  | 0, _ => pure none
  | fuel + 1, c => do
    if c = none32 then pure none
    else
      let u ← lmUsed x l base c
      if u != 0 then pure (some (c, u))
      else
        let n ← lmNextChunk x l base c
        lmChain x l base fuel n

/-- A hashed slot's key (R163). -/
def lmKey (x : Ctx) (l : Nat) (v : Level) (pos : Nat) : LM Nat := lmRead x l (v.crda + 8 * pos) 8

/-- An empty slot's key (R163). -/
def emptyKey : Nat := 2 ^ 64 - 1

/-- The first occupied slot from a position on, `n` positions at most. -/
def lmOccupied (x : Ctx) (l : Nat) (v : Level) (pos : Nat) : Nat → LM (Option Nat)
  | 0 => pure none
  | n + 1 => do
    let k ← lmKey x l v pos
    if k != emptyKey then pure (some pos) else lmOccupied x l v (pos + 1) n

/-- The cursor `c` of a level on a parent's fibre: its bounds, position, DONE and first run (R163, R165, R167). -/
def lmFibre (x : Ctx) (l : Nat) (v : Level) (c : Cur) (p : Nat) : LM Cur := do
  if v.kind = 3 then
    let base ← lmChunka x l v
    let first ← lmRead x l (v.posa + 16 * p) 4
    let ch ← lmChain x l base walkFuel first
    match ch with
    | none => pure { c with lo := p, hi := p, pos := p, done := true }
    | some (k, u) => pure { c with lo := 256 * k, hi := 256 * k + u, pos := 256 * k, done := false }
  else
    let (lo, hi, first) ← (match v.kind with
      | 1 => pure (p * v.ext, p * v.ext + v.ext, 0)
      | 5 => pure (p * 2 ^ v.param, p * 2 ^ v.param + 2 ^ v.param, 0)
      | 4 => do
        let a ← lmRead x l (v.crda + 4 * p) 4
        let b ← lmRead x l (v.crda + 4 * (p + 1)) 4
        pure (a, b, 0)
      | _ => do
        let a ← lmRead x l (v.posa + 4 * p) 4
        let b ← lmRead x l (v.posa + 4 * (p + 1)) 4
        if v.kind = 6 then
          let va ← lmRead x l (v.crda + 8 * a + 4) 4
          let vb ← lmRead x l (v.crda + 8 * b + 4) 4
          pure (va, vb, a)
        else if v.kind = 7 then pure (v.param * a, v.param * b, 0)
        else pure (a, b, 0) : LM (Nat × Nat × Nat))
    let lo := lo % 2 ^ 32
    let hi := hi % 2 ^ 32
    if hi ≤ lo then pure { c with lo, hi := lo, pos := lo, done := true, first }
    else if v.kind = 5 then
      let o ← lmOccupied x l v lo (hi - lo)
      match o with
      | some q => pure { c with lo, hi, pos := q, done := false }
      | none => pure { c with lo, hi, pos := lo, done := true }
    else pure { c with lo, hi, pos := lo, done := false, first }

/-- The first index from `i` on whose 4-byte entry exceeds a position, by a search in ascending order (R163, R165). -/
def lmFirstAbove (rd : Nat → LM Nat) (pos i : Nat) : Nat → LM Nat
  | 0 => pure i
  | n + 1 => do
    let a ← rd i
    if pos < a then pure i else lmFirstAbove rd pos (i + 1) n

/-- The index of the set bit of a rank in the words of a bitmap, ranks counted from word `w` on. -/
def lmRankBit (rd : Nat → LM Nat) (ext rank w : Nat) : Nat → LM (Option Nat)
  | 0 => pure none
  | n + 1 => do
    let a ← rd w
    let set := (List.range 64).filter fun j => bit a j && decide (64 * w + j < ext)
    match set[rank]? with
    | some j => pure (some (64 * w + j))
    | none => lmRankBit rd ext (rank - set.length) (w + 1) n

/-- VPOS of a run (R163). -/
def lmVpos (x : Ctx) (l : Nat) (v : Level) (i : Nat) : LM Nat := lmRead x l (v.crda + 8 * i + 4) 4

/-- The coordinate at a position of a cursor's fibre (R163); a free value where the metadata leave it open (R165). -/
def lmCoord (x : Ctx) (l : Nat) (v : Level) (c : Cur) (pos : Nat) : LM Nat := do
  let bad ← lmGet (disordered x v c)
  if bad then lmFree
  else
    match c.kind with
    | 1 => pure (pos % v.ext)
    | 4 =>
      let n ← lmFirstAbove (fun i => lmRead x l (v.crda + 4 * i) 4) pos 0 (2 ^ 32)
      if n = 0 then lmFree
      else
        let o ← lmRead x l (v.crda + 4 * (n - 1)) 4
        let nw := cdiv v.ext 64
        let r ← lmRankBit (fun w => lmRead x l (v.posa + 8 * (nw * (n - 1) + w)) 8) v.ext (pos - o) 0 nw
        match r with
        | some j => pure j
        | none => lmFree
    | 5 =>
      let k ← lmKey x l v pos
      pure (if k = emptyKey then none32 else k % 2 ^ 32)
    | 6 =>
      -- a first run above the position is metadata that have changed since the cursor was made
      let n ← lmFirstAbove (lmVpos x l v) pos c.first walkFuel
      if n = c.first then lmFree
      else
        let st ← lmRead x l (v.crda + 8 * (n - 1)) 4
        let vp ← lmVpos x l v (n - 1)
        pure ((st + pos - vp) % 2 ^ 32)
    | 7 =>
      let a ← lmRead x l (v.crda + 4 * (pos / v.param)) 4
      pure ((v.param * a + pos % v.param) % 2 ^ 32)
    | _ => lmRead x l (v.crda + 4 * pos) 4

/-! ### Moving (R164, R171) -/

/-- The start slot of a key (R164). -/
def slotOf (h key : Nat) : Nat := if h = 0 then 0 else xorFold h 64 key

/-- The probe length (R164). -/
def probeLen (h : Nat) : Nat := min 32 (2 ^ h)

/-- A lookup of a key in the table at `lo` (R164), from probe `i` on: the slot that holds it. -/
def lmLookup (x : Ctx) (l : Nat) (v : Level) (lo key i : Nat) : Nat → LM (Option Nat)
  | 0 => pure none
  | n + 1 => do
    let q := (lo + (slotOf v.param key + i) % 2 ^ v.param) % 2 ^ 32
    let k ← lmKey x l v q
    if k = key then pure (some q)
    else if k = emptyKey then pure none
    else lmLookup x l v lo key (i + 1) n

/-- What an insert finds. -/
inductive Ins where
  | inserted (pos : Nat)
  | found (pos : Nat)
  | overflow
  deriving DecidableEq, Repr

/-- An insert of a key in the table at `lo` (R164), from probe `i` on. -/
def lmInsert (x : Ctx) (l : Nat) (v : Level) (lo key i : Nat) : Nat → LM Ins
  | 0 => pure .overflow
  | n + 1 => do
    let q := (lo + (slotOf v.param key + i) % 2 ^ v.param) % 2 ^ 32
    let old ← lmAtom x l (v.crda + 8 * q) 8 9 key emptyKey
    if old = key then pure (.found q)
    else if old = emptyKey then pure (.inserted q)
    else lmInsert x l v lo key (i + 1) n

/-- The CNEXT effect on a cursor that is not idle (R171). -/
def lmNext (x : Ctx) (l : Nat) (v : Level) (c : Cur) : LM Cur := do
  let c := { c with fnd := false }
  if c.kind = 5 then
    let o ← lmOccupied x l v (c.pos + 1) (c.hi - (c.pos + 1))
    match o with
    | some q => pure { c with pos := q }
    | none => pure { c with done := true }
  else if c.pos + 1 < c.hi then pure { c with pos := c.pos + 1 }
  else if c.kind = 3 then
    let base ← lmChunka x l v
    let n ← lmNextChunk x l base (c.lo / 256)
    let ch ← lmChain x l base walkFuel n
    match ch with
    | some (k, u) => pure { c with lo := 256 * k, hi := 256 * k + u, pos := 256 * k }
    | none => pure { c with done := true }
  else pure { c with done := true }

/-- The first position from `q` on, `n` positions at most, whose coordinate reaches a key. -/
def lmScan (x : Ctx) (l : Nat) (v : Level) (c : Cur) (key q : Nat) : Nat → LM (Option Nat)
  | 0 => pure none
  | n + 1 => do
    let a ← lmCoord x l v c q
    if key ≤ a then pure (some q) else lmScan x l v c key (q + 1) n

/-- The search of a linked fibre in chain order (R171). -/
def lmSeekChain (x : Ctx) (l : Nat) (v : Level) (key : Nat) : Nat → Cur → LM (Option Cur)
  | 0, _ => pure none
  | fuel + 1, c => do
    let r ← lmScan x l v c key c.pos (c.hi - c.pos)
    match r with
    | some q => pure (some { c with pos := q })
    | none =>
      let base ← lmChunka x l v
      let n ← lmNextChunk x l base (c.lo / 256)
      let ch ← lmChain x l base walkFuel n
      match ch with
      | none => pure none
      | some (k, u) => lmSeekChain x l v key fuel { c with lo := 256 * k, hi := 256 * k + u, pos := 256 * k }

/-- The CSEEK effect on an ordered cursor that is not idle (R171). In a fibre out of order the result is some position at
or after pos, or done (R165). -/
def lmSeek (x : Ctx) (l : Nat) (v : Level) (c : Cur) (key : Nat) : LM Cur := do
  let c := { c with fnd := false }
  let bad ← lmGet (disordered x v c)
  if bad then
    let f ← lmFree
    let k := c.pos + f % (c.hi - c.pos + 1)
    pure (if k < c.hi then { c with pos := k } else { c with done := true })
  else if c.kind = 1 then
    let a := c.pos % v.ext
    let q := c.pos + (key - a)
    pure (if q < c.hi then { c with pos := q } else { c with done := true })
  else if c.kind = 3 then
    let r ← lmSeekChain x l v key walkFuel c
    match r with
    | some d => pure d
    | none => pure { c with done := true }
  else
    let r ← lmScan x l v c key c.pos (c.hi - c.pos)
    match r with
    | some q => pure { c with pos := q }
    | none => pure { c with done := true }

/-! ### Addresses through a cursor (R92) -/

/-- The VA of an access through a cursor at an element index offset and a byte offset (R92). -/
def lmAddr (x : Ctx) (c : BitVec 128) (idx imm : Int) (width : Nat) : LM Nat := do
  let k := Cur.of c
  if k.kind = 0 then lmFault cCursorBound
  else
    let v ← lmLevel x k.handle k.level
    let first : Int := v.vbase + (k.pos + idx) * v.esize + imm
    let last := first + width - 1
    if first < ((v.vbase + k.lo * v.esize : Nat) : Int) || ((v.vbase + k.hi * v.esize : Nat) : Int) ≤ last || 2 ^ 56 - 1 < last then
      lmFault cCursorBound
    else if first.toNat % width != 0 then lmFault cMisaligned
    else pure first.toNat

/-! ### Every lane's part -/

/-- Runs the active lanes' parts in ascending order; a lane that stops changes nothing but the grants it took (R83). -/
def eachLane {α : Type} (f : Nat → LM α) : List Nat → State → List (Nat × Except LStop α) × State
  | [], s => ([], s)
  | l :: t, s =>
    match f l s with
    | .ok (v, s1) =>
      let r := eachLane f t s1
      ((l, .ok v) :: r.1, r.2)
    | .error e =>
      let r := eachLane f t (e.after s)
      ((l, .error e) :: r.1, r.2)

/-- A stop for which the whole pack waits before any lane acts. -/
def LStop.park? (x : Ctx) : LStop → Option Wait
  | .miss va kind => some (.walk x.tm.id.asid (pageOf va) kind)
  | .wait w => some w
  | .grant cycle _ _ _ => some (.grant cycle)
  | .far _ _ => some .far
  | _ => none

/-- The first wait of the lanes' stops. -/
def waitsOf {α : Type} (x : Ctx) (rs : List (Nat × Except LStop α)) : Option Wait :=
  rs.findSome? fun r => match r.2 with | .error e => e.park? x | .ok _ => none

/-- What a stop of a lane does to the machine: a miss joins a walk, a read outside DRAM goes out, a fault or a refusal is reported
(R97, R104, R105, R108). -/
def State.reportStop (s : State) (x : Ctx) : LStop → State
  | .miss va kind => s.addMiss x.tm.core x.tm.id.asid va kind x.gp.spec
  | .xlate va kind c => s.reportXlate va c x.tm.id.asid kind x.tm.core x.gp.spec
  | .refused va kind => s.pushFault va cRefused x.tm.id.asid (if kind = 4 then 0 else kind) x.tm.core
  | .far o n => s.askFar o n
  | .fault _ | .wait _ | .poison | .grant .. => s

/-- Where a lane with a translation fault waits: for the driver's answer; a speculative group's fault is met again once its task
has committed (R105). -/
def faultWait (x : Ctx) (va kind : Nat) : Wait := .xlate x.tm.id.asid (pageOf va) kind

/-- The end of a lane's part; with a translation fault in the pack, lanes that complete park with it (R105). -/
def laneEnd {α : Type} (x : Ctx) (pf : Option Wait) : Except LStop α → LEnd
  | .ok _ => match pf with | some w => .parkNext w | none => .done
  | .error (.xlate va kind _) => .park (faultWait x va kind)
  | .error (.fault c) => .fault c
  | .error (.refused _ _) => .fault cRefused
  | .error (.miss va kind) => .park (.walk x.tm.id.asid (pageOf va) kind)
  | .error (.wait w) => .park w
  | .error (.grant cycle _ _ _) => .park (.grant cycle)
  | .error (.far _ _) => .park .far
  | .error .poison => .stall

/-- The first translation fault's wait. -/
def faultOf? {α : Type} (x : Ctx) (rs : List (Nat × Except LStop α)) : Option Wait :=
  rs.findSome? fun r => match r.2 with | .error (.xlate va kind _) => some (faultWait x va kind) | _ => none

/-- A poisoned byte was read by some lane. -/
def poisonOf {α : Type} (rs : List (Nat × Except LStop α)) : Bool :=
  rs.any fun r => match r.2 with | .error .poison => true | _ => false

/-- The lanes whose part completed, with their answers. -/
def okOf {α : Type} (rs : List (Nat × Except LStop α)) : List (Nat × α) :=
  rs.filterMap fun r => match r.2 with | .ok v => some (r.1, v) | .error _ => none

/-- An instruction whose lanes each do one part: if any lane must wait, the pack waits and nothing has happened, but that grants are
taken (R83); otherwise `fin` acts for the lanes that completed, and every other lane faults or parks (R105, R285). -/
def lanesBody {α : Type} (part : Ctx → Nat → LM α) (fin : Ctx → List (Nat × α) → State → State) : Body := fun x act s =>
  let r := eachLane (part x) act s
  let report := fun (sel : LStop → Bool) (u : State) =>
    r.1.foldl (fun v p => match p.2 with | .error e => if sel e then v.reportStop x e else v | .ok _ => v) u
  match waitsOf x r.1 with
  | some w =>
    ⟨report (fun e => match e with | .miss _ _ | .far _ _ => true | _ => false) (s.keepPaid r.2), allEnd act (.park w), true⟩
  | none =>
    if poisonOf r.1 then ⟨s.killTeam x.run.team cEcc x.pc.toNat, [], true⟩
    else
      let pf := faultOf? x r.1
      ⟨report (fun _ => true) (fin x (okOf r.1) r.2), r.1.map fun p => (p.1, laneEnd x pf p.2), false⟩

/-! ### The source of a copy (R122, R128) -/

/-- Element bytes of a format code (R128). -/
def fmtBytes (f : Nat) : Nat :=
  match f with
  | 1 | 7 => 4
  | 2 | 3 => 2
  | _ => 1

/-- SRCFMT, ROUTINE, ROWS, ROWELEMS and STRIDE of a window descriptor (R128). -/
def descSrc (d0 : BitVec 64) : Nat := (d0.extractLsb' 3 4).toNat
def descDst (d0 : BitVec 64) : Nat := (d0.extractLsb' 7 4).toNat
def descRoutine (d0 : BitVec 64) : Nat := (d0.extractLsb' 11 4).toNat
def descRows (d2 : BitVec 64) : Nat := (d2.extractLsb' 0 16).toNat
def descElems (d2 : BitVec 64) : Nat := (d2.extractLsb' 16 16).toNat
def descStride (d2 : BitVec 64) : Nat := (d2.extractLsb' 32 32).toNat
def descLines (d1 : BitVec 64) : Nat := (d1.extractLsb' 32 14).toNat

/-- A group with nothing in it: one lane's worth of nothing, at user level. -/
def Group.blank : Group :=
  { slot := 0, front := false, finished := false, lanes := [], bsize := 0, xblk := none, loads := 0, stores := 0, copies := 0,
    tiles := 0, toks := [], stklim := 0, fpflags := 0, ffRaised := (0, 0), naninfo := 0, crew := CrewCsr.zero,
    es := ⟨0, false, false, [], none⟩, kwct := 0, wct3 := 0, pathDie := [], pathPkg := [], fences := [], task := none,
    heldTraps := [], lastSq := false, sampled := none, clArr := false, ages := [] }

/-- An engine of a team's core as the maker of accesses for a part of a piece of work: no group and no lane, at user level. -/
def engineCtx (t : Nat) (x : Team) (work part : Nat) : Ctx :=
  ⟨⟨x.core, 9, t, 64 + work, [part], none, 0, [], none⟩, x, Group.blank⟩

/-- Adjacent ranges joined. -/
def joinRanges : List (Nat × Nat) → List (Nat × Nat)
  | (a, n) :: (b, m) :: t =>
    match joinRanges ((b, m) :: t) with
    | (c, k) :: u => if c ≤ a + n ∧ a ≤ c then (a, max n (c + k - a)) :: u else (a, n) :: (c, k) :: u
    | [] => [(a, n)]
  | l => l

/-- The source ranges of a copy on a level (R122), each as base, length, rows and step: the rows it reads, adjoining ones as one
range; where the table could not hold them one by one, the equal rows that lie apart as one entry (log entry 53). -/
def Copy.ranges (z : Copy) (v : Level) : List (Nat × Nat × Nat × Nat) :=
  let c := Cur.of z.cur
  let es := fmtBytes (descSrc z.d0)
  let elems := descElems z.d2
  let all := descRows z.d2 * elems
  let n := match descRoutine z.d0 with
    | 2 | 4 => all
    | _ => min all (cdiv (128 * descLines z.d1) (fmtBytes (if descDst z.d0 = 9 then descSrc z.d0 else descDst z.d0)))
  let rows := cdiv n elems
  let step := descStride z.d2 * v.esize
  let row := fun r => (v.vbase + (c.pos + r * descStride z.d2) * v.esize, (min elems (n - r * elems) - 1) * v.esize + es)
  if c.kind = 0 || n = 0 then []
  else if 64 < rows && (row 0).2 < step then
    [((row 0).1, (row 0).2, rows - 1, step), ((row (rows - 1)).1, (row (rows - 1)).2, 1, 0)]
  else if 64 < rows then [((row 0).1, (row (rows - 1)).1 + (row (rows - 1)).2 - (row 0).1, 1, 0)]
  else (joinRanges ((List.range rows).map row)).map fun r => (r.1, r.2, 1, 0)

/-- The level of a copy's cursor, through the layout-record cache as its engine reads it (R124). -/
def Copy.level (z : Copy) (m : Team) : LM Level := lmLevel (engineCtx z.team m z.id 0) (Cur.of z.cur).handle (Cur.of z.cur).level

/-- The source ranges of a copy; none while the layout record that gives them cannot be read. -/
def State.copyRanges (s : State) (z : Copy) : Option (List (Nat × Nat × Nat × Nat)) :=
  match s.team? z.team with
  | none => none
  | some m => match z.level m s with
    | .ok (v, _) => some (z.ranges v)
    | .error _ => none

/-- Queued copies whose source ranges are not registered register them (R122). -/
def State.lockCopies (s : State) (c : Nat) : State :=
  ((s.core c).copies.filter fun z => !z.locked && z.kind == 0).foldl (fun u z =>
    match u.team? z.team, u.copyRanges z with
    | some m, some l =>
      let u1 := u.modCore c fun k => { k with locks := k.locks ++ l.map fun r =>
        { op := z.id, space := 0, asid := m.id.asid, base := r.1, len := r.2.1, dst := false, rows := r.2.2.1, step := r.2.2.2 } }
      u1.modCore c fun k => { k with copies := k.copies.map fun y => if y.id = z.id then { y with locked := true } else y }
    | _, _ => u) s

/-- How many places in the range-lock table the copies of a set of queued copies take. -/
def State.newRanges (s : State) (c : Nat) : Nat :=
  (((s.core c).copies.filter fun z => !z.locked && z.kind == 0).map fun z => ((s.copyRanges z).getD []).length).foldl (· + ·) 0

/-- What the start of queued copies waits for before their source ranges can be registered (R122): a walk for a layout record, and
the state that has asked for it. Other stops leave the ranges to the first block (log entry 53). -/
def State.copyMiss (s : State) (c : Nat) (new : State) : Option (Wait × State) :=
  ((new.core c).copies.filter fun z => !z.locked && z.kind == 0).findSome? fun z =>
    match new.team? z.team with
    | none => none
    | some m => match z.level m new with
      | .error (.miss va kind) => some (.walk m.id.asid (pageOf va) kind, s.addMiss c m.id.asid va kind false)
      | _ => none

/-- Accesses meet absent lines (R131): the copies of absent windows start, and the pack waits for the lines; where a layout record
is to be walked for, or the range-lock table has no room for the copies' sources, it waits for that first (R122). -/
def State.firstTouch (s : State) (c : Nat) (as : List (Nat × Nat)) (tg g : Nat) (ends : LEnd → List (Nat × LEnd)) : Res :=
  let s1 := as.foldl (fun u p => u.touchAbsent c tg p.1 p.2 g) s
  let n := s1.newRanges c
  match s.copyMiss c s1 with
  | some (w, u) => ⟨u, ends (.park w), true⟩
  | none =>
    if !s.lockRoom c n then ⟨s, ends (.park (.locks n)), true⟩
    else
      let w := as.headD (0, 0)
      ⟨s1.lockCopies c, ends (.park (.line (tg == 1) w.1 w.2)), true⟩

end Sys2Proof.Machine
end

