-- ==== Sys2Proof/Machine/Control.lean ====
section
/-! DEFINITION. Machine/Control.lean: branches, JOIN, EXIT, REP, WAIT, traps, fences and barrier registers (class 011). -/
namespace Sys2Proof.Machine
open Sys2Proof

/-! ### Branches (R29, R296, R298, R301, R382) -/

/-- The stamp after a taken BRA or BRX (R29). -/
def bumpStamp (pc target : BitVec 56) (st : BitVec 16) : BitVec 16 :=
  if target.toNat ≤ pc.toNat && st != 0xFFFF then st + 1 else st

/-- The target of a relative branch. -/
def relTarget (pc : BitVec 56) (off : BitVec 32) : BitVec 56 := pc + off.signExtend 56

/-- Branches to a register: `bump` for BRX, whose backward targets raise the stamp. -/
def regBranch (a : BitVec 8) (bump : Bool) : Body := fun x act s =>
  ⟨s, act.map fun l =>
    let z := x.lane l
    let t := z.get64 x.front a.toNat
    (l, if bits t 56 8 != 0 || t % 8 != 0 then LEnd.fault cMisaligned
        else
          let p := BitVec.ofNat 56 t
          .goto p (if bump then bumpStamp x.pc p z.stamp else z.stamp)), true⟩

/-- BRA (R296). -/
def execBra (h : Hdr) (off : BitVec 32) (s : State) : Host.Outcome State Fault Refusal :=
  issue (.bra h off) (fun x act s =>
    let p := relTarget x.pc off
    ⟨s, act.map fun l => (l, .goto p (bumpStamp x.pc p (x.lane l).stamp)), false⟩) s

/-- BRX (R298). -/
def execBrx (h : Hdr) (a : BitVec 8) (s : State) : Host.Outcome State Fault Refusal := issue (.brx h a) (regBranch a true) s

/-- CALL: the link is PC + 16 and the stamp stays (R301). -/
def execCall (h : Hdr) (d : BitVec 8) (off : BitVec 32) (s : State) : Host.Outcome State Fault Refusal :=
  issue (.call h d off) (fun x act s =>
    let link := (x.pc + 16).toNat
    ⟨act.foldl (fun u l => u.onLane x l fun z => z.put64 x.front d.toNat link) s,
     act.map fun l => (l, .goto (relTarget x.pc off) (x.lane l).stamp), true⟩) s

/-- RET (R382). -/
def execRet (h : Hdr) (a : BitVec 8) (s : State) : Host.Outcome State Fault Refusal := issue (.ret h a) (regBranch a false) s

/-! ### JOIN, EXIT, NOP, WAIT -/

/-- JOIN: each active lane is held with its mask (R32); JOIN_RELEASE lets the lanes go. -/
def execJoin (h : Hdr) (mask : Option (BitVec 8)) (s : State) : Host.Outcome State Fault Refusal :=
  issue (.join h mask) (fun x act s =>
    ⟨s, act.map fun l =>
      (l, .hold (match mask with
        | some a => BitVec.ofNat 32 ((x.lane l).get false a.toNat)
        | none => 0xFFFFFFFF)), true⟩) s

/-- EXIT (R328). -/
def execExit (h : Hdr) (s : State) : Host.Outcome State Fault Refusal :=
  issue (.exit h) (fun _ act s => ⟨s, allEnd act .exit, true⟩) s

/-- NOP (R372). -/
def execNop (h : Hdr) (s : State) : Host.Outcome State Fault Refusal := issue (.nop h) doneBody s

/-- WAIT: the pack parks until the four counters are at or below their bounds; the run ends either way (R402). -/
def execWait (h : Hdr) (l sc c : BitVec 6) (t : BitVec 4) (s : State) : Host.Outcome State Fault Refusal :=
  issue (.wait h l sc c t) (fun x act s =>
    let y := x.gp
    if y.loads ≤ l.toNat && y.stores ≤ sc.toNat && y.copies ≤ c.toNat && y.tiles ≤ t.toNat then ⟨s, [], true⟩
    else ⟨s, allEnd act (.park (.counters l.toNat sc.toNat c.toNat t.toNat)), true⟩) s

/-! ### REP (R275, R276) -/

/-- A step is admitted for a field of the repeated word. -/
def stepOk (front : Bool) (k : FieldKind) (st : BitVec 4) : Bool :=
  (st == 0 || k != .none) && (front || k != .pair || st.toInt % 2 == 0)

/-- The opcodes that may not follow REP (R275): BRA to REP, WAIT to TRET, FENCE, LFENCE, BARV, BWAIT, CLBAR, DQPUSH, DQPOP, LAUNCH,
XACQ and XREL, and the forms of two words. -/
def repNever (op : BitVec 10) : Bool :=
  twoWords op ||
    (op != 0x186 && 0x180 ≤ op.toNat && op.toNat ≤ 0x18A) ||
    ([0x18C, 0x18D, 0x191, 0x192, 0x195, 0x3C0, 0x3C1, 0x3C2, 0x3E0, 0x3E1] : List (BitVec 10)).contains op

/-- Words of an opcode with fewer and fewer of a word's fields, from which the classes of the opcode's fields are read where the word
itself has a wrong field. -/
def repShapes (f : Fields) : List Fields :=
  let h : Hdr := ⟨false, 0, false, 0, 0, false⟩
  [f, { f with h }, { f with h, d := 0, a := 0, b := 0 }, { f with h, d := 0, a := 0, b := 0, c := f.c &&& 0xF00 },
   { f with h, d := 0, a := 0, b := 0, c := 0 }]

/-- An instruction of the word's opcode and form. -/
def repShape (front : Bool) (w : BitVec 64) : Option Instr :=
  (repShapes (Fields.ofWord w)).findSome? fun f => (decodeWords front f.toWord 0).toOption.orElse fun _ =>
    (decodeWords (!front) f.toWord 0).toOption

/-- The steps of a REP are admitted for an instruction. -/
def stepsOk (front : Bool) (r : Roles) (sd sa sb sc : BitVec 4) : Bool :=
  stepOk front r.fd sd && stepOk front r.fa sa && stepOk front r.fb sb && stepOk front r.fc sc

/-- The REP prefix accepts the word that follows (R275): its opcode is assigned, not removed (R279), and may follow REP, and the steps
are for fields that name registers. A word that is illegal for another reason traps at its first repetition. -/
def repOk (s : State) (front : Bool) (w : BitVec 64) (sd sa sb sc : BitVec 4) : Bool :=
  !repNever (Fields.ofWord w).op && (match decodeWords front w 0 with | .error .unassigned => false | _ => true) &&
    (match repShape front w with
     | some i => (i.roles front).feats.all s.feat && stepsOk front (i.roles front) sd sa sb sc
     | none => true)

/-- REP: the pack goes on at repetition 0 of the next word (R276). -/
def execRep (n : BitVec 6) (sd sa sb sc : BitVec 4) (s : State) : Host.Outcome State Fault Refusal :=
  issue (.rep n sd sa sb sc) (fun x act s =>
    match s.fetchWord x.tm x.gp (x.pc + 8) with
    | .ok w s1 =>
      if repOk s x.front w sd sa sb sc then ⟨s1, allEnd act .repStart, false⟩
      else ⟨s1, allEnd act (.fault cIllegal), true⟩
    | .miss =>
      ⟨s.addMiss x.tm.core x.tm.id.asid (x.pc + 8).toNat 3 x.gp.spec,
       allEnd act (.park (.walk x.tm.id.asid (pageOf (x.pc + 8).toNat) 3)), true⟩
    | .fault c =>
      ⟨s.reportXlate (x.pc + 8).toNat c x.tm.id.asid 3 x.tm.core x.gp.spec,
       allEnd act (.park (.xlate x.tm.id.asid (pageOf (x.pc + 8).toNat) 3)), true⟩
    | .trap c => ⟨s.pushRefused (x.pc + 8).toNat c x.tm.id.asid 3 x.tm.core, allEnd act (.fault c), true⟩
    | .wait w => ⟨s, allEnd act (.park w), true⟩
    | .poison => ⟨s.killTeam x.run.team cEcc x.pc.toNat, [], true⟩) s

/-! ### TRAP and TRET (R236, R238, R398, R399) -/

/-- TRAP: user-trap for every active lane (R398). -/
def execTrap (h : Hdr) (code : BitVec 12) (s : State) : Host.Outcome State Fault Refusal :=
  issue (.trap h code) (fun _ act s => ⟨s, allEnd act (.fault cUser), true⟩) s

/-- A frame word of a lane in the 512 bytes read back. -/
def frameWord (bs : List (BitVec 8)) (k l : Nat) : BitVec 32 := BitVec.ofNat 32 (leNat ((bs.drop (128 * k + 4 * l)).take 4))

/-- A frame read back is one that TRET accepts (R236). -/
def frameOk (f : Frame) (w0 w1 w2 w3 : BitVec 32) : Bool :=
  let st := (w1.extractLsb' 24 2).toNat
  w0.extractLsb' 0 3 == 0 && (st == (f.w1.extractLsb' 24 2).toNat || st == 3) &&
    (f.w1.getLsbD 27 || !w1.getLsbD 27) && w1.getLsbD 26 == f.w1.getLsbD 26 &&
    w1.extractLsb' 28 4 == f.w1.extractLsb' 28 4 && w2 == f.w2 && w3 == f.w3

/-- A lane restored from its frame (R238). -/
def frameRestore (f : Frame) (w0 w1 w2 : BitVec 32) (x : Lane) : Lane :=
  { x with
    pc := w1.extractLsb' 0 24 ++ w0
    stamp := w2.extractLsb' 0 16
    jmask := f.jm
    held := f.held
    rep := if w1.getLsbD 27 then some (w2.extractLsb' 16 6).toNat else none
    st := match (w1.extractLsb' 24 2).toNat with
      | 3 => .exited
      | 2 => .held
      | _ => .eligible }

/-- An EVWAIT of a lane that does not go back to its instruction is dropped (R238, R326). -/
def State.dropEvwaits (s : State) (t g : Nat) : State :=
  match s.grp? t g with
  | none => s
  | some y =>
    let gone := s.ops.filter fun o => o.team == t && o.grp == g && o.kind == .evwait &&
      !((y.lane o.lane).st == .eligible && (y.lane o.lane).pc == o.pc)
    gone.foldl (fun u o => u.decTok? t g o.tok) { s with ops := s.ops.filter fun o => !(gone.contains o) }

/-- A lane that does not go back to the counted instruction it holds a part of gives it up (R81, R238). -/
def State.dropHeld (s : State) (t g : Nat) : State :=
  match s.grp? t g with
  | none => s
  | some y => s.releaseAll t g (y.lanesWith fun x => (x.tokAt x.pc x.rep).isNone || x.st == .exited)

/-- A frame with nothing in it. -/
def Frame.zero : Frame := ⟨0, none, 0, 0, 0, 0⟩

/-- The read of line `k` of a group's frames at a target outside DRAM (R97, R238). -/
def State.frameRead (s : State) (x : Ctx) (k : Nat) (e : TlbE) : Op := Op.mk0 x (low x.run.lanes) .far (s.frameVa x.tm x.run.grp k) e 128

/-- What the reads of the frames at targets outside DRAM still wait for, or the refusal that one has met. -/
def State.frameFar (s : State) (x : Ctx) (es : List TlbE) : Option (LStop × Nat) :=
  (List.range 4).findSome? fun k => match es[k]? with
    | some e =>
      if regionOf (e.phys (s.frameVa x.tm x.run.grp k)) = .dram then none
      else match lmFar (s.frameRead x k e) 128 s with
        | .ok _ => none
        | .error q => some (q, s.frameVa x.tm x.run.grp k)
    | none => none

/-- The return from a handler (R238): frames read and checked, every lane restored, user level again. -/
def State.trapReturn (s : State) (c : Ctx) (es : List TlbE) : State :=
  let t := c.run.team
  let g := c.run.grp
  let x := c.tm
  let y := c.gp
  let rd := (List.range 4).foldl (fun (acc : List (BitVec 8) × State) k =>
    match es[k]? with
    | some e =>
      let pa := e.phys (s.frameVa x g k)
      if regionOf pa = .dram then
        let r := acc.2.loadBytes x.core pa 128 e.attr true
        (acc.1 ++ r.1, r.2)
      else (acc.1 ++ (s.farOps (s.frameRead c k e) 128).flatMap fun p => leBytes p.width p.data.toNat, acc.2)
    | none => acc) ([], s)
  let ok := (List.range 32).all fun l =>
    frameOk (y.es.frames.getD l Frame.zero) (frameWord rd.1 0 l) (frameWord rd.1 1 l) (frameWord rd.1 2 l) (frameWord rd.1 3 l)
  if !ok then rd.2.killTeam t cDouble (y.lane 0).pc.toNat
  else
    ((rd.2.modGrp t g fun z =>
      { z with
        es := { z.es with inh := false, sup := false }
        fences := z.fences.filter fun f => f.lanes.isEmpty
        ages := []
        lanes := (List.range z.lanes.length).map fun l =>
          frameRestore (y.es.frames.getD l Frame.zero) (frameWord rd.1 0 l) (frameWord rd.1 1 l) (frameWord rd.1 2 l)
            (z.lane l) }).dropEvwaits t g).dropHeld t g

/-- A frame's line has a poisoned byte (R241). -/
def State.framePoisoned (s : State) (x : Team) (g : Nat) (es : List TlbE) : Bool :=
  (List.range 4).any fun k => match es[k]? with
    | some e => regionOf (e.phys (s.frameVa x g k)) == .dram && s.poisoned (e.phys (s.frameVa x g k)) 128
    | none => false

/-- TRET (R399): a pack that is not whole is a double fault; the frames are read after the handler's stores to them. -/
def execTret (h : Hdr) (s : State) : Host.Outcome State Fault Refusal :=
  issue (.tret h) (fun x act s =>
    let t := x.run.team
    let g := x.run.grp
    let c := x.tm.core
    let a := x.tm.id.asid
    if x.run.lanes.length != x.gp.lanes.length then ⟨s.killTeam t cDouble x.pc.toNat, [], true⟩
    else
      match s.frameXlate x.tm g 0 x.gp.sup with
      | .miss va => ⟨s.addMiss c a va 0 false, allEnd act (.park (.frame a (pageOf va) 0)), true⟩
      | .fault va k => ⟨s.reportXlate va k a 0 c false, allEnd act (.park (.frame a (pageOf va) 0)), true⟩
      | .bad v k => ⟨(s.pushRefused v k a 0 c).killTeam t cDouble x.pc.toNat, [], true⟩
      | .ok es =>
        if s.frameBusy x.tm t g es then ⟨s, allEnd act (.park (.laneOps s.nextId)), true⟩
        else if s.framePoisoned x.tm g es then ⟨s.killTeam t cEcc x.pc.toNat, [], true⟩
        else match s.frameFar x es with
          | none => ⟨(s.trapReturn x es).dropFar t g x.run.lanes, allEnd act .keep, true⟩
          | some (.far o n, _) => ⟨s.askFar o n, allEnd act (.park .far), true⟩
          | some (e, va) => ⟨(match e with | .refused _ _ => s.pushFault va cRefused a 0 c | _ => s).killTeam t cDouble x.pc.toNat, [], true⟩) s

/-! ### Fences (R115, R124) -/

/-- FENCE (R115). -/
def execFence (h : Hdr) (sc : BitVec 3) (s : State) : Host.Outcome State Fault Refusal :=
  issue (.fence h sc) (afterFence sc.toNat false doneBody) s

/-- LFENCE: the group's stores are performed at .die, then the core's layout-record cache is emptied (R124). -/
def execLfence (h : Hdr) (s : State) : Host.Outcome State Fault Refusal :=
  issue (.lfence h) (afterFence 3 false fun x _ s => ⟨s.modCore x.tm.core fun c => { c with lrc := [] }, [], false⟩) s

/-! ### Barrier registers (R134, R135, R291, R294, R295, R299, R300) -/

/-- BINIT (R294): it takes effect with the cycle's other updates, before them, and clears the wait parities of the register. -/
def execBinit (h : Hdr) (n : BitVec 4) (a b : BitVec 8) (s : State) : Host.Outcome State Fault Refusal :=
  issue (.binit h n a b) (fun x act s =>
    let z := x.lane (low act)
    ⟨s.barUpdate x.run.team n.toNat
      (.init (BitVec.ofNat 8 (z.get x.front a.toNat)) (BitVec.ofNat 32 (z.get x.front b.toNat))), [], false⟩) s

/-- BARV: a release at .team of the pack's own accesses, then the arrival; the stamps are reset (R291, R34, R29). -/
def execBarv (h : Hdr) (n : BitVec 4) (s : State) : Host.Outcome State Fault Refusal :=
  issue (.barv h n) (afterFence 1 true fun x act s =>
    ⟨(act.foldl (fun u l => u.onLane x l fun z => { z with stamp := 0 }) s).barUpdate x.run.team n.toNat (.arrive x.run.grp),
      [], false⟩) s

/-- BWAIT (R299). -/
def execBwait (h : Hdr) (n : BitVec 4) (s : State) : Host.Outcome State Fault Refusal :=
  issue (.bwait h n) (fun x act s =>
    let b := x.tm.bar n.toNat
    if b.cfail then ⟨s, allEnd act (.fault cCopyFailed), true⟩
    else if b.nprod then ⟨s, allEnd act (.fault cNever), true⟩
    else
      let go := fun l => (x.lane l).wpar.getLsbD n.toNat != b.phase
      let s1 := (act.filter go).foldl (fun u l => u.onLane x l fun z =>
        { z with wpar := if b.phase then z.wpar ||| BitVec.ofNat 16 (2 ^ n.toNat)
                         else z.wpar &&& ~~~(BitVec.ofNat 16 (2 ^ n.toNat)) }) s
      ⟨s1, act.map fun l => (l, if go l then LEnd.done else .park (.barrier n.toNat)), false⟩) s

/-- BXPC (R300). -/
def execBxpc (h : Hdr) (n : BitVec 4) (a b : BitVec 8) (s : State) : Host.Outcome State Fault Refusal :=
  issue (.bxpc h n a b) (fun x act s =>
    let z := x.lane (low act)
    ⟨s.barUpdate x.run.team n.toNat (.expect (z.get x.front a.toNat % 256) (z.get x.front b.toNat % 2 ^ 32)), [], false⟩) s

/-- A barrier register's two words (R134). -/
def Bar.word (b : Bar) (hi : Bool) : Nat :=
  if hi then b.expb.toNat + 2 ^ 32 * b.arrb.toNat
  else
    b.expa.toNat + 2 ^ 8 * b.arra.toNat + 2 ^ 16 * b2n b.phase + 2 ^ 17 * b2n b.nprod + 2 ^ 18 * b2n b.cfail +
      2 ^ 19 * b.cfcause.toNat + 2 ^ 22 * b.arrmask.toNat + 2 ^ 55 * b.cfcode.toNat

/-- BQRY (R295). -/
def execBqry (h : Hdr) (d : BitVec 8) (n : BitVec 4) (w : Bool) (s : State) : Host.Outcome State Fault Refusal :=
  issue (.bqry h d n w) (laneBody fun x _ z => z.put64 x.front d.toNat ((x.tm.bar n.toNat).word w)) s

/-- CLBAR: the group arrives in the cluster phase, its pack's stamps are reset, and it parks until the swap (R310). -/
def execClbar (h : Hdr) (s : State) : Host.Outcome State Fault Refusal :=
  issue (.clbar h) (fun x act s =>
    let s1 := s.onGrp x fun y => { y with clArr := true }
    ⟨act.foldl (fun u l => u.onLane x l fun z => { z with stamp := 0 }) s1, allEnd act (.park .clbar), true⟩) s

end Sys2Proof.Machine
end

