-- ==== Sys2Proof/Machine/Chrysalis.lean ====
section
/-! DEFINITION. Machine/Chrysalis.lean: the Chrysalis core of a copy engine (R136): its address map, the entry of a routine, the
faults, and the run of a routine on one block. What one RV64 instruction does is `Config.rvReads` and `Config.rvExec`. -/
namespace Sys2Proof.Machine
open Sys2Proof

/-- The memory that a routine works on: the input buffer, the output buffer and the scratch memory, by offset, and the code of every
slot. -/
structure RvMem where
  input   : List (BitVec 8)
  out     : Mem
  scratch : Mem
  code    : List (List (BitVec 8))
  /-- The use of the free-value counter that the bytes which R136 does not set depend on. -/
  use     : Nat
  deriving DecidableEq, Repr

/-- The regions of the address map (R136). -/
inductive RvRegion where
  | input | output | scratch
  deriving DecidableEq, Repr

/-- The region that holds an access of data; code is execute-only, and any other address a routine fault (R136). -/
def rvRegion (a n : Nat) : Option RvRegion :=
  if 0x10000000 ≤ a ∧ a + n ≤ 0x10001000 then some .input
  else if 0x10001000 ≤ a ∧ a + n ≤ 0x10002000 then some .output
  else if 0x30000000 ≤ a ∧ a + n ≤ 0x30004000 then some .scratch
  else none

/-- A byte of memory. -/
def RvMem.byte (m : RvMem) (a : Nat) : BitVec 8 :=
  if a < 0x10001000 then m.input.getD (a - 0x10000000) (Config.rvStale m.use a)
  else if a < 0x10002000 then (match m.out.find? fun p => p.1 == a - 0x10001000 with
    | some p => p.2
    | none => Config.rvStale m.use a)
  else m.scratch.read (a - 0x30000000)

/-- The value at an address. -/
def RvMem.load (m : RvMem) (a n : Nat) : Nat := leNat ((List.range n).map fun k => m.byte (a + k))

/-- An access may be made: aligned, in the map, and not a store to the input buffer (R136). -/
def rvOk (store : Bool) (q : RvAcc) : Bool :=
  q.width != 0 && q.addr % q.width == 0 &&
    (match rvRegion q.addr q.width with
     | some .input => !store
     | some _ => true
     | none => false)

/-- The output buffer as a list of bytes that have been written, by offset. -/
def rvPut (l : Mem) (a : Nat) (b : BitVec 8) : Mem := (a, b) :: l.filter fun p => p.1 != a

/-- A store is made. -/
def RvMem.store (m : RvMem) (q : RvAcc) : RvMem :=
  match rvRegion q.addr q.width with
  | some .output =>
    { m with out := (List.range q.width).foldl (fun l k => rvPut l (q.addr - 0x10001000 + k) (BitVec.ofNat 8 (q.val / 256 ^ k))) m.out }
  | some .scratch => { m with scratch := m.scratch.writeN (q.addr - 0x30000000) (leBytes q.width q.val) }
  | _ => m

/-- The 16 bits of code at an address: those of a slot that its image does not reach are zero; none outside the code of the slots or
at an odd address (R136). -/
def RvMem.code16 (m : RvMem) (a : Nat) : Option Nat :=
  if 0x20000000 ≤ a ∧ a < 0x20040000 ∧ a % 2 = 0 then
    let o := a % 0x4000
    let c := m.code.getD ((a - 0x20000000) / 0x4000) []
    some ((c.getD o 0).toNat + 256 * (c.getD (o + 1) 0).toNat)
  else none

/-- The instruction word at an address: 16 bits where its two lowest are not both 1. -/
def RvMem.fetch (m : RvMem) (a : Nat) : Option Nat :=
  (m.code16 a).bind fun h => if h % 4 = 3 then (m.code16 (a + 2)).map fun g => h + 65536 * g else some h

/-- ECALL, EBREAK and the compressed EBREAK. -/
def rvCalls (w : Nat) : Bool := w == 0x00000073 || w == 0x00100073 || w == 0x9002

/-- One instruction of a routine: registers and memory after it, or none for a routine fault. -/
def rvStep (n : Nat) (r : Rv) (m : RvMem) : Option (Rv × RvMem) :=
  match m.fetch r.pc with
  | none => none
  | some w =>
    if rvCalls w then none
    else match Config.rvReads r w with
      | none => none
      | some rs =>
        if !rs.all (rvOk false) then none
        else
          let e := Config.rvExec n r w (rs.map fun q => m.load q.addr q.width)
          if !e.2.all (rvOk true) then none
          else some ({ e.1 with x := e.1.x.setIfInBounds 0 0 }, e.2.foldl RvMem.store m)

/-- How a routine ends on a block: it returns, with the bytes of output in a0; it faults; or it runs on past the time that it has. -/
inductive RvEnd where
  | back (n : Nat) (m : RvMem)
  | fault (m : RvMem)
  | late
  deriving DecidableEq, Repr

/-- A routine runs until it returns to the stop address, for so many instructions at most. -/
def rvRun : Nat → Rv → RvMem → RvEnd
  | 0, _, _ => .late
  | n + 1, r, m =>
    if r.pc = Config.rvStop.toNat then .back (r.x.getD 10 0).toNat m
    else match rvStep (m.use + n) r m with
      | none => .fault m
      | some p => rvRun n p.1 p.2

/-- The registers with which a slot's routine is entered for a block (R136): the count of source bytes, the block index, the stop
address, and the window descriptor's words in CSRs 0x800 to 0x803. -/
def rvStart (use slot count block : Nat) (desc : List (BitVec 64)) : Rv :=
  let e := Config.rvEntry use
  { e with
    x := ((((e.x.setIfInBounds 0 0).setIfInBounds 1 Config.rvStop).setIfInBounds 10 (BitVec.ofNat 64 count)).setIfInBounds 11
      (BitVec.ofNat 64 block))
    pc := 0x20000000 + 0x4000 * slot
    csr := ((List.range 4).map fun k => (0x800 + k, desc.getD k 0)) ++ e.csr.filter fun p => !(0x800 ≤ p.1 && p.1 < 0x804)
    resv := none }

end Sys2Proof.Machine
end

