-- ==== Sys2Proof/Machine/Memory.lean ====
section
/-! DEFINITION. Machine/Memory.lean: loads, stores, atomics, cache control and event words (R288 to R290, R306, R324 to R327,
R343 to R346, R377, R390 to R393, R405). -/
namespace Sys2Proof

/-- Bytes of an access width (R270). -/
def Width.bytes : Width → Nat
  | .b8 => 1
  | .b16 => 2
  | .b32 => 4
  | .b64 => 8

end Sys2Proof

namespace Sys2Proof.Machine
open Sys2Proof

/-! ### Shared operations -/

/-- Lanes of the issuing pack take their parts of the instruction, which a counter counts once (R81). -/
def State.takeParts (s : State) (x : Ctx) (k : Nat) (counted : Bool) (lanes : List Nat) : State :=
  if lanes.isEmpty then s
  else
    let r := (s.releaseAll x.run.team x.run.grp lanes).newTokOf x.run.team x.run.grp k lanes.length counted
    lanes.foldl (fun u l => u.onLane x l fun z => { z with held := some ⟨r.1, x.pc, x.run.rep.map (·.ix)⟩ }) r.2

/-- What an access waits for at issue: another pack's fence (R115), an acquire of the lane (R118), and room in the counter that
counts it (R81). The lanes that `sel` selects are counted; a lane that comes back to the instruction holds its part already. A
store that `buf` says is buffered is counted at the commit (R121). -/
def accessOf (k : Nat) (buf : Ctx → Bool) (sel : Ctx → Nat → Bool) (b : Body) : Body := fun x act s =>
  match x.groupFence? act with
  | some id => ⟨s, allEnd act (.park (.fence id)), true⟩
  | none =>
    if act.any (s.acqPending x) then ⟨s, allEnd act (.park (.laneOps s.nextId)), true⟩
    else
      let new := act.filter fun l => sel x l && ((x.lane l).tokAt x.pc (x.run.rep.map (·.ix))).isNone
      if !new.isEmpty && !buf x && ctrMax k ≤ x.gp.ctr k then ⟨s, allEnd act (.park (.room k)), true⟩
      else b x act (s.takeParts x k (!buf x) new)

/-- An access that is counted for every active lane. -/
def access (k : Nat) (b : Body) : Body := accessOf k (fun _ => false) (fun _ _ => true) b

/-- A global or private store: a speculative group buffers it (R121, R223). -/
def storeAccess (b : Body) : Body := accessOf 1 (fun x => x.gp.spec) (fun _ _ => true) b

/-- An access that no counter counts. -/
def uncounted (b : Body) : Body := accessOf 0 (fun _ => false) (fun _ _ => false) b

/-- An access that an instruction starts for a lane: the operation, and the registers that receive its value. -/
abbrev Start := Op × List PReg

/-- The token of the lane's counted instruction. -/
def State.laneTok (s : State) (x : Ctx) (l : Nat) : Option Nat :=
  match s.grp? x.run.team x.run.grp with
  | some y => (y.lane l).held.map (·.tok)
  | none => none

/-- The lane's counted instruction has one part more outstanding. -/
def State.lanePart (s : State) (x : Ctx) (l : Nat) : Option Nat × State :=
  match s.laneTok x l with
  | some k => (some k, s.addPart x.run.team x.run.grp k)
  | none => (none, s)

/-- Accesses start, each a part of its lane's counted instruction (R81); values come back as asynchronous writebacks. -/
def State.start (s : State) (x : Ctx) (l : List Start) : State :=
  l.foldl (fun u p =>
    let r := u.lanePart x p.1.lane
    if p.2.isEmpty then r.2.addOp { p.1 with tok := r.1 }
    else
      let q := r.2.addPend x.run.team x.run.grp p.1.lane (p.2.map fun g => (g, 0)) false r.1
      q.2.addOp { p.1 with tok := r.1, pend := some q.1 }) s

/-- The buffered bytes a speculative group's load returns (R121, R223): bytes and their mask. -/
def Group.bufBytes (y : Group) (pa n : Nat) : BitVec 64 × BitVec 64 :=
  match y.task with
  | none => (0, 0)
  | some k =>
    let hit := fun (i : Nat) (st : BufSt) => st.pa ≤ pa + i && pa + i < st.pa + st.width
    ((List.range n).foldl (fun (acc : BitVec 64 × BitVec 64) i =>
      match k.buf.reverse.find? (hit i) with
      | some st =>
        (acc.1 ||| BitVec.ofNat 64 ((st.data.extractLsb' (8 * (pa + i - st.pa)) 8).toNat * 2 ^ (8 * i)),
         acc.2 ||| BitVec.ofNat 64 (255 * 2 ^ (8 * i)))
      | none => acc) (0, 0))

/-- The registers of a load's destination (R343). -/
def destRegs (d : BitVec 8) (w : Width) : List PReg :=
  match w with
  | .b64 => [.g d.toNat, .g (d.toNat + 1)]
  | _ => [.g d.toNat]

/-- The data of a store (R390). -/
def storeData (z : Lane) (d : BitVec 8) (w : Width) : BitVec 64 :=
  match w with
  | .b64 => BitVec.ofNat 64 (z.get64 false d.toNat)
  | _ => BitVec.ofNat 64 (z.get false d.toNat % 2 ^ (8 * w.bytes))

/-- A lane's address in global memory, its range-lock check and its translation (R92, R122, R102). -/
def globalPart (c : BitVec 3) (b : BitVec 8) (imm : BitVec 12) (n kind : Nat) (lock : Bool) (x : Ctx) (l : Nat) :
    LM (Nat × TlbE) := do
  let z := x.lane l
  let va ← lmAddr x (z.cur c.toNat) (signed (z.get false b.toNat) 32) imm.toInt n
  lmStopIf (fun s => lock && s.lockHit x.tm.core 0 x.tm.id.asid va n (kind != 0)) fun _ => .fault cRangeLock
  let r ← lmXlate x va kind n
  pure (va, r.1)

/-- The address and translation of a private access: pieces of the lane's words with their bytes (R93, R94). -/
def privPart (b : BitVec 8) (imm : BitVec 12) (n kind : Nat) (x : Ctx) (l : Nat) : LM (List (Nat × TlbE × Nat)) := do
  let off : Int := ((x.lane l).get false b.toNat : Nat) + imm.toInt
  let limit : Nat := if x.gp.es.inh then x.tm.id.priv * 4 else x.gp.stklim.toNat
  if off < 0 || (limit : Int) < off + n then lmFault cStack
  else
    let o := off.toNat
    if o % n != 0 then lmFault cMisaligned
    else
      let word := fun (k : Nat) => do
        let base ← lmGet fun s => s.privVa x.tm x.run.grp (o / 4 + k)
        let va := base + 4 * l + (if n = 8 then 0 else o % 4)
        let r ← lmXlate x va kind (min n 4)
        pure (va, r.1, min n 4)
      if n = 8 then
        let a ← word 0
        let c ← word 1
        pure [a, c]
      else
        let a ← word 0
        pure [a]

/-- A store of a speculative group is buffered (R121, R223); more than 512 lines wait for the verdict. -/
def lmBuffer (x : Ctx) (l : Nat) (priv : Bool) (va : Nat) (e : TlbE) (n : Nat) (data : BitVec 64) (rel : Option Nat) : LM Unit := do
  lmMod fun s =>
    let r := s.lanePart x l
    let st : BufSt := { lane := l, priv, va, pa := e.phys va, width := n, data, attr := e.attr, rel, tok := r.1, id := s.nextId }
    r.2.onGrp x fun y => { y with task := y.task.map fun k => { k with buf := k.buf ++ [st] } }
  lmStopIf (fun s => match s.grp? x.run.team x.run.grp with
    | some y => (match y.task with | some k => 512 < k.lines | none => false)
    | none => false) fun _ => .wait .verdict

/-- A load of an address that has been translated. -/
def mkLoad (x : Ctx) (l va : Nat) (e : TlbE) (n : Nat) (priv sext : Bool) (acq : Option Nat) : Op :=
  let o := Op.mk0 x l .load va e n
  let ov := x.gp.bufBytes o.pa n
  { o with priv, sext, acq := acq.isSome, scope := acq.getD 0, data := ov.1, cmp := ov.2 }

/-! ### Global loads and stores (R344, R391) -/

/-- LD (R344). -/
def execLd (h : Hdr) (w : Width) (sx : Bool) (ord : Option (BitVec 3)) (d : BitVec 8) (cur : BitVec 3) (b : BitVec 8)
    (imm : BitVec 12) (s : State) : Host.Outcome State Fault Refusal :=
  issue (.ld h w sx ord d cur b imm) (access 0 (lanesBody (globalPart cur b imm w.bytes 0 true) fun x oks u =>
    u.start x (oks.map fun p =>
      (mkLoad x p.1 p.2.1 p.2.2 w.bytes false sx (ord.map (·.toNat)), destRegs d w)))) s

/-- A lane's part of ST: its address, and in a speculative group the buffering. -/
def stPart (w : Width) (ord : Option (BitVec 3)) (d : BitVec 8) (cur : BitVec 3) (b : BitVec 8) (imm : BitVec 12)
    (x : Ctx) (l : Nat) : LM (Nat × TlbE) := do
  let r ← globalPart cur b imm w.bytes 1 true x l
  if x.gp.spec then lmBuffer x l false r.1 r.2 w.bytes (storeData (x.lane l) d w) (ord.map (·.toNat))
  pure r

/-- ST's stores start. -/
def stBody (w : Width) (ord : Option (BitVec 3)) (d : BitVec 8) (cur : BitVec 3) (b : BitVec 8) (imm : BitVec 12) : Body :=
  lanesBody (stPart w ord d cur b imm) fun x oks u =>
    if x.gp.spec then u
    else u.start x (oks.map fun p =>
      ({ Op.mk0 x p.1 .store p.2.1 p.2.2 w.bytes with
          data := storeData (x.lane p.1) d w, rel := ord.isSome, scope := (ord.map (·.toNat)).getD 0 }, []))

/-- A release fence before a body, which a speculative group leaves to its commit (R118, R121). -/
def released (ord : Option (BitVec 3)) (b : Body) : Body := fun x act s =>
  match ord with
  | some sc => if x.gp.spec then b x act s else afterFence sc.toNat false b x act s
  | none => b x act s

/-- ST (R391). -/
def execSt (h : Hdr) (w : Width) (ord : Option (BitVec 3)) (d : BitVec 8) (cur : BitVec 3) (b : BitVec 8) (imm : BitVec 12)
    (s : State) : Host.Outcome State Fault Refusal :=
  issue (.st h w ord d cur b imm) (released ord (storeAccess (stBody w ord d cur b imm))) s

/-! ### Private loads and stores (R345, R392) -/

/-- LDP (R345): a 64-bit access reads two words 128 bytes apart (R94). -/
def execLdp (h : Hdr) (w : Width) (sx : Bool) (d b : BitVec 8) (imm : BitVec 12) (s : State) :
    Host.Outcome State Fault Refusal :=
  issue (.ldp h w sx d b imm) (access 0 (lanesBody (privPart b imm w.bytes 0) fun x oks u =>
    u.start x (oks.flatMap fun p =>
      (List.range p.2.length).filterMap fun i =>
        (p.2[i]?).map fun q => (mkLoad x p.1 q.1 q.2.1 q.2.2 true sx none, [PReg.g (d.toNat + i)])))) s

/-- A lane's part of STP. -/
def stpPart (w : Width) (d b : BitVec 8) (imm : BitVec 12) (x : Ctx) (l : Nat) : LM (List (Nat × TlbE × Nat × BitVec 64)) := do
  let ps ← privPart b imm w.bytes 1 x l
  let data := storeData (x.lane l) d w
  let qs := (List.range ps.length).filterMap fun i =>
    (ps[i]?).map fun q => (q.1, q.2.1, q.2.2, BitVec.ofNat 64 (bits data.toNat (32 * i) (8 * q.2.2)))
  if x.gp.spec then
    for q in qs do
      lmBuffer x l true q.1 q.2.1 q.2.2.1 q.2.2.2 none
  pure qs

/-- STP (R392). -/
def execStp (h : Hdr) (w : Width) (d b : BitVec 8) (imm : BitVec 12) (s : State) : Host.Outcome State Fault Refusal :=
  issue (.stp h w d b imm) (storeAccess (lanesBody (stpPart w d b imm) fun x oks u =>
    if x.gp.spec then u
    else u.start x (oks.flatMap fun p => p.2.map fun q =>
      ({ Op.mk0 x p.1 .store q.1 q.2.1 q.2.2.1 with data := q.2.2.2, priv := true }, [])))) s

/-! ### Store-pool loads and stores (R91, R131, R346, R393) -/

/-- A lane's offset in a store, or its fault (R91, R122). -/
def poolAddr (s : State) (x : Ctx) (tg : Nat) (b : BitVec 8) (imm : BitVec 12) (n : Nat) (store : Bool) (l : Nat) :
    Except Nat Nat :=
  let a : Int := ((x.lane l).get false b.toNat : Nat) + imm.toInt
  if a < 0 || ((s.core x.tm.core).carveBytes tg : Int) < a + n then .error cStoreBound
  else if a.toNat % n != 0 then .error cMisaligned
  else if s.lockHit x.tm.core (spaceOf tg) 0 a.toNat n store then .error cRangeLock
  else .ok a.toNat

/-- A store-pool access (R109: performed at issue): every line of every lane must be present (R131), and `ok` acts for
the lanes that do not fault. `block` says when a speculative group must wait for its verdict. -/
def poolBody (tg n : Nat) (b : BitVec 8) (imm : BitVec 12) (store : Bool) (block : Ctx → State → Nat → Bool)
    (ok : Ctx → List (Nat × Nat) → State → State) : Body := fun x act s =>
  let c := x.tm.core
  let at_ := act.map fun l => (l, poolAddr s x tg b imm n store l)
  let oks := at_.filterMap fun p => match p.2 with | .ok a => some (p.1, a) | .error _ => none
  let wait := oks.filter fun p => !s.poolReady c tg p.2 n x.run.team x.run.grp
  if !wait.isEmpty then s.firstTouch c (wait.map fun p => (p.2, n)) tg x.run.grp (allEnd act)
  else
    if oks.any (fun p => block x s p.2) then ⟨s, allEnd act (.park .verdict), true⟩
    else
      ⟨ok x oks s, at_.map fun p => (p.1, match p.2 with | .ok _ => LEnd.done | .error c => .fault c), false⟩

/-- MFLD (R353, R196). -/
def execMfld (h : Hdr) (d b : BitVec 8) (imm : BitVec 12) (tag : BitVec 2) (w16 : Bool) (s : State) :
    Host.Outcome State Fault Refusal :=
  issue (.mfld h d b imm tag w16) (uncounted fun x act s =>
    let c := x.tm.core
    let tg := tag.toNat
    let base : Int := ((x.lane (low act)).get false b.toNat : Nat) + imm.toInt
    let a := base.toNat
    if base % 32 ≠ 0 then ⟨s, allEnd act (.fault cMisaligned), true⟩
    else if base < 0 ∨ (s.core c).carveBytes tg < a + 1024 then ⟨s, allEnd act (.fault cStoreBound), true⟩
    else if s.dstLocked c (spaceOf tg) 0 a 1024 then ⟨s, allEnd act (.fault cRangeLock), true⟩
    else if !s.poolReady c tg a 1024 x.run.team x.run.grp then
      s.firstTouch c [(a, 1024)] tg x.run.grp (allEnd act)
    else
      let tile := s.poolRead c tg a 1024
      asyncBody (fun _ l _ => (List.range 8).map fun k => (PReg.g (d.toNat + k), (mfldLane w16 tile l).getD k 0)) x act s) s

/-- A loaded value as a register receives it: zero- or sign-extended (R343). -/
def extendLoad (sx : Bool) (n v : Nat) : Nat := if sx then wrap (signed v (8 * n)) 32 else v

/-- LDS (R346). -/
def execLds (h : Hdr) (w : Width) (sx : Bool) (tag : BitVec 2) (d b : BitVec 8) (imm : BitVec 12) (s : State) :
    Host.Outcome State Fault Refusal :=
  issue (.lds h w sx tag d b imm) (access 0 (poolBody tag.toNat w.bytes b imm false (fun _ _ _ => false) fun x oks u =>
    oks.foldl (fun v p =>
      let val := extendLoad sx w.bytes (leNat (u.poolRead x.tm.core tag.toNat p.2 w.bytes))
      let r := v.lanePart x p.1
      (r.2.addPend x.run.team x.run.grp p.1 (fillRegs ((destRegs d w).map fun r => (r, 0)) val) true r.1).2) u)) s

/-- The buffer window that a speculative group's store falls in and may write (R223): one it owns, or an empty one. -/
def State.ownWin (s : State) (x : Ctx) (tg a n : Nat) : Option Nat :=
  match s.team? x.run.team with
  | none => none
  | some m =>
    m.wins.findSome? fun p =>
      if p.2.store == tg && p.2.buffer && p.2.off ≤ a && a + n ≤ p.2.off + p.2.bytes &&
          (p.2.owner == some x.run.grp || (p.2.owner.isNone && p.2.st == .empty)) then some p.1 else none

/-- A window becomes the task's (R223). -/
def State.takeWin (s : State) (x : Ctx) (w : Nat) : State :=
  (s.setWin x.run.team w fun z => { z with owner := some x.run.grp }).onGrp x fun y =>
    { y with task := y.task.map fun k => if k.owned.contains w then k else { k with owned := w :: k.owned } }

/-- A lane of the pack still waits for the value of a load or atomic (R111). -/
def State.loadsPending (s : State) (x : Ctx) (l : Nat) : Bool :=
  s.ops.any fun o => o.team == x.run.team && o.grp == x.run.grp && o.lane == l &&
    (o.kind == .load || (o.kind == .atomic && o.pend.isSome))

/-- The identity translation of an access that has none. -/
def TlbE.flat : TlbE := ⟨0, 0, 0, 0, true, true, false, true, 0, false, false, 0⟩

/-- STS (R393): performed after the lane's earlier loads have their values (R111). -/
def execSts (h : Hdr) (w : Width) (tag : BitVec 2) (d b : BitVec 8) (imm : BitVec 12) (s : State) :
    Host.Outcome State Fault Refusal :=
  issue (.sts h w tag d b imm) (access 1 fun x act s =>
    if act.any (s.loadsPending x) then ⟨s, allEnd act (.park (.laneOps s.nextId)), true⟩
    else
      poolBody tag.toNat w.bytes b imm true
        (fun x s a => x.gp.spec && (s.ownWin x tag.toNat a w.bytes).isNone)
        (fun x oks u => State.start (oks.foldl (fun v p =>
          let v1 := if x.gp.spec then (match v.ownWin x tag.toNat p.2 w.bytes with | some k => v.takeWin x k | none => v) else v
          v1.poolWrite x.tm.core tag.toNat p.2 (leBytes w.bytes (storeData (x.lane p.1) d w).toNat)) u) x
          (oks.map fun p => (Op.mk0 x p.1 .sts p.2 TlbE.flat w.bytes, []))) x act s) s

/-- A lane's part of XST (R405): the receiver's cluster position and the offset. -/
def xstPart (w : Width) (b : BitVec 8) (imm : BitVec 12) (x : Ctx) (l : Nat) : LM (Nat × Nat) := do
  let g := (x.lane l).get false b.toNat
  let a : Int := ((bits g 0 28 : Nat) : Int) + imm.toInt
  let c := x.tm.id.clw * x.tm.id.clh
  if !x.tm.id.exch || a < 0 || 0x8000 < a + w.bytes then lmFault cStoreBound
  else if a.toNat % w.bytes != 0 then lmFault cMisaligned
  else pure ((x.tm.id.pos + 1 + bits g 28 4) % c, a.toNat)

/-- XST (R405): each store goes, after the lane's earlier loads have their values (R111), to the receiver's shadow bank; one
issued after the group has arrived in the phase is held until the swap. -/
def execXst (h : Hdr) (w : Width) (d b : BitVec 8) (imm : BitVec 12) (s : State) : Host.Outcome State Fault Refusal :=
  issue (.xst h w d b imm) (access 1 fun x act s =>
    if act.any (s.loadsPending x) then ⟨s, allEnd act (.park (.laneOps s.nextId)), true⟩
    else
      lanesBody (xstPart w b imm) (fun x oks u => u.start x (oks.map fun p =>
        ({ Op.mk0 x p.1 .xst p.2.1 TlbE.flat w.bytes with
            pa := p.2.2, data := storeData (x.lane p.1) d w, hold := x.gp.clArr }, []))) x act s) s

/-! ### Atomics (R288 to R290) -/

/-- The operation word of ATOM (R288). -/
def atomWord (w64 : Bool) (d : BitVec 8) (z : Lane) : Nat := z.get false (d.toNat + (if w64 then 4 else 2))

/-- The lane's ATOM returns its old value. -/
def atomReturns (w64 : Bool) (d : BitVec 8) (z : Lane) : Bool := !bit (atomWord w64 d z) 4

/-- A lane's part of ATOM (R289): the operation word, the address, and the operations the host window takes (R290). -/
def atomPart (w64 : Bool) (d : BitVec 8) (cur : BitVec 3) (b : BitVec 8) (imm : BitVec 12) (x : Ctx) (l : Nat) :
    LM (Nat × TlbE) := do
  let o := atomWord w64 d (x.lane l)
  let opc := bits o 0 4
  if bits o 5 27 != 0 || 11 ≤ opc || (opc = 10 && w64) then lmFault cIllegal
  else
    let r ← globalPart cur b imm (if w64 then 8 else 4) 2 true x l
    if regionOf (r.2.phys r.1) = .host && !(opc = 0 || opc = 8 || opc = 9) then lmStop (.refused r.1 2) else pure r

/-- ATOM (R289). -/
def execAtom (h : Hdr) (w64 acq rel : Bool) (sc : BitVec 3) (d : BitVec 8) (cur : BitVec 3) (b : BitVec 8) (imm : BitVec 12)
    (s : State) : Host.Outcome State Fault Refusal :=
  issue (.atom h w64 acq rel sc d cur b imm) (fun x act s =>
    let ctr := if act.any (fun l => atomReturns w64 d (x.lane l)) then 0 else 1
    released (if rel then some sc else none) (access ctr (lanesBody (atomPart w64 d cur b imm) fun x oks u =>
      u.start x (oks.map fun p =>
        let z := x.lane p.1
        let v := if w64 then z.get64 false d.toNat else z.get false d.toNat
        let c := if w64 then z.get64 false (d.toNat + 2) else z.get false (d.toNat + 1)
        ({ Op.mk0 x p.1 .atomic p.2.1 p.2.2 (if w64 then 8 else 4) with
            data := BitVec.ofNat 64 v, cmp := BitVec.ofNat 64 c, opc := bits (atomWord w64 d z) 0 4, scope := sc.toNat,
            acq, rel },
         if atomReturns w64 d z then destRegs d (if w64 then .b64 else .b32) else [])))) x act s) s

/-! ### Cache control and presence (R306, R377) -/

/-- A prefetch's address (R306): none where it would fault, which is not recorded. One that no TLB translates waits for a walk, of kind
5, unless the page tables as they stand give it a fault (log entry 144). -/
def prefetchPart (cur : BitVec 3) (b : BitVec 8) (imm : BitVec 12) (x : Ctx) (l : Nat) : LM (Option (Nat × TlbE)) := fun s =>
  match globalPart cur b imm 1 0 false x l s with
  | .ok (r, s1) => .ok (some r, s1)
  | .error (.miss va k) =>
    (match s.lookup x.tm.core x.tm.id.asid va k x.gp.sup with
     | .ok _ => .error (.miss va 5)
     | .error _ => .ok (none, s))
  | .error (.xlate _ _ _) | .error (.fault _) | .error (.refused _ _) => .ok (none, s)
  | .error e => .error e

/-- A lane's part of CCTL: the operation and the translated address, or nothing for a prefetch that is dropped. A prefetch waits
until the homes of its line and of the line that leaves the L1 for it answer (R100, R258). -/
def cctlPart (d : BitVec 8) (cur : BitVec 3) (b : BitVec 8) (imm : BitVec 12) (x : Ctx) (l : Nat) :
    LM (Option (Nat × TlbE)) := do
  let o := (x.lane l).get false d.toNat
  let opc := bits o 0 3
  if bits o 3 1 != 0 || bits o 6 26 != 0 || 5 ≤ opc then lmFault cIllegal
  else if opc ≤ 2 then
    let r ← globalPart cur b imm 1 0 false x l
    pure (some r)
  else
    let r ← prefetchPart cur b imm x l
    match r with
    | none => pure none
    | some (va, e) =>
      let pa := e.phys va
      if regionOf pa = .dram then
        lmOpen x e pa
        lmStopIf (fun s => opc == 4 && 3 ≤ e.alloc && !s.fillOpen x.tm.core (pa / 128)) fun s =>
          .wait ((s.fillWait x.tm.core (pa / 128)).getD .far)
      pure r

/-- EVP of a line, in the L1 and the L2 where present (R96, R306). -/
def State.setEvp (s : State) (c line evp : Nat) : State :=
  (s.modCore c fun z => { z with l1 := z.l1.map fun y => if y.line = line then { y with evp } else y }).modDie (dieOf c)
    fun z => { z with l2 := z.l2.map fun y => if y.line = line then { y with evp } else y }

/-- A lane's CCTL takes effect on a DRAM line: EVP and prefetches at once (R306). -/
def cctlNow (x : Ctx) (d : BitVec 8) (u : State) (p : Nat × Option (Nat × TlbE)) : State :=
  let o := (x.lane p.1).get false d.toNat
  match p.2 with
  | none => u
  | some (va, e) =>
    let line := e.phys va / 128
    if regionOf (e.phys va) ≠ .dram then u
    else
      match bits o 0 3 with
      | 0 => u.setEvp x.tm.core line (bits o 4 2)
      | 3 => if e.alloc ≥ 2 then u.l2Serve (dieOf x.tm.core) (e.phys va) e.attr else u
      | 4 => if e.alloc ≥ 3 && !(match (u.core x.tm.core).l1Find line with | some z => decide (u.time < z.lease) | none => false) then
               u.l1Fetch x.tm.core line e.attr false
             else if e.alloc ≥ 2 then u.l2Serve (dieOf x.tm.core) (e.phys va) e.attr else u
      | _ => u

/-- An operation word of CCTL that STORES counts: CLEAN and DROP (R80). -/
def cctlCounted (o : Nat) : Bool := bits o 0 3 == 1 || bits o 0 3 == 2

/-- CCTL (R306): CLEAN and DROP write the line's dirty sectors as stores of the lane. -/
def execCctl (h : Hdr) (d : BitVec 8) (cur : BitVec 3) (b : BitVec 8) (imm : BitVec 12) (s : State) :
    Host.Outcome State Fault Refusal :=
  issue (.cctl h d cur b imm) (accessOf 1 (fun _ => false) (fun x l => cctlCounted ((x.lane l).get false d.toNat)) (lanesBody (cctlPart d cur b imm) fun x oks u =>
    (oks.foldl (cctlNow x d) u).start x (oks.filterMap fun p =>
      let opc := bits ((x.lane p.1).get false d.toNat) 0 3
      match p.2 with
      | some (va, e) =>
        if cctlCounted opc then some ({ Op.mk0 x p.1 .clean (va / 128 * 128) e 128 with opc }, []) else none
      | none => none))) s

/-- PRSQ (R377). -/
def execPrsq (h : Hdr) (d : BitVec 8) (cur : BitVec 3) (b : BitVec 8) (imm : BitVec 12) (s : State) :
    Host.Outcome State Fault Refusal :=
  issue (.prsq h d cur b imm) (access 0 (lanesBody (globalPart cur b imm 1 4 false) fun x oks u =>
    u.start x (oks.map fun p => (Op.mk0 x p.1 .presence p.2.1 p.2.2 1, [PReg.g d.toNat])))) s

/-! ### Event words (R324 to R327) -/

/-- A front thread's address in a scalar register (R277, R325). -/
def frontPart (a : BitVec 8) (n kind : Nat) (x : Ctx) (l : Nat) : LM (Nat × TlbE) := do
  let va := (x.lane l).get true a.toNat % 2 ^ 56
  if va % n != 0 then lmFault cMisaligned
  else
    lmStopIf (fun s => s.lockHit x.tm.core 0 x.tm.id.asid va n (kind != 0)) fun _ => .fault cRangeLock
    let r ← lmXlate x va kind n
    pure (va, r.1)

/-- The adds of EVSIG start (R325). -/
def evsigFin (sc : Nat) (val : Ctx → Nat → Nat) (x : Ctx) (oks : List (Nat × (Nat × TlbE))) (u : State) : State :=
  u.start x (oks.map fun p =>
    ({ Op.mk0 x p.1 .atomic p.2.1 p.2.2 8 with data := BitVec.ofNat 64 (val x p.1), opc := 0, scope := sc, rel := true }, []))

/-- EVSIG (R325). -/
def execEvsig (h : Hdr) (d : BitVec 8) (cur sc : BitVec 3) (b : BitVec 8) (imm : BitVec 12) (s : State) :
    Host.Outcome State Fault Refusal :=
  issue (.evsig h d cur sc b imm) (released (some sc) (access 1 (lanesBody (globalPart cur b imm 8 2 true)
    (evsigFin sc.toNat fun x l => (x.lane l).get false d.toNat)))) s

/-- EVSIG of the front thread, at .sys (R324, R325). -/
def execEvsigFront (h : Hdr) (d a : BitVec 8) (s : State) : Host.Outcome State Fault Refusal :=
  issue (.evsigFront h d a) (released (some 5#3) (access 1 (lanesBody (frontPart a 8 2)
    (evsigFin 5 fun x l => (x.lane l).get true d.toNat)))) s

/-- An EVWAIT of a lane at this instruction that is in flight already (R326, R238). -/
def State.evwaitOf (s : State) (x : Ctx) (l : Nat) : Option Op :=
  s.ops.find? fun o => o.kind == .evwait && o.team == x.run.team && o.grp == x.run.grp && o.lane == l && o.pc == x.pc &&
    o.rep == x.run.rep.map (·.ix)

/-- EVWAIT waits (R326): each lane's event word is read by EVWAIT_REPOLL until it reaches the threshold; the operation keeps
the threshold and the destination. A lane that comes
back to the instruction keeps its count. -/
def evwaitBody (part : Ctx → Nat → LM (Nat × TlbE)) (sc : Nat) (d : BitVec 8) (th : Ctx → Nat → Nat) : Body := fun x act s =>
  let r := lanesBody part (fun x oks u =>
    let old := oks.filter fun p => (u.evwaitOf x p.1).isSome
    let new := oks.filter fun p => (u.evwaitOf x p.1).isNone
    let mk := fun (p : Nat × (Nat × TlbE)) =>
      { Op.mk0 x p.1 .evwait p.2.1 p.2.2 8 with data := BitVec.ofNat 64 (th x p.1), cmp := d.setWidth 64, scope := sc, acq := true }
    let u1 := old.foldl (fun v p => { v with ops := v.ops.map fun o =>
      if (some o == v.evwaitOf x p.1) then { mk p with id := o.id, tok := o.tok } else o }) u
    u1.start x (new.map fun p => (mk p, []))) x act s
  { r with
    ends := r.ends.map fun p => match p.2, r.st.evwaitOf x p.1 with
      | .done, some o => (p.1, .park (.event o.id))
      | .parkNext _, some o => (p.1, .park (.event o.id))
      | e, _ => (p.1, e)
    stop := true }

/-- EVWAIT (R326). -/
def execEvwait (h : Hdr) (d : BitVec 8) (cur sc : BitVec 3) (b : BitVec 8) (imm : BitVec 12) (s : State) :
    Host.Outcome State Fault Refusal :=
  issue (.evwait h d cur sc b imm) (access 0 (evwaitBody (globalPart cur b imm 8 0 true) sc.toNat d
    fun x l => (x.lane l).get64 false d.toNat)) s

/-- EVWAIT of the front thread, at .sys (R324, R326). -/
def execEvwaitFront (h : Hdr) (d a : BitVec 8) (s : State) : Host.Outcome State Fault Refusal :=
  issue (.evwaitFront h d a) (access 0 (evwaitBody (frontPart a 8 0) 5 d fun x l => (x.lane l).get true d.toNat)) s

end Sys2Proof.Machine
end

