-- ==== Sys2Proof/Machine/Copies.lean ====
section
/-! DEFINITION. Machine/Copies.lean: region windows, the copy engine, its standard routines and the exchange banks
(R123, R125, R128 to R133, R136 to R138, R310, R383, R384, R397, R404, R405, R420). -/
namespace Sys2Proof.Machine
open Sys2Proof

/-! ### Once for the pack -/

/-- An instruction whose one part is the lowest active lane's: a stop of that lane is every active lane's (R62, R285). -/
def onceBody {α : Type} (part : Ctx → Nat → LM α) (fin : Ctx → List Nat → α → State → Res) : Body := fun x act s =>
  match part x (low act) s with
  | .ok (v, s1) => fin x act v s1
  | .error .poison => ⟨s.killTeam x.run.team cEcc x.pc.toNat, [], true⟩
  | .error e => ⟨(e.after s).reportStop x e, allEnd act (laneEnd (α := α) x none (.error e)), true⟩

/-! ### RGNSET (R128, R129, R384) -/

/-- SBLK, CBLK and AUX of a descriptor (R128). -/
def descSblk (d0 : BitVec 64) : Nat := 32 * 2 ^ (d0.extractLsb' 22 2).toNat
def descCblk (d0 : BitVec 64) : Nat := 256 * 2 ^ (d0.extractLsb' 19 3).toNat
def descAux (d3 : BitVec 64) : Nat := (d3.extractLsb' 0 23).toNat
def descStore (d0 : BitVec 64) : Nat := (d0.extractLsb' 0 2).toNat
def descOff (d1 : BitVec 64) : Nat := (d1.extractLsb' 0 23).toNat

/-- The bytes S of one output of routine 2 (R420). -/
def dualBytes (d0 d2 : BitVec 64) : Nat :=
  let n := descRows d2 * descElems d2
  128 * cdiv (n * fmtBytes (descDst d0)) 128 + 128 * cdiv (2 * cdiv n (descSblk d0)) 128

/-- A declared window of the core other than window `w` of team `t` overlaps an interval of a store (R68, R129). -/
def State.otherWin (s : State) (c t w tag a n : Nat) : Bool :=
  (s.winsOver c tag a n).any fun p => !(p.1 == t && p.2.1 == w)

/-- An interval of a store overlaps the core's exchange area (R404). -/
def State.onExch (s : State) (c tag a n : Nat) : Bool := tag == 1 && (s.exchTeam c).isSome && overlaps 0 0x10000 a n

/-- Bytes of a store that a window may occupy: in the carve, clear of the other windows and of the exchange area (R129). -/
def State.winSpace (s : State) (c t w tag a n : Nat) : Bool :=
  a + n ≤ (s.core c).carveBytes tag && !s.otherWin c t w tag a n && !s.onExch c tag a n

/-- A format code RGNSET takes: 0 to 8, and 9 as a destination in the W-store; code 8 only with the D2 feature (R128,
R246). -/
def State.fmtOk (s : State) (d0 : BitVec 64) : Bool :=
  let src := descSrc d0
  let dst := descDst d0
  src ≤ 8 && dst ≤ 9 && (dst != 9 || descStore d0 == 0) && (s.feat 3 || (src != 8 && dst != 8))

/-- A descriptor is valid (R129). -/
def State.descOk (s : State) (c t w : Nat) (d0 d1 d2 d3 : BitVec 64) : Bool :=
  let buffer := d0.getLsbD 2
  d0.extractLsb' 24 40 == 0 && d1.extractLsb' 23 9 == 0 && d1.extractLsb' 46 18 == 0 && d3.extractLsb' 23 41 == 0 &&
    descStore d0 ≤ 1 && (d0.extractLsb' 19 3).toNat ≤ 4 && (d0.extractLsb' 22 2).toNat ≤ 2 && s.fmtOk d0 &&
    descOff d1 % 128 == 0 && descLines d1 != 0 &&
    s.winSpace c t w (descStore d0) (descOff d1) (128 * descLines d1) &&
    (buffer || (descRows d2 != 0 && descElems d2 != 0 &&
      (descRoutine d0 != 2 ||
        (descAux d3 % 128 == 0 && s.winSpace c t w (descStore d0) (descAux d3) (dualBytes d0 d2)))))

/-- The descriptor read of RGNSET (R384): 32 bytes as loads of the lane. -/
def rgnsetPart (cd : BitVec 3) (b : BitVec 8) (imm : BitVec 12) (x : Ctx) (l : Nat) : LM (List (BitVec 8)) := do
  let z := x.lane l
  let va ← lmAddr x (z.cur cd.toNat) (signed (z.get false b.toNat) 32) imm.toInt 32
  lmStopIf (fun s => s.lockHit x.tm.core 0 x.tm.id.asid va 32 false) fun _ => .fault cRangeLock
  let (e, pa) ← lmXlate x va 0 32
  lmStopIf (fun s => s.ops.any fun o => o.before x l pa 32 false) fun s => .wait (.laneOps s.nextId)
  lmFetch x l va e 32 .load

/-- A window as RGNSET leaves it (R130). -/
def winNew (cur : BitVec 128) (d0 d1 d2 d3 : BitVec 64) : Win :=
  let w : Win := { st := .absent, cur, d0, d1, d2, d3, pres := 0, f := false, level := 0, stag := none, owner := none, unsent := 0 }
  if w.buffer then { w with st := .empty, pres := w.allPres } else w

/-- RGNSET (R384). -/
def execRgnset (h : Hdr) (w : BitVec 5) (cd ca : BitVec 3) (b : BitVec 8) (imm : BitVec 12) (s : State) :
    Host.Outcome State Fault Refusal :=
  issue (.rgnset h w cd ca b imm) (fun x act s =>
    if !s.winFree x.tm w.toNat 0 then ⟨s, allEnd act (.park (.window w.toNat 0)), true⟩
    else
      access 0 (onceBody (rgnsetPart cd b imm) fun x act bs u =>
        let d := fun (k : Nat) => BitVec.ofNat 64 (leNat ((bs.drop (8 * k)).take 8))
        if u.descOk x.tm.core x.run.team w.toNat (d 0) (d 1) (d 2) (d 3) then
          let v := winNew ((x.lane (low act)).cur ca.toNat) (d 0) (d 1) (d 2) (d 3)
          ⟨u.onTeam x fun m => { m with wins := m.wins.set w.toNat v }, [], false⟩
        else ⟨u, allEnd act (.fault cWinInvalid), true⟩) x act s) s

/-! ### RGNCLR and TOUCH (R130, R383, R397) -/

/-- Changes a queued copy of a core. -/
def State.modCopy (s : State) (c id : Nat) (f : Copy → Copy) : State :=
  s.modCore c fun z => { z with copies := z.copies.map fun y => if y.id = id then f y else y }

/-- A copy leaves the engine: its ranges are released and its counter falls (R81, R122). -/
def State.endCopy (s : State) (c : Nat) (z : Copy) : State :=
  let s1 := ((s.unlock c z.id).dropFarOf z.team (64 + z.id)).modCore c fun k =>
    { k with copies := k.copies.filter fun y => y.id != z.id }
  match z.tok with
  | some p => s1.decTok z.team p.1 p.2
  | none => s1

/-- A copy starts no further block; one without blocks in flight leaves at once (R130). -/
def State.abandonCopy (s : State) (c : Nat) (z : Copy) : State :=
  if z.inflight.isEmpty then s.endCopy c z else s.modCopy c z.id fun y => { y with abandoned := true }

/-- The copies of a window are abandoned (R130). -/
def State.abandonWin (s : State) (c t w : Nat) : State :=
  ((s.core c).copies.filter fun z => z.kind == 0 && z.team == t && z.win == w && !z.abandoned).foldl
    (fun u z => u.abandonCopy c z) s

/-- A lane parked on lines of a window that is undeclared stays parked on them until a later window sets their bits (R383). -/
def State.orphanLane (s : State) (t g : Nat) (p : Nat × Nat × Win) (l : Lane) : Lane :=
  match l.st with
  | .parked (.line isX a n) =>
    let lo := max a p.2.2.off
    if p.2.2.store == b2n isX && overlaps p.2.2.off p.2.2.bytes a n && !s.winReady a n t g p then
      { l with st := .parked (.orphan isX lo (min (a + n) (p.2.2.off + p.2.2.bytes) - lo)) }
    else l
  | _ => l

/-- A window becomes undeclared (R383). -/
def State.undeclare (s : State) (c t w : Nat) : State :=
  match (s.team? t).bind fun x => x.win? w with
  | none => s
  | some z =>
    let mark := fun (q : Nat × Team) => { q.2 with grps := q.2.grps.map fun r =>
      (r.1, { r.2 with lanes := r.2.lanes.map (s.orphanLane q.1 r.1 (t, w, z)) }) }
    State.modTeam { s with teams := s.teams.map fun q => if q.2.core = c then (q.1, mark q) else q } t fun m => { m with wins := m.wins.erase w }

/-- What RGNCLR does to a window that is free for it (R130, R383): its copies are abandoned, it becomes absent and, where the
instruction says so, undeclared. -/
def State.clearWin (s : State) (c t w : Nat) (und : Bool) : State :=
  let s1 := (s.abandonWin c t w).setWin t w fun z => { z with st := .absent, level := 0, stag := none }
  if und then s1.undeclare c t w else s1

/-- RGNCLR (R383). -/
def execRgnclr (h : Hdr) (w : BitVec 5) (und : Bool) (s : State) : Host.Outcome State Fault Refusal :=
  issue (.rgnclr h w und) (fun x act s =>
    let t := x.run.team
    match x.tm.win? w.toNat with
    | none => ⟨s, allEnd act (.fault cUndeclared), true⟩
    | some _ =>
      if !s.winFree x.tm w.toNat 1 then ⟨s, allEnd act (.park (.window w.toNat 1)), true⟩
      else
        match x.tm.entryOf w.toNat with
        | some e =>
          if e.header || x.tm.delivering e then ⟨s, allEnd act (.park (.cancel w.toNat)), true⟩
          else
            ⟨(s.cancelEntry t e).clearWin x.tm.core t w.toNat und, [], false⟩
        | none => ⟨s.clearWin x.tm.core t w.toNat und, [], false⟩) s

/-- TOUCH (R397): the copy is queued, counted for the issuer, its source ranges registered (R122). -/
def execTouch (h : Hdr) (w : BitVec 5) (s : State) : Host.Outcome State Fault Refusal :=
  issue (.touch h w) (fun x act s =>
    let t := x.run.team
    let g := x.run.grp
    match x.tm.win? w.toNat with
    | none => ⟨s, allEnd act (.fault cUndeclared), true⟩
    | some z =>
      if z.buffer || z.st == .filling || z.st == .predicted then ⟨s, [], false⟩
      else if !s.winFree x.tm w.toNat 2 then ⟨s, allEnd act (.park (.window w.toNat 2)), true⟩
      else if ctrMax 2 ≤ x.gp.copies then ⟨s, allEnd act (.park (.room 2)), true⟩
      else
        let (tok, s1) := s.newTok t g 2 1
        let s2 := s1.startCopy t w.toNat (some (g, tok)) g
        let n := s2.newRanges x.tm.core
        match s.copyMiss x.tm.core s2 with
        | some (w, u) => ⟨u, allEnd act (.park w), true⟩
        | none =>
          if s.lockRoom x.tm.core n then ⟨s2.lockCopies x.tm.core, [], false⟩
          else ⟨s, allEnd act (.park (.locks n)), true⟩) s

/-! ### Blocks (R123, R132) -/

/-- The destination bytes of a copy. -/
def Copy.bytes (z : Copy) : Nat := 128 * descLines z.d1

/-- Its blocks. -/
def Copy.blocks (z : Copy) : Nat := cdiv z.bytes (descCblk z.d0)

/-- The next block a copy starts: the lowest that is neither written nor in flight. -/
def Copy.nextBlock (z : Copy) : Option Nat :=
  if z.kind != 0 || z.abandoned then none
  else (List.range z.blocks).find? fun k => !(z.done.contains k || z.inflight.any fun p => p.1 == k)

/-- The stores that the starting group issued before the copy was queued are in flight (R123). -/
def State.copyWaits (s : State) (z : Copy) : Bool :=
  s.ops.any fun o => o.team == z.team && o.grp == z.grp && o.id < z.cut && !o.priv &&
    (o.kind == .store || o.kind == .atomic || o.kind == .clean)

/-- Before its first block a copy has the starting group's dirty bytes written back, and waits for their write completion
time (R123). -/
def State.copyHold (s : State) (c : Nat) (z : Copy) : State :=
  let s1 := s.writeBackAll c z.team z.grp
  match s1.grp? z.team z.grp with
  | none => s1.modCopy c z.id fun y => { y with hold := some 0 }
  | some g => s1.modCopy c z.id fun y => { y with hold := some g.kwct }

/-- The read of a copy's layout record is asked for where it must be waited for. -/
def State.copyAsk (s : State) (c : Nat) (z : Copy) : Option State :=
  match s.team? z.team with
  | none => none
  | some m => match z.level m s with
    | .error (.miss va kind) => some (s.addMiss (256 + c) m.id.asid va kind false)
    | .error (.far o n) => some (s.askFar o n)
    | .error (.wait _) => some s
    | _ => none

/-- COPY_BLOCK_START (R132): the next block of the oldest copy that has one, at most 8 in flight; none on a core that drains or has
halted (R86). Source ranges that could not be read when the copy was queued are registered before its first block (R122): a layout
record that is to be walked for or that lies outside DRAM is asked for. -/
def execCopyBlockStart (core : Nat) (s0 : State) : Host.Outcome State Fault Refusal :=
  let fits := s0.lockRoom core (s0.newRanges core)
  let s := if fits then s0.lockCopies core else s0
  let n := ((s.core core).copies.map fun z => z.inflight.length).foldl (· + ·) 0
  .next (match (s.core core).copies.find? fun z => z.nextBlock.isSome with
  | none => s
  | some z =>
    if 8 ≤ n || !fits || s.copyWaits z || (s.core core).pre != 0 then s
    else match (if z.locked then none else s.copyAsk core z) with
    | some u => u
    | none =>
      match z.hold, z.nextBlock with
      | none, _ => if s.pubOpen core then s.copyHold core z else s
      | some t, some k =>
        if s.time ≤ t then s
        else s.modCopy core z.id fun y => { y with inflight := y.inflight ++ [(k, s.time, none)] }
      | _, none => s)

/-! ### Formats and routines (R128, R137, R150) -/

/-- The value of an element of a format code. -/
def fmtValue (f x : Nat) : FV :=
  match f with
  | 1 => FF.f32.decode x
  | 2 => FF.f16.decode x
  | 3 => FF.bf16.decode x
  | 4 => FF.e4m3.decode x
  | 5 => FF.e5m2.decode x
  | 6 => fvOfInt (signed x 8)
  | 7 => fvOfInt (signed x 32)
  | _ => d2Decode (x % 256)

/-- The floating-point format of a code. -/
def fmtFF (f : Nat) : Option FF :=
  match f with
  | 1 => some .f32
  | 2 => some .f16
  | 3 => some .bf16
  | 4 => some .e4m3
  | 5 => some .e5m2
  | _ => none

/-- An element converted between formats (R142, R144, R150); raw bytes have no conversion. -/
def fmtConv (rm src dst x : Nat) : Nat :=
  let v := fmtValue src x
  match fmtFF dst with
  | some f => (f.conv rm v).1
  | none =>
    match dst with
    | 0 => x
    | 6 => wrap (toIntB rm (-128) 127 v).1 8
    | 7 => wrap (toIntB rm (-(2 ^ 31)) (2 ^ 31 - 1) v).1 32
    | _ => (d2Conv v).1

/-- An element of a format that is passed on: a NaN becomes the canonical one (R142). -/
def fmtCanon (f x : Nat) : Nat := if (fmtValue f x).isNan then fmtConv 0 f f x else x

/-- The quantiser's name for a destination code of routine 2. -/
def fmtQ (f : Nat) : QFmt :=
  match f with
  | 4 => .q4m3
  | 5 => .q5m2
  | 6 => .qi8
  | _ => .qd2

/-- The code a copy runs is a standard routine: bank 0 of slots 0 to 6 until an installation writes it (R137, R259). -/
def State.copyStd (s : State) (z : Copy) : Bool :=
  z.bank == 0 && (s.routines.getD (descRoutine z.d0) Routine.empty).standard

/-- The installed code a copy runs. -/
def State.copyCode (s : State) (z : Copy) : List (BitVec 8) :=
  let r := s.routines.getD (descRoutine z.d0) Routine.empty
  if z.bank = 0 then r.bank0 else r.bank1

/-- A copy's routine meets routine-fault at once (R136, R137, R420): slots 5 and 6, an empty slot, a precondition. -/
def State.routineBad (s : State) (z : Copy) : Bool :=
  let src := descSrc z.d0
  let dst := descDst z.d0
  let k := descRoutine z.d0
  if k = 5 ∨ k = 6 then true
  else if s.copyStd z then
    match k with
    | 0 => src != dst
    | 1 => src == 0 || dst == 0 || dst == 9
    | 2 => z.bytes < dualBytes z.d0 z.d2 || !(src == 1 || src == 3) || !(dst == 4 || dst == 5 || dst == 6 || dst == 8)
    | 3 => dst != 9
    | _ => false
  else (s.copyCode z).isEmpty

/-- A copy engine's translation and physical check of source bytes, as master 256 + core with user rights (R104, R107, R123,
R128). -/
def copyXlate (x : Ctx) (va n : Nat) : LM TlbE := fun s =>
  match s.xlate x.tm.core x.tm.id.asid va 0 false with
  | .miss => .error (.miss va 0)
  | .fault c => .error (.xlate va 0 c)
  | .ok e =>
    match s.physCheck (256 + x.tm.core) 0 (e.phys va) n false with
    | some c => .error (if c = cRefused then .refused va 0 else .fault c)
    | none => .ok (e, s)

/-- The targets at which a copy's read of an address takes grants (R82): the slices that lack the line pass it on. -/
def State.copyTargets (s : State) (c : Nat) (e : TlbE) (pa : Nat) : List Nat :=
  let d := dieOf c
  let line := pa / 128
  match regionOf pa with
  | .dram =>
    let low := l3Target pa :: (if s.l3Has line then [] else [dramTarget pa])
    if e.alloc < 2 then low
    else l2Target d (s.sliceOf d pa) :: (if ((s.die d).l2Find line).isSome then [] else low)
  | .link => match s.linkPort pa with | some p => [linkTarget p] | none => []
  | _ => []

/-- The 128-byte line that a block's read moves takes its part of a copy grant of 256 bytes once for the block, or waits for the next
core cycle (R82, R83, R132). -/
def copyGrant (x : Ctx) (e : TlbE) (va : Nat) : LM Unit := fun s =>
  let pa := e.phys va
  match s.payLine (x.work (low x.run.lanes)) (pa / 128) 0 x.tm.core 128 256 (s.copyTargets x.tm.core e pa) with
  | some s1 => .ok ((), s1)
  | none => .error s.noGrant

/-- Bytes of one source element, read at the L2 by the copy engine (R123, R128). -/
def copyRead (x : Ctx) (va n : Nat) : LM Nat := do
  let e ← copyXlate x va n
  copyGrant x e va
  let b ← lmFetch x (low x.run.lanes) va e n .l2
  pure (leNat b)

/-- Source element `e` of a copy (R128): row and column of the source, at the cursor's index. -/
def copyElem (x : Ctx) (z : Copy) (e : Nat) : LM Nat := do
  let es := fmtBytes (descSrc z.d0)
  let r := e / descElems z.d2
  let j := e % descElems z.d2
  let va ← lmAddr x z.cur ((r * descStride z.d2 + j : Nat) : Int) 0 es
  copyRead x va es

/-- Elements read in turn. -/
def copyElems (x : Ctx) (z : Copy) : List Nat → LM (List Nat)
  | [] => pure []
  | e :: t => do
    let a ← copyElem x z e
    let r ← copyElems x z t
    pure (a :: r)

/-- The source elements whose values a block of routine 2 needs, by the scales and elements of its bytes (R420): those of the
scale blocks that the block of the row-blocked output touches, and for the last block all of them (log entry 57). -/
def Copy.dualNeeds (z : Copy) (k : Nat) (last : Bool) : List Nat :=
  let n := descRows z.d2 * descElems z.d2
  let es := fmtBytes (descDst z.d0)
  let bl := descSblk z.d0
  let o := k * descCblk z.d0
  let hi := o + descCblk z.d0
  let e := 128 * cdiv (n * es) 128
  let touched := fun (i : Nat) => (i * bl * es < hi && o < (i + 1) * bl * es) || (e + 2 * i < hi && o < e + 2 * i + 2)
  if last then List.range n
  else ((List.range (cdiv n bl)).filter touched).flatMap fun i => (List.range (min bl (n - i * bl))).map (i * bl + ·)

/-- The elements with these numbers that exist in the source. -/
def Copy.range (z : Copy) (a n : Nat) : List Nat :=
  let total := descRows z.d2 * descElems z.d2
  (List.range (min n (total - a))).map (a + ·)

/-- One output of routine 2 from its elements in index order: element bytes, padding, scales, padding (R420). -/
def dualImage (z : Copy) (l : List FV) : List (BitVec 8) :=
  let q := fmtQ (descDst z.d0)
  let es := fmtBytes (descDst z.d0)
  let bl := descSblk z.d0
  let n := l.length
  let pad := fun (b : List (BitVec 8)) => b ++ List.replicate (128 * cdiv b.length 128 - b.length) 0
  let blocks := (List.range (cdiv n bl)).map fun k => (l.drop (bl * k)).take bl
  let scales := blocks.map (blockScale q)
  let bytes := (List.zip blocks scales).flatMap fun p => p.1.flatMap fun v => leBytes es (quantOne q p.2 v).1
  pad bytes ++ pad (scales.flatMap (leBytes 2))

/-- The source in column-major order. -/
def Copy.colOrder (z : Copy) (l : List FV) : List FV :=
  let rows := descRows z.d2
  let elems := descElems z.d2
  (List.range (rows * elems)).map fun i => l.getD ((i % rows) * elems + i / rows) (.fin false 0 0)

/-- What a routine gives for a block (R136, R137): the block's bytes, at most; routine 2's column-blocked output, with the last
block; and the source elements it has read by now. -/
structure BlockR where
  out  : List (BitVec 8)
  cols : List (BitVec 8) := []
  seen : Tab Nat := []
  deriving DecidableEq, Repr

/-- The code of a slot as a copy's routine finds it in the address map (R136): its own bank, and the active bank of the others. -/
def State.slotCode (s : State) (z : Copy) (slot : Nat) : List (BitVec 8) :=
  let r := s.routines.getD slot Routine.empty
  let bank := if slot = descRoutine z.d0 then z.bank else r.active
  if bank = 0 then (if r.standard then Config.standardCode slot else r.bank0) else r.bank1

/-- An installed routine runs for a block (R136): its input buffer of 4 KiB holds source elements from the block's first on (log
entry 63), and its scratch memory what routines of the same ASID have left there. One that does not return waits for its timeout. -/
def customBlock (x : Ctx) (z : Copy) (k : Nat) : LM (Option BlockR) := do
  let es := fmtBytes (descSrc z.d0)
  let ed := fmtBytes (if descDst z.d0 = 9 then descSrc z.d0 else descDst z.d0)
  let l ← copyElems x z (z.range (k * descCblk z.d0 / ed) (descCblk z.d0 / ed))
  let i ← lmDo fun s => s.free
  let c ← lmGet fun s => s.core x.tm.core
  let code ← lmGet fun s => (List.range 16).map (s.slotCode z)
  let input := (l.flatMap (leBytes es)).take 4096
  let mem : RvMem := ⟨input, [], if c.scratchAsid = x.tm.id.asid then c.scratch else [], code, i⟩
  let keep := fun (m : RvMem) =>
    lmMod fun s => s.modCore x.tm.core fun y => { y with scratch := m.scratch, scratchAsid := x.tm.id.asid }
  match rvRun (Config.rvSteps i) (rvStart i (descRoutine z.d0) input.length k [z.d0, z.d1, z.d2, z.d3]) mem with
  | .late => lmStop (.wait .latch)
  | .fault m => do
    keep m
    pure none
  | .back n m => do
    keep m
    pure (some { out := (List.range (min n (min 4096 (descCblk z.d0)))).map fun j => m.byte (0x10001000 + j) })

/-- A routine's output for block `k`, or none for a routine fault (R136, R137). -/
def blockOut (s0 : State) (x : Ctx) (z : Copy) (k : Nat) (lastBlock : Bool) : LM (Option BlockR) := do
  let src := descSrc z.d0
  let es := fmtBytes src
  let dst := if descDst z.d0 = 9 then src else descDst z.d0
  let ed := fmtBytes dst
  let size := descCblk z.d0
  if s0.routineBad z then pure none
  else if !s0.copyStd z then customBlock x z k
  else
    match descRoutine z.d0 with
    | 1 => do
      let l ← copyElems x z (z.range (k * size / ed) (size / ed))
      pure (some { out := l.flatMap fun a => leBytes ed (fmtConv z.rm.toNat src dst a) })
    | 3 => do
      let l ← copyElems x z (z.range (k * size / ed) (size / ed))
      pure (some { out := l.flatMap fun a => leBytes ed (fmtCanon src a) })
    | 2 => do
      let new := (z.dualNeeds k lastBlock).filter fun e => (z.seen.get? e).isNone
      let l ← copyElems x z new
      let seen := z.seen ++ new.zip l
      let vs := (List.range (descRows z.d2 * descElems z.d2)).map fun e => fmtValue src (seen.getD e 0)
      pure (some { out := ((dualImage z vs).drop (k * size)).take size
                   cols := if lastBlock then dualImage z (z.colOrder vs) else [], seen })
    | 4 => do
      let rows := descRows z.d2
      let l ← copyElems x z ((z.range (k * size / es) (size / es)).map fun o => (o % rows) * descElems z.d2 + o / rows)
      -- a routine canonicalises its NaN results (R142)
      pure (some { out := l.flatMap fun a => leBytes es (fmtCanon src a) })
    | _ => do
      let l ← copyElems x z (z.range (k * size / es) (size / es))
      pure (some { out := l.flatMap (leBytes es) })

/-! ### Writing a block (R132, R133, R135, R138) -/

/-- A copy fails (R133, R135): CFAIL on its barrier, the window absent, its remaining blocks abandoned. -/
def State.failCopy (s : State) (c : Nat) (z : Copy) (cause code : Nat) : State :=
  if z.abandoned then s.abandonCopy c z
  else
    let s1 := s.setWin z.team z.win fun w => if w.st == .filling then { w with st := .absent } else w
    (s1.abandonCopy c z).barUpdate z.team (z.d0.extractLsb' 15 4).toNat (.fail z.win cause code)

/-- The stored form of one tile of 4 KiB (R138): header and nonzero chunks. -/
def tileStored (m : Mem) (t : Nat) : Nat × List (BitVec 8) :=
  let chunk := fun (k : Nat) => m.readN (4096 * t + 64 * k) 64
  let set := (List.range 64).filter fun k => (chunk k).any fun b => b != 0
  (set.length, leBytes 8 (set.foldl (fun a k => a + 2 ^ k) 0) ++ List.replicate 56 0 ++ set.flatMap chunk)

/-- The bytes a window's offset table takes (R138). -/
def tableBytes (bytes : Nat) : Nat := 64 * cdiv (4 * cdiv bytes 4096) 64

/-- Tile `t` of a copy has all its blocks. -/
def Copy.tileDone (z : Copy) (t : Nat) : Bool :=
  let sz := descCblk z.d0
  let hi := min (4096 * (t + 1)) z.bytes
  (List.range (cdiv hi sz - 4096 * t / sz)).all fun i => z.done.contains (4096 * t / sz + i)

/-- The write port stores the tiles that are complete, in ascending order (R138): the state, the copy, the bytes counted,
and whether CAP was exceeded. -/
def storeTiles (c : Nat) (z : Copy) (s : State) (n : Nat) : Nat → State × Copy × Nat × Bool
  | 0 => (s, z, n, false)
  | fuel + 1 =>
    if cdiv z.bytes 4096 ≤ z.tiles || !z.tileDone z.tiles then (s, z, n, false)
    else
      let at_ := if z.tiles = 0 then tableBytes z.bytes else z.stored
      let img := tileStored z.buf z.tiles
      if descAux z.d3 < at_ + img.2.length then (s, z, n, true)
      else
        let base := descOff z.d1
        let s0 := if z.tiles = 0 then s.poolWrite c 0 base (List.replicate (tableBytes z.bytes) 0) else s
        let s1 := (s0.poolWrite c 0 (base + 4 * z.tiles) (leBytes 4 (at_ + img.1 * 2 ^ 24))).poolWrite c 0 (base + at_) img.2
        let s2 := if z.abandoned then s1
          else s1.setWin z.team z.win fun w => { w with pres := w.pres ||| 2 ^ z.tiles }
        let len := min (4096 * (z.tiles + 1)) z.bytes - 4096 * z.tiles
        storeTiles c { z with tiles := z.tiles + 1, stored := at_ + img.2.length } s2 (n + len) fuel

/-- The bytes of a block are written: state, copy, bytes counted, overflow. -/
def State.putBlock (s : State) (c : Nat) (z : Copy) (k : Nat) (bytes : List (BitVec 8)) : State × Copy × Nat × Bool :=
  let o := k * descCblk z.d0
  let z1 := { z with done := k :: z.done, inflight := z.inflight.filter fun p => p.1 != k }
  if descDst z.d0 = 9 then
    storeTiles c { z1 with buf := z1.buf.writeN o bytes } s 0 (cdiv z.bytes 4096 + 1)
  else
    let s1 := s.poolWrite c (descStore z.d0) (descOff z.d1 + o) bytes
    let lines := (List.range (bytes.length / 128)).foldl (fun m i => m + 2 ^ (o / 128 + i)) 0
    (if z.abandoned then s1 else s1.setWin z.team z.win fun w => { w with pres := w.pres ||| lines }, z1, bytes.length, false)

/-- Bytes that a copy has written are counted on its barrier (R132, R135). -/
def State.countBytes (s : State) (z : Copy) (arrivals n : Nat) : State :=
  if arrivals + n = 0 then s else s.barUpdate z.team (z.d0.extractLsb' 15 4).toNat (.count arrivals n)

/-- A block has been written (R132): bytes and, with the last block, the arrival are counted in one update, and the window
becomes full. -/
def State.blockWritten (s : State) (c : Nat) (z : Copy) (n : Nat) : State :=
  if z.abandoned then (if z.inflight.isEmpty then s.endCopy c z else s)
  else
    let lastOne := z.done.length == z.blocks
    let s1 := if lastOne then s.setWin z.team z.win fun w => if w.st == .filling then { w with st := .full } else w else s
    let s2 := s1.countBytes z (b2n lastOne) n
    if lastOne then s2.endCopy c z else s2

/-- The blocks in flight on a core, in queue order. -/
def Core.blocksInFlight (c : Core) : List (Copy × Nat × Nat × Option (Nat × Nat)) :=
  c.copies.flatMap fun z => z.inflight.map fun p => (z, p)

/-- A parked block waits for the driver (R105, R133). -/
def State.blockParked (s : State) (p : Option (Nat × Nat)) : Bool :=
  match p with
  | some (a, g) => (s.outstFind a g 0).isSome
  | none => false

/-- CFCAUSE and CFCODE of a stop of the engine (R133, R134). -/
def cfOf (c : Nat) : Nat × Nat :=
  if c = cCursorBound then (1, 0) else if c = cMisaligned ∨ c = cUnmapped ∨ c = cLayout then (7, c) else (2, 0)

/-- A block that fails leaves its slot, and its copy fails. -/
def State.dropBlock (s : State) (c : Nat) (z : Copy) (k cause code : Nat) : State :=
  let z1 := { z with inflight := z.inflight.filter fun p => p.1 != k }
  (s.modCopy c z.id fun _ => z1).failCopy c z1 cause code

/-- The tiles that the write port stored before CAP was exceeded are counted, and the copy fails (R132, R138). -/
def State.copyOverflow (s : State) (c : Nat) (z : Copy) (n : Nat) : State :=
  (if z.abandoned then s else s.countBytes z 0 n).failCopy c z 5 0

/-- A block of a copy completes, parks on a page fault, or fails its copy (R132, R133). -/
def State.copyBlock (s : State) (c : Nat) (z : Copy) (k : Nat) : State :=
  match s.team? z.team with
  | none => s
  | some m =>
    let x := engineCtx z.team m z.id k
    let o := k * descCblk z.d0
    let size := min (descCblk z.d0) (z.bytes - o)
    match blockOut s x z k (z.done.length + 1 == z.blocks) s with
    | .ok (none, s1) => s1.dropBlock c z k 3 0
    | .ok (some out, s1) =>
      let bytes := (out.out ++ List.replicate (size - out.out.length) 0).take size
      let s2 := if out.cols.isEmpty then s1 else s1.poolWrite c (descStore z.d0) (descAux z.d3) out.cols
      let (s3, z1, n, tooLong) := s2.putBlock c { z with seen := out.seen } k bytes
      let s4 := (s3.modCopy c z.id fun _ => z1).dropFar z.team (64 + z.id) [k]
      if tooLong then s4.copyOverflow c z1 n else s4.blockWritten c z1 n
    | .error (.xlate va _ cause) =>
      (s.reportXlate va cause m.id.asid 0 (256 + c) false).modCopy c z.id fun y =>
        { y with inflight := y.inflight.map fun p => if p.1 = k then (p.1, p.2.1, some (m.id.asid, pageOf va)) else p }
    | .error (.fault e) => s.dropBlock c z k (cfOf e).1 (cfOf e).2
    | .error (.refused va _) =>
      if s.fq.buffered then s else (s.pushFault va cRefused m.id.asid 0 (256 + c)).dropBlock c z k 2 0
    -- no lane faults, so the kill record names no PC (log entry 148)
    | .error .poison => s.killTeam z.team cEcc 0
    | .error (.far q n) => s.askFar q n
    | .error (.miss va kind) => s.addMiss (256 + c) m.id.asid va kind false
    | .error e => e.after s

/-- COPY_BLOCK_COMPLETE (R132): block `k` of those in flight on the core. -/
def execCopyBlockComplete (core k : Nat) (s : State) : Host.Outcome State Fault Refusal :=
  .next (match (s.core core).blocksInFlight[k]? with
  | none => s
  | some (z, p) => if s.blockParked p.2.2 then s else s.copyBlock core z p.1)

/-- ROUTINE_TIMEOUT (R133, R136): an installed routine has run for more than 65,536 core cycles on a block. -/
def execRoutineTimeout (core k : Nat) (s : State) : Host.Outcome State Fault Refusal :=
  .next (match (s.core core).blocksInFlight[k]? with
  | none => s
  | some (z, p) =>
    if s.copyStd z || s.blockParked p.2.2 || s.time ≤ p.2.1 + 131072 then s
    else
      let z1 := { z with inflight := z.inflight.filter fun q => q.1 != p.1 }
      (s.modCopy core z.id fun _ => z1).failCopy core z1 4 0)

/-! ### Exchange banks (R125, R310, R404, R405) -/

/-- The teams of a team's cluster that are resident. -/
def State.cluster (s : State) (x : Team) : List (Nat × Team) :=
  s.teams.filter fun p => p.2.id.gridid == x.id.gridid && p.2.id.clusterid == x.id.clusterid

/-- Every group of a team that is not finished has arrived (R310). -/
def Team.arrived (x : Team) : Bool := x.grps.all fun p => p.2.front || p.2.finished || p.2.clArr

/-- The cluster phase of a team is complete (R125, R310). -/
def State.swapReady (s : State) (x : Team) : Bool :=
  let cl := s.cluster x
  cl.all (fun p => p.2.arrived) && cl.any (fun p => p.2.grps.any fun g => g.2.clArr) &&
    !s.ops.any fun o => o.kind == .xst && !o.hold && cl.any fun p => p.1 == o.team

/-- A core's banks exchange roles (R404): the bytes at 0x0000 to 0x7FFF and those at 0x8000 to 0xFFFF. -/
def swapBanks (m : Mem) : Mem :=
  let lo := m.filter fun p => p.1 < 0x8000
  let hi := m.filter fun p => 0x8000 ≤ p.1 && p.1 < 0x10000
  let rest := m.filter fun p => 0x10000 ≤ p.1
  hi.map (fun p => (p.1 - 0x8000, p.2)) ++ lo.map (fun p => (p.1 + 0x8000, p.2)) ++ rest

/-- A lane parked in CLBAR goes on (R310). -/
def clbarDone (l : Lane) : Lane :=
  if l.st == .parked .clbar then
    match l.rep with
    | some i => { l with st := .eligible, rep := some (i + 1) }
    | none => { l with st := .eligible, pc := l.pc + 8 }
  else l

/-- CLUSTER_SWAP (R125, R310): every core of the cluster swaps its banks, every pack in CLBAR completes, the arrival marks
are cleared, and the held exchange stores belong to the phase that begins (R405). -/
def execClusterSwap (t : Nat) (s : State) : Host.Outcome State Fault Refusal :=
  .next (match s.team? t with
  | none => s
  | some x =>
    if !s.swapReady x then s
    else
      let cl := s.cluster x
      let s1 := cl.foldl (fun u p =>
        (if p.2.id.exch then u.modCore p.2.core fun c => { c with xst := swapBanks c.xst } else u).modTeam p.1 fun m =>
          { m with grps := m.grps.map fun q => (q.1, { q.2 with clArr := false, lanes := q.2.lanes.map clbarDone }) }) s
      { s1 with ops := s1.ops.map fun o => if (o.kind == .xst && cl.any fun p => p.1 == o.team) then { o with hold := false } else o })

/-- XST_RECEIVE (R125, R405): an exchange store is written to the receiver's shadow bank and acknowledged; those of one
lane to one receiver go in issue order, and a receiver that has finished only acknowledges. -/
def execXstReceive (op : Nat) (s : State) : Host.Outcome State Fault Refusal :=
  .next (match s.ops.find? fun o => o.id == op && o.kind == .xst with
  | none => s
  | some o =>
    match s.team? o.team with
    | none => s
    | some x =>
      if o.hold || s.ops.any fun q => q.kind == .xst && q.id < o.id && q.team == o.team && q.grp == o.grp &&
          q.lane == o.lane && q.va == o.va then s
      else
        let s1 : State := match (s.cluster x).find? fun p => p.2.id.pos == o.va with
          | some r => s.poolWrite r.2.core 1 (0x8000 + o.pa) (leBytes o.width o.data.toNat)
          | none => s
        State.decTok? { s1 with ops := s1.ops.filter fun q => q.id != op } o.team o.grp o.tok)

end Sys2Proof.Machine
end

