-- ==== Sys2Proof/Machine/Cursors.lean ====
section
/-! DEFINITION. Machine/Cursors.lean: the cursor instructions (class 101; R166 to R183, R305, R307 to R309, R312 to R314, R317). -/
namespace Sys2Proof.Machine
open Sys2Proof

/-! ### Shared operations -/

/-- What a cursor instruction waits for: another pack's fence, an acquire of a lane (R181), and a place in the range-lock
table for what its job reads (R122). A job's accesses to DRAM are made at once; those still on their way when its step ends, the OPEN
store and accesses at other targets, hold their bytes as ranges (`Op.loop`). -/
def looperJob (b : Body) : Body := fun x act s =>
  match x.groupFence? act with
  | some id => ⟨s, allEnd act (.park (.fence id)), true⟩
  | none =>
    if act.any (s.acqPending x) then ⟨s, allEnd act (.park (.laneOps s.nextId)), true⟩
    else if !s.lockRoom x.tm.core 1 then ⟨s, allEnd act (.park (.locks 1)), true⟩
    else b x act s

/-- A cursor instruction: each lane's job gives registers and values, which land as asynchronous writebacks (R57, R168). -/
def cursorBody (part : Ctx → Nat → LM (List (PReg × Nat))) : Body :=
  lanesBody part fun x oks u =>
    oks.foldl (fun v p => if p.2.isEmpty then v else (v.addPend x.run.team x.run.grp p.1 p.2 true none).2) u

/-- A cursor written to a register, with SPEC as the group's state gives it (R183). -/
def wCur (x : Ctx) (n : BitVec 3) (c : Cur) : PReg × Nat := (.c n.toNat, Cur.toNat { c with spec := x.gp.spec })

/-- The level a cursor stands on. -/
def curLevel (x : Ctx) (c : Cur) : LM Level := lmLevel x c.handle c.level

/-- The coordinate a navigating instruction writes (R171): the done coordinate once the cursor is done. -/
def coordAfter (x : Ctx) (l : Nat) (v : Level) (c : Cur) : LM Nat := if c.done then pure none32 else lmCoord x l v c c.pos

/-! ### CMK and CDESC (R169, R176, R179, R307, R312) -/

/-- VA of a word of the fibre descriptor F[p] (R175). -/
def fibreVa (v : Level) (p off : Nat) : Nat := v.posa + 16 * p + off

/-- An append cursor of a linked level (R176). -/
def linkedAppend (x : Ctx) (l : Nat) (v : Level) (c : Cur) (p : Nat) : LM Cur := do
  if x.gp.spec then lmStop (.wait .verdict)
  else
    let old ← lmAtom x l (fibreVa v p 12) 4 6 1 0
    let c := { c with app := true, done := true }
    if bit old 0 then pure { c with own := false, lo := 0, hi := 0, pos := 0 }
    else
      let last ← lmRead x l (fibreVa v p 4) 4
      let none_ := { c with own := true, lo := p, hi := p, pos := p }
      if last = none32 then pure none_
      else
        let base ← lmChunka x l v
        let u ← lmUsed x l base last
        if u = 0 then pure none_
        else pure { c with own := true, lo := 256 * last, hi := 256 * last + u, pos := 256 * last + u - 1 }

/-- The cursor of a level at a parent position (R169): an append cursor where asked for and possible, else a read cursor. -/
def newCursor (x : Ctx) (l : Nat) (app : Bool) (v : Level) (handle level p : Nat) : LM Cur := do
  let c : Cur := { Cur.zero with kind := v.kind, level, handle }
  if app && v.kind == 3 then linkedAppend x l v c p
  else if app && v.kind == 5 then
    let lo := p * 2 ^ v.param % 2 ^ 32
    pure { c with app := true, own := true, done := true, lo, hi := lo + 2 ^ v.param, pos := lo }
  else
    lmFibre x l v c p

/-- A lane's CMK: handle 0 names no record and gives an empty, done cursor of KIND 0. -/
def cmkPart (app : Bool) (cd : BitVec 3) (a : BitVec 8) (x : Ctx) (l : Nat) : LM (List (PReg × Nat)) := do
  let handle := (x.lane l).get false a.toNat % 65536
  if handle = 0 then pure [wCur x cd { Cur.zero with done := true }]
  else
    let v ← lmLevel x handle 0
    let c ← newCursor x l app v handle 0 0
    pure [wCur x cd c]

/-- CMK (R312). -/
def execCmk (h : Hdr) (app : Bool) (cd : BitVec 3) (a : BitVec 8) (s : State) : Host.Outcome State Fault Refusal :=
  issue (.cmk h app cd a) (looperJob (cursorBody (cmkPart app cd a))) s

/-- A lane's CDESC. -/
def cdescPart (app : Bool) (cd ca : BitVec 3) (x : Ctx) (l : Nat) : LM (List (PReg × Nat)) := do
  let a := (x.lane l).curAt ca.toNat
  let none_ : Cur := { Cur.zero with level := a.level + 1, handle := a.handle, done := true }
  if a.isDone then pure [wCur x cd none_]
  else
    let n ← lmNlev x a.handle
    if n ≤ a.level + 1 then pure [wCur x cd none_]
    else
      let v ← lmLevel x a.handle (a.level + 1)
      let c ← newCursor x l app v a.handle (a.level + 1) a.pos
      pure [wCur x cd c]

/-- CDESC (R307). -/
def execCdesc (h : Hdr) (app : Bool) (cd ca : BitVec 3) (s : State) : Host.Outcome State Fault Refusal :=
  issue (.cdesc h app cd ca) (looperJob (cursorBody (cdescPart app cd ca))) s

/-! ### CNRW (R170, R314) -/

/-- The narrowed copy of a cursor. -/
def Cur.narrow (c : Cur) (a b : Nat) : Cur :=
  let d : Cur :=
    if c.kind = 3 ∨ c.kind = 5 ∨ c.kind = 0 then c
    else
      let m := c.hi - c.lo
      let lo := c.lo + min a m
      let hi := max lo (c.lo + min b m)
      let pos := max c.pos lo
      if lo = hi then { c with lo, hi, pos := lo, done := true }
      else if hi ≤ pos then { c with lo, hi, pos := hi - 1, done := true }
      else { c with lo, hi, pos }
  { d with app := false, own := false, fnd := false }

/-- CNRW (R314): it reads no metadata. -/
def execCnrw (h : Hdr) (cd ca : BitVec 3) (b c : BitVec 8) (s : State) : Host.Outcome State Fault Refusal :=
  issue (.cnrw h cd ca b c) (asyncBody fun x _ z =>
    [wCur x cd ((z.curAt ca.toNat).narrow (z.get false b.toNat) (z.get false c.toNat))]) s

/-! ### CNEXT, CSEEK, CGET (R171, R309, R313, R317) -/

/-- A lane's CNEXT. -/
def cnextPart (d : BitVec 8) (ca : BitVec 3) (x : Ctx) (l : Nat) : LM (List (PReg × Nat)) := do
  let c := (x.lane l).curAt ca.toNat
  if c.idle then pure [(.g d.toNat, none32)]
  else
    let v ← curLevel x c
    let n ← lmNext x l v c
    let k ← coordAfter x l v n
    pure [wCur x ca n, (.g d.toNat, k)]

/-- CNEXT (R313). -/
def execCnext (h : Hdr) (d : BitVec 8) (ca : BitVec 3) (s : State) : Host.Outcome State Fault Refusal :=
  issue (.cnext h d ca) (looperJob (cursorBody (cnextPart d ca))) s

/-- A lane's CSEEK: a lookup on a hashed level, else the first position at or above the key. -/
def cseekPart (d : BitVec 8) (ca : BitVec 3) (b : BitVec 8) (x : Ctx) (l : Nat) : LM (List (PReg × Nat)) := do
  let z := x.lane l
  let c := z.curAt ca.toNat
  let key := z.get false b.toNat
  if c.idle then pure [(.g d.toNat, none32)]
  else
    let v ← curLevel x c
    if c.kind = 5 then
      let r ← lmLookup x l v c.lo key 0 (probeLen v.param)
      match r with
      | some q => pure [wCur x ca { c with pos := q, fnd := true }, (.g d.toNat, key)]
      | none => pure [wCur x ca { c with fnd := false }, (.g d.toNat, none32)]
    else
      let n ← lmSeek x l v c key
      let k ← coordAfter x l v n
      pure [wCur x ca n, (.g d.toNat, k)]

/-- CSEEK (R317). -/
def execCseek (h : Hdr) (d : BitVec 8) (ca : BitVec 3) (b : BitVec 8) (s : State) : Host.Outcome State Fault Refusal :=
  issue (.cseek h d ca b) (looperJob (cursorBody (cseekPart d ca b))) s

/-- The field CGET reads without metadata; `crd` is read by the Loopers. -/
def Cur.field (c : Cur) (w0 : Nat) : CField → Nat
  | .pos => c.pos
  | .lo => c.lo
  | .hi => c.hi
  | .crd => none32
  | .w0 => w0
  | .done => b2n c.isDone
  | .app => b2n c.app
  | .own => b2n c.own
  | .ovf => b2n c.ovf
  | .fnd => b2n c.fnd
  | .spec => b2n c.spec

/-- A field that goes to one bit of D. -/
def CField.isFlag : CField → Bool
  | .done | .app | .own | .ovf | .fnd | .spec => true
  | .pos | .lo | .hi | .crd | .w0 => false

/-- A lane's CGET. -/
def cgetPart (d : BitVec 8) (ca : BitVec 3) (f : CField) (k : BitVec 5) (x : Ctx) (l : Nat) : LM (List (PReg × Nat)) := do
  let w := (x.lane l).cur ca.toNat
  let c := (x.lane l).curAt ca.toNat
  if CField.isFlag f then pure [(.bit d.toNat k.toNat, c.field 0 f)]
  else if f = .crd && c.kind != 0 && !(c.done && c.lo == c.hi) then
    let v ← curLevel x c
    let a ← lmCoord x l v c c.pos
    pure [(.g d.toNat, a)]
  else pure [(.g d.toNat, c.field (w.toNat % 2 ^ 32) f)]

/-- CGET (R309): only crd reads metadata. -/
def execCget (h : Hdr) (d : BitVec 8) (ca : BitVec 3) (f : CField) (k : BitVec 5) (s : State) :
    Host.Outcome State Fault Refusal :=
  issue (.cget h d ca f k)
    (if f = .crd then looperJob (cursorBody (cgetPart d ca f k)) else cursorBody (cgetPart d ca f k)) s

/-! ### CCOIT (R172, R173, R305) -/

/-- The CNEXT effect on a cursor of a pair. -/
def pairNext (x : Ctx) (l : Nat) (c : Cur) : LM Cur :=
  if c.idle then pure c
  else do
    let v ← curLevel x c
    lmNext x l v c

/-- The coordinate of a cursor of a pair that is not done. -/
def pairCoord (x : Ctx) (l : Nat) (c : Cur) : LM Nat := do
  let v ← curLevel x c
  lmCoord x l v c c.pos

/-- The CSEEK effect on an ordered cursor of a pair. -/
def pairSeek (x : Ctx) (l : Nat) (c : Cur) (key : Nat) : LM Cur :=
  if c.idle then pure c
  else do
    let v ← curLevel x c
    lmSeek x l v c key

/-- The advance of a participant of the last match: FOUND is cleared, then the CNEXT effect. -/
def pairAdvance (x : Ctx) (l : Nat) (c : Cur) : LM Cur := if c.fnd then pairNext x l { c with fnd := false } else pure c

/-- Intersection by probing: the driver, the probed cursor, the coordinate and the presence (R172). -/
def probeLoop (x : Ctx) (l : Nat) : Nat → Cur → Cur → LM (Cur × Cur × Nat × Nat)
  | 0, dv, pr => pure (dv, pr, none32, 4)
  | fuel + 1, dv, pr => do
    if dv.isDone then pure (dv, pr, none32, 4)
    else
      let k ← pairCoord x l dv
      let v ← curLevel x pr
      let r ← lmLookup x l v pr.lo k 0 (probeLen v.param)
      match r with
      | some q => pure ({ dv with fnd := true }, { pr with pos := q }, k, 3)
      | none => do
        let n ← pairNext x l dv
        probeLoop x l fuel n pr

/-- Intersection of two ordered fibres (R172). -/
def mergeLoop (x : Ctx) (l : Nat) : Nat → Cur → Cur → LM (Cur × Cur × Nat × Nat)
  | 0, a, b => pure (a, b, none32, 4)
  | fuel + 1, a, b => do
    if a.isDone || b.isDone then pure (a, b, none32, 4)
    else
      let i ← pairCoord x l a
      let j ← pairCoord x l b
      if i = j then pure ({ a with fnd := true }, { b with fnd := true }, i, 3)
      else if i < j then do
        let n ← pairSeek x l a j
        mergeLoop x l fuel n b
      else do
        let n ← pairSeek x l b i
        mergeLoop x l fuel a n

/-- One step of a union of two ordered fibres (R172). -/
def unionStep (x : Ctx) (l : Nat) (a b : Cur) : LM (Cur × Cur × Nat × Nat) := do
  if a.isDone && b.isDone then pure (a, b, none32, 4)
  else if b.isDone then
    let i ← pairCoord x l a
    pure ({ a with fnd := true }, b, i, 1)
  else if a.isDone then
    let j ← pairCoord x l b
    pure (a, { b with fnd := true }, j, 2)
  else
    let i ← pairCoord x l a
    let j ← pairCoord x l b
    if i < j then pure ({ a with fnd := true }, b, i, 1)
    else if j < i then pure (a, { b with fnd := true }, j, 2)
    else pure ({ a with fnd := true }, { b with fnd := true }, i, 3)

/-- A lane's CCOIT (R172). -/
def ccoitPart (union : Bool) (d : BitVec 8) (ca cb : BitVec 3) (x : Ctx) (l : Nat) : LM (List (PReg × Nat)) := do
  let a0 := (x.lane l).curAt ca.toNat
  let b0 := (x.lane l).curAt cb.toNat
  let hashed := a0.kind == 5 || b0.kind == 5
  if union && hashed then lmFault cPair
  else
    let a ← pairAdvance x l a0
    let b ← pairAdvance x l b0
    let r ← (if union then unionStep x l a b
      else if hashed then
        if a.kind == 5 && b.kind != 5 then do
          let r ← probeLoop x l walkFuel b a
          pure (r.2.1, r.1, r.2.2.1, r.2.2.2)
        else probeLoop x l walkFuel a b
      else mergeLoop x l walkFuel a b : LM (Cur × Cur × Nat × Nat))
    pure [wCur x ca r.1, wCur x cb r.2.1, (.g d.toNat, r.2.2.1), (.g (d.toNat + 1), r.2.2.2)]

/-- CCOIT (R305). -/
def execCcoit (h : Hdr) (union : Bool) (d : BitVec 8) (ca cb : BitVec 3) (s : State) : Host.Outcome State Fault Refusal :=
  issue (.ccoit h union d ca cb) (looperJob (cursorBody (ccoitPart union d ca cb))) s

/-! ### CAPP and CFIN (R175 to R180, R308) -/

/-- The parent position of an owner cursor's fibre (R177). -/
def ownerParent (x : Ctx) (l : Nat) (v : Level) (c : Cur) : LM Nat :=
  if c.lo < c.hi then do
    let base ← lmChunka x l v
    lmRead x l (base + 16 * (c.lo / 256) + 8) 4
  else pure c.lo

/-- The heap unit's allocation (R175): LIMIT in the low half of the word, NEXTC in the high half. -/
def heapAlloc (x : Ctx) (l : Nat) (v : Level) : LM Nat := do
  let w ← lmAtom x l (v.aux + 8) 8 11 0 0
  if w / 2 ^ 32 < w % 2 ^ 32 then pure (w / 2 ^ 32) else lmFault cHeap

/-- A chunk joins the tail of a fibre (R177). -/
def chunkAdd (x : Ctx) (l : Nat) (v : Level) (base p c : Nat) : LM Nat := do
  let n ← heapAlloc x l v
  lmWrite x l (base + 16 * n) 8 none32
  lmWrite x l (base + 16 * n + 8) 8 p
  if c = none32 then lmWrite x l (fibreVa v p 0) 4 n else lmWrite x l (base + 16 * c) 4 n
  lmWrite x l (fibreVa v p 4) 4 n
  pure n

/-- An append to a linked level by its owner (R177). -/
def linkedPut (x : Ctx) (l : Nat) (v : Level) (c : Cur) (key : Nat) : LM Cur := do
  let base ← lmChunka x l v
  let p ← ownerParent x l v c
  let tail ← (if c.lo < c.hi then pure (c.lo / 256) else lmRead x l (fibreVa v p 4) 4 : LM Nat)
  let used ← (if tail = none32 then pure 256 else lmUsed x l base tail : LM Nat)
  let k ← (if used = 256 then chunkAdd x l v base p tail else pure tail : LM Nat)
  let u ← lmUsed x l base k
  let q := 256 * k + u
  lmWrite x l (v.crda + 4 * q) 4 key
  lmWrite x l (base + 16 * k + 4) 4 ((u + 1) % 512)
  let cnt ← lmRead x l (fibreVa v p 8) 4
  lmWrite x l (fibreVa v p 8) 4 (cnt + 1)
  pure { c with lo := 256 * k, hi := q + 1, pos := q, fnd := false }

/-- A lane's CAPP (R177, R179). -/
def cappPart (d : BitVec 8) (ca : BitVec 3) (b : BitVec 8) (x : Ctx) (l : Nat) : LM (List (PReg × Nat)) := do
  let z := x.lane l
  let c := z.curAt ca.toNat
  let key := z.get false b.toNat
  if x.gp.spec && (c.kind == 3 || c.kind == 5) then lmStop (.wait .verdict)
  else if !c.app || !c.own then pure [(.g d.toNat, none32)]
  else
    let v ← curLevel x c
    if c.kind = 5 then
      let r ← lmInsert x l v c.lo key 0 (probeLen v.param)
      match r with
      | .inserted q => pure [wCur x ca { c with pos := q, fnd := false }, (.g d.toNat, q)]
      | .found q => pure [wCur x ca { c with pos := q, fnd := true }, (.g d.toNat, q)]
      | .overflow => pure [wCur x ca { c with ovf := true }, (.g d.toNat, none32)]
    else
      let n ← linkedPut x l v c key
      pure [wCur x ca n, (.g d.toNat, n.pos)]

/-- CAPP: lanes allocate in ascending order, and a lane that finds the heap exhausted faults alone (R178). -/
def execCapp (h : Hdr) (d : BitVec 8) (ca : BitVec 3) (b : BitVec 8) (s : State) : Host.Outcome State Fault Refusal :=
  issue (.capp h d ca b) (looperJob (cursorBody (cappPart d ca b))) s

/-- The cursor owns a linked tail, which CFIN closes. -/
def Cur.ownsTail (c : Cur) : Bool := c.app && c.own && c.kind == 3

/-- A lane's CFIN: OPEN is cleared by a store of the lane at .die, in a speculative group by a buffered one (R180, R308). -/
def cfinPart (ca : BitVec 3) (x : Ctx) (l : Nat) : LM (List (PReg × Nat)) := do
  let c := (x.lane l).curAt ca.toNat
  if !c.app then pure []
  else
    if c.ownsTail then
      let v ← curLevel x c
      let p ← ownerParent x l v c
      let va := fibreVa v p 12 % 2 ^ 56
      let (e, _) ← lmXlate x va 1 4
      if x.gp.spec then lmBuffer x l false va e 4 0 (some 3)
      else lmMod fun s => s.addOp { Op.mk0 x l .store va e 4 with rel := true, scope := 3, loop := true }
    pure [wCur x ca { c with app := false, own := false, done := true }]

/-- CFIN (R308): a release at .die where a lane owns a linked tail. -/
def execCfin (h : Hdr) (ca : BitVec 3) (s : State) : Host.Outcome State Fault Refusal :=
  issue (.cfin h ca) (looperJob fun x act s =>
    if !x.gp.spec && act.any fun l => ((x.lane l).curAt ca.toNat).ownsTail then
      afterFence 3 false (cursorBody (cfinPart ca)) x act s
    else cursorBody (cfinPart ca) x act s) s

end Sys2Proof.Machine
end

