-- ==== Sys2Proof/Machine/LowRank.lean ====
section
/-! DEFINITION. Machine/LowRank.lean: matrix-register values and their algebra (R152, R153, R197, R199, R200, R202). -/
namespace Sys2Proof.Machine
open Sys2Proof

/-! ### Exact sums (R152, R199) -/

/-- One term added to an exact sum at a common exponent. -/
def termAt (e : Int) (v : FV) : Int :=
  match v with
  | .fin n m k => let a : Int := (m * 2 ^ (k - e).toNat : Nat); if n then -a else a
  | _ => 0

/-- A value is an infinity of a sign. -/
def FV.isInf (v : FV) (neg : Bool) : Bool :=
  match v with
  | .inf n => n == neg
  | _ => false

/-- The exact sum of terms: NaN for a NaN or both infinities; an exact zero is −0 when every term is −0, and otherwise +0,
or −0 in RDN unless every term is +0 (R148, R152). -/
def fvSum (rm : Nat) (l : List FV) : FV :=
  if l.any FV.isNan || (l.any (FV.isInf · true) && l.any (FV.isInf · false)) then .nan false
  else if l.any (FV.isInf · true) then .inf true
  else if l.any (FV.isInf · false) then .inf false
  else
    let e := l.foldl (fun (m : Int) v => match v with | .fin _ _ k => min m k | _ => m) 0
    let t := l.foldl (fun (a : Int) v => a + termAt e v) 0
    if t ≠ 0 then .fin (decide (t < 0)) t.natAbs e
    else if l.isEmpty || l.all (fun v => v.isZero && !v.neg) then .fin false 0 0
    else if l.all fun v => v.isZero && v.neg then .fin true 0 0
    else .fin (rm == 2) 0 0

/-- The exact products of two vectors. -/
def products (x y : List FV) : List FV := List.zipWith (fun a b => (fvMul a b).1) x y

/-! ### Matrices as rows -/

/-- The values of FP32 patterns. -/
def fvOf (l : List (BitVec 32)) : List FV := l.map fun b => FF.f32.decode b.toNat

/-- A value rounded to FP32 in a mode, as bits. -/
def toF32 (rm : Nat) (v : FV) : BitVec 32 := BitVec.ofNat 32 (FF.f32.conv rm v).1

/-- The `n` rows of a row-major matrix of width `w`. -/
def rowsOf {α : Type} (w n : Nat) (l : List α) : List (List α) := (List.range n).map fun i => (l.drop (w * i)).take w

/-- The columns of rows of width `w`. -/
def colsOf (w : Nat) (r : List (List FV)) : List (List FV) :=
  (List.range w).map fun j => r.map fun row => row.getD j (.fin false 0 0)

/-- Mul: each element rounded once from the exact sum of its exact products (R199); `x` is n × k, `y` is k × m. -/
def matMul (rm n k m : Nat) (x y : List (BitVec 32)) : List (BitVec 32) :=
  let cols := colsOf m (rowsOf m k (fvOf y))
  (rowsOf k n (fvOf x)).flatMap fun r => cols.map fun c => toF32 rm (fvSum rm (products r c))

/-- The granules a register occupies (R197). -/
def MReg.granules (r : MReg) : Nat := if r.rank = 63 then 8 else cdiv r.rank 4

/-- Rank 0: the zero matrix. -/
def MReg.zero : MReg := ⟨0, [], []⟩

/-- The dense form of a register (R199): the tile itself, or Mul(U, V). -/
def MReg.dense (r : MReg) (rm : Nat) : List (BitVec 32) :=
  if r.rank = 63 then r.u else if r.rank = 0 then List.replicate 4096 0 else matMul rm 64 r.rank 64 r.u r.v

/-- The exact value of each element, as the terms of its sum (R199). -/
def MReg.terms (r : MReg) : List (List FV) :=
  if r.rank = 63 then (fvOf r.u).map fun v => [v]
  else
    let cols := colsOf 64 (rowsOf 64 r.rank (fvOf r.v))
    (rowsOf r.rank 64 (fvOf r.u)).flatMap fun row => cols.map fun c => products row c

/-- MMAL (R199, R356). -/
def mmalRes (rm : Nat) (a b : MReg) : MReg :=
  if a.rank = 0 ∨ b.rank = 0 then MReg.zero
  else if a.rank = 63 then
    if b.rank = 63 then ⟨63, matMul rm 64 64 64 a.u b.u, []⟩ else ⟨b.rank, matMul rm 64 64 b.rank a.u b.u, b.v⟩
  else if b.rank = 63 then ⟨a.rank, a.u, matMul rm a.rank 64 64 a.v b.u⟩
  else
    let w := matMul rm a.rank 64 b.rank a.v b.u
    if a.rank ≤ b.rank then ⟨a.rank, a.u, matMul rm a.rank b.rank 64 w b.v⟩
    else ⟨b.rank, matMul rm 64 a.rank b.rank a.u w, b.v⟩

/-- MADD (R199, R200, R350): the result and FELLBACK, or none for rank-overflow. -/
def maddRes (rm : Nat) (ovf : Bool) (a b : MReg) : Option (MReg × Bool) :=
  let fac := a.rank != 63 && b.rank != 63
  if a.rank = 0 then some (b, false)
  else if b.rank = 0 then some (a, false)
  else if fac && a.rank + b.rank ≤ 32 then
    some (⟨a.rank + b.rank, (List.zipWith (· ++ ·) (rowsOf a.rank 64 a.u) (rowsOf b.rank 64 b.u)).flatten, a.v ++ b.v⟩, false)
  else if fac && !ovf then none
  else some (⟨63, (List.zipWith (fun x y => toF32 rm (fvSum rm (x ++ y))) a.terms b.terms), []⟩, fac)

/-- MSCL (R199, R361). -/
def msclRes (rm s : Nat) (a : MReg) : MReg :=
  let f := fun (l : List (BitVec 32)) => (fvOf l).map fun v => toF32 rm (fvMul (FF.f32.decode s) v).1
  if a.rank = 0 then MReg.zero else if a.rank = 63 then ⟨63, f a.u, []⟩ else ⟨a.rank, a.u, f a.v⟩

/-- An FP32 pattern is a NaN. -/
def isNan32 (b : BitVec 32) : Bool := (FF.f32.decode b.toNat).isNan

/-- The index of the first NaN of a list. -/
def firstNan (l : List (BitVec 32)) : Option Nat := l.findIdx? isNan32

/-- NANINFO of the first NaN of a result with KSTEP 0 (R159, R199): U before V, each by row and then by column. -/
def MReg.nanInfo (r : MReg) : Option Nat :=
  let w := if r.rank = 63 then 64 else r.rank
  match firstNan r.u with
  | some i => some (1 + i / w * 4 + i % w * 256)
  | none => (firstNan r.v).map fun i => 2 + i / 64 * 4 + i % 64 * 256

/-! ### Rank recompression (R202) -/

/-- Rn: one rounding to FP32 in RNE; none for an infinity or a NaN. -/
def rn (v : FV) : Option FV :=
  match FF.f32.decode (FF.f32.conv 0 v).1 with
  | .fin n m e => some (.fin n m e)
  | _ => none

/-- Dot. -/
def rnDot (x y : List FV) : Option FV := rn (fvSum 0 (products x y))

/-- Rn of a square root; the root of a zero is that zero. -/
def rnSqrt (v : FV) : Option FV :=
  match v with
  | .fin n m e => if m = 0 then some (.fin n 0 0) else rn (sqrtFV m e)
  | _ => none

/-- Rn of a quotient. -/
def rnDiv (x y : FV) : Option FV := rn (fvDiv x y).1

/-- Rn of x + y. -/
def rnAdd (x y : FV) : Option FV := rn (fvAdd 0 x y).1

/-- Rn of a × x + b × y. -/
def rnMix (a x b y : FV) : Option FV := rn (fvSum 0 [(fvMul a x).1, (fvMul b y).1])

/-- The value 1. -/
def fvOne : FV := .fin false 1 0

/-- The value +0. -/
def fvZero : FV := .fin false 0 0

/-- Applies a partial function to every element. -/
def optMap {α β : Type} (f : α → Option β) : List α → Option (List β)
  | [] => some []
  | a :: t => do
    let b ← f a
    let r ← optMap f t
    some (b :: r)

/-- Applies a partial function to the pairs of two lists. -/
def optZip {α β γ : Type} (f : α → β → Option γ) : List α → List β → Option (List γ)
  | a :: t, b :: u => do
    let c ← f a b
    let r ← optZip f t u
    some (c :: r)
  | _, _ => some []

/-- One column of MGS: the earlier columns of Q are taken out in turn; their coefficients and what is left. -/
def mgsCol (v : List FV) : List (List FV) → Option (List FV × List FV)
  | [] => some ([], v)
  | q :: t => do
    let r ← rnDot q v
    let w ← optZip (fun a b => rn (fvSum 0 [a, (fvMul r b).1.flip])) v q
    let rest ← mgsCol w t
    some (r :: rest.1, rest.2)

/-- MGS over the columns of X: the columns of Q and those of R, each R column down to its diagonal (R202). -/
def mgs (q r : List (List FV)) : List (List FV) → Option (List (List FV) × List (List FV))
  | [] => some (q, r)
  | v :: t => do
    let c ← mgsCol v q
    let d ← rnDot c.2 c.2
    let n ← rnSqrt d
    let col ← (if n.isZero then some (c.2.map fun _ => fvZero) else optMap (fun a => rnDiv a n) c.2)
    mgs (q ++ [col]) (r ++ [c.1 ++ [n]]) t

/-- Sign(ze) with Sign(±0) = +1. -/
def signOne (v : FV) : FV := .fin (v.neg && !v.isZero) 1 0

/-- |v|. -/
def fvAbs (v : FV) : FV :=
  match v with
  | .fin _ m e => .fin false m e
  | w => w

/-- The rotation of columns p and q: c and s, or none of it where ga is 0. -/
def jacobiCs (al be ga : FV) : Option (FV × FV) := do
  let num := (fvAdd 0 be al.flip).1
  let ze ← rnDiv num (fvMul (.fin false 2 0) ga).1
  let h ← rn (fvSum 0 [fvOne, (fvMul ze ze).1])
  let r ← rnSqrt h
  let d ← rnAdd (fvAbs ze) r
  let t ← rnDiv (signOne ze) d
  let h2 ← rn (fvSum 0 [fvOne, (fvMul t t).1])
  let r2 ← rnSqrt h2
  let c ← rnDiv fvOne r2
  let s ← rn (fvMul c t).1
  some (c, s)

/-- Columns p and q of a matrix are rotated. -/
def rotate (p q : Nat) (c s : FV) (m : List (List FV)) : Option (List (List FV)) := do
  let x := m.getD p []
  let y := m.getD q []
  let a ← optZip (fun u v => rnMix c u s.flip v) x y
  let b ← optZip (fun u v => rnMix s u c v) x y
  some ((m.set p a).set q b)

/-- One pair of a sweep, on the columns of M and J. -/
def sweepPair (st : List (List FV) × List (List FV)) (p q : Nat) : Option (List (List FV) × List (List FV)) := do
  let x := st.1.getD p []
  let y := st.1.getD q []
  let al ← rnDot x x
  let be ← rnDot y y
  let ga ← rnDot x y
  if ga.isZero then some st
  else do
    let cs ← jacobiCs al be ga
    let m ← rotate p q cs.1 cs.2 st.1
    let j ← rotate p q cs.1 cs.2 st.2
    some (m, j)

/-- A list of pairs in turn. -/
def sweep : List (Nat × Nat) → List (List FV) × List (List FV) → Option (List (List FV) × List (List FV))
  | [], st => some st
  | pq :: t, st => do
    let s ← sweepPair st pq.1 pq.2
    sweep t s

/-- The pairs of six sweeps over r columns. -/
def sweepPairs (r : Nat) : List (Nat × Nat) :=
  (List.range 6).flatMap fun _ => (List.range (r - 1)).flatMap fun p => (List.range (r - p - 1)).map fun i => (p, p + 1 + i)

/-- Inserts an index into a list ordered by falling values, after equal ones. -/
def insertDesc (v : FV) (i : Nat) : List (FV × Nat) → List (FV × Nat)
  | [] => [(v, i)]
  | (w, j) :: t => if fvCmp w v == -1 then (v, i) :: (w, j) :: t else (w, j) :: insertDesc v i t

/-- The indices by falling sig, stably. -/
def orderDesc (sig : List FV) : List Nat :=
  ((List.range sig.length).foldl (fun l i => insertDesc (sig.getD i fvZero) i l) []).map (·.2)

/-- a ≤ b for exact sums of squares. -/
def fvLe (a b : FV) : Bool := fvCmp a b != 1

/-- The least k whose tail of squares is at most tol² × T; `sq` is in falling order. -/
def truncRank (tol : FV) (sq : List FV) : Nat :=
  let total := fvSum 0 sq
  if total.isZero then 0
  else
    match tol with
    | .inf _ => 0
    | _ =>
      let bound := (fvMul (fvMul tol tol).1 total).1
      ((List.range (sq.length + 1)).find? fun k => fvLe (fvSum 0 (sq.drop k)) bound).getD sq.length

/-- A matrix product in Rn, rows by columns. -/
def rnMul (rows cols : List (List FV)) : Option (List (List FV)) := optMap (fun r => optMap (rnDot r) cols) rows

/-- The triangular R as rows of width r: zeros below the diagonal. -/
def triRows (cols : List (List FV)) : List (List FV) :=
  (List.range cols.length).map fun i => cols.map fun c => c.getD i fvZero

/-- MRCMP's computation (R202): none where an infinity or a NaN appears, else the rank k with U′ and V′ as patterns (empty
where k > 32). -/
def recompress (tol : FV) (u vt : List (List FV)) : Option (Nat × List (BitVec 32) × List (BitVec 32)) := do
  let r := u.length
  let qu ← mgs [] [] u
  let qv ← mgs [] [] vt
  let mrows ← rnMul (triRows qu.2) (triRows qv.2)
  let ident := (List.range r).map fun i => (List.range r).map fun j => if i = j then fvOne else fvZero
  let st ← sweep (sweepPairs r) (colsOf r mrows, ident)
  let sig ← optMap (fun c => do
    let d ← rnDot c c
    rnSqrt d) st.1
  let ord := orderDesc sig
  let sq := ord.map fun i => (fvMul (sig.getD i fvZero) (sig.getD i fvZero)).1
  let k := truncRank tol sq
  if 32 < k then some (k, [], [])
  else do
    let pick := ord.take k
    let un ← rnMul (colsOf 64 qu.1) (pick.map fun t => st.1.getD t [])
    let vn ← rnMul (pick.map fun t => st.2.getD t []) (colsOf 64 qv.1)
    let enc := fun (l : List (List FV)) => l.flatten.map (toF32 0)
    some (k, enc un, enc vn)

/-- MRCMP (R202, R360): the result, KEPTDENSE and LASTK. -/
def mrcmpRes (a : MReg) (tolBits : Nat) : MReg × Bool × Nat :=
  let t := FF.f32.decode tolBits
  let tol := if t.isNan || (t.neg && !t.isZero) then fvZero else t
  if a.rank = 0 then (MReg.zero, false, 0)
  else
    let ident := (List.range 64).map fun i => (List.range 64).map fun j => if i = j then fvOne else fvZero
    let (u, vt) := if a.rank = 63 then (colsOf 64 (rowsOf 64 64 (fvOf a.u)), ident)
      else (colsOf a.rank (rowsOf a.rank 64 (fvOf a.u)), rowsOf 64 a.rank (fvOf a.v))
    let finite := (fvOf a.u ++ fvOf a.v).all fun v => match v with | .fin _ _ _ => true | _ => false
    match (if finite then recompress tol u vt else none) with
    | none => (a, false, 127)
    | some (k, un, vn) => if 32 < k then (a, true, k) else (if k = 0 then MReg.zero else ⟨k, un, vn⟩, false, k)

end Sys2Proof.Machine
end

