-- ==== Sys2Proof/Machine/Matrix.lean ====
section
/-! DEFINITION. Machine/Matrix.lean: crews, the rendezvous and the matrix engine (class 110; R76 to R79, R184 to R202, R315,
R316, R348 to R363, R373, R374, R400). -/
namespace Sys2Proof.Machine
open Sys2Proof

/-! ### The rendezvous latch (R77 to R79) -/

/-- What the latch compares of a word: every bit but E and the hold field (R77). -/
def latchWord (i : Instr) : List (BitVec 64) :=
  match encodeFields i with
  | some (f, w2) => [Fields.toWord { f with h := { f.h with e := false, h := 0 } }, w2]
  | none => []

/-- Two records are identical: the word, the REP prefix with the index, the guard outcome (R77, R78). -/
def LatchRec.same (a b : LatchRec) : Bool :=
  latchWord a.instr == latchWord b.instr && a.rep == b.rep && a.act.isEmpty == b.act.isEmpty

/-- The instruction moves a matrix image (R201). -/
def isImage : Instr → Bool
  | .mld .. | .mst .. => true
  | _ => false

/-- Some member of a crew has finished (R316). -/
def State.memberGone (s : State) (k : Crew) : Bool :=
  k.members.any fun m => match s.grp? k.team m with | some y => y.finished | none => true

/-- A record of this pack: the same group and a common lane. -/
def LatchRec.ofPack (r : LatchRec) (g : Nat) (lanes : List Nat) : Bool := r.grp == g && r.lanes.any lanes.contains

/-- The packs of an instruction stay parked until it completes (R78). -/
def Job.late (j : Job) : Bool :=
  match j.instr with
  | .mrcmp .. => true
  | .mma .. | .mmal .. | .madd .. | .mscl .. | .mdense .. => j.nantrap
  | _ => false

/-- An instruction in the engine whose packs have not been released holds this pack (R78): one that a handler's return brings
back to it parks there again (R238). -/
def State.inEngine (s : State) (c t g : Nat) (lanes : List Nat) : Bool :=
  (s.core c).engine.any fun j => j.team == t && (!j.started || j.late) && j.recs.any fun r => r.ofPack g lanes

/-- A crew instruction of a member (R77, R79, R348): its pack, guarded-off lanes included, parks with a record in the latch;
a record that differs traps every member that has one. -/
def crewBody (i : Instr) : Body := fun x act s =>
  let t := x.run.team
  let g := x.run.grp
  let c := x.tm.core
  let who := if act.isEmpty then x.run.lanes else act
  match s.crewOf c t g with
  | none => ⟨s, allEnd who (.fault cCrewAbsent), true⟩
  | some k =>
    if s.memberGone k then ⟨s, allEnd who (.fault cCrewMismatch), true⟩
    else if s.inEngine c t g x.run.lanes then ⟨s, allEnd x.run.lanes (.park .latch), true⟩
    else if (isImage i && (x.groupFence? act).isSome) then
      ⟨s, allEnd x.run.lanes (.park (.fence ((x.groupFence? act).getD 0))), true⟩
    else if !act.isEmpty && ctrMax 3 ≤ x.gp.tiles then ⟨s, allEnd x.run.lanes (.park (.room 3)), true⟩
    else
      let r0 : LatchRec := ⟨g, x.run.lanes, act, x.run.rep.map fun q => (q.word, q.ix), i, none⟩
      -- a record of this pack that is still in the latch is made again (R238)
      let mine := k.latch.filter fun r => r.ofPack g x.run.lanes
      let others := k.latch.filter fun r => !r.ofPack g x.run.lanes
      if others.any fun r => !r.same r0 then
        ⟨others.foldl (fun u r => u.latchTrap t cCrewMismatch r) (s.modCrew c k.no fun z => { z with latch := [] }),
         allEnd who (.fault cCrewMismatch), true⟩
      else
        let s0 := mine.foldl (fun u r => u.decTok? t g r.tok) s
        let (tok, s1) := if act.isEmpty then (none, s0) else (let n := s0.newTok t g 3 1; (some n.1, n.2))
        ⟨s1.modCrew c k.no fun z => { z with latch := others ++ [{ r0 with tok }] }, allEnd x.run.lanes (.park .latch), true⟩

/-- The packs of records go on to their next instruction or repetition (R78). -/
def State.releaseRecs (s : State) (t : Nat) (rs : List LatchRec) : State :=
  rs.foldl (fun u r => u.modGrp t r.grp fun y =>
    { y with lanes := (List.range y.lanes.length).map fun l =>
        if (r.lanes.contains l && (y.lane l).st == .parked .latch) then latchNextLane r (y.lane l) else y.lane l }) s

/-! ### CREW and its formation (R315) -/

/-- CREW: the mask and the control word are recorded and the pack parks (R315). What another pack of a group does whose record stands
in the formation latch the spec leaves open: with the same values it parks with the first, with others it alone traps with
crew-mismatch and the record stays (the model's choice, log entry 150). -/
def execCrew (h : Hdr) (a b : BitVec 8) (s : State) : Host.Outcome State Fault Refusal :=
  issue (.crew h a b) (fun x act s =>
    let z := x.lane (low act)
    let mask := BitVec.ofNat 32 (z.get false a.toNat)
    let ctl := BitVec.ofNat 32 (z.get false b.toNat)
    let n := ((List.range 32).filter fun i => mask.getLsbD i).length
    let c := x.tm.core
    let mine := (s.core c).forms.filter fun f => f.team == x.run.team && f.grp == x.run.grp
    if n < 2 || 6 < n || mask.toNat / 2 ^ x.tm.id.groups != 0 || !mask.getLsbD x.run.grp || ctl.extractLsb' 13 19 != 0 ||
        ctl.extractLsb' 0 12 == 0 then ⟨s, allEnd act (.fault cOperand), true⟩
    else if x.gp.crew.valid || mine.any (fun f => f.mask != mask || f.ctl != ctl) then
      ⟨s, allEnd act (.fault cCrewMismatch), true⟩
    else
      let s1 := if mine.isEmpty then s.modCore c fun k => { k with forms := k.forms ++ [⟨x.run.team, x.run.grp, mask, ctl⟩] } else s
      ⟨s1, allEnd act (.park .form), true⟩) s

/-- The lowest run of granules of the Y-store outside every crew's area (R315). -/
def State.areaFor (s : State) (c n : Nat) : Option Nat :=
  let total := (s.core c).carveBytes 2 / 2048
  (List.range (total + 1 - n)).find? fun o => n ≤ total && !(s.core c).crews.any fun k => overlaps k.base k.count o n

/-- A lane that waits in CREW goes on. -/
def formDone (l : Lane) : Lane :=
  if l.st == .parked .form then
    match l.rep with
    | some i => { l with st := .eligible, rep := some (i + 1) }
    | none => { l with st := .eligible, pc := l.pc + 8 }
  else l

/-- CREW_FORMATION (R315): every group named in a record's mask has one. They differ and trap, or the crew forms on the
lowest area that fits. -/
def execCrewFormation (core k : Nat) (s : State) : Host.Outcome State Fault Refusal :=
  .next (match (s.core core).forms[k]? with
  | none => s
  | some f =>
    let names := (List.range 32).filter fun i => f.mask.getLsbD i
    let recs := (s.core core).forms.filter fun r => r.team == f.team && names.contains r.grp
    if recs.length != names.length then s
    else
      let s0 := s.modCore core fun z => { z with forms := z.forms.filter fun r => !recs.contains r }
      if recs.any fun r => r.mask != f.mask || r.ctl != f.ctl then
        names.foldl (fun u g => u.formTrap f.team cCrewMismatch g) s0
      else if 4 ≤ (s.core core).crews.length || !s.lockRoom core 1 then s
      else
        let count := (f.ctl.extractLsb' 0 12).toNat
        match s.areaFor core count with
        | none => names.foldl (fun u g => u.formTrap f.team cYFull g) s0
        | some base =>
          let no := ((List.range 4).find? fun n => !(s.core core).crews.any fun z => z.no == n).getD 0
          let ovf := f.ctl.getLsbD 12
          let crew : Crew := ⟨no, f.team, names, base, count, ovf, [], [], 0, 0, []⟩
          let s1 := s0.modCore core fun z => { z with crews := z.crews ++ [crew] }
          names.foldl (fun u g => u.modGrp f.team g fun y =>
            { y with crew := ⟨f.mask, no, true, ovf, false, 0, false, count, base, count⟩, lanes := y.lanes.map formDone }) s1)

/-! ### Meanings at issue -/

/-- CREW.end (R316). -/
def execCrewEnd (h : Hdr) (s : State) : Host.Outcome State Fault Refusal := issue (.crewEnd h) (crewBody (.crewEnd h)) s

/-- OBRES (R374). -/
def execObres (h : Hdr) (o : BitVec 3) (a b : BitVec 8) (s : State) : Host.Outcome State Fault Refusal :=
  issue (.obres h o a b) (crewBody (.obres h o a b)) s

/-- OBREL (R373). -/
def execObrel (h : Hdr) (o : BitVec 3) (s : State) : Host.Outcome State Fault Refusal :=
  issue (.obrel h o) (crewBody (.obrel h o)) s

/-- UFCFG (R400). -/
def execUfcfg (h : Hdr) (a b : BitVec 8) (s : State) : Host.Outcome State Fault Refusal :=
  issue (.ufcfg h a b) (crewBody (.ufcfg h a b)) s

/-- MMA (R355). -/
def execMma (h : Hdr) (m : BitVec 4) (oa ob : BitVec 3) (c : BitVec 8) (s : State) : Host.Outcome State Fault Refusal :=
  issue (.mma h m oa ob c) (crewBody (.mma h m oa ob c)) s

/-- MMAL (R356). -/
def execMmal (h : Hdr) (d a b : BitVec 4) (s : State) : Host.Outcome State Fault Refusal :=
  issue (.mmal h d a b) (crewBody (.mmal h d a b)) s

/-- MADD (R350). -/
def execMadd (h : Hdr) (d a b : BitVec 4) (s : State) : Host.Outcome State Fault Refusal :=
  issue (.madd h d a b) (crewBody (.madd h d a b)) s

/-- MSCL (R361). -/
def execMscl (h : Hdr) (d a : BitVec 4) (b : BitVec 8) (s : State) : Host.Outcome State Fault Refusal :=
  issue (.mscl h d a b) (crewBody (.mscl h d a b)) s

/-- MDENSE (R352). -/
def execMdense (h : Hdr) (d a : BitVec 4) (s : State) : Host.Outcome State Fault Refusal :=
  issue (.mdense h d a) (crewBody (.mdense h d a)) s

/-- MRCMP (R360). -/
def execMrcmp (h : Hdr) (d a : BitVec 4) (b : BitVec 8) (s : State) : Host.Outcome State Fault Refusal :=
  issue (.mrcmp h d a b) (crewBody (.mrcmp h d a b)) s

/-- MZERO (R363). -/
def execMzero (h : Hdr) (d : BitVec 4) (s : State) : Host.Outcome State Fault Refusal :=
  issue (.mzero h d) (crewBody (.mzero h d)) s

/-- MRANK (R359). -/
def execMrank (h : Hdr) (d : BitVec 8) (a : BitVec 4) (s : State) : Host.Outcome State Fault Refusal :=
  issue (.mrank h d a) (crewBody (.mrank h d a)) s

/-- MLD (R354). -/
def execMld (h : Hdr) (d : BitVec 4) (cur : BitVec 3) (b : BitVec 8) (imm : BitVec 12) (s : State) :
    Host.Outcome State Fault Refusal :=
  issue (.mld h d cur b imm) (crewBody (.mld h d cur b imm)) s

/-- MST (R362). -/
def execMst (h : Hdr) (d : BitVec 4) (cur : BitVec 3) (b : BitVec 8) (imm : BitVec 12) (s : State) :
    Host.Outcome State Fault Refusal :=
  issue (.mst h d cur b imm) (crewBody (.mst h d cur b imm)) s

/-! ### Operand records and the unfolding descriptor (R188, R189, R191) -/

/-- The fields of an operand record (R188). -/
structure ORec where
  store : Nat
  fmt   : Nat
  /-- Block length of the scales, 0 for none. -/
  sblk  : Nat
  cmp   : Bool
  zb    : Bool
  base  : Nat
  len   : Nat
  soff  : Nat
  zoff  : Nat
  kext  : Nat
  deriving DecidableEq, Repr

/-- The fields of a record's 128 bits. -/
def ORec.of (w : BitVec 128) : ORec :=
  let n := (w.extractLsb' 6 2).toNat
  { store := (w.extractLsb' 0 2).toNat, fmt := (w.extractLsb' 2 4).toNat, sblk := if n = 0 then 0 else 16 * 2 ^ n,
    cmp := w.getLsbD 8, zb := w.getLsbD 9, base := (w.extractLsb' 16 23).toNat, len := (w.extractLsb' 39 23).toNat,
    soff := (w.extractLsb' 64 23).toNat, zoff := (w.extractLsb' 87 23).toNat, kext := (w.extractLsb' 110 10).toNat }

/-- Bytes of the scale array that covers a record's range. -/
def ORec.scaleBytes (r : ORec) : Nat := 2 * cdiv (r.len / fmtBytes r.fmt) r.sblk

/-- A record that OBRES accepts (R189, R374). -/
def State.orecOk (s : State) (c : Nat) (w : BitVec 128) : Bool :=
  let r := ORec.of w
  let inRange := fun (o : Nat) => r.base ≤ o && o < r.base + r.len
  let shadow := fun (o n : Nat) => overlaps o n 0x8000 0x8000
  w.extractLsb' 10 6 == 0 && w.extractLsb' 62 2 == 0 && w.extractLsb' 120 8 == 0 && r.store ≤ 1 &&
    (r.fmt == 2 || r.fmt == 3 || r.fmt == 4 || r.fmt == 5 || r.fmt == 6 || r.fmt == 8) && (r.fmt != 8 || s.feat 3) &&
    r.base % 128 == 0 && r.len != 0 && r.len % 128 == 0 && r.soff % 2 == 0 && r.zoff % 8 == 0 &&
    r.base + r.len ≤ (s.core c).carveBytes r.store && (r.sblk == 0 || inRange r.soff) && (!r.zb || inRange r.zoff) &&
    (if r.store = 1 then !r.cmp && !r.zb && r.fmt != 8 && r.kext == 0 else r.kext != 0) &&
    !(r.store == 1 && (s.exchTeam c).isSome &&
      (shadow r.base r.len || (r.sblk != 0 && shadow r.soff r.scaleBytes) || (r.zb && shadow r.zoff 1)))

/-- The unfolding descriptor's fields (R191). -/
structure Unf where
  ch : Nat
  kh : Nat
  kw : Nat
  sh : Nat
  sw : Nat
  dh : Nat
  dw : Nat
  pt : Nat
  pl : Nat
  ih : Nat
  iw : Nat
  oh : Nat
  ow : Nat
  deriving DecidableEq, Repr

/-- The fields of the two words. -/
def Unf.of (w0 w1 : BitVec 64) : Unf :=
  let f := fun (w : BitVec 64) (lo n : Nat) => (w.extractLsb' lo n).toNat
  { ch := 32 * f w0 0 8, kh := f w0 8 4, kw := f w0 12 4, sh := f w0 16 4, sw := f w0 20 4, dh := f w0 24 4, dw := f w0 28 4,
    pt := f w0 32 4, pl := f w0 36 4, ih := f w0 40 12, iw := f w0 52 12, oh := f w1 0 12, ow := f w1 12 12 }

/-- A descriptor that UFCFG accepts (R191); reserved bits are ignored (R6). -/
def unfOk (w0 w1 : BitVec 64) : Bool :=
  let u := Unf.of w0 w1
  [u.ch, u.kh, u.kw, u.sh, u.sw, u.dh, u.dw, u.ih, u.iw, u.oh, u.ow].all fun n => n != 0

/-! ### MMA (R152, R153, R190, R192, R193, R355) -/

/-- The accepted format pairs (R190). -/
def mmaPair (a b : Nat) : Bool :=
  (a == 3 && b == 3) || (a == 2 && b == 2) || (a == 6 && b == 6) ||
    ((a == 4 || a == 5) && (b == 4 || b == 5 || b == 8))

/-- The operand bytes of a range: raw, or the expanded image of elision form (R193). -/
def State.operandByte (s : State) (c : Nat) (r : ORec) (o : Nat) : BitVec 8 :=
  if r.cmp then elidedByte ((s.core c).pool r.store) r.base o else ((s.core c).pool r.store).read (r.base + o)

/-- An element's value with its block scale (R145, R192). -/
def State.operandElem (s : State) (c : Nat) (r : ORec) (e : Nat) : FV :=
  let es := fmtBytes r.fmt
  let v := fmtValue r.fmt (leNat ((List.range es).map fun i => s.operandByte c r (e * es + i)))
  if r.sblk = 0 then v
  else
    let sc := leNat (((s.core c).pool r.store).readN (r.soff + 2 * (e / r.sblk)) 2)
    (fvMul v (FF.bf16.decode sc)).1

/-- Element (i, k) of the virtual A operand (R192). -/
def State.elemA (s : State) (c : Nat) (r : ORec) (u : Unf) (p0 i k : Nat) : FV :=
  let o := p0 + i
  let tap := k / u.ch
  let iy : Int := ((o / u.ow * u.sh + tap / u.kw * u.dh : Nat) : Int) - u.pt
  let ix : Int := ((o % u.ow * u.sw + tap % u.kw * u.dw : Nat) : Int) - u.pl
  if u.oh * u.ow ≤ o || iy < 0 || (u.ih : Int) ≤ iy || ix < 0 || (u.iw : Int) ≤ ix then .fin false 0 0
  else s.operandElem c r ((iy.toNat * u.iw + ix.toNat) * u.ch + k % u.ch)

/-- The block of B that holds (k, j) is marked all-zero (R193). -/
def State.skipped (s : State) (c : Nat) (r : ORec) (k j : Nat) : Bool :=
  r.zb && bit (((s.core c).pool r.store).read (r.zoff + k / 8)).toNat (j / 8)

/-- The bytes of A that MMA can address (R192). -/
def Unf.bytes (u : Unf) (r : ORec) : Nat := u.ih * u.iw * u.ch * fmtBytes r.fmt

/-- The image of B, and its bitmap, lie within its range (R193). -/
def State.imageFits (s : State) (c : Nat) (r : ORec) : Bool :=
  let k := 32 * r.kext
  let n := k * 64 * fmtBytes r.fmt
  let tiles := cdiv n 4096
  (!r.zb || r.zoff + k / 8 ≤ r.base + r.len) &&
    (if r.cmp then
      4 * tiles ≤ r.len && (List.range tiles).all fun i =>
        let e := leNat (((s.core c).pool r.store).readN (r.base + 4 * i) 4)
        bits e 0 24 + 64 + 64 * bits e 24 7 ≤ r.len
    else n ≤ r.len)

/-- One k-group's exact sum at (i, j) (R152). -/
def groupSum (a : List FV) (b : List FV) (skip : List Bool) : FV :=
  fvSum 0 ((List.zip (List.zip a b) skip).map fun p => if p.2 then .fin false 0 0 else (fvMul p.1.1 p.1.2).1)

/-- The k-group's sums over the 64 × 64 tile. -/
def State.kgroup (s : State) (c : Nat) (ra rb : ORec) (u : Unf) (p0 q : Nat) : List FV :=
  let k := 32 * rb.kext
  let ks := (List.range 32).map fun i => 32 * q + i
  let rows := (List.range 64).map fun i => ks.map fun kk => s.elemA c ra u p0 i kk
  let cols := (List.range 64).map fun j => (ks.map (fun kk => s.operandElem c rb (j * k + kk)), ks.map fun kk => s.skipped c rb kk j)
  rows.flatMap fun r => cols.map fun p => groupSum r p.1 p.2

/-- An exact integer sum of a k-group. -/
def intOf (v : FV) : Int :=
  match v with
  | .fin n m e => let a : Int := (m * 2 ^ e.toNat : Nat); if n then -a else a
  | _ => 0

/-- Saturation to 32 bits, and whether it happened (R153). -/
def saturate32 (x : Int) : Int × Bool :=
  if x < -(2 ^ 31) then (-(2 ^ 31), true) else if 2 ^ 31 - 1 < x then (2 ^ 31 - 1, true) else (x, false)

/-- What the accumulation gives: the tile and whether it saturated, or NANINFO of the first NaN. -/
inductive Acc where
  | ok (c : List (BitVec 32)) (sat : Bool)
  | nan (info : Nat)
  deriving DecidableEq, Repr

/-- The k-groups from `q` on are accumulated (R152, R153); with the NaN trap it stops before an update that would write a
NaN (R159). -/
def State.accumulate (s : State) (c : Nat) (ra rb : ORec) (u : Unf) (p0 rm : Nat) (int nantrap : Bool) (q : Nat)
    (t : List (BitVec 32)) (sat : Bool) : Nat → Acc
  | 0 => .ok t sat
  | n + 1 =>
    let sums := s.kgroup c ra rb u p0 q
    if int then
      let r := List.zipWith (fun (b : BitVec 32) v => saturate32 (b.toInt + intOf v)) t sums
      s.accumulate c ra rb u p0 rm int nantrap (q + 1) (r.map fun p => BitVec.ofInt 32 p.1) (sat || r.any (·.2)) n
    else
      let r := List.zipWith (fun (b : BitVec 32) v => toF32 rm (fvAdd rm (FF.f32.decode b.toNat) v).1) t sums
      match (if nantrap then firstNan r else none) with
      | some i => .nan (1 + i / 64 * 4 + i % 64 * 256 + q % 65536 * 2 ^ 14)
      | none => s.accumulate c ra rb u p0 rm int nantrap (q + 1) r sat n

/-! ### What an instruction does when the engine starts it (R186, R348) -/

/-- The outcome of a start. -/
inductive JobR where
  /-- It must wait; the state has what the attempt reported. -/
  | wait (s : State)
  /-- It is parked on a translation fault of a page (R105). -/
  | parked (s : State) (page : Nat)
  /-- Every member traps (R234). -/
  | trap (s : State) (cause : Nat)
  /-- A poisoned byte was read (R241). -/
  | poison (s : State)
  | ok (s : State) (j : Job)

/-- A matrix register of a crew. -/
def Crew.reg (k : Crew) (n : BitVec 4) : MReg := k.m.getD n.toNat MReg.zero

/-- The granules free in a crew's area (R185). -/
def Crew.freeGran (k : Crew) : Nat := k.count - (k.m.foldl (fun n p => n + p.2.granules) 0)

/-- A result takes its granules (R198): it fits the free ones with those of the old content. -/
def Crew.fits (k : Crew) (d : BitVec 4) (r : MReg) : Bool := r.granules ≤ k.freeGran + (k.reg d).granules

/-- A result of a crew instruction that may produce a NaN (R159, R198). -/
def State.jobRes (s : State) (j : Job) (k : Crew) (d : BitVec 4) (r : MReg) (nan : Bool) : JobR :=
  match (if nan && j.nantrap then r.nanInfo else none) with
  | some info => .trap (k.members.foldl (fun u g => u.modGrp k.team g fun y => { y with naninfo := BitVec.ofNat 32 info }) s) cNan
  | none => if k.fits d r then .ok s { j with res := some (d.toNat, r) } else .trap s cYFull

/-- The context of a member's pack, for the addresses and registers of a crew instruction (R78, R201). -/
def recCtx (c t : Nat) (x : Team) (y : Group) (r : LatchRec) : Ctx := ⟨⟨c, 0, t, r.grp, r.lanes, none, 0, [], none⟩, x, y⟩

/-- The same for the engine's own accesses for an instruction. -/
def Job.ctx (j : Job) (x : Ctx) : Ctx := { x with run := { x.run with grp := 64 + j.id } }

/-- The VA of a matrix image (R201, R354): the address of width 64, and the bounds of the cursor in bytes. -/
def imageVa (x : Ctx) (l : Nat) (cur : BitVec 3) (b : BitVec 8) (imm : BitVec 12) : LM Nat := do
  let z := x.lane l
  lmAddr x (z.cur cur.toNat) (signed (z.get false b.toNat) 32) imm.toInt 64

/-- The end of the bounds of a cursor. -/
def imageEnd (x : Ctx) (l : Nat) (cur : BitVec 3) : LM Nat := do
  let k := Cur.of ((x.lane l).cur cur.toNat)
  let v ← lmLevel x k.handle k.level
  pure (min (v.vbase + k.hi * v.esize) (2 ^ 56))

/-- A member's access in flight that the engine's access must follow (R111). -/
def State.imageWaits (s : State) (j : Job) (pa n : Nat) (write : Bool) : Bool :=
  s.ops.any fun o => o.team == j.team && o.id < j.id && j.recs.any (fun r => r.grp == o.grp) &&
    (overlaps o.pa o.width pa n || (write && (o.kind == .load || o.kind == .atomic || o.kind == .presence)))

/-- 64-byte pieces of an image, translated and checked (R104, R107, R201). -/
def imagePieces (x : Ctx) (j : Job) (va kind : Nat) : Nat → LM (List (TlbE × Nat))
  | 0 => pure []
  | n + 1 => do
    let r ← lmXlate x va kind 64
    lmStopIf (fun s => s.imageWaits j r.2 64 (kind == 1)) fun s => .wait (.laneOps s.nextId)
    let t ← imagePieces x j (va + 64) kind n
    pure ((r.1, va) :: t)

/-- The bytes of an image's pieces, read as loads of the member group (R201). -/
def imageBytes (x : Ctx) : List (TlbE × Nat) → LM (List (BitVec 8))
  | [] => pure []
  | p :: t => do
    let b ← lmFetch x 0 p.2 p.1 64 .load
    let r ← imageBytes x t
    pure (b ++ r)

/-- The image's rank and contents from its bytes after the header. -/
def mregOfBytes (rank : Nat) (b : List (BitVec 8)) : MReg :=
  let words := fun (o n : Nat) => (List.range n).map fun i => BitVec.ofNat 32 (leNat ((b.drop (o + 4 * i)).take 4))
  if rank = 63 then ⟨63, words 0 4096, []⟩ else if rank = 0 then MReg.zero
  else ⟨rank, words 0 (64 * rank), words (256 * rank) (64 * rank)⟩

/-- The bytes of an image (R201, R362). -/
def MReg.image (r : MReg) : List (BitVec 8) :=
  BitVec.ofNat 8 r.rank :: (List.replicate 63 0 ++ (r.u ++ r.v).flatMap fun w => leBytes 4 w.toNat)

/-- The length of an image by the rank in its header (R201). -/
def imageLen (rank : Nat) : Nat := if rank = 63 then 64 + 16384 else 64 + 512 * rank

/-- MLD's part: header, checks, contents (R354). -/
def mldPart (x : Ctx) (j : Job) (k : Crew) (l : Nat) (d : BitVec 4) (cur : BitVec 3) (b : BitVec 8) (imm : BitVec 12) :
    LM (MReg × Nat × Nat) := do
  let va ← imageVa x l cur b imm
  let hd ← imagePieces x j va 0 1
  let hb ← imageBytes x hd
  let hw := leNat hb
  let rank := hw % 64
  let feat ← lmGet fun s => s.feat 2
  if hw / 64 != 0 || (33 ≤ rank && rank ≤ 62) || (1 ≤ rank && rank ≤ 32 && !feat) then lmFault cImage
  else
    let len := imageLen rank
    let e ← imageEnd x l cur
    if e < va + len then lmFault cCursorBound
    else if !k.fits d ⟨rank, [], []⟩ then lmFault cYFull
    else
      let ps ← imagePieces x j va 0 (len / 64)
      let bytes ← imageBytes x ps
      pure (mregOfBytes rank (bytes.drop 64), va, len)

/-- MST's part: checks, and the pieces to be stored (R362). -/
def mstPart (x : Ctx) (j : Job) (r : MReg) (l : Nat) (cur : BitVec 3) (b : BitVec 8) (imm : BitVec 12) :
    LM (List (TlbE × Nat × List (BitVec 8)) × Nat × Nat) := do
  let va ← imageVa x l cur b imm
  let bytes := r.image
  let e ← imageEnd x l cur
  if e < va + bytes.length then lmFault cCursorBound
  else
    let ps ← imagePieces x j va 1 (bytes.length / 64)
    pure ((List.range ps.length).filterMap fun i => (ps[i]?).map fun p => (p.1, p.2, (bytes.drop (64 * i)).take 64), va, bytes.length)

/-- A stop of an image's access (R105, R201, R348): a missed translation is walked for, a translation fault is reported and waited for, a refusal is reported
and traps. -/
def State.imageStop (s : State) (x : Ctx) : LStop → JobR
  | .xlate va kind c => .parked (s.reportXlate va c x.tm.id.asid kind x.tm.core false) (pageOf va)
  | .refused va kind => .trap (s.pushFault va cRefused x.tm.id.asid kind x.tm.core) cRefused
  | .fault c => .trap s c
  | .poison => .poison s
  | .miss va kind => .wait (s.addMiss x.tm.core x.tm.id.asid va kind false)
  | .wait _ => .wait s
  | .grant cycle spent claimed paid => .wait (LStop.after (.grant cycle spent claimed paid) s)
  | .far o n => .wait (s.askFar o n)

/-- MMA at its start (R355). -/
def State.mmaStart (s : State) (x : Ctx) (j : Job) (k : Crew) (m : BitVec 4) (oa ob : BitVec 3) (p0 : Nat) : JobR :=
  let c := x.tm.core
  match k.slots.get? oa.toNat, k.slots.get? ob.toNat with
  | some wa, some wb =>
    let ra := ORec.of wa
    let rb := ORec.of wb
    let u := Unf.of k.uf0 k.uf1
    let int := ra.fmt == 6 && rb.fmt == 6 && ra.sblk == 0 && rb.sblk == 0
    let old := k.reg m
    let kk := 32 * rb.kext
    if ra.store != 1 || rb.store != 0 || !mmaPair ra.fmt rb.fmt then .trap s cOperand
    else if int && old.rank != 63 && old.rank != 0 then .trap s cOperand
    else if u.ch == 0 || u.kh * u.kw * u.ch != kk || ra.len < u.bytes ra || (!rb.cmp && !s.imageFits c rb) then .trap s cOperand
    else
      let g := low k.members
      let n := kk * 64 * fmtBytes rb.fmt
      let present := s.poolReady c 1 ra.base (u.bytes ra) k.team g &&
        s.poolReady c 0 rb.base (if rb.cmp then n else rb.len) k.team g &&
        (ra.sblk == 0 || s.poolReady c 1 ra.soff ra.scaleBytes k.team g) &&
        (rb.sblk == 0 || s.poolReady c 0 rb.soff (2 * cdiv (kk * 64) rb.sblk) k.team g) &&
        (!rb.zb || s.poolReady c 0 rb.zoff (kk / 8) k.team g)
      -- the offset table of a compressed image is checked once its bytes are present (R131, R193)
      if s.poolReady c 0 rb.base n k.team g && !s.imageFits c rb then .trap s cOperand
      else if !k.fits m ⟨63, [], []⟩ then .trap s cYFull
      else if !present then .wait s
      else
        let t0 := if old.rank = 63 then old.u else if old.rank = 0 then List.replicate 4096 0 else old.dense j.rm.toNat
        match s.accumulate c ra rb u p0 j.rm.toNat int j.nantrap 0 t0 false rb.kext with
        | .nan info => .trap (k.members.foldl (fun v g => v.modGrp k.team g fun y => { y with naninfo := BitVec.ofNat 32 info }) s) cNan
        | .ok t sat =>
          let s1 := if sat then k.members.foldl (fun v g => v.modGrp k.team g fun y => y.raise s.time (BitVec.ofNat 6 fSAT)) s
            else s
          .ok s1 { j with res := some (m.toNat, ⟨63, t, []⟩) }
  | _, _ => .trap s cOperand

/-- An instruction's image is the one range it holds (R195, R362). -/
def State.relock (s : State) (c op asid va len : Nat) (dst : Bool) : State := (s.unlock c op).lock c op 0 asid va len dst

/-- The image that MLD or MST holds from its rendezvous on (R195, R362), once its address is known: its length by the header, as it
stands where a page maps it, or by the register's rank. -/
def State.imageRange (s : State) (x : Ctx) (l : Nat) (k : Crew) (i : Instr) : Option (Nat × Nat × Bool) :=
  match i with
  | .mld _ _ cur b imm =>
    (match imageVa x l cur b imm s with
     | .ok (va, s1) => some (va, imageLen ((s1.see x va 1).getD 0 % 64), false)
     | .error _ => none)
  | .mst _ d cur b imm =>
    (match imageVa x l cur b imm s with
     | .ok (va, _) => some (va, imageLen (k.reg d).rank, true)
     | .error _ => none)
  | _ => none

/-- The image's range is set to what the attempt to start the instruction finds, though it then waits (R195). -/
def State.rerange (s : State) (x : Ctx) (l : Nat) (j : Job) (k : Crew) : State :=
  match s.imageRange x l k j.instr with
  | some (va, n, dst) => s.relock x.tm.core j.id x.tm.id.asid va n dst
  | none => s

/-- What an instruction does when the engine starts it. `x` and `l` are the pack and lane whose registers are read (R78). -/
def State.jobStart (s : State) (x : Ctx) (l : Nat) (j : Job) (k : Crew) : JobR :=
  let c := x.tm.core
  let rd := fun (r : BitVec 8) => (x.lane l).get false r.toNat
  let rd64 := fun (r : BitVec 8) => BitVec.ofNat 64 ((x.lane l).get64 false r.toNat)
  let rm := j.rm.toNat
  match j.instr with
  | .crewEnd _ => .ok (s.dissolve c k) j
  | .obres _ o a b =>
    let w := rd64 b ++ rd64 a
    if s.orecOk c w then .ok (s.modCrew c k.no fun z => { z with slots := z.slots.set o.toNat w }) j else .trap s cOperand
  | .obrel _ o => .ok (s.modCrew c k.no fun z => { z with slots := z.slots.erase o.toNat }) j
  | .ufcfg _ a b =>
    if unfOk (rd64 a) (rd64 b) then .ok (s.modCrew c k.no fun z => { z with uf0 := rd64 a, uf1 := rd64 b }) j
    else .trap s cOperand
  | .mma _ m oa ob p => s.mmaStart x j k m oa ob (rd p)
  | .mmal _ d a b => s.jobRes j k d (mmalRes rm (k.reg a) (k.reg b)) true
  | .madd _ d a b =>
    match maddRes rm k.ovf (k.reg a) (k.reg b) with
    | none => .trap s cRank
    | some (r, fell) =>
      s.jobRes { j with fell := some fell } k d r (r.rank == 63 && (k.reg a).rank != 0 && (k.reg b).rank != 0)
  | .mscl _ d a b => s.jobRes j k d (msclRes rm (rd b) (k.reg a)) true
  | .mdense _ d a => s.jobRes j k d ⟨63, (k.reg a).dense rm, []⟩ ((k.reg a).rank != 63)
  | .mrcmp _ d a b =>
    let r := mrcmpRes (k.reg a) (rd b)
    s.jobRes { j with kept := some r.2 } k d r.1 false
  | .mzero _ d => .ok s { j with res := some (d.toNat, MReg.zero) }
  | .mrank _ d a =>
    let v := (k.reg a).rank
    .ok (j.recs.foldl (fun u r => r.act.foldl (fun w q => (w.addPend j.team r.grp q [(.g d.toNat, v)] true none).2) u) s) j
  | .mld _ d cur b imm =>
    match mldPart (j.ctx x) j k l d cur b imm s with
    | .ok ((r, va, len), s1) => .ok (s1.relock c j.id x.tm.id.asid va len false) { j with res := some (d.toNat, r) }
    | .error e => (s.rerange x l j k).imageStop x e
  | .mst _ d cur b imm =>
    match mstPart (j.ctx x) j (k.reg d) l cur b imm s with
    | .ok ((img, va, len), s1) => .ok (s1.relock c j.id x.tm.id.asid va len true) { j with img }
    | .error e => (s.rerange x l j k).imageStop x e
  | _ => .ok s j

/-! ### Rendezvous, start and completion -/

/-- The source ranges MMA holds from its rendezvous on (R195): space, base, length. -/
def mmaRanges (k : Crew) : Instr → List (Nat × Nat × Nat)
  | .mma _ _ oa ob _ =>
    match k.slots.get? oa.toNat, k.slots.get? ob.toNat with
    | some wa, some wb =>
      let ra := ORec.of wa
      let rb := ORec.of wb
      let n := min ra.len ((Unf.of k.uf0 k.uf1).bytes ra)
      (if n = 0 then [] else [(spaceOf ra.store, ra.base, n)]) ++ [(spaceOf rb.store, rb.base, rb.len)]
    | _, _ => []
  | _ => []

/-- The scale array of A that MMA still has to read (R195). -/
def mmaScales (k : Crew) : Instr → List (Nat × Nat × Nat)
  | .mma _ _ oa _ _ =>
    match k.slots.get? oa.toNat with
    | some wa => if (ORec.of wa).sblk = 0 then [] else [((ORec.of wa).store, (ORec.of wa).soff, (ORec.of wa).scaleBytes)]
    | none => []
  | _ => []

/-- The crew of an instruction in the engine. -/
def State.jobCrew (s : State) (c : Nat) (j : Job) : Option Crew :=
  (s.core c).crews.find? fun k => k.team == j.team && k.no == j.crew

/-- The result of an instruction stands in its crew's register. -/
def State.jobWrite (s : State) (c : Nat) (j : Job) : State :=
  match s.jobCrew c j, j.res with
  | some k, some (d, r) => s.modCrew c k.no fun z => { z with m := z.m.set d r }
  | _, _ => s

/-- What an instruction in the engine will have done once it completes, as far as its operands decide it now; a tile that it still
waits for counts as dense. -/
def State.jobAhead (s : State) (c : Nat) (j : Job) : State :=
  if j.started then s.jobWrite c j
  else
    match s.jobCrew c j, s.team? j.team, j.recs.head? with
    | some k, some x, some r0 =>
      (match x.grp? r0.grp with
       | none => s
       | some y =>
         match s.jobStart (recCtx c j.team x y r0) (low r0.act) j k with
         | .ok u q => u.jobWrite c q
         | .wait _ | .parked _ _ =>
           (match j.instr with
            | .mma _ d _ _ _ | .mld _ d _ _ _ => s.jobWrite c { j with res := some (d.toNat, ⟨63, [], []⟩) }
            | _ => s)
         | .trap _ _ | .poison _ => s)
    | _, _, _ => s

/-- A crew as the instructions of its queue will leave it, by which a new one's ranges are known (R195). -/
def State.ahead (s : State) (c : Nat) (k : Crew) : Crew :=
  let mine := (s.core c).engine.filter fun j => j.team == k.team && j.crew == k.no
  if mine.isEmpty then k
  else (((mine.foldl (fun u j => u.jobAhead c j) s).core c).crews.find? fun z => z.no == k.no).getD k

/-- An instruction joins the engine's queue behind those of earlier cycles and of lower-numbered crews (R186). -/
def enqueueJob (j : Job) : List Job → List Job
  | [] => [j]
  | q :: t => if !q.started && q.cycle == j.cycle && j.crew < q.crew then j :: q :: t else q :: enqueueJob j t

/-- A member of a crew is speculative: its crew instructions park until the verdict (R223). -/
def State.specMember (s : State) (k : Crew) : Bool :=
  k.members.any fun m => match s.grp? k.team m with | some y => y.spec | none => false

/-- The layout record that gives an image's address is to be walked for before the rendezvous (R104, R195). -/
def State.imageMiss (s : State) (x : Ctx) (l : Nat) : Instr → Option State
  | .mld _ _ cur b imm | .mst _ _ cur b imm =>
    (match imageVa x l cur b imm s with
     | .error (.miss va kind) => some (s.addMiss x.tm.core x.tm.id.asid va kind false)
     | _ => none)
  | _ => none

/-- CREW_RENDEZVOUS (R78): every member has a record; the instruction joins the engine's queue, or, where no guard passed,
the packs go on. -/
def execCrewRendezvous (core crew : Nat) (s : State) : Host.Outcome State Fault Refusal :=
  .next (match (s.core core).crews.find? fun k => k.no == crew with
  | none => s
  | some k =>
    let recs := sortBy (·.grp) k.latch
    match recs with
    | [] => s
    | r0 :: _ =>
      if !(k.members.all fun m => recs.any fun r => r.grp == m) || s.specMember k then s
      else
        let s1 := s.modCrew core k.no fun z => { z with latch := [] }
        let ka := s.ahead core k
        let ranges := mmaRanges ka r0.instr
        if r0.act.isEmpty then s1.releaseRecs k.team recs
        else if !s.lockRoom core (max ranges.length (b2n (isImage r0.instr))) then s
        else
          match s.team? k.team, s.grp? k.team r0.grp with
          | some x0, some y =>
            let x := x0.atIssue s.time
            let rx := recCtx core k.team x y r0
            (match s.imageMiss rx (low r0.act) r0.instr with
             | some u => u
             | none =>
               let j : Job :=
                 { id := s.nextId, team := k.team, crew := k.no, recs, instr := r0.instr, rm := x.rm, nantrap := x.nantrap, started := false
                   cycle := cycleOf s.time, res := none, kept := none, fell := none, img := [], parked := none, reads := mmaScales ka r0.instr }
               let s2 := State.modCore { s1 with nextId := s1.nextId + 1 } core fun z => { z with engine := enqueueJob j z.engine }
               let s3 := ranges.foldl (fun u p => u.lock core j.id p.1 0 p.2.1 p.2.2 false) s2
               match s3.imageRange rx (low r0.act) ka r0.instr with
               | some (va, n, dst) => s3.lock core j.id 0 x.id.asid va n dst
               | none => s3)
          | _, _ => s)

/-- An instruction leaves the engine: its ranges are released and TILES falls (R81, R122). -/
def State.endJob (s : State) (c : Nat) (j : Job) : State :=
  j.recs.foldl (fun u r => u.decTok? j.team r.grp r.tok)
    (((s.unlock c j.id).dropFarOf j.team (64 + j.id)).modCore c fun z => { z with engine := z.engine.filter fun q => q.id != j.id })

/-- MATRIX_ENGINE_START (R186, R348): the engine starts the instruction at the head of its queue. -/
def execMatrixEngineStart (core : Nat) (s : State) : Host.Outcome State Fault Refusal :=
  .next (match (s.core core).engine.head? with
  | none => s
  | some j =>
    if j.started || j.cycle == cycleOf s.time then s
    else
      match s.jobCrew core j, s.team? j.team, j.recs.head? with
      | some k, some x, some r0 =>
        (match x.grp? r0.grp with
         | none => s
         | some y =>
           match s.jobStart (recCtx core j.team x y r0) (low r0.act) j k with
           | .wait s1 => s1
           | .parked s1 p => s1.modCore core fun z => { z with engine := z.engine.map fun q =>
               if q.id = j.id then { q with parked := some p } else q }
           | .poison s1 => s1.killTeam j.team cEcc (y.lane (low r0.lanes)).pc.toNat
           | .trap s1 c =>
             let s2 := ((s1.unlock core j.id).dropFarOf j.team (64 + j.id)).modCore core fun z =>
               { z with engine := z.engine.filter fun q => q.id != j.id }
             j.recs.foldl (fun u r => u.latchTrap j.team c r) s2
           | .ok s1 j1 =>
             let s2 := s1.modCore core fun z => { z with engine := z.engine.map fun q => if q.id = j.id then { j1 with started := true } else q }
             if j.late then s2 else s2.releaseRecs j.team j.recs)
      | _, _, _ => s.endJob core j)

/-- One piece of an image is stored at its L2 home for every member group (R186, R201). -/
def State.imagePut (s : State) (x : Ctx) (j : Job) (p : TlbE × Nat × List (BitVec 8)) : State :=
  let pa := p.1.phys p.2.1
  let c := x.tm.core
  match regionOf pa with
  | .dram =>
    let s0 := (s.homeBytes c pa 64 p.1.attr 3).2
    let s1 := s0.homeWrite c j.team x.run.grp pa p.1.attr 3 p.2.2
    let w := match s1.grp? j.team x.run.grp with
      | some y => y.kwct
      | none => 0
    j.recs.foldl (fun u r => (u.kwct j.team r.grp w).addPath j.team r.grp (u.sliceOf (dieOf c) pa)) s1
  | _ =>
    (List.range (cdiv p.2.2.length 8)).foldl (fun u k =>
      let part := (p.2.2.drop (8 * k)).take 8
      u.addOp { Op.mk0 x (64 + j.id) .store (p.2.1 + 8 * k) p.1 part.length with data := BitVec.ofNat 64 (leNat part) }) s

/-- The status a completed instruction leaves in every member (R185). -/
def State.crewStatus (s : State) (c : Nat) (j : Job) (k : Crew) : State :=
  k.members.foldl (fun u g => u.modGrp k.team g fun y =>
    let m := y.crew
    let m1 := match j.kept with | some p => { m with keptDense := p.1, lastK := p.2 } | none => m
    let m2 := match j.fell with | some b => { m1 with fellBack := b } | none => m1
    { y with crew := { m2 with free := match s.jobCrew c j with | some z => z.freeGran | none => m2.free } }) s

/-- Stores of an image at targets outside DRAM are on their way (R78, R97): its lane's number names the instruction. -/
def State.imageOut (s : State) (j : Job) : Bool := s.ops.any fun o => o.kind == .store && o.team == j.team && o.lane == 64 + j.id

/-- MATRIX_OP_COMPLETE (R78, R186): the result is written, the status follows, late packs are released. An image with bytes outside
DRAM is sent first, and the instruction completes once those are performed (R78). -/
def execMatrixOpComplete (core : Nat) (s : State) : Host.Outcome State Fault Refusal :=
  .next (match (s.core core).engine.head? with
  | none => s
  | some j =>
    -- an image is stored when the buckets of its lines are at home (R100)
    if !j.started || s.imageOut j || j.img.any (fun p => !s.homeOpen (dieOf core) (p.1.phys p.2.1) p.1.alloc) then s
    else if j.img.any fun p => regionOf (p.1.phys p.2.1) != .dram then
      (match s.team? j.team, j.recs.head? with
       | some x, some r0 =>
         (match x.grp? r0.grp with
          | some y => (j.img.foldl (fun (u : State) p => u.imagePut (recCtx core j.team x y r0) j p) s).modCore core fun z =>
              { z with engine := z.engine.map fun q => if q.id = j.id then { q with img := [] } else q }
          | none => s.endJob core j)
       | _, _ => s.endJob core j)
    else
      let s1 := s.jobWrite core j
      let s2 := match s1.jobCrew core j with
        | some k => s1.crewStatus core j k
        | none => s1
      let s3 := match s.team? j.team, j.recs.head? with
        | some x, some r0 =>
          (match x.grp? r0.grp with
           | some y => j.img.foldl (fun (u : State) p => u.imagePut (recCtx core j.team x y r0) j p) s2
           | none => s2)
        | _, _ => s2
      (if j.late then s3.releaseRecs j.team j.recs else s3).endJob core j)

end Sys2Proof.Machine
end

