-- ==== Sys2Proof/Machine/Named.lean ====
section
/-! DEFINITION. Machine/Named.lean: the instructions of named data and speculation (R203, R204, R206, R209, R212, R213, R218,
R219, R227, R364 to R370). -/
namespace Sys2Proof.Machine
open Sys2Proof

/-! ### Names and lifetimes (R203, R209) -/

/-- The name in three registers: tensor id, tile index and iteration, none when another bit is set (R203). -/
def nameOf (x : Ctx) (l : Nat) (a : BitVec 8) : Option (Nat × Nat × Nat) :=
  let z := x.lane l
  let t := z.get x.front a.toNat
  let i := z.get x.front (a.toNat + 1)
  let n := z.get x.front (a.toNat + 2)
  if t < 2 ^ 20 ∧ i < 2 ^ 32 ∧ n < 2 ^ 24 then some (t, i, n) else none

/-- The tick at which an interest issued now expires (R209). -/
def expiryOf (s : State) (x : Ctx) (l : Nat) (b : BitVec 8) : Nat :=
  s.time + max ((x.lane l).get x.front b.toNat % 2 ^ 32) 1

/-! ### NSUB (R209, R369) -/

/-- An entry of the speculation table is valid (R219): a field of it other than INDEX, and than the reserved bit 47, is not 0. -/
def SEnt.valid (e : SEnt) : Bool := e.a &&& ~~~(0xF000_0000_0000 : BitVec 64) != 0 || e.b != 0

/-- The entry of the speculation table for a tensor id (R219). -/
def Team.sentOf (x : Team) (t : Nat) : Option SEnt :=
  (List.range 8).findSome? fun k =>
    match x.stab.get? k with
    | some e => if e.valid && (e.a.extractLsb' 0 20).toNat ≤ t && t ≤ (e.a.extractLsb' 20 20).toNat then some e else none
    | none => none

/-- What a .spec interest keeps (R219): the policy, format, patience and tolerances in force, and its histories. -/
def specInfo (x : Team) (t h1 h2 : Nat) : SpecInfo :=
  match x.sentOf t with
  | some e =>
    { policy := (e.a.extractLsb' 40 2).toNat, fmt := (e.a.extractLsb' 42 2).toNat,
      patience := 16 * (e.a.extractLsb' 48 16).toNat, abs := e.b.extractLsb' 0 32, rel := e.b.extractLsb' 32 32, h1, h2 }
  | none => ⟨0, 0, 0, 0, 0, h1, h2⟩

/-- A window that holds 4 KiB tiles compressed, whose expanded image cannot be named (R209, R366). -/
def Win.zipped (v : Win) : Bool := v.store == 0 && v.elided

/-- The checks of R209 and R369: a name, or a cause. -/
def nsubCheck (x : Ctx) (l w : Nat) (a : BitVec 8) (hist : Option (Nat × Nat)) : Except Nat (Nat × Nat × Nat) :=
  match nameOf x l a with
  | none => .error cName
  | some n =>
    match x.tm.win? w with
    | none => .error cUndeclared
    | some v =>
      match hist with
      | none => if v.zipped then .error cWinInvalid else .ok n
      | some (h1, h2) =>
        if (x.tm.win? h1).isNone || (x.tm.win? h2).isNone then .error cUndeclared
        else if v.zipped || h1 = w || h2 = w || h1 = h2 then .error cWinInvalid
        else .ok n

/-- What NSUB waits for (R81, R209): the counter, the window, a delivery in progress and room in the list. -/
def nsubWait (s : State) (x : Ctx) (w : Nat) : Option Wait :=
  if ctrMax 2 ≤ x.gp.copies then some (.room 2)
  else if !s.winFree x.tm w 3 then some (.window w 3)
  else
    let mine := x.tm.entryOf w
    if (mine.map (·.header)).getD false then some (.cancel w)
    else if mine.isNone && 64 ≤ x.tm.ilist.length then some .ilist
    else none

/-- The interest itself (R209): the window fills, the entry is listed and counted, and a packet goes to the router above. -/
def State.subscribe (s : State) (x : Ctx) (w bar : Nat) (n : Nat × Nat × Nat) (expiry : Nat) (spec : Option SpecInfo) : State :=
  let t := x.run.team
  let s0 : State := match x.tm.entryOf w with
    | some e => s.cancelEntry t e
    | none => s
  let (tok, s1) := s0.newTok t x.run.grp 2 1
  let e : IEnt :=
    { t := n.1, i := n.2.1, n := n.2.2, win := w, bar, expiry, issued := s.time, grp := x.run.grp, tok, spec,
      header := false, pred := 0, stag := none, ncan := [] }
  let s2 := s1.setWin t w fun v => { v with st := .filling, pres := 0, level := 0, stag := none }
  let s3 := s2.onTeam x fun m => { m with ilist := m.ilist ++ [e] }
  s3.send { Packet.mk0 .interest n.1 n.2.1 n.2.2 with
    expiry, specok := spec.isSome, at_ := .router (routerOf x.tm.core) 5 }

/-- NSUB and NSUB.spec (R209). -/
def nsubBody (w bar : Nat) (a b : BitVec 8) (hist : Option (Nat × Nat)) : Body := fun x act s =>
  let l := low act
  match nsubCheck x l w a hist with
  | .error c => ⟨s, allEnd act (.fault c), true⟩
  | .ok n =>
    match nsubWait s x w with
    | some k => ⟨s, allEnd act (.park k), true⟩
    | none => ⟨s.subscribe x w bar n (expiryOf s x l b) (hist.map fun h => specInfo x.tm n.1 h.1 h.2), [], false⟩

/-- NSUB (R369). -/
def execNsub (h : Hdr) (w : BitVec 5) (a b : BitVec 8) (n : BitVec 4) (s : State) : Host.Outcome State Fault Refusal :=
  issue (.nsub h w a b n) (nsubBody w.toNat n.toNat a b none) s

/-- NSUB.spec (R369). -/
def execNsubSpec (h : Hdr) (w : BitVec 5) (a b : BitVec 8) (n : BitVec 4) (h1 h2 : BitVec 5) (s : State) :
    Host.Outcome State Fault Refusal :=
  issue (.nsubSpec h w a b n h1 h2) (nsubBody w.toNat n.toNat a b (some (h1.toNat, h2.toNat))) s

/-- NSUB.warm (R209): the interest enters the core's router on port 0, and is counted until its tile is stored there or it
expires. -/
def execNsubWarm (h : Hdr) (a b : BitVec 8) (s : State) : Host.Outcome State Fault Refusal :=
  issue (.nsubWarm h a b) (fun x act s =>
    let l := low act
    match nameOf x l a with
    | none => ⟨s, allEnd act (.fault cName), true⟩
    | some (t, i, n) =>
      if ctrMax 2 ≤ x.gp.copies then ⟨s, allEnd act (.park (.room 2)), true⟩
      else
        let (tok, s1) := s.newTok x.run.team x.run.grp 2 1
        ⟨s1.send { Packet.mk0 .interest t i n with
           expiry := expiryOf s x l b, warm := true, at_ := .router (routerOf x.tm.core) 0,
           wtok := some (x.run.team, x.run.grp, tok) }, [], false⟩) s

/-! ### NPUB (R126, R213, R366) -/

/-- The publish of this pack that waits for its release. -/
def State.pubOf (s : State) (x : Ctx) (act : List Nat) (w : Nat) : Option Packet :=
  s.packets.find? fun p =>
    p.rel == some (x.pc.toNat, low act, x.run.rep.map (·.ix)) &&
      (match p.src with | some q => q.1 == x.run.team && q.2.1 == x.run.grp && q.2.2.1 == w | none => false)

/-- The checks and waits of NPUB before it begins (R213, R366): the name, or how the pack ends. -/
def npubCheck (s : State) (x : Ctx) (l w : Nat) (a : BitVec 8) : Except LEnd ((Nat × Nat × Nat) × Win) :=
  match nameOf x l a with
  | none => .error (.fault cName)
  | some n =>
    match x.tm.win? w with
    | none => .error (.fault cUndeclared)
    | some v =>
      if v.zipped then .error (.fault cWinInvalid)
      else if 512 < v.lines then .error (.fault cTile)
      else if v.st != .full && !(x.gp.spec && v.owner == some x.run.grp) then .error (.fault cNotFull)
      else if ctrMax 2 ≤ x.gp.copies then .error (.park (.room 2))
      else if !s.lockRoom x.tm.core 1 then .error (.park (.locks 1))
      else .ok (n, v)

/-- A publish begins (R126, R213): the bytes are those at issue, the window becomes a source range, and the publish is
counted. -/
def State.pubBegin (s : State) (x : Ctx) (act : List Nat) (w : Nat) (f : Bool) (n : Nat × Nat × Nat) (v : Win) : State :=
  let t := x.run.team
  let c := x.tm.core
  let (tok, s1) := s.newTok t x.run.grp 2 1
  let id := s1.nextId
  let s2 := s1.send { Packet.mk0 .data n.1 n.2.1 n.2.2 with
    f, data := ((s.core c).pool v.store).readN v.off v.bytes, at_ := .core c, src := some (t, x.run.grp, w, tok),
    rel := some (x.pc.toNat, low act, x.run.rep.map (·.ix)) }
  (s2.lock c id (spaceOf v.store) 0 v.off v.bytes false).setWin t w fun z => { z with unsent := z.unsent + 1 }

/-- The header is sent upward (R213): speculatively for a running task, under a new STAG. -/
def State.pubSend (s : State) (x : Ctx) (p : Packet) : State :=
  let stag := s.nextId % 65536
  let task := x.gp.task
  let s1 := s.send { p with
    src := none, rel := none, at_ := .router (routerOf x.tm.core) 5, spec := task.isSome,
    level := (task.map (·.level)).getD 0, stag := if task.isSome then stag else 0 }
  let s2 := { s1 with packets := s1.packets.map fun (q : Packet) =>
    if q.id = p.id then { q with rel := none, spec := task.isSome } else q }
  s2.onGrp x fun y =>
    { y with task := y.task.map fun k => { k with pubs := k.pubs ++ [⟨p.t, p.i, p.n, stag⟩] } }

/-- NPUB (R366): level 3 waits for the verdict with its check made; then the release at .pkg, then the header. -/
def execNpub (h : Hdr) (f : Bool) (w : BitVec 5) (a : BitVec 8) (s : State) : Host.Outcome State Fault Refusal :=
  issue (.npub h f w a) (fun x act s =>
    let go := fun (u : State) =>
      if (match x.gp.task with | some k => decide (3 ≤ k.level) | none => false) then
        (⟨u, allEnd act (.park .verdict), true⟩ : Res)
      else
        afterFence 4 false (fun x act u => match u.pubOf x act w.toNat with
          | some p => ⟨u.pubSend x p, [], false⟩
          | none => ⟨u, [], false⟩) x act u
    match s.pubOf x act w.toNat with
    | some _ => go s
    | none =>
      match npubCheck s x (low act) w.toNat a with
      | .error e => ⟨s, allEnd act e, true⟩
      | .ok (n, v) => go (s.pubBegin x act w.toNat f n v)) s

/-! ### An entry that ends without a tile (R210, R211, R215, R222) -/

/-- A window's prediction that is being written is abandoned (R215, R220). -/
def State.dropPrediction (s : State) (t w : Nat) : State :=
  match s.team? t with
  | none => s
  | some x =>
    State.modTeam (s.modCore x.core fun c =>
      { c with copies := c.copies.filter fun z => !(z.kind == 1 && z.team == t && z.win == w) }) t fun m =>
      { m with ilist := m.ilist.map fun e => if e.win == w && e.pred == 1 then { e with pred := 2 } else e }

/-- An entry ends without a tile: readers of a predicted window are squashed, the window becomes absent and the entry is
freed (R210, R211, R215, R222). -/
def State.endEntry (s : State) (t : Nat) (e : IEnt) : State :=
  let pred : Bool := match (s.team? t).bind fun x => x.win? e.win with
    | some w => w.st == .predicted
    | none => false
  let s1 := if pred then s.squashReaders t e.win else s
  ((s1.dropPrediction t e.win).setWin t e.win fun w =>
    { w with st := .absent, pres := 0, level := 0, stag := none }).freeEntry t e

/-- An entry lapses (R210, R211): NPROD on its barrier. -/
def State.lapse (s : State) (t : Nat) (e : IEnt) : State :=
  (s.endEntry t e).barUpdate t e.bar .never

/-- An entry has reached its expiry with no tile header at the core, or with a speculative tile in its window (R211, R222). -/
def Team.lapsed (x : Team) (e : IEnt) (now : Nat) : Bool := e.expiry ≤ now && !e.header && !x.delivering e

/-- The NCANs that wait for a delivery return a status (R212). -/
def State.answerNcans (s : State) (t : Nat) (e : IEnt) (status : Nat) : State :=
  (e.ncan.foldl (fun u p => u.fillPend t p.1 p.2.1 p.2.2 status) s).modTeam t fun x =>
    { x with ilist := x.ilist.map fun q => if q.tok = e.tok then { q with ncan := [] } else q }

/-! ### NCAN, NSTAT, NTOL, NRTW, SPEC -/

/-- NCAN (R212, R365), which ends the run (R421): a delivery in progress completes first, and status 1 is written then; an entry
whose expiry has come is no entry. An entry whose window holds a whole speculative tile is cancelled (R222): the spec's words for
statuses 0 and 1 fit neither, and 0 is given, for it is cancelled (log entry 84). -/
def execNcan (h : Hdr) (d a : BitVec 8) (w : BitVec 5) (s : State) : Host.Outcome State Fault Refusal :=
  issue (.ncan h d a w) (fun x act s =>
    let t := x.run.team
    let g := x.run.grp
    let give := fun (u : State) (st : Nat) =>
      act.foldl (fun v l => (v.addPend t g l [(pregOf x.front d.toNat, st)] true none).2) u
    match nameOf x (low act) a with
    | none => ⟨s, allEnd act (.fault cName), true⟩
    | some (nt, ni, nn) =>
      if (x.tm.win? w.toNat).isNone then ⟨s, allEnd act (.fault cUndeclared), true⟩
      else
        match x.tm.ilist.find? fun e => e.t == nt && e.i == ni && e.n == nn && e.win == w.toNat with
        | none => ⟨give s 2, [], true⟩
        | some e =>
          if x.tm.lapsed e s.time then ⟨give (s.lapse t e) 2, [], true⟩
          else if e.header || x.tm.delivering e then
            ⟨act.foldl (fun u l =>
              let (id, u1) := u.addPend t g l [(pregOf x.front d.toNat, 0)] false none
              u1.onTeam x fun m => { m with ilist := m.ilist.map fun q =>
                if q.tok = e.tok then { q with ncan := q.ncan ++ [(g, l, id)] } else q }) s, [], true⟩
          else ⟨give (s.cancelEntry t e) 0, [], true⟩) s

/-- The status word of a window (R218). -/
def Team.winStatus (x : Team) (w : Nat) (v : Win) : Nat :=
  let e := x.entryOf w
  let code : Nat := match v.st with
    | .absent => 0
    | .filling => 1
    | .full => 2
    | .empty => 3
    | .predicted => 4
  packW [(0, code), (3, b2n e.isSome), (4, b2n ((e.map (·.spec.isSome)).getD false)), (5, b2n (v.level != 0)), (6, v.level),
    (8, b2n (x.bar v.bar).nprod), (9, b2n v.owner.isSome), (10, b2n v.f)]

/-- NSTAT (R368): the status at the end of the last core cycle, before the state changes of the issue cycle; of a window
declared since then, the status as it stands (log entry 143). -/
def execNstat (h : Hdr) (d : BitVec 8) (w : BitVec 5) (s : State) : Host.Outcome State Fault Refusal :=
  issue (.nstat h d w) (fun x act s =>
    match x.tm.win? w.toNat with
    | none => ⟨s, allEnd act (.fault cUndeclared), true⟩
    | some v => regBody d (fun x _ _ => (x.tm.sampled.get? w.toNat).getD (x.tm.winStatus w.toNat v)) x act s) s

/-- A tolerance NTOL refuses: negative, infinite or NaN (R219). -/
def badTol (v : BitVec 32) : Bool := v.extractLsb' 23 8 == 0xFF || (v.getLsbD 31 && v.extractLsb' 0 31 != 0)

/-- NTOL's operands are valid (R219); bit 47 of A is a reserved field, which is ignored (R6). -/
def SEnt.ok (e : SEnt) : Bool :=
  e.a.extractLsb' 40 2 != 3 && e.a.extractLsb' 42 2 != 3 &&
    (e.a.extractLsb' 0 20).toNat ≤ (e.a.extractLsb' 20 20).toNat && !badTol (e.b.extractLsb' 0 32) && !badTol (e.b.extractLsb' 32 32)

/-- NTOL (R370). -/
def execNtol (h : Hdr) (a b : BitVec 8) (s : State) : Host.Outcome State Fault Refusal :=
  issue (.ntol h a b) (fun x act s =>
    let z := x.lane (low act)
    let e : SEnt := ⟨BitVec.ofNat 64 (z.get64 x.front a.toNat), BitVec.ofNat 64 (z.get64 x.front b.toNat)⟩
    if e.ok then ⟨s.onTeam x fun m => { m with stab := m.stab.set (e.a.extractLsb' 44 3).toNat e }, [], false⟩
    else ⟨s, allEnd act (.fault cOperand), true⟩) s

/-- The router a selector of NRTW names (R206): 256 for the exchange. -/
def nrtRouter (b : Nat) : Nat := if bit b 14 then 256 else 64 * bits b 12 2 + 8 * bits b 9 3 + bits b 6 3

/-- NRTW's operands are valid (R206). -/
def nrtOk (v : BitVec 64) (b : Nat) : Bool :=
  let port := (v.extractLsb' 25 3).toNat
  let exch := bit b 14
  let px := bits b 6 3
  let py := bits b 9 3
  b / 2 ^ 15 == 0 && v.extractLsb' 29 35 == 0 && (v.extractLsb' 20 5).toNat ≤ 20 && port != 7 &&
    (if exch then port ≤ 3
     else
       !(port == 6 && (px != 0 || py != 0)) && !(port == 1 && py == 7) && !(port == 2 && px == 7) &&
         !(port == 3 && py == 0) && !(port == 4 && px == 0))

/-- NRTW (R367). -/
def execNrtw (h : Hdr) (a b : BitVec 8) (s : State) : Host.Outcome State Fault Refusal :=
  issue (.nrtw h a b) (access 1 fun x act s =>
    let l := low act
    let v := BitVec.ofNat 64 ((x.lane l).get64 x.front a.toNat)
    let sel := (x.lane l).get x.front b.toNat
    if nrtOk v sel then
      ⟨s.start x [({ Op.mk0 x l .nrtw sel TlbE.flat 8 with data := v }, [])],
       [], false⟩
    else ⟨s, allEnd act (.fault cRoute), true⟩) s

/-- The state word of a group (R227). -/
def Group.specWord (y : Group) : Nat :=
  packW [(0, b2n y.task.isSome), (1, (y.task.map (·.level)).getD 0), (3, b2n (y.lanes.any fun l => l.st == .parked .verdict)),
    (4, b2n y.lastSq), (5, min 512 ((y.task.map (·.lines)).getD 0))]

/-- SPEC (R227), after the events of earlier cycles (R388). -/
def execSpec (h : Hdr) (d : BitVec 8) (s : State) : Host.Outcome State Fault Refusal :=
  issue (.spec h d) (regBody d fun x _ _ => x.gp.sampled.getD x.gp.specWord) s

/-- What NSTAT and SPEC read in the next core cycle (R368, R388). -/
def Team.sample (x : Team) : Team :=
  { x with
    sampled := x.wins.map fun p => (p.1, x.winStatus p.1 p.2)
    grps := x.grps.map fun p =>
      (p.1, if p.2.task.isSome || p.2.sampled.isSome then { p.2 with sampled := some p.2.specWord } else p.2) }

/-- The end of a core cycle: the window and group states that the next cycle's NSTAT and SPEC read. -/
def State.sampleAll (s : State) : State := { s with teams := s.teams.map fun p => (p.1, p.2.sample) }

end Sys2Proof.Machine
end

