-- ==== Sys2Proof/Machine/System.lean ====
section
/-! DEFINITION. Machine/System.lean: the decision queue, LAUNCH, special values, control registers, extended blocks and TLBINV
(R26, R37 to R39, R41, R42, R45, R51, R55, R318, R319, R322, R323, R389, R396, R403). -/
namespace Sys2Proof.Machine
open Sys2Proof

/-! ### The decision queue (R37, R39) -/

/-- Bits of a mask. -/
def maskBits (m : BitVec 32) : List Nat := (List.range 32).filter fun w => m.getLsbD w

/-- DQPUSH (R323): a release at .team, then the entry is appended. -/
def execDqpush (h : Hdr) (a b : BitVec 8) (s : State) : Host.Outcome State Fault Refusal :=
  issue (.dqpush h a b) (fun x act s =>
    let z := x.lane (low act)
    let masks := z.get true b.toNat
    let im := BitVec.ofNat 32 masks
    let om := BitVec.ofNat 32 (masks / 2 ^ 32)
    if (maskBits (im ||| om)).any fun w => (x.tm.win? w).isNone then ⟨s, allEnd act (.fault cUndeclared), true⟩
    else
      afterFence 1 false (fun x act u =>
        if 64 ≤ x.tm.dq.length then ⟨u, allEnd act (.park .dqpush), true⟩
        else
          let e : DqEntry := ⟨BitVec.ofNat 64 (z.get true a.toNat), im, om, u.nextId, false⟩
          ⟨State.onTeam { u with nextId := u.nextId + 1 } x fun m => { m with dq := m.dq ++ [e] }, [], false⟩) x act s) s

/-- The place of a pack in the order of DQPOP waits (R39): the core cycle in which it parked or issues DQPOP, then its group
slot. -/
def dqPlace (s : State) (x : Ctx) (act : List Nat) : Nat :=
  match (x.lane (low act)).st with
  | .parked (.dqpop k) => k
  | _ => cycleOf s.time * 512 + x.gp.slot

/-- The level of a task that begins with an entry, 0 where none begins (R223). -/
def Team.taskLevel (x : Team) (e : DqEntry) : Nat :=
  (maskBits e.imask).foldl (fun m w =>
    match x.win? w with
    | some v => if v.st = .predicted then max m v.level else m
    | none => m) 0

/-- The task that an entry begins (R223). -/
def Team.taskOf (x : Team) (e : DqEntry) (pc : BitVec 56) (y : Group) : Task :=
  { item := e, level := x.taskLevel e, pc, rep := none, lanes := y.alive, inputs := maskBits e.imask,
    owned := [], pubs := [], buf := [] }

/-- DQPOP (R322): the oldest eligible entry to every active lane, or end of work, or a wait in the order of arrival. -/
def execDqpop (h : Hdr) (d b : BitVec 8) (k : BitVec 5) (s : State) : Host.Outcome State Fault Refusal :=
  issue (.dqpop h d b k) (fun x act s =>
    let give := fun (item flag : Nat) (u : State) => act.foldl (fun v l =>
      (v.addPend x.run.team x.run.grp l
        [(.g d.toNat, item % 2 ^ 32), (.g (d.toNat + 1), item / 2 ^ 32), (.bit b.toNat k.toNat, flag)] true none).2) u
    let mine := dqPlace s x act
    let first := x.tm.dqWaiters.all fun j => mine ≤ j
    match (if first then x.tm.dq.find? x.tm.dqEligible else none) with
    | some e =>
      let s1 := s.onTeam x fun m => { m with dq := m.dq.filter fun q => q.order != e.order }
      let s2 := if x.tm.taskLevel e = 0 then s1
        else s1.onGrp x fun y => { y with task := some (x.tm.taskOf e x.pc x.gp), lastSq := false }
      ⟨give e.item.toNat 0 s2, [], false⟩
    | none =>
      if x.tm.dqEnd then ⟨give 0 1 s, [], false⟩
      else ⟨s, allEnd act (.park (.dqpop mine)), true⟩) s

/-! ### LAUNCH (R41, R42, R45) -/

/-- A launch record from its eight words. -/
def lrecOf (w : Nat → Nat) : LRec :=
  { entry := bits (w 0) 0 56, front := bits (w 1) 0 56, gx := bits (w 2) 0 16, gy := bits (w 2) 16 16, gz := bits (w 2) 32 16,
    clw := bits (w 2) 48 4, clh := bits (w 2) 52 4, groups := bits (w 2) 56 6, regs := bits (w 3) 0 8, energy := bits (w 3) 8 3,
    priv := bits (w 3) 16 16, carve := [bits (w 3) 32 8, bits (w 3) 40 8, bits (w 3) 48 8, bits (w 3) 56 8],
    waitev := bits (w 4) 0 56, waitn := bits (w 4) 56 8, sigev := bits (w 5) 0 56, seq := bits (w 6) 0 56, args := bits (w 7) 0 56 }

/-- The teams of a record (R26). -/
def LRec.teams (r : LRec) : Nat := r.gx * r.gy * r.gz

/-- Cores of a cluster (R41). -/
def LRec.cores (r : LRec) : Nat := r.clw * r.clh

/-- A record is malformed (R42). -/
def lrecBad (w : Nat → Nat) : Bool :=
  let r := lrecOf w
  let c := r.cores
  bits (w 0) 56 8 != 0 || bits (w 1) 56 8 != 0 || bits (w 2) 62 2 != 0 || bits (w 3) 11 5 != 0 || bits (w 5) 56 8 != 0 ||
    bits (w 6) 56 8 != 0 || bits (w 7) 56 8 != 0 || r.entry % 8 != 0 || r.front % 8 != 0 ||
    r.groups == 0 || 32 < r.groups || r.regs == 0 || 128 < r.regs || r.clw == 0 || 8 < r.clw || r.clh == 0 || 8 < r.clh ||
    12 < c || (c != 0 && r.teams % c != 0) || 2 ^ 32 < r.teams || (2 ≤ c && r.carve.getD 1 0 == 0) ||
    r.carve.foldl (· + ·) 0 != 24 || r.carve.getD 3 0 == 0 || r.waitev % 8 != 0 || r.sigev % 8 != 0

/-- Word `k` of 64 bytes. -/
def recWord (bs : List (BitVec 8)) (k : Nat) : Nat := leNat ((bs.drop (8 * k)).take 8)

/-- The lowest free slot of the device launch queue's ring: those of records that have not started are taken (R249). -/
def State.dlqSlot (s : State) : Nat :=
  let used := (s.lu.launches.filter fun l => l.queue.isNone && (l.st == .waiting || l.st == .satisfied)).map (·.slot)
  ((List.range 4096).find? fun k => !used.contains k).getD 0

/-- The address of a slot of the device launch queue's ring (R249). -/
def State.dlqPa (s : State) (slot : Nat) : Nat := (s.lu.dlqBase.extractLsb' 18 30).toNat * 2 ^ 18 + 64 * slot

/-- A ring that does not stand in DRAM takes no record (R15, R249, log entry 94). -/
def State.dlqBad (s : State) : Option Nat :=
  match regionOf (s.dlqPa 0) with
  | .dram => none
  | .unmapped => some cUnmapped
  | .link | .host | .dev => some cRefused

/-- A launch that the device has just numbered (R40). -/
def Launch.new (gridid : Nat) (lr : LRec) (asid prio : Nat) (queue : Option Nat) (slot : Nat) : Launch :=
  { gridid, lr, asid, prio, queue, st := if lr.waitev = 0 then .satisfied else .waiting, order := 0, next := 0, finished := 0,
    since := 0, blocking := false, killed := false, parked := none, wct := 0, slot }

/-- A record joins the device launch queue (R45, R249): its %gridid and the state. -/
def State.launchAppend (s : State) (x : Team) (bs : List (BitVec 8)) : Nat × State :=
  let id := s.lu.nextGrid.toNat
  let slot := s.dlqSlot
  let l := Launch.new id (lrecOf (recWord bs)) x.id.asid x.id.prio none slot
  let s1 := s.barePut (s.dlqPa slot) bs
  (id, { s1 with lu := { s1.lu with launches := s1.lu.launches ++ [l], nextGrid := s1.lu.nextGrid + 1,
                                    dlqAppended := s1.lu.dlqAppended + 1 } })

/-- The 64 bytes of a record, read as a load of the lane (R45). -/
def lmRec64 (x : Ctx) (l va : Nat) : LM (List (BitVec 8)) := do
  lmStopIf (fun s => s.lockHit x.tm.core 0 x.tm.id.asid va 64 false) fun _ => .fault cRangeLock
  let (e, pa) ← lmXlate x va 0 64
  lmStopIf (fun s => s.ops.any fun o => o.before x l pa 64 false) fun s => .wait (.laneOps s.nextId)
  lmFetch x l va e 64 .load

/-- The lanes of a LAUNCH in ascending order; a lane that stops ends the loop for itself and the lanes above it (R45, R285).
The answer is the state, the ends of lanes and whether a poisoned byte was read. -/
def launchLoop (part : Nat → LM (List (BitVec 8))) (x : Ctx) (dst : PReg) : List Nat → State → State × List (Nat × LEnd) × Bool
  | [], s => (s, [], false)
  | l :: t, s =>
    let all := l :: t
    match part l s with
    | .error .poison => (s, [], true)
    | .error e => (s.reportStop x e, allEnd all (laneEnd (α := Nat) x none (.error e)), false)
    | .ok (bs, s1) =>
      if lrecBad (recWord bs) then (s1, allEnd all (.fault cLaunch), false)
      else if !s.lu.dlqEn then (s1, allEnd all (.fault cRefused), false)
      else if 4096 ≤ s.dlqCount then (s, allEnd all (.park .dlq), false)
      else if s.pinned (s.dlqPa s.dlqSlot) then (s, allEnd all (.park (.home (dieOf x.tm.core) (s.dlqPa s.dlqSlot) 0)), false)
      else match s.dlqBad with
      | some c => (s1, allEnd all (.fault c), false)
      | none =>
        let (id, s2) := s1.launchAppend x.tm bs
        launchLoop part x dst t (s2.addPend x.run.team x.run.grp l [(dst, id)] true none).2

/-- LAUNCH over the active lanes (R45): the lowest lane's record is read and found well-formed before the release at .pkg of the
pack's earlier stores, and every append comes after it. -/
def launchBody (part : Ctx → Nat → LM (List (BitVec 8))) (d : BitVec 8) : Body :=
  fun x act s =>
    let loop : Body := fun x act s =>
      let r := launchLoop (part x) x (pregOf x.front d.toNat) act s
      if r.2.2 then ⟨r.1.killTeam x.run.team cEcc x.pc.toNat, [], true⟩ else ⟨r.1, r.2.1, !r.2.1.isEmpty⟩
    match part x (low act) s with
    | .ok (bs, _) => if lrecBad (recWord bs) then loop x act s else afterFence 4 false loop x act s
    | .error _ => loop x act s

/-- LAUNCH of lanes (R45). -/
def execLaunch (h : Hdr) (d : BitVec 8) (cur : BitVec 3) (b : BitVec 8) (imm : BitVec 12) (s : State) :
    Host.Outcome State Fault Refusal :=
  issue (.launch h d cur b imm) (launchBody (fun x l => do
    let z := x.lane l
    let va ← lmAddr x (z.cur cur.toNat) (signed (z.get false b.toNat) 32) imm.toInt 64
    lmRec64 x l va) d) s

/-- LAUNCH of the front thread (R45). -/
def execLaunchFront (h : Hdr) (d a : BitVec 8) (s : State) : Host.Outcome State Fault Refusal :=
  issue (.launchFront h d a) (launchBody (fun x l => do
    let va := (x.lane l).get true a.toNat % 2 ^ 56
    if va % 64 != 0 then lmFault cMisaligned else lmRec64 x l va) d) s

/-! ### SREG, CSRR and CSRW (R26, R55, R318, R319, R389) -/

/-- A special value of a lane (R26, R389). -/
def sregValue (s : State) (x : Ctx) (l : Nat) : Sel → Nat
  | .laneid => if x.front then 0 else l
  | .groupid => if x.front then 0xFFFF_FFFF else x.run.grp
  | .teamid => x.tm.id.teamid
  | .clusterid => x.tm.id.clusterid
  | .gridid => x.tm.id.gridid
  | .coreid => x.tm.core
  | .dieid => dieOf x.tm.core
  | .time => s.time / 2 * 2

/-- SREG (R389). -/
def execSreg (h : Hdr) (d : BitVec 8) (sel : Sel) (s : State) : Host.Outcome State Fault Refusal :=
  issue (.sreg h d sel) (fun x act s =>
    laneBody (fun x l z =>
      if sel = .time then z.put64 x.front d.toNat (sregValue s x l sel) else z.put x.front d.toNat (sregValue s x l sel)) x act s) s

/-- Rows of a core that no base block of a group that holds one, no reserve and no held block occupies (R52, R328). -/
def State.freeRows (s : State) (c : Nat) : Nat :=
  16384 - ((s.residents c).foldl (fun n p =>
    n + 64 + p.2.grps.foldl (fun m q =>
      if q.2.front || q.2.gone then m else m + q.2.bsize + (if q.2.xblk = some false then 64 else 0)) 0) 0)

/-- GREGS (R55). -/
def State.gregs (s : State) (x : Ctx) : Nat :=
  packW [(0, x.gp.bsize), (8, b2n x.gp.xblk.isSome), (16, min 255 (s.freeRows x.tm.core / 64)), (24, b2n (!x.tm.reserveHeld))]

/-- CREWCTL (R76). -/
def State.crewCtl (s : State) (x : Ctx) : Nat :=
  let w : Bool := match s.crewOf x.tm.core x.run.team x.run.grp with
    | some k => k.latch.any fun r => r.grp == x.run.grp
    | none => false
  packW [(0, x.gp.crew.no), (2, b2n x.gp.crew.valid), (3, b2n x.gp.crew.ovf), (4, b2n w)]

/-- A control register of a group (R318), the front thread's where it has its own. -/
def State.csrValue (s : State) (x : Ctx) (csr : BitVec 12) : Nat :=
  let y := x.gp
  let lane := fun (v : Nat) => if x.front then 0 else v
  match csr.toNat with
  | 0x040 => lane (s.gregs x)
  | 0x041 => lane y.stklim.toNat
  | 0x042 => packW [(0, x.tm.rm.toNat), (2, b2n (x.tm.nantrap && s.feat 8))]
  | 0x043 => y.fpflags.toNat
  | 0x044 => lane y.crew.mask.toNat
  | 0x045 => lane (s.crewCtl x)
  | 0x046 => lane (packW [(0, y.loads), (6, min 63 y.stores), (12, y.copies), (18, y.tiles)])
  | 0x047 => lane y.naninfo.toNat
  | 0x048 => s.enbudget x.tm.core ((s.core x.tm.core).limitAt s.time)
  | 0x049 => x.tm.lrbase.toNat
  | 0x04A => lane (packW [(0, b2n y.crew.keptDense), (1, y.crew.lastK), (8, b2n y.crew.fellBack), (9, y.crew.free)])
  | 0x04B => lane (packW [(0, y.crew.base), (12, y.crew.count)])
  | 0x04C => lane x.tm.uhvec.toNat
  | 0x04D => lane x.tm.uhdeleg.toNat
  | _ => lane (packW [(0, y.es.cause.toNat), (8, b2n y.es.inh), (9, b2n y.es.sup)])

/-- CSRR (R319). -/
def execCsrr (h : Hdr) (d : BitVec 8) (csr : BitVec 12) (s : State) : Host.Outcome State Fault Refusal :=
  issue (.csrr h d csr) (fun x act s =>
    let v := s.csrValue x csr
    laneBody (fun x _ z => if csrIs64 csr then z.put64 x.front d.toNat v else z.put x.front d.toNat v) x act s) s

/-- A write of a control register (R319): read-only fields keep their values, W1C fields clear; NANTRAP stays 0 where its
feature is declined (R246). -/
def State.csrPut (s : State) (x : Ctx) (csr : BitVec 12) (v : Nat) : State :=
  let lane := fun (u : State) => if x.front then s else u
  match csr.toNat with
  | 0x041 => lane (s.onGrp x fun y => { y with stklim := BitVec.ofNat 24 (min (bits v 0 24) (x.tm.id.priv * 4)) })
  | 0x042 => s.onTeam x fun m => { m.keepCsrs s.time with rm := BitVec.ofNat 2 (bits v 0 2), nantrap := bit v 2 && s.feat 8 }
  | 0x043 => s.onGrp x fun y => y.clearFlags s.time (BitVec.ofNat 6 v)
  | 0x048 => s.modCore x.tm.core fun c =>
    { c with limit := BitVec.ofNat 12 v, limitOld := some (cycleOf s.time, c.limitAt s.time) }
  | 0x049 => s.onTeam x fun m => { m.keepCsrs s.time with lrbase := BitVec.ofNat 64 (bits v 9 47 * 512) }
  | 0x04C => lane (s.onTeam x fun m => { m.keepCsrs s.time with uhvec := BitVec.ofNat 64 (bits v 3 53 * 8) })
  | 0x04D => lane (s.onTeam x fun m => { m.keepCsrs s.time with uhdeleg := BitVec.ofNat 32 (bits v 0 6) })
  | _ => s

/-- CSRW (R319). -/
def execCsrw (h : Hdr) (a : BitVec 8) (csr : BitVec 12) (s : State) : Host.Outcome State Fault Refusal :=
  issue (.csrw h a csr) (fun x act s =>
    let z := x.lane (low act)
    let v := if csrIs64 csr then z.get64 x.front a.toNat else z.get x.front a.toNat % 2 ^ 32
    ⟨s.csrPut x csr v, [], false⟩) s

/-! ### Extended blocks (R51) -/

/-- A request joins those that wait for a block, by the cycle in which it parked and then by its slot (R52). -/
def Core.addWait (c : Core) (w : XWait) : Core :=
  if c.xwait.any fun p => p.team == w.team && p.grp == w.grp then c
  else { c with xwait := sortBy (fun p => p.cycle * 512 + p.slot) (c.xwait ++ [w]) }

/-- XACQ (R51): the request waits until EXTENDED_BLOCK_GRANT grants it. -/
def execXacq (h : Hdr) (s : State) : Host.Outcome State Fault Refusal :=
  issue (.xacq h) (fun x act s =>
    if x.gp.xblk.isSome then ⟨s, [], false⟩
    else
      ⟨s.modCore x.tm.core fun c => c.addWait ⟨x.run.team, x.run.grp, cycleOf s.time, x.gp.slot⟩,
       allEnd act (.park .xacq), true⟩) s

/-- A write to g128 to g191 is pending in some lane (R51). -/
def Group.xPending (y : Group) : Bool :=
  y.lanes.any fun l => (List.range 64).any fun k => l.pendingReg false (128 + k)

/-- A group gives its extended block back: its contents stay with the extent, and g128 to g191 hold nothing (R51, R56). -/
def Group.dropBlock (y : Group) : Group :=
  { y with xblk := none, lanes := y.lanes.map fun l => { l with regs := l.regs.filter fun p => p.1 < 128 } }

/-- XREL (R51): the block goes back to its source. -/
def execXrel (h : Hdr) (s : State) : Host.Outcome State Fault Refusal :=
  issue (.xrel h) (fun x act s =>
    match x.gp.xblk with
    | none => ⟨s, [], false⟩
    | some fromReserve =>
      if x.gp.xPending then ⟨s, allEnd act .stall, true⟩
      else
        let s1 := s.modCore x.tm.core fun c => Core.keepExtent x.tm.id.asid x.gp.slot x.gp.lanes c (2, 128, 64)
        ⟨(s1.onGrp x Group.dropBlock).onTeam x fun m => { m with reserveHeld := m.reserveHeld && !fromReserve },
         [], false⟩) s

/-! ### TLBINV (R396) -/

/-- An entry is covered by an invalidation: an ASID or every one (4096), and a VA or every one. -/
def TlbE.hit (e : TlbE) (asid : Nat) (va : Option Nat) : Bool :=
  (asid == 4096 || e.asid == asid) && (match va with | some v => v / 2 ^ e.lg == e.va / 2 ^ e.lg | none => true)

/-- Cached translations are removed from every structure of the package (R104, R106, R124, R396): the TLBs, the walk cache, the
cached ASID-table entries, the layout-record caches (log entry 9), and the walks that the base-die scheduler holds. -/
def State.invalidate (s : State) (asid : Nat) (va : Option Nat) : State :=
  let sel := fun (a : Nat) => asid == 4096 || a == asid
  { s with
    asidCache := s.asidCache.filter fun p => !sel p.1
    walkCache := s.walkCache.filter fun e => !sel e.asid
    lu := { s.lu with walked := s.lu.walked.filter fun w => !sel w.asid }
    cores := s.cores.map fun p => (p.1, { p.2 with
      tlb := p.2.tlb.filter fun e => !e.hit asid va
      lrc := p.2.lrc.filter fun q => !sel (q.1 / 2 ^ 56) })
    dies := s.dies.map fun p => (p.1, { p.2 with l2tlb := p.2.l2tlb.filter fun e => !e.hit asid va }) }

/-- TLBINV (R396), which ends the run and waits for TLB_INVALIDATION_DONE. -/
def execTlbinv (h : Hdr) (a b : BitVec 8) (s : State) : Host.Outcome State Fault Refusal :=
  issue (.tlbinv h a b) (fun x act s =>
    let z := x.lane (low act)
    let ctl := z.get x.front b.toNat
    let va := z.get64 x.front a.toNat
    let mode := bits ctl 12 2
    if ctl / 2 ^ 14 != 0 || mode == 3 || (mode == 1 && va / 2 ^ 56 != 0) then ⟨s, allEnd act (.fault cOperand), true⟩
    else
      let asid := if mode = 2 then 4096 else bits ctl 0 12
      ⟨s.invalidate asid (if mode = 1 then some (va / 65536 * 65536) else none), allEnd act (.park (.tlbinv asid s.nextId)), true⟩) s

end Sys2Proof.Machine
end

