-- ==== Sys2Proof/Machine/Device.lean ====
section
/-! DEFINITION. Machine/Device.lean: writes of device control space and what they start: budgets, the rebalancer, launch queues,
FAULTRESP, the fault queue, features, retirement, pre-emption requests, the mailbox, links (R5, R69 to R71, R84, R85, R93, R98 to
R100, R105 to R107, R112, R216, R229, R241, R246 to R250, R252 to R259, R261). -/
namespace Sys2Proof.Machine
open Sys2Proof

/-! ### Budgets and the rebalancer (R84, R99, R100) -/

/-- A BUDGET register takes a count from the next period on, or the write is ignored and BUDGETERR bit 0 set (R84). -/
def State.budgetPut (s : State) (a v : Nat) : State :=
  let next := s.regs.budgetNext.set a (v % 65536)
  if Config.budgetFits next then { s with regs := { s.regs with budgetNext := next } }
  else { s with regs := { s.regs with budgetErr := s.regs.budgetErr ||| 1 } }

/-- A bucket of a die starts to move (R100). -/
def State.startMove (s : State) (d bucket dst : Nat) : State :=
  let m : Move := ⟨bucket, (s.die d).sliceOfBucket bucket, dst, s.nextId, 0⟩
  State.modDie { s with nextId := s.nextId + 1 } d fun z => { z with move := some m }

/-- A slice may receive buckets: it is not being retired (R258). -/
def Die.mayTake (d : Die) (sl : Nat) : Bool := !d.sliceRetire.contains sl

/-- A write to RBCMD (R99): a move, or ignored with BUDGETERR bit 1 while one is in progress. -/
def State.rbcmd (s : State) (d : Nat) (v : BitVec 64) : State :=
  let bucket := (v.extractLsb' 0 12).toNat
  let dst := (v.extractLsb' 12 6).toNat
  let x := s.die d
  if !s.feat 4 then s
  else if x.move.isSome then { s with regs := { s.regs with budgetErr := s.regs.budgetErr ||| 2 } }
  else if x.sliceOfBucket bucket = dst || !x.mayTake dst then s
  else s.startMove d bucket dst

/-- The next move of a retiring slice starts when none is in progress; a slice whose buckets have all moved is retired
(R258). -/
def State.nextMove (s : State) (d : Nat) : State :=
  let x := s.die d
  let empty := x.sliceRetire.filter fun sl => (List.range 4096).all fun b => x.sliceOfBucket b != sl
  let s1 := s.modDie d fun z => { z with sliceRetired := empty }
  if x.move.isSome then s1
  else
    let keep := (List.range 64).filter fun n => x.mayTake n
    -- a slice that has been retired since is no destination (R258)
    let dst := fun (m : Move) => if x.mayTake m.dst then m.dst else keep.getD (m.bucket / 64 % keep.length) m.dst
    match x.pendingMoves.dropWhile fun m => x.sliceOfBucket m.bucket == dst m || keep.isEmpty with
    | [] => s1.modDie d fun z => { z with pendingMoves := [] }
    | m :: t => (s1.modDie d fun z => { z with pendingMoves := t }).startMove d m.bucket (dst m)

/-- A slice is retired (R258): every bucket that maps to it moves, in ascending order, to the slices in service in turn; its
Cocoon copies are discarded. Refused while FEATACC bit 4 is not 1. -/
def State.retireSlice (s : State) (k : Nat) : State :=
  let d := k / 64
  let sl := k % 64
  if !s.regs.featacc.getLsbD 4 || (s.die d).sliceRetire.contains sl then s
  else
    let s1 := (s.modDie d fun z => { z with sliceRetire := sl :: z.sliceRetire }).modRouter k fun r => { r with cocoon := [] }
    let x := s1.die d
    let keep := (List.range 64).filter fun n => x.mayTake n
    -- a bucket on its way to the slice moves on once it has come (R258)
    let here := fun (b : Nat) => x.sliceOfBucket b == sl || (match x.move with | some m => m.bucket == b && m.dst == sl | none => false)
    let moves := ((List.range 4096).filter here).map fun b => (⟨b, sl, keep.getD (b / 64 % keep.length) 0, 0, 0⟩ : Move)
    if keep.isEmpty then s else (s1.modDie d fun z => { z with pendingMoves := z.pendingMoves ++ moves }).nextMove d

/-! ### Launch queues (R247 to R249) -/

/-- Changes a host launch queue. -/
def State.modHq (s : State) (q : Nat) (f : HQ → HQ) : State :=
  { s with lu := { s.lu with hq := s.lu.hq.upd q HQ.reset f } }

/-- MSI-X vector signalled (R242). -/
def State.msix (s : State) (n : Nat) : State := { s with out := { s.out with msix := s.out.msix ++ [n] } }

/-- A queue is off (R247): what it has asked of a target outside DRAM for its next record goes. -/
def State.hqStop (s : State) (q : Nat) : State := (s.dropFarOf 0 (64 + 2 * q)).modHq q fun z => { z with en := false }

/-- A write to TAIL (R248). -/
def State.doorbell (s : State) (q : Nat) (tail : BitVec 32) : State :=
  let x := s.lu.hq.getD q HQ.reset
  if 64 * 2 ^ x.size < (tail - x.head).toNat then ((s.hqStop q).modHq q fun z => { z with err := true }).msix 2
  else s.modHq q fun z => { z with tail }

/-- EN := 1 (R247): the ring begins at TAIL, and no record read of before is parked any more. -/
def State.hqEnable (s : State) (q : Nat) : State := s.modHq q fun z => { z with en := true, head := z.tail, parked := none }

/-- A write of a queue's control word (R247). -/
def State.hqControl (s : State) (q : Nat) (v m : BitVec 64) : State :=
  let put := fun (lo w old : Nat) =>
    let k := bits m.toNat lo w
    (old &&& (2 ^ w - 1 - k)) ||| (bits v.toNat lo w &&& k)
  let s1 := s.modHq q fun z =>
    let z1 := if z.en then z else { z with asid := put 0 12 z.asid, size := min 6 (put 12 3 z.size) }
    { z1 with prio := put 18 2 z1.prio, err := z1.err && !(v.getLsbD 21 && m.getLsbD 21) }
  if !m.getLsbD 20 then s1 else if v.getLsbD 20 then s1.hqEnable q else s1.hqStop q

/-- EN := 1 of the device launch queue (R249): nothing is appended and not started any more. -/
def State.dlqEnable (s : State) : State :=
  { s with lu := { s.lu with dlqEn := true, dlqAppended := 0, launches := s.lu.launches.filter fun l =>
      !(l.queue.isNone && (l.st == .waiting || l.st == .satisfied)) } }

/-! ### FAULTRESP (R105) -/

/-- A wait of a lane is for the driver's answer on a page. -/
def Wait.onPage (w : Wait) (asid page : Nat) : Bool :=
  match w with
  | .xlate a p _ => a == asid && p == page
  | .frame a p _ => a == asid && p == page
  | _ => false

/-- A team has an access parked on a page (R105): a lane's, a trap entry's, a copy block's or a crew image's. -/
def State.parkedOn (s : State) (t : Nat) (x : Team) (page : Nat) : Bool :=
  let a := x.id.asid
  (x.grps.any fun p =>
    (p.2.lanes.any fun l => match l.st with | .parked w => w.onPage a page | _ => false) ||
      (p.2.es.entry.isSome && (List.range 4).any fun k => pageOf (s.frameVa x p.1 k) == page && (s.outstFind a page 1).isSome)) ||
    (s.core x.core).copies.any (fun z => z.team == t && z.inflight.any fun b => b.2.2 == some (a, page)) ||
    (s.core x.core).engine.any (fun j => j.team == t && j.parked == some page)

/-- The faults outstanding on a page are answered. -/
def State.clearOutst (s : State) (asid page : Nat) : State :=
  { s with outst := s.outst.filter fun o => !(o.asid == asid && o.page == page), fq := s.fq.forget asid page }

/-- An event-word access parked on a page is made again. -/
def Launch.unpark (asid page : Nat) (l : Launch) : Launch :=
  if l.asid = asid ∧ l.parked.map Prod.fst = some page then { l with parked := none } else l

/-- An image access of a crew parked on a page is made again. -/
def Job.unpark (page : Nat) (j : Job) : Job := if j.parked = some page then { j with parked := none } else j

/-- A record read parked on a page is made again. -/
def HQ.unpark (asid page : Nat) (q : HQ) : HQ := if q.parked = some (asid, page) then { q with parked := none } else q

/-- Event-word accesses and record reads parked on a page are made again (R248, R419). -/
def State.unparkLaunches (s : State) (asid page : Nat) : State :=
  { s with lu := { s.lu with
      launches := s.lu.launches.map (Launch.unpark asid page), hq := s.lu.hq.map fun p => (p.1, p.2.unpark asid page) } }

/-- Trap entries that wait for a frame's translation are tried again (R233). -/
def State.retryEntries (s : State) (asid : Nat) : State :=
  s.allGroups.foldl (fun u p =>
    match u.team? p.1 with
    | some x => if (x.id.asid == asid && p.2.2.es.entry.isSome) then u.tryEntry p.1 p.2.1 else u
    | none => u) s

/-- Replay (R105): parked accesses are made again. -/
def State.replay (s : State) (asid page : Nat) : State :=
  let s1 := (s.clearOutst asid page).unparkLaunches asid page
  let mine := fun (j : Job) => match s1.team? j.team with | some x => x.id.asid == asid | none => false
  let go := fun (c : Core) => { c with engine := c.engine.map fun j => if mine j then j.unpark page else j }
  State.retryEntries { s1 with cores := s1.cores.map fun (p : Nat × Core) => (p.1, go p.2) } asid

/-- A group's lanes at the engine in an MLD or MST whose image access is parked on a page (R105, R133). -/
def State.imageLanes (s : State) (x : Team) (t g page : Nat) : List Nat :=
  (s.core x.core).engine.flatMap fun j =>
    if j.team == t && j.parked == some page then j.recs.flatMap fun r => if r.grp = g then (if r.act.isEmpty then r.lanes else r.act) else []
    else []

/-- The PC for the record of a group's end on a page (R237): that of its lowest lane whose access waits for the page: a faulting
lane of a trap whose frames do, a lane parked on it, or a lane of a crew instruction whose image does. -/
def State.groupParkedPc (s : State) (x : Team) (t g : Nat) (y : Group) (page : Nat) : Option Nat :=
  let frames := (List.range 4).any fun k => pageOf (s.frameVa x g k) == page
  let entry := match y.es.entry with
    | some h => if frames then h.flt.map (·.1) else []
    | none => []
  let parked := y.lanesWith fun l => match l.st with | .parked w => w.onPage x.id.asid page | _ => false
  let l := entry ++ parked ++ s.imageLanes x t g page
  if l.isEmpty then none else some (y.lane (leastOf l)).pc.toNat

/-- The PC for the record of a team's end on a page (R237): of the first group that has such a lane. Where only a copy block's access
waits for the page no lane faults, and the spec names no PC: the record holds 0 (log entry 148). -/
def State.parkedPc (s : State) (x : Team) (t page : Nat) : Nat :=
  (x.grps.findSome? fun p => s.groupParkedPc x t p.1 p.2 page).getD 0

/-- Kill (R105, R419): every team of the ASID with an access parked on the page is killed; a launch parked on its WAITEV is
removed and a parked SIGEV add is dropped. -/
def State.killPage (s : State) (asid page : Nat) : State :=
  let cause := match s.outst.find? fun o => o.asid == asid && o.page == page with
    | some o => o.cause
    | none => cPageAbsent
  let teams := s.teams.filter fun p => p.2.id.asid == asid && s.parkedOn p.1 p.2 page
  let s1 := teams.foldl (fun u p => u.killTeam p.1 cause (s.parkedPc p.2 p.1 page)) s
  let s2 := s1.clearOutst asid page
  { s2 with lu := { s2.lu with launches := s2.lu.launches.filter fun l =>
      !(l.asid == asid && l.parked.map Prod.fst == some page) } }.unparkLaunches asid page

/-- A write to FAULTRESP. -/
def State.faultresp (s : State) (v : BitVec 64) : State :=
  let asid := (v.extractLsb' 0 12).toNat
  let page := (v.extractLsb' 16 40).toNat
  if v.getLsbD 12 then s.killPage asid page else s.replay asid page

/-! ### Pre-emption requests (R85) -/

/-- The cores of every cluster that has a team on one of the listed cores. -/
def State.clusterCores (s : State) (l : List Nat) : List Nat :=
  let more := s.teams.filterMap fun p =>
    if s.teams.any fun q => l.contains q.2.core && q.2.id.gridid == p.2.id.gridid && q.2.id.clusterid == p.2.id.clusterid then
      some p.2.core
    else none
  (l ++ more).eraseDups

/-- The cores a request reaches, by clusters that share cores. -/
def State.reach (s : State) : Nat → List Nat → List Nat
  | 0, l => l
  | n + 1, l =>
    let k := s.clusterCores l
    if k.length = l.length then l else s.reach n k

/-- A request of pre-emption is on its way (R85, R86). -/
def State.preemptCore (s : State) (c : Nat) : State :=
  s.modCore c fun z => if z.pre = 0 && z.preT0 = 0 then { z with preT0 := s.time + 1 } else z

/-- PRECTL.REQ (R85). -/
def State.preemptReq (s : State) (c : Nat) : State :=
  if (s.core c).pre = 0 then (s.reach 256 [c]).foldl State.preemptCore s else s

/-- PRECTL.RESUME (R85). -/
def State.resume (s : State) (c : Nat) : State :=
  if (s.core c).pre = 2 then s.modCore c fun z => { z with pre := 0, preT0 := 0, quiet := false } else s

/-- A core is retired (R258): its teams are pre-empted, and admission leaves it out. -/
def State.retireCore (s : State) (c : Nat) : State := (s.modCore c fun z => { z with retire := true }).preemptReq c

/-! ### Other controls -/

/-- FEATCTL.LOCK (R246): with Cocoon stores declined no slice has a carve any more, and no copy is kept. -/
def State.featLock (s : State) : State :=
  if s.regs.featlock then s
  else
    let s1 := { s with regs := { s.regs with featlock := true } }
    if s1.feat 7 then s1
    else { s1 with dies := s1.dies.map fun p => (p.1, { p.2 with cocoon := 0 })
                   routers := s1.routers.map fun p => (p.1, { p.2 with cocoon := [] }) }

/-- FEATACC as it is stored (R246). -/
def featStored (v : BitVec 64) : BitVec 64 :=
  let w := v &&& BitVec.ofNat 64 Config.featcap
  if w.getLsbD 0 then w else w &&& ~~~(2 : BitVec 64)

/-- COCOONCFG (R216): every copy of the die is discarded, and the lines that its slices have no more room for leave (R11, R96). -/
def State.cocoonCfg (s : State) (d : Nat) (v : BitVec 64) : State :=
  if !s.feat 7 then s
  else
    let s1 := (s.modDie d fun z => { z with cocoon := min 16 (v.extractLsb' 0 5).toNat }).l2TrimAll d
    { s1 with routers := s1.routers.map fun p => if p.1 / 64 = d then (p.1, { p.2 with cocoon := [] }) else p }

/-- DRAMCTL (R258): the channel named, and retraining started where none runs. The spec does not say what a write of CHAN does
while BUSY is 1: it is ignored, so that the channel that retrains stays named (log entry 149). -/
def State.dramCtlPut (s : State) (k : Nat) (v m : BitVec 64) : State :=
  let s1 := if (s.regs.dramBusy.contains k || !m.getLsbD 0) then s
    else { s with regs := { s.regs with dramChan := s.regs.dramChan.set k (v.extractLsb' 0 4).toNat } }
  if (v &&& m).getLsbD 4 && !s.regs.dramBusy.contains k then
    { s1 with regs := { s1.regs with dramBusy := k :: s1.regs.dramBusy } }
  else s1

/-- Retraining ends. -/
def State.retrained (s : State) (k : Nat) : State :=
  { s with regs := { s.regs with dramBusy := s.regs.dramBusy.filter fun n => n != k } }

/-- ECCSTAT.CLR (R241). -/
def State.eccClear (s : State) (c : Nat) : State := s.modCore c fun z => { z with eccCorr := 0, eccUncorr := 0 }

/-- RTCMD (R259): GO starts an installation unless one runs. The spec says that GO is ignored while BUSY is 1 and not what a write
of SLOT alone does then: the whole write is ignored (log entry 149). -/
def State.rtcmd (s : State) (v : BitVec 64) : State :=
  if s.regs.rtBusy then s
  else { s with regs := { s.regs with rtSlot := (v.extractLsb' 0 4).toNat, rtBusy := v.getLsbD 4 } }

/-- MBCMD (R261): a write with GO is ignored while a command runs; a command runs with the registers as GO finds them. -/
def State.mbcmd (s : State) (v m : BitVec 64) : State :=
  let go := (v &&& m).getLsbD 8
  if go && s.deh.busy then s
  else
    let d := s.deh
    let opc := if m.getLsbD 0 then (v.extractLsb' 0 8).toNat else d.opc
    let len := if m.getLsbD 32 then (v.extractLsb' 32 32).toNat else d.len
    { s with deh := { d with opc, len, busy := d.busy || go, cmd := if go then (opc, len, d.pa) else d.cmd } }

/-- A flit leaves a port under the port's next link sequence number (R251). -/
def State.flitOut (s : State) (p : Nat) (k : LinkPkt) : State :=
  State.modPort { s with out := { s.out with linkOut := s.out.linkOut ++ [(p, (s.port p).txSeq, k)] } } p fun z =>
    { z with txSeq := (z.txSeq + 1) % 4096 }

/-- A packet goes to a port: it leaves at once while the port holds a credit of the peer, and waits for one otherwise (R255). -/
def State.portOut (s : State) (p : Nat) (k : LinkPkt) : State :=
  let z := s.port p
  if z.txq.isEmpty && 0 < z.credits then
    (s.flitOut p k).modPort p fun y => { y with credits := y.credits - 1, creditT := s.time }
  else s.modPort p fun y => { y with txq := y.txq ++ [k] }

/-- A credit of the peer arrives: the packet that has waited longest leaves (R255). -/
def State.creditIn (s : State) (p : Nat) : State :=
  match (s.port p).txq with
  | [] => s.modPort p fun y => { y with credits := y.credits + 1, creditT := s.time, blocked := false }
  | k :: t => (s.flitOut p k).modPort p fun y => { y with txq := t, creditT := s.time, blocked := false }

/-- A packet of this package leaves on a port and is kept until it is acknowledged end to end; one for a port that is down waits
for a new route (R252, R256). -/
def State.linkSend (s : State) (p : Nat) (k : LinkPkt) : State :=
  if (s.port p).down then s.modPort p fun z => { z with lost := z.lost ++ [k] }
  else (s.portOut p k).modPort p fun z => { z with unacked := z.unacked ++ [k] }

/-- A packet receives the next end-to-end sequence number of its destination (R251). -/
def State.stamp (s : State) (k : LinkPkt) : LinkPkt × State :=
  let n := s.links.e2eNext.getD k.dst 0
  ({ k with seq := n }, { s with links := { s.links with e2eNext := s.links.e2eNext.set k.dst (n + 1) } })

/-- A route-table entry is written (R252, R256): the destination's packets that were not acknowledged when their port went down
leave again by the new route. -/
def State.routePut (s : State) (d : Nat) (v : BitVec 16) : State :=
  let e := v &&& 0x1F
  let s1 := { s with links := { s.links with routes := s.links.routes.set d e } }
  if !e.getLsbD 4 then s1
  else
    let q := (e.extractLsb' 0 4).toNat
    let lost := (List.range 16).flatMap fun p => (s.port p).lost.filter fun k => k.dst == d
    let s2 := (List.range 16).foldl (fun (u : State) p =>
      if (u.port p).lost.any fun k => k.dst == d then u.modPort p fun z => { z with lost := z.lost.filter fun k => k.dst != d }
      else u) s1
    lost.foldl (fun u k => u.linkSend q k) s2

/-- Dehenan lowers LIMIT (R70): a higher value changes nothing, and while Dehenan restarts the values stay as they are (R260). -/
def State.limitLower (s : State) (c : Nat) (v : BitVec 12) : State :=
  if !s.deh.restarting && v.toNat ≤ (s.core c).limit.toNat then s.modCore c fun z => { z with limit := v } else s

/-! ### The register map -/

/-- The written bits of a field mask put into an old value. -/
def putBits (old v m : BitVec 64) (f : Nat) : BitVec 64 :=
  let k := m &&& BitVec.ofNat 64 f
  (old &&& ~~~k) ||| (v &&& k)

/-- A write in the 256-byte block of a core (R70, R71, R85, R93, R241, R258). -/
def State.coreRegWrite (s : State) (c off : Nat) (v m : BitVec 64) : State :=
  let w := v &&& m
  let none_ := (s.residents c).isEmpty
  match off with
  | 0x00 => s.modCore c fun z => { z with limit := (putBits (z.limit.setWidth 64) v m 0xFFF).setWidth 12 }
  | 0x08 => if none_ then s.modCore c fun z => { z with privsz := (putBits (z.privsz.setWidth 64) v m 0xFFFF_FFFF).setWidth 32 } else s
  | 0x10 =>
    let s1 := if w.getLsbD 0 then s.preemptReq c else s
    if w.getLsbD 4 then s1.resume c else s1
  | 0x18 => if none_ then s.modCore c fun z => { z with privbase := putBits z.privbase v m 0x00FF_FFFF_FFFF_0000 } else s
  | 0x20 => if w.getLsbD 63 then s.eccClear c else s
  | 0x28 => if w.getLsbD 0 then s.retireCore c else s
  | _ => s

/-- A write in the fault, lease, launch and service registers below the core blocks. -/
def State.lowRegWrite (s : State) (a : Nat) (v m : BitVec 64) : State :=
  let w := v &&& m
  let r := s.regs
  let regs := fun (r1 : Regs) => { s with regs := r1 }
  let lim := fun (lo old : Nat) => max 16 (bits (putBits (BitVec.ofNat 64 (old * 2 ^ lo)) v m (0xFFFF * 2 ^ lo)).toNat lo 16)
  if a = 0x20 then (if r.featlock then s else regs { r with featacc := featStored (putBits r.featacc v m (2 ^ 64 - 1)) })
  else if a = 0x40 then (if w.getLsbD 0 then s.featLock else s)
  else if a = 0x50 then regs { r with pkgid := (putBits (r.pkgid.setWidth 64) v m 0x1FFF).setWidth 13 }
  else if a = 0x1000 then regs { r with enweight := putBits r.enweight v m (2 ^ 64 - 1) }
  else if 0x2000 ≤ a ∧ a < 0x2038 then
    (let k := (a - 0x2000) / 8
     s.budgetPut k (putBits (BitVec.ofNat 64 (r.budgetNext.getD k 0)) v m 0xFFFF).toNat)
  else if a = 0x2040 then regs { r with budgetErr := r.budgetErr &&& ~~~(w.setWidth 2) }
  else if 0x3000 ≤ a ∧ a < 0x3100 then
    (let d := (a - 0x3000) / 0x40
     if (a - 0x3000) % 0x40 = 0 then
       s.modDie d fun z =>
         { z with rbEn := if m.getLsbD 0 then v.getLsbD 0 else z.rbEn,
                  rbThresh := ((putBits ((z.rbThresh.setWidth 64) <<< 8) v m 0xFFFF_FF00) >>> 8).setWidth 24 }
     else if (a - 0x3000) % 0x40 = 8 then s.rbcmd d w else s)
  else if a = 0x4000 then s.faultresp w
  else if a = 0x4008 then { s with fq := { s.fq with base := putBits s.fq.base v m 0xFFFF_FFFF_FFE0 } }
  else if a = 0x4010 then { s with fq := { s.fq with size := min 8 (putBits (BitVec.ofNat 64 s.fq.size) v m 0xF).toNat } }
  else if a = 0x4018 then
    { s with fq := { s.fq with head := (putBits (s.fq.head.setWidth 64) v m 0xFFFF_FFFF).setWidth 32 } }
  else if a = 0x5000 then regs { r with cmpmeta := putBits r.cmpmeta v m 0xFFFF_FFFF_F000 }
  else if a = 0x6000 then regs { r with l1lease := lim 0 r.l1lease, l2lease := lim 16 r.l2lease }
  else if 0x7000 ≤ a ∧ a < 0x7020 then s.cocoonCfg ((a - 0x7000) / 8) (putBits (BitVec.ofNat 64 (s.die ((a - 0x7000) / 8)).cocoon) v m 0x1F)
  else if a = 0x8000 then regs { r with shvec := putBits r.shvec v m 0x00FF_FFFF_FFFF_FFF8 }
  else if 0x9000 ≤ a ∧ a < 0x9800 then
    (let q := (a - 0x9000) / 0x20
     match (a - 0x9000) % 0x20 / 8 with
     | 0 => s.modHq q fun z => if z.en then z else { z with base := putBits z.base v m 0x00FF_FFFF_FFFF_FFC0 }
     | 1 => s.hqControl q v m
     | 2 => s
     | _ => s.doorbell q ((putBits ((s.lu.hq.getD q HQ.reset).tail.setWidth 64) v m 0xFFFF_FFFF).setWidth 32))
  else if a = 0x9800 then
    (let s1 := if s.lu.dlqEn then s else { s with lu := { s.lu with dlqBase := putBits s.lu.dlqBase v m 0xFFFF_FFFC_0000 } }
     if !m.getLsbD 0 then s1 else if v.getLsbD 0 then s1.dlqEnable else { s1 with lu := { s1.lu with dlqEn := false } })
  else if a = 0xA000 then s.mbcmd v m
  else if a = 0xA008 then { s with deh := { s.deh with pa := (putBits (s.deh.pa.setWidth 64) v m 0xFFFF_FFFF_FFC0).setWidth 48 } }
  else if a = 0xA010 then (if w.getLsbD 1 then { s with deh := { s.deh with done := false } } else s)
  else if a = 0xB000 then (if m.getLsbD 0 then s.rtcmd w else s)
  else if a = 0xB008 then regs { r with rtPa := (putBits (r.rtPa.setWidth 64) v m 0xFFFF_FFFF_FFFF).setWidth 48 }
  else if 0xD000 ≤ a ∧ a < 0xD100 then
    s.modPort ((a - 0xD000) / 16) fun z =>
      if a % 16 = 0 then { z with ovBase := putBits z.ovBase v m 0xFFFF_FFE0_0000 }
      else { z with ovSize := (putBits (z.ovSize.setWidth 64) v m 0xFFFF).setWidth 16, down := z.down && !w.getLsbD 16,
                    ovfull := z.ovfull && !w.getLsbD 17 }
  else if 0xD100 ≤ a ∧ a < 0xD140 then
    (let d := (a - 0xD100) / 16
     let held := s.teams.any fun p => dieOf p.2.core == d
     s.modDie d fun z =>
       if a % 16 = 0 then (if held then z else { z with qBase := putBits z.qBase v m 0xFFFF_FFE0_0000 })
       else { z with qSize := if held then z.qSize else (putBits (z.qSize.setWidth 64) v m 0xFFFF).setWidth 16,
                     qFull := z.qFull && !w.getLsbD 16 })
  else if 0xE000 ≤ a ∧ a < 0xE800 then (if w.getLsbD 0 then s.retireSlice ((a - 0xE000) / 8) else s)
  else if 0xF000 ≤ a ∧ a < 0xF040 then s.dramCtlPut ((a - 0xF000) / 8) v m
  else s

/-- A write of the aligned 8-byte word at an offset of device control space: `m` masks the written bits. `host` says that the
host driver writes: it alone writes the ASID table (R106) and the mailbox (R261). Addresses without a register ignore it. -/
def State.regWriteWord (s : State) (a : Nat) (v m : BitVec 64) (host : Bool) : State :=
  if 0xA000 ≤ a ∧ a < 0xA018 then (if host then s.lowRegWrite a v m else s)
  else if a < 0x10000 then s.lowRegWrite a v m
  else if a < 0x20000 then s.coreRegWrite ((a - 0x10000) / 0x100) (a % 0x100) v m
  else if 0x30000 ≤ a ∧ a < 0x32000 then
    { s with links := { s.links with apertures := s.links.apertures.upd ((a - 0x30000) / 8) 0 fun o => putBits o v m 0x0FFF_3FFF } }
  else if 0x40000 ≤ a ∧ a < 0x44000 then
    (List.range 4).foldl (fun u k =>
      let mk := m.extractLsb' (16 * k) 16
      let d := (a - 0x40000) / 2 + k
      let old := u.links.routes.getD d 0
      if mk = 0 then u else u.routePut d ((old &&& ~~~mk) ||| (v.extractLsb' (16 * k) 16 &&& mk))) s
  else if 0x200000 ≤ a ∧ a < 0x210000 then
    (if host && a % 16 = 0 then { s with asidTab := s.asidTab.upd ((a - 0x200000) / 16) 0 fun o => putBits o v m 0xFFFF_FFFF_F001 } else s)
  else if 0x1000000 ≤ a ∧ a < 0x1000000 + 0x10000 * 345 then
    (let t := (a - 0x1000000) / 0x10000
     let k := (a - 0x1000000) % 0x10000 / 0x40
     let w := a % 0x40 / 0x10
     let i := a % 0x10 / 8
     let x := putBits (s.accWord t k w i) v m (if i = 0 then 0xFFFF_FFFF_001F else 0xFFFF_FFFF_0000)
     if k < 529 then { s with acc := s.acc.set ((t * 529 + k) * 8 + 2 * w + i) x } else s)
  else s

/-- `n` bytes written at a physical address of device control space. -/
def State.regWrite (s : State) (pa n : Nat) (v : BitVec 64) (host : Bool) : State :=
  let a := pa - Config.devBase
  s.regWriteWord (a / 8 * 8) (v <<< (8 * (a % 8))) (BitVec.ofNat 64 ((2 ^ (8 * n) - 1) * 2 ^ (8 * (a % 8)))) host

/-! ### Device steps that are register writes -/

/-- REGISTER_WRITE (R5): the host driver writes a register. -/
def execRegisterWrite (pa : Nat) (v : BitVec 64) (s : State) : Host.Outcome State Fault Refusal := .next (s.regWrite pa 8 v true)

/-- BUDGET_WRITE (R84). -/
def execBudgetWrite (a : Nat) (v : BitVec 64) (s : State) : Host.Outcome State Fault Refusal :=
  .next (if a < 7 then s.budgetPut a (v.toNat % 65536) else s)

/-- RBCMD_WRITE (R99). -/
def execRbcmdWrite (die : Nat) (v : BitVec 64) (s : State) : Host.Outcome State Fault Refusal := .next (s.rbcmd die v)

/-- LAUNCH_QUEUE_DOORBELL (R248). -/
def execLaunchQueueDoorbell (q : Nat) (tail : BitVec 32) (s : State) : Host.Outcome State Fault Refusal := .next (s.doorbell q tail)

/-- LAUNCH_QUEUE_ENABLE (R247). -/
def execLaunchQueueEnable (q : Nat) (s : State) : Host.Outcome State Fault Refusal := .next (s.hqEnable q)

/-- DEVICE_QUEUE_ENABLE (R249). -/
def execDeviceQueueEnable (s : State) : Host.Outcome State Fault Refusal := .next s.dlqEnable

/-- PRECTL_REQ (R85). -/
def execPrectlReq (core : Nat) (s : State) : Host.Outcome State Fault Refusal := .next (s.preemptReq core)

/-- PRECTL_RESUME (R85). -/
def execPrectlResume (core : Nat) (s : State) : Host.Outcome State Fault Refusal := .next (s.resume core)

/-- FAULTRESP_REPLAY (R105). -/
def execFaultrespReplay (asid page : Nat) (s : State) : Host.Outcome State Fault Refusal := .next (s.replay asid page)

/-- FAULTRESP_KILL (R105). -/
def execFaultrespKill (asid page : Nat) (s : State) : Host.Outcome State Fault Refusal := .next (s.killPage asid page)

/-- FAULT_QUEUE_HEAD (R250). -/
def execFaultQueueHead (v : BitVec 32) (s : State) : Host.Outcome State Fault Refusal :=
  .next { s with fq := { s.fq with head := v } }

/-- FEATCTL_LOCK (R246). -/
def execFeatctlLock (s : State) : Host.Outcome State Fault Refusal := .next s.featLock

/-- COCOONCFG_WRITE (R216). -/
def execCocooncfgWrite (die : Nat) (v : BitVec 64) (s : State) : Host.Outcome State Fault Refusal := .next (s.cocoonCfg die v)

/-- CORE_RETIRE (R258). -/
def execCoreRetire (core : Nat) (s : State) : Host.Outcome State Fault Refusal := .next (s.retireCore core)

/-- SLICE_RETIRE (R258). -/
def execSliceRetire (slice : Nat) (s : State) : Host.Outcome State Fault Refusal := .next (s.retireSlice slice)

/-- DRAM_RETRAIN (R258). -/
def execDramRetrain (ctl : Nat) (v : BitVec 64) (s : State) : Host.Outcome State Fault Refusal :=
  .next (s.dramCtlPut ctl v (-1))

/-- DRAM_RETRAIN_DONE (R258). -/
def execDramRetrainDone (ctl : Nat) (s : State) : Host.Outcome State Fault Refusal := .next (s.retrained ctl)

/-- ECCSTAT_CLEAR (R241). -/
def execEccstatClear (core : Nat) (s : State) : Host.Outcome State Fault Refusal := .next (s.eccClear core)

/-- ROUTE_TABLE_WRITE (R256). -/
def execRouteTableWrite (d : Nat) (v : BitVec 16) (s : State) : Host.Outcome State Fault Refusal := .next (s.routePut d v)

/-- ENBUDGET_LIMIT_LOWER (R70). -/
def execEnbudgetLimitLower (core : Nat) (v : BitVec 12) (s : State) : Host.Outcome State Fault Refusal := .next (s.limitLower core v)

/-! ### The end of a budget period (R82, R84, R99) -/

/-- The accesses a slice served in the period (R99). -/
def Die.served (d : Die) (sl : Nat) : Nat :=
  d.counts.foldl (fun n p => if p.1 / 4096 = sl then n + p.2 else n) 0

/-- The accesses to a bucket that a slice served in the period. -/
def Die.servedOf (d : Die) (sl b : Nat) : Nat := d.counts.getD (4096 * sl + b) 0

/-- The first element with the largest key. -/
def maxBy (f : Nat → Nat) : List Nat → Option Nat
  | [] => none
  | a :: t =>
    match maxBy f t with
    | none => some a
    | some b => if f a < f b then some b else some a

/-- The first element with the smallest key. -/
def minBy (f : Nat → Nat) : List Nat → Option Nat
  | [] => none
  | a :: t =>
    match minBy f t with
    | none => some a
    | some b => if f b < f a then some b else some a

/-- The move a die's rebalancer chooses at the end of a period (R99). -/
def Die.chooseMove (d : Die) : Option (Nat × Nat) :=
  let sls := List.range 64
  match maxBy d.served sls with
  | none => none
  | some hot =>
    if d.served hot ≤ d.rbThresh.toNat then none
    else
      let mine := (d.counts.filter fun p => p.1 / 4096 == hot && d.sliceOfBucket (p.1 % 4096) == hot).map (·.1 % 4096)
      match maxBy (d.servedOf hot) (sortBy id mine), minBy d.served (sls.filter d.mayTake) with
      | some b, some dst => if dst = hot then none else some (b, dst)
      | _, _ => none

/-- A die at the end of a period: the rebalancer moves a bucket where none moves, and counting starts again. -/
def State.periodDie (s : State) (d : Nat) : State :=
  let x := s.die d
  let s1 := if (x.rbEn && s.feat 4 && x.move.isNone) then
      (match x.chooseMove with | some (b, dst) => s.startMove d b dst | none => s)
    else s
  s1.modDie d fun z => { z with counts := [] }

/-- BUDGET_PERIOD_END (R82): once a period of 4,096 ticks is over, new grant counts take effect and every grant is renewed; the
rebalancers decide (R99). -/
def execBudgetPeriodEnd (s : State) : Host.Outcome State Fault Refusal :=
  .next (if s.periods < s.time / 4096 then
      (List.range 4).foldl State.periodDie
        { s with periods := s.periods + 1, spent := [], regs := { s.regs with budget := s.regs.budgetNext } }
    else s)

end Sys2Proof.Machine
end

