-- ==== Sys2Proof/Machine/Perform.lean ====
section
/-! DEFINITION. Machine/Perform.lean: how the accesses in flight perform at their homes, page walks, fence markers, cache steps
and fault records (R95, R97, R104, R109 to R113, R116, R118, R119, R250, R254, R288, R306, R326, R327, R367, R377, R396). -/
namespace Sys2Proof.Machine
open Sys2Proof

/-! ### When an access may perform -/

/-- The target of an uncached access (R97): a link's destination package, the host window or device control space. -/
def State.target (s : State) (pa : Nat) : Nat :=
  match regionOf pa with
  | .link => ((s.links.apertures.getD ((pa - Config.linkBase) / 2 ^ 36) 0).extractLsb' 0 13).toNat
  | .host => 8192
  | _ => 8193

/-- An earlier operation of the lane keeps a later one from performing (R111, R118): the same bytes, an acquire without its
value, an earlier store of the same drain (R121), or, for a write, a read without its value. -/
def Op.holds (q o : Op) : Bool :=
  q.id < o.id && q.team == o.team && q.grp == o.grp && q.lane == o.lane && q.kind.mem && q.kind != .evwait && !q.got &&
    (overlaps q.pa q.width o.pa o.width || q.acq || (q.drain && o.drain) ||
      ((o.kind == .store || o.kind == .atomic) && (q.kind == .load || (q.kind == .atomic && q.pend.isSome))))

/-- An earlier operation of the same instruction on the same location (R290). -/
def Op.before290 (q o : Op) : Bool :=
  q.id < o.id && q.kind == .atomic && o.kind == .atomic && q.team == o.team && q.grp == o.grp && q.tok == o.tok && q.pa == o.pa

/-- An earlier access of the same master to the same uncached target has not gone out (R97). -/
def State.behind (s : State) (q o : Op) : Bool :=
  q.id < o.id && q.core == o.core && q.kind.mem && q.kind != .evwait && !q.sent && !q.got && regionOf o.pa != .dram && regionOf q.pa != .dram &&
    s.target q.pa == s.target o.pa

/-- A fence of the operation's group that was issued before it is not complete (R115). -/
def State.fenced (s : State) (o : Op) : Bool :=
  match s.grp? o.team o.grp with
  | none => false
  | some y => y.fences.any fun f => f.stage < 2 && !f.ownLanes && f.cut ≤ o.id

/-- The operation's bucket is being moved and it entered afterwards (R100). -/
def State.moving (s : State) (o : Op) : Bool :=
  regionOf o.pa == .dram && o.alloc ≥ 2 &&
    (match (s.die (dieOf o.core)).move with
     | some m => bucketOf o.pa == m.bucket && m.cut ≤ o.id
     | none => false)

/-- Neither the core's L1 nor the die's slice serves an operation on a page that they keep: it misses to the L3, or is an atomic
that performs there (R95, R119). -/
def State.toBase (s : State) (o : Op) : Bool :=
  let c := o.core % 256
  o.alloc < 2 || (o.kind == .atomic && 4 ≤ o.scope) ||
    (((s.die (dieOf c)).l2Find (o.pa / 128)).isNone && (o.alloc == 2 || ((s.core c).l1Find (o.pa / 128)).isNone))

/-- The die whose request queue toward the base die holds an operation (R257): one for the L3, a link, the host or a register. An
event wait is a read that its lane makes anew and stands in no queue. -/
def State.queueOf (s : State) (o : Op) : Option Nat :=
  if o.kind.mem && o.kind != .evwait && !o.got && o.core < 512 && (regionOf o.pa != .dram || s.toBase o) then
    some (dieOf (o.core % 256))
  else none

/-- The requests in a die's spill region: those of them that have not ended otherwise (R257). -/
def State.spilled (s : State) (d : Nat) : List Nat := (s.die d).qSpilled.filter fun k => s.ops.any fun o => o.id == k

/-- An earlier request of the die that spilled, or one that it spilled behind, goes to the base die first (R257). -/
def State.queued (s : State) (q o : Op) : Bool :=
  let sp := s.spilled (dieOf (o.core % 256))
  !sp.isEmpty && q.id < o.id && !q.sent && (sp.contains q.id || sp.contains o.id) &&
    (s.queueOf o).isSome && s.queueOf q == s.queueOf o

/-- The operation may perform now. -/
def State.mayPerform (s : State) (o : Op) : Bool :=
  !s.fenced o && !s.moving o && !(regionOf o.pa == .dram && (s.pinned o.pa || (3 ≤ o.alloc && !s.fillOpen o.core (o.pa / 128)))) &&
    !s.ops.any fun q => q.holds o || q.before290 o || s.behind q o || s.queued q o

/-- An operation leaves. -/
def State.dropOp (s : State) (o : Op) : State := { s with ops := s.ops.filter fun q => q.id != o.id }

/-- The base die takes a request of a die's queue: the die has a credit again (R257). -/
def State.taken (s : State) (o : Op) : State :=
  match s.queueOf o with
  | some d => s.modDie d fun z => { z with qCredit := s.time, qSpilled := z.qSpilled.filter fun k => k != o.id }
  | none => s

/-- A store or other counted operation is acknowledged (R81). -/
def State.ackOp (s : State) (o : Op) : State := (s.dropOp o).decTok? o.team o.grp o.tok

/-- A read's value has come: it fills the pending writeback (R57, R81), or is kept for the instruction or engine that asked. -/
def State.answer (s : State) (o : Op) (v : Nat) : State :=
  if o.kind = .far then
    { s with ops := s.ops.map fun q => if q.id = o.id then { q with opc := 1, data := BitVec.ofNat 64 v } else q }
  else
    match o.pend with
    | some id => (s.dropOp o).fillPend o.team o.grp o.lane id v
    | none => s.ackOp o

/-- The access kind of an operation, for the record of its refusal. -/
def OpKind.access (k : OpKind) : Nat :=
  match k with
  | .store | .clean => 1
  | .atomic => 2
  | _ => 0

/-- An access that has been issued is refused, or nothing answers its address: it has no effect, and its lane traps at it; a
refusal is reported (R108, R252, R253). -/
def State.refuseOp (s : State) (o : Op) (cause : Nat) : State :=
  if o.kind = .far then
    { s with ops := s.ops.map fun q => if q.id = o.id then { q with opc := if cause = cRefused then 2 else 3 } else q }
  else
    let s1 := match o.pend with
      | some id => ((s.dropOp o).dropPend o.team o.grp o.lane id).groupLeaves o.team o.grp
      | none => s.ackOp o
    -- the base-die scheduler's access, master 529, records every cause (R419)
    let s2 := if o.core = 529 then s1.pushFault o.va cause o.asid o.kind.access 529
      else s1.pushRefused o.va cause o.asid o.kind.access o.core
    match s2.grp? o.team o.grp with
    | none => s2
    | some y =>
      if (y.lane o.lane).st = .exited then s2
      else
        State.takeTrap (s2.modLane o.team o.grp o.lane fun x => { x with pc := o.pc, rep := o.rep, st := .eligible }) o.team o.grp
          [(o.lane, cause)] [o.lane] (o.rep.map fun i => (o.pc, i))

/-! ### Bucket moves (R100) -/

/-- A request for the bucket that a die moves has entered the die's mesh before the bucket was marked and has not been served: one
that its core still holds back, for an order of its lane or for room in its L1, has not entered. -/
def State.entered (s : State) (d : Nat) (m : Move) (o : Op) : Bool :=
  o.id < m.cut && dieOf o.core == d && o.alloc ≥ 2 && bucketOf o.pa == m.bucket && regionOf o.pa == .dram &&
    o.kind != .evwait && o.kind != .xst && o.kind != .nrtw && o.kind != .sts && s.mayPerform o

/-- The latest expiry that a die's slice has granted for any line of a bucket (R100). -/
def Die.latestOf (z : Die) (b : Nat) : Nat :=
  z.granted.foldl (fun n p => if bucketOf (p.1 * 128) = b then max n p.2 else n) (z.floors.getD b 0)

/-- The lines of a moving bucket that its slice holds. -/
def State.moveLines (s : State) (d : Nat) (m : Move) : Nat :=
  ((s.die d).l2.filter fun l => bucketOf (l.line * 128) == m.bucket).length

/-- A move's flushes and its 128 table writes take the rebalancer's grants as the periods give them (R82, R100): how many of them
have theirs, and the state. -/
def State.payMove (s : State) (d : Nat) (m : Move) : Nat × State :=
  let n := s.moveLines d m
  let a := s.spendMany 3 d (l2Target d m.src) (n - m.paid)
  let p := m.paid + a.1
  if p < n then (p, a.2)
  else
    let b := a.2.spendMany 3 d (routerTarget (64 * d + m.dst)) (n + 128 - p)
    (p + b.1, b.2)

/-- BUCKET_MOVE_COMPLETE (R100): once every request in flight for the bucket has been served and every flush and table write has its
grant, its bytes are forwarded, its lines leave the L2, its latest lease bounds the write completion times that follow, and the new
slice serves it. -/
def State.moveDone (s : State) (d : Nat) : State :=
  match (s.die d).move with
  | none => s
  | some m =>
    if s.ops.any (s.entered d m) then s
    else
      let r := s.payMove d m
      if r.1 < s.moveLines d m + 128 then r.2.modDie d fun z => { z with move := some { m with paid := r.1 } }
      else
        let s1 := r.2.forward d fun f => r.2.sliceOf d (f.line * 128) == m.src
        (s1.modDie d fun z =>
          { z with l2 := z.l2.filter (fun l => bucketOf (l.line * 128) != m.bucket), slicemap := z.slicemap.set m.bucket m.dst,
                   floors := z.floors.set m.bucket (z.latestOf m.bucket), move := none }).nextMove d

/-- BUCKET_MOVE_COMPLETE. -/
def execBucketMoveComplete (die : Nat) (s : State) : Host.Outcome State Fault Refusal := .next (s.moveDone die)

/-! ### Link and host targets (R97, R252 to R254) -/

/-- The packet of a link access (R251): `tag` names the operation. -/
def State.linkPkt (s : State) (o : Op) (k : LinkKind) : LinkPkt :=
  let ap := s.links.apertures.getD ((o.pa - Config.linkBase) / 2 ^ 36) 0
  let dst := (ap.extractLsb' 0 13).toNat
  { kind := k, src := s.regs.pkgid.toNat, dst, seq := 0,
    pa := (ap.extractLsb' 16 12).toNat * 2 ^ 36 + (o.pa - Config.linkBase) % 2 ^ 36, width := o.width, val := o.data.toNat,
    cmp := o.cmp.toNat, opc := o.opc, tag := o.id }

/-- An operation's request has gone out. -/
def State.opSent (s : State) (id : Nat) : State :=
  { s with ops := s.ops.map fun (q : Op) => if q.id = id then { q with sent := true } else q }

/-- A link access goes out on the port of its route; one that has lost its aperture or its route is refused (R252, R253). -/
def State.linkOut (s : State) (o : Op) (k : LinkKind) : State :=
  match s.linkBad o.pa, s.linkPort o.pa with
  | none, some p =>
    let r := s.stamp (s.linkPkt o k)
    (r.2.opSent o.id).linkSend p r.1
  | some c, _ => s.refuseOp o c
  | none, none => s.refuseOp o cRefused

/-- Bytes go to the host as a PCIe write (R242). -/
def State.hostPut (s : State) (pa : Nat) (bs : List (BitVec 8)) : State :=
  { s with out := { s.out with hostOut := s.out.hostOut ++ [(pa - Config.hostBase, bs)] } }

/-- A read or an atomic goes to the host as a PCIe request (R242), whose answer is a free value. -/
def State.hostAsk (s : State) (pa width : Nat) (atom : Option (Nat × Nat × Nat)) : Nat × State :=
  ((Config.hostRead s.freeCtr).toNat % 2 ^ (8 * width),
    { s with freeCtr := s.freeCtr + 1
             out := { s.out with hostReq := s.out.hostReq ++ [⟨pa - Config.hostBase, width, atom⟩] } })

/-! ### Loads -/

/-- Bytes `n` of a number with the masked bits of a speculative group's buffer in place (R121). -/
def overlayBits (v data mask : Nat) : Nat := (v &&& (2 ^ 64 - 1 - mask)) ||| (data &&& mask)

/-- The copy that would serve a load is unexpired, so no new lease is asked for (R112). -/
def State.leased (s : State) (o : Op) : Bool :=
  let line := o.pa / 128
  if o.alloc ≥ 3 then
    (match (s.core o.core).l1Find line with | some z => decide (s.time < z.lease) | none => false)
  else if o.alloc = 2 then
    (match (s.die (dieOf o.core)).l2Find line with | some z => decide (s.time < z.lease) | none => false)
  else true

/-- A release store to the line is on its way, so that no new lease is granted on it (R118). -/
def State.relPending (s : State) (o : Op) : Bool :=
  s.ops.any fun q => q.kind == .store && q.rel && q.sent && q.pa / 128 == o.pa / 128 && regionOf q.pa == .dram

/-- A load's value as its destination receives it (R343). -/
def Op.value (o : Op) (v : Nat) : Nat := extendLoad o.sext o.width (overlayBits v o.data.toNat o.cmp.toNat % 2 ^ (8 * o.width))

/-- A load performs (R95, R97, R112); one that meets poison kills its team (R241). -/
def State.loadNow (s : State) (o : Op) : State :=
  match regionOf o.pa with
  | .dram =>
    if s.poisoned o.pa o.width then s.killTeam o.team cEcc o.pc.toNat
    else
      let (bs, s1) := s.loadBytes o.core o.pa o.width o.attr o.priv
      s1.answer o (o.value (leNat bs))
  | .dev => s.answer o (o.value (s.regRead o.pa o.width))
  | .host =>
    let r := s.hostAsk o.pa o.width none
    r.2.answer o (o.value r.1)
  | _ => if o.sent then s else s.linkOut o .read

/-- The word PRSQ returns (R377). -/
def State.presence (s : State) (o : Op) : Nat :=
  if regionOf o.pa != .dram || o.alloc == 0 then 0
  else
    let line := o.pa / 128
    let a := (s.core o.core).l1Find line
    let b := (s.die (dieOf o.core)).l2Find line
    let valid : Bool := match a with | some z => decide (s.time < z.lease) | none => false
    let evp := match a, b with
      | some z, _ => z.evp
      | none, some z => z.evp
      | none, none => 0
    let left := match a with | some z => if valid then min 0xFFFF (z.lease - s.time) else 0 | none => 0
    packW [(0, b2n valid), (1, b2n b.isSome), (2, b2n (s.l3Has line)), (3, evp),
      (5, b2n (match a with | some z => z.dirty != 0 | none => false)), (16, left)]

/-- LOAD_RETURN may happen. -/
def State.loadReady (s : State) (o : Op) : Bool :=
  (o.kind == .load || o.kind == .presence || (o.kind == .far && !o.got)) && s.mayPerform o && !(o.sent) &&
    !(o.kind == .load && regionOf o.pa == .dram && s.relPending o && !s.leased o)

/-- LOAD_RETURN (R81). -/
def execLoadReturn (op : Nat) (s : State) : Host.Outcome State Fault Refusal :=
  .next (match s.ops.find? fun o => o.id == op with
  | none => s
  | some o =>
    if !s.loadReady o then s
    else if o.kind = .presence then s.answer o (s.presence o)
    else (s.taken o).loadNow o)

/-! ### Stores and atomics -/

/-- An atomic performs at its home (R119, R290); one that meets poison kills its team (R241). -/
def State.atomNow (s : State) (o : Op) : State :=
  let w := 8 * o.width
  let new := fun (old : Nat) => leBytes o.width (atomNew o.opc w old (o.data.toNat % 2 ^ w) (o.cmp.toNat % 2 ^ w))
  match regionOf o.pa with
  | .dram =>
    if s.poisoned o.pa o.width then (s.killTeam o.team cEcc o.pc.toNat).dropOp o
    else
      let (bs, s1) := s.homeBytes o.core o.pa o.width o.attr o.scope
      (s1.homeWrite o.core o.team o.grp o.pa o.attr o.scope (new (leNat bs))).answer o (leNat bs)
  | .dev =>
    let old := s.regRead o.pa o.width
    (s.regWrite o.pa o.width (BitVec.ofNat 64 (leNat (new old))) false).answer o old
  | .host =>
    let r := s.hostAsk o.pa o.width (some (o.opc, o.data.toNat % 2 ^ w, o.cmp.toNat % 2 ^ w))
    r.2.answer o r.1
  | _ => if o.sent then s else s.linkOut o .atomic

/-- The latest lease granted on a line, by the die's L2 for scopes up to .die, else by the L3 and any L2 (R112, R118). -/
def State.latestLease (s : State) (o : Op) : Nat :=
  let line := o.pa / 128
  let l2 := fun (d : Nat) => (s.die d).latest line
  if o.alloc < 2 then 0
  else if o.scope ≤ 3 then l2 (dieOf o.core)
  else (List.range 4).foldl (fun m d => max m (l2 d)) (s.l3Granted.getD line 0)

/-- The group of an operation is in the state: the group of a removed team is not. -/
def State.storeDram (s : State) (o : Op) : State :=
  let bs := leBytes o.width o.data.toNat
  s.storeBytes o.core o.team o.grp o.pa o.attr o.rel o.priv bs

/-- A store performs (R95, R97, R113). A release store first stops new leases on its line, and is written once every lease
granted before has expired, so that no load returns it before it is performed at its scope (R118). -/
def State.storeNow (s : State) (o : Op) : State :=
  match regionOf o.pa with
  | .dram =>
    if !o.rel || o.scope ≤ 1 then (s.storeDram o).ackOp o
    else if !o.sent then s.opSent o.id
    else if s.time ≤ s.latestLease o then s
    else
      let s1 := s.storeDram o
      (if o.scope ≥ 4 then s1.forwardLine (dieOf o.core) (o.pa / 128) else s1).ackOp o
  | .dev => (s.regWrite o.pa o.width o.data false).ackOp o
  | .host => (s.hostPut o.pa (leBytes o.width o.data.toNat)).ackOp o
  | _ => if o.sent then s else s.linkOut o .write

/-- CCTL CLEAN and DROP (R306). -/
def State.cleanNow (s : State) (o : Op) : State :=
  let line := o.pa / 128
  let s1 := s.cleanLine o.core line [(o.team, o.grp)]
  (if o.opc = 2 then s1.modCore o.core fun c => c.l1Drop line else s1).ackOp o

/-- STORE_AT_HOME may happen. -/
def State.storeReady (s : State) (o : Op) : Bool :=
  o.kind == .sts || (o.kind == .store || o.kind == .atomic || o.kind == .clean) && s.mayPerform o &&
    (match regionOf o.pa with
     | .dram => !(o.kind == .store && o.sent && s.time ≤ s.latestLease o)
     | .link => !o.sent
     | _ => true)

/-- STORE_AT_HOME (R113). -/
def execStoreAtHome (op : Nat) (s : State) : Host.Outcome State Fault Refusal :=
  .next (match s.ops.find? fun o => o.id == op with
  | none => s
  | some o =>
    if !s.storeReady o then s
    else
      let u := s.taken o
      match o.kind with
      | .store => u.storeNow o
      | .atomic => u.atomNow o
      | .sts => u.ackOp o
      | _ => u.cleanNow o)

/-! ### EVWAIT (R326, R327) -/

/-- The lane that waits moves past its EVWAIT. -/
def evwaitLane (x : Lane) : Lane :=
  match x.rep with
  | some i => { x with st := .eligible, rep := some (i + 1) }
  | none => { x with st := .eligible, pc := x.pc + 8 }

/-- The registers EVWAIT writes. -/
def evwaitRegs (front : Bool) (d v : Nat) : List (PReg × Nat) :=
  if front then [(.s d, v)] else [(.g d, v % 2 ^ 32), (.g (d + 1), v / 2 ^ 32)]

/-- A waiting lane has read a value: at or above its threshold it completes, and the core's and die's copies of the word are
no older than what it saw (R110). -/
def State.evwaitSees (s : State) (o : Op) (y : Group) (v : Nat) : State :=
  if v < o.data.toNat then { s with ops := s.ops.map fun (q : Op) => if q.id = o.id then { q with sent := false } else q }
  else
    let s1 := ((s.ackOp o).releaseAll o.team o.grp [o.lane]).modLane o.team o.grp o.lane evwaitLane
    let s2 := (s1.addPend o.team o.grp o.lane (evwaitRegs y.front (o.cmp.toNat % 256) v) true none).2
    if regionOf o.pa != .dram then s2
    else
      (s2.modDie (dieOf o.core) fun z =>
        match z.l2Find (o.pa / 128) with
        | some l => z.l2Set { l with data := linePut l.data (o.pa % 128) (leBytes 8 v) }
        | none => z).l1Refresh o.core o.pa (leBytes 8 v)

/-- A waiting lane reads its event word at the home for its scope. -/
def State.evwaitAt (s : State) (o : Op) (y : Group) : State :=
  match regionOf o.pa with
  | .dram =>
    if s.poisoned o.pa 8 then s.killTeam o.team cEcc o.pc.toNat
    else
      let (bs, s1) := s.homeBytes o.core o.pa 8 o.attr o.scope
      s1.evwaitSees o y (leNat bs)
  | .dev => s.evwaitSees o y (s.regRead o.pa 8)
  | .host =>
    let r := s.hostAsk o.pa 8 none
    r.2.evwaitSees o y r.1
  | _ => if o.sent then s else s.linkOut o .read

/-- The event word of a waiting lane may be read now: no fence, bucket move, retraining, earlier access of the lane to the same bytes,
earlier acquire of it or earlier access to the same target keeps it back (R97, R100, R111, R115, R118, R258). -/
def State.mayPoll (s : State) (o : Op) : Bool :=
  !s.fenced o && !(regionOf o.pa == .dram && !s.homeOpen (dieOf o.core) o.pa o.alloc) && !s.ops.any fun q => q.holds o || s.behind q o

/-- A waiting lane reads its event word (R326, R327) through the translation as it stands: one that TLBINV or an eviction removed is
walked for, and a translation fault parks the lane until the driver answers (R105, R396). -/
def State.evwaitRead (s : State) (o : Op) (y : Group) : State :=
  if o.sent then s
  else match s.xlate o.core o.asid o.va 0 y.sup with
    | .miss => s.addMiss o.core o.asid o.va 0 y.spec
    | .fault c =>
      (s.reportXlate o.va c o.asid 0 o.core y.spec).modLane o.team o.grp o.lane fun z =>
        { z with st := .parked (.xlate o.asid (pageOf o.va) 0) }
    | .ok e =>
      match s.physCheck o.core 0 (e.phys o.va) 8 y.sup with
      | some c => s.refuseOp o c
      | none =>
        let q := { o with pa := e.phys o.va, attr := e.attr }
        if s.mayPoll q then s.evwaitAt q y else s

/-- The EVWAIT of a lane that is parked in it. -/
def State.evwaitWaiting (s : State) (t g lane : Nat) : Option (Op × Group) :=
  match s.grp? t g with
  | none => none
  | some y =>
    match (y.lane lane).st with
    | .parked (.event id) => (s.ops.find? fun o => o.id == id).map fun o => (o, y)
    | _ => none

/-- EVWAIT_REPOLL (R327). -/
def execEvwaitRepoll (t g lane : Nat) (s : State) : Host.Outcome State Fault Refusal :=
  .next (match s.evwaitWaiting t g lane with
  | none => s
  | some (o, y) => if s.mayPoll o then s.evwaitRead o y else s)

/-! ### Caches and markers -/

/-- L2_FORWARD (R113). -/
def execL2Forward (die line : Nat) (s : State) : Host.Outcome State Fault Refusal := .next (s.forwardLine die line)

/-- A line's lease has run out at a core: its clean copies go (R112). -/
def State.expireCore (s : State) (c line : Nat) : State :=
  s.modCore c fun z =>
    { z with l1 := z.l1.filter fun x => !(x.line == line && x.dirty == 0 && x.lease ≤ s.time)
             mdc := z.mdc.filter fun x => !(x.line == line && x.lease ≤ s.time)
             ipath := z.ipath.filter fun x => !(x.line == line && x.lease ≤ s.time) }

/-- LEASE_EXPIRY (R112): unit 0 to 255 is a core, 256 to 259 a die's L2, which forwards the line's bytes first (R113). -/
def execLeaseExpiry (unit line : Nat) (s : State) : Host.Outcome State Fault Refusal :=
  .next (if unit < 256 then s.expireCore unit line
    else
      let d := unit - 256
      match (s.die d).l2Find line with
      | none => s
      | some x =>
        if s.time < x.lease then s
        else (s.forwardLine d line).modDie d fun z => { z with l2 := z.l2.filter fun y => y.line != line })

/-- L1_EVICTION (R95, R96): the victim leaves, its dirty bytes as stores of the groups that made them. -/
def execL1Eviction (core line : Nat) (s : State) : Host.Outcome State Fault Refusal :=
  .next (match (s.core core).l1Find line with
  | none => s
  | some x =>
    if victim (·.evp) (s.core core).l1 = some x && s.cleanOpen core x then s.l1Evict core line else s)

/-- The slice that a marker at a slice is forwarded to, while a bucket moves between them (R100). -/
def Die.markerNext (d : Die) (slice : Nat) : Option Nat :=
  match d.move with
  | some m => if m.src = slice then some m.dst else none
  | none => none

/-- The slice acknowledges a marker of a fence (R116): for .pkg and .sys it forwards its bytes first, and the group receives
the L3's write completion times. A slice that a bucket leaves passes the marker on to the bucket's next slice, which does the
same before (R100). -/
def State.marker (s : State) (t g slice : Nat) : State :=
  match s.team? t, s.grp? t g with
  | some x, some y =>
    let d := dieOf x.core
    let mine := y.fences.filter fun f => f.stage == 1 && f.markers.contains slice
    let pkg := mine.any fun f => f.scope ≥ 4
    let at_ := slice :: ((s.die d).markerNext slice).toList
    let s1 := if pkg then s.forward d fun f => at_.contains (s.sliceOf d (f.line * 128)) else s
    s1.modGrp t g fun z =>
      { z with kwct := if pkg then max z.kwct z.wct3 else z.kwct
               fences := z.fences.map fun f => if f.stage = 1 then { f with markers := f.markers.filter fun k => k != slice } else f }
  | _, _ => s

/-- FENCE_MARKER (R116). -/
def execFenceMarker (t g slice : Nat) (s : State) : Host.Outcome State Fault Refusal := .next (s.marker t g slice)

/-- A clean entry leaves a cache (R104, R124, R182, R418): a line, a record's key, or a place. -/
def State.evict (s : State) (c : CacheId) (k : Nat) : State :=
  match c with
  | .mdc n => s.modCore n fun z => z.mdcDrop k
  | .ipath n => s.modCore n fun z => { z with ipath := z.ipath.filter fun y => y.line != k }
  | .lrc n => s.modCore n fun z => { z with lrc := z.lrc.erase k }
  | .tlb n => s.modCore n fun z => { z with tlb := z.tlb.eraseIdx k }
  | .l2tlb d => s.modDie d fun z => { z with l2tlb := z.l2tlb.eraseIdx k }
  | .walk => { s with walkCache := s.walkCache.eraseIdx k }

/-! ### Walks and fault records -/

/-- PAGE_WALK (R104): the walk of the miss at an index ends, one of the 64 that the walkers hold, which takes a grant of its die
(R82); a trap entry that waited for it is tried again (R233). -/
def execPageWalk (k : Nat) (s : State) : Host.Outcome State Fault Refusal :=
  .next (match s.misses[k]? with
  | none => s
  | some m =>
    if !(s.walks.take 64).contains (m.asid, m.page) then s
    else match s.spend 6 m.agent walkTarget 1 1 with
      | some s1 => (s1.endWalk m).retryEntries m.asid
      | none => s)

/-- The 32 bytes of a fault record (R105). -/
def FRec.bytes (r : FRec) : List (BitVec 8) :=
  leBytes 8 (r.va % 2 ^ 56 + r.cause * 2 ^ 56) ++ leBytes 8 (packW [(0, r.asid), (12, r.kind), (14, r.master)]) ++
    leBytes 8 r.tick ++ leBytes 8 0

/-- Bytes written by the base die in DRAM or in the host window. -/
def State.devicePut (s : State) (pa : Nat) (bs : List (BitVec 8)) : State :=
  match regionOf pa with
  | .dram => s.barePut pa bs
  | .host => s.hostPut pa bs
  | _ => s

/-- FAULT_RECORD_WRITE (R250): the oldest waiting record is written, TAIL advances, and MSI-X 0 is signalled when TAIL passes
HEAD + 1. A full ring makes it wait. -/
def execFaultRecordWrite (s : State) : Host.Outcome State Fault Refusal :=
  .next (match s.fq.wait with
  | [] => s
  | r :: rest =>
    if s.fq.full then s
    else if regionOf s.fq.base.toNat = .dram && s.pinned (s.fq.base.toNat + 32 * (s.fq.tail.toNat % (256 * 2 ^ s.fq.size))) then s
    else
      let n := 256 * 2 ^ s.fq.size
      let s1 := s.devicePut (s.fq.base.toNat + 32 * (s.fq.tail.toNat % n)) r.bytes
      let tail := s.fq.tail + 1
      let s2 := { s1 with fq := { s1.fq with tail, wait := rest } }
      State.payOwed (if tail - s.fq.head = 2 then s2.msix 0 else s2))

/-! ### NRTW and TLBINV -/

/-- The entry of an NRT that NRTW's selector names: an exchange entry, one for the router, whatever X, Y and DIE hold (R367). -/
def nrtEntry (sel : Nat) : Nat × Nat := (nrtRouter sel, sel % 64)

/-- NRT_ENTRY_WRITTEN (R367): the entry is written and acknowledged; writes of one group to one entry go in issue order. -/
def execNrtEntryWritten (op : Nat) (s : State) : Host.Outcome State Fault Refusal :=
  .next (match s.ops.find? fun o => o.id == op && o.kind == .nrtw with
  | none => s
  | some o =>
    if s.ops.any fun q => q.kind == .nrtw && q.id < o.id && q.team == o.team && q.grp == o.grp && nrtEntry q.va == nrtEntry o.va then s
    else
      let v := o.data
      let e : NrtE := ⟨(v.extractLsb' 0 20).toNat, (v.extractLsb' 20 5).toNat, (v.extractLsb' 25 3).toNat, v.getLsbD 28⟩
      (s.modRouter (nrtRouter o.va) fun r => { r with nrt := r.nrt.set (o.va % 64) e }).ackOp o)

/-- An access made through a translation that TLBINV removed is still in flight, or stands in a speculative group's buffer (R396); an
EVWAIT is translated anew at every read. -/
def State.invBusy (s : State) (asid bound : Nat) : Bool :=
  (s.ops.any fun o => o.kind.mem && o.kind != .evwait && o.id < bound && (asid == 4096 || o.asid == asid)) ||
    (s.teams.any fun p => (asid == 4096 || p.2.id.asid == asid) && p.2.grps.any fun q =>
      match q.2.task with | some k => k.buf.any fun b => b.id < bound | none => false) ||
    s.cores.any fun p => p.2.engine.any fun j => j.started && j.id < bound && (asid == 4096 || p.2.poolAsid == some asid) &&
      (match j.instr with | .mld .. | .mst .. => true | _ => false)

/-- TLB_INVALIDATION_DONE (R396): the packs of a group whose invalidation is complete go on. -/
def execTlbInvalidationDone (t g : Nat) (s : State) : Host.Outcome State Fault Refusal :=
  .next (s.modGrp t g fun y =>
    { y with lanes := y.lanes.map fun l =>
        match l.st with
        | .parked (.tlbinv a b) => if s.invBusy a b then l else evwaitLane l
        | _ => l })

end Sys2Proof.Machine
end

