-- ==== Sys2Proof/Machine/Network.lean ====
section
/-! DEFINITION. Machine/Network.lean: routers, pending interests, Cocoon copies and tile delivery (R205, R207, R208, R210 to R216,
R415). -/
namespace Sys2Proof.Machine
open Sys2Proof

/-! ### Places and ports (R205) -/

/-- The router a packet is at, 256 for the exchange, and its port. -/
def Place.at? : Place → Option (Nat × Nat)
  | .router r p => some (r, p)
  | .exchange p => some (256, p)
  | .core _ => none

/-- Where a packet that leaves a router by a port arrives. -/
def hop (r q : Nat) : Option Place :=
  if r = 256 then some (.router (64 * q) 6)
  else
    match q with
    | 1 => some (.router (r + 8) 3)
    | 2 => some (.router (r + 1) 4)
    | 3 => some (.router (r - 8) 1)
    | 4 => some (.router (r - 1) 2)
    | 5 => some (.core r)
    | 6 => some (.exchange (r / 64))
    | _ => none

/-- A packet leaves a router by a port. -/
def State.sendOn (s : State) (r q : Nat) (k : Packet) : State :=
  match hop r q with
  | some a => s.send { k with at_ := a, taken := none, wtok := none }
  | none => s

/-- A travelling packet. -/
def State.pkt? (s : State) (id : Nat) : Option Packet := s.packets.find? fun k => k.id == id && k.src.isNone

/-- A packet leaves. -/
def State.dropPkt (s : State) (k : Packet) : State := { s with packets := s.packets.filter fun q => q.id != k.id }

/-- Two packets carry one name. -/
def Packet.same (k q : Packet) : Bool := k.t == q.t && k.i == q.i && k.n == q.n

/-- Interests, refreshes and cancels, which a router takes from each port in arrival order (R210). -/
def PktType.asks (y : PktType) : Bool :=
  match y with
  | .interest | .refresh | .cancel => true
  | .data | .noRoute | .commit | .squash => false

/-- No earlier interest, refresh or cancel waits at the packet's port (R210). -/
def State.pktFirst (s : State) (k : Packet) : Bool :=
  !s.packets.any fun q => q.id < k.id && q.ty.asks && q.src.isNone && q.taken.isNone && q.at_ == k.at_

/-- Payload that leaves a router by ports toward other routers takes those ports' named-data grants there (R82, R208); none where
it waits for them. -/
def State.payload (s : State) (r bytes : Nat) (ports : List Nat) : Option State :=
  ports.foldl (fun u q => u.bind fun v => match (hop r q).bind Place.at? with
    | some a => v.spend 2 (8 * r + q) (routerTarget a.1) bytes 256
    | none => some v) (some s)

/-! ### The tables of a router (R206, R207, R211) -/

/-- The port toward the producer of a tensor id: the longest match, the lower index among equals (R206). -/
def Router.route (r : Router) (t : Nat) : Option Nat :=
  let best := (List.range 64).foldl (fun (b : Option NrtE) k =>
    match r.nrt.get? k with
    | none => b
    | some e =>
      if !e.v || e.pfx / 2 ^ (20 - e.len) != t / 2 ^ (20 - e.len) then b
      else
        match b with
        | some z => if z.len < e.len then some e else b
        | none => some e) none
  best.map (·.port)

/-- Slots whose expiry has arrived leave, and entries without a slot (R211). -/
def Router.prune (r : Router) (now : Nat) : Router :=
  { r with pit := (r.pit.map fun e => { e with slots := e.slots.filter fun p => now < p.2.expiry }).filter fun e =>
      !e.slots.isEmpty }

/-- The entry of a router for a packet's name. -/
def Router.entry (r : Router) (k : Packet) : Option PitE := r.pit.find? fun e => e.t == k.t && e.i == k.i && e.n == k.n

/-- Changes the entry of a packet's name; `none` frees it. -/
def Router.modEntry (r : Router) (k : Packet) (f : PitE → Option PitE) : Router :=
  { r with pit := r.pit.filterMap fun e => if (e.t == k.t && e.i == k.i && e.n == k.n) then f e else some e }

/-- The Cocoon copy of a packet's name. -/
def Router.copy (r : Router) (k : Packet) : Option CocoonE := r.cocoon.find? fun e => e.t == k.t && e.i == k.i && e.n == k.n

/-! ### Cocoon stores (R216, R415) -/

/-- Bytes of the copies of a store. -/
def cocoonBytes (l : List CocoonE) : Nat := l.foldl (fun n e => n + e.data.length) 0

/-- Copies leave, least recently used first, until `size` more bytes fit; a copy still being written stays. -/
def cocoonFit (cap size : Nat) : Nat → List CocoonE → List CocoonE
  | 0, l => l
  | n + 1, l =>
    if cocoonBytes l + size ≤ cap then l
    else
      match l.reverse.find? fun e => !e.busy with
      | none => l
      | some z => cocoonFit cap size n (l.filter fun e => e.busy || !(e.t == z.t && e.i == z.i && e.n == z.n))

/-- A copy of a published tile is kept, where it fits; the most recently used copy stands first. -/
def State.keepCopy (s : State) (r : Nat) (k : Packet) : State :=
  let cap := 65536 * (s.die (r / 64)).cocoon
  let size := k.data.length
  -- the exchange has no store, and a slice that is retired keeps no copy (R205, R258)
  if r = 256 || !(s.die (r / 64)).mayTake (r % 64) then s
  else
    s.modRouter r fun x =>
      let l := cocoonFit cap size x.cocoon.length
        (x.cocoon.filter fun e => !(e.t == k.t && e.i == k.i && e.n == k.n))
      if cocoonBytes l + size ≤ cap then { x with cocoon := ⟨k.t, k.i, k.n, k.f, k.data, true⟩ :: l } else x

/-- A copy has been read: it becomes the most recently used. -/
def State.useCopy (s : State) (r : Nat) (e : CocoonE) : State :=
  s.modRouter r fun x =>
    { x with cocoon := e :: x.cocoon.filter fun z => !(z.t == e.t && z.i == e.i && z.n == e.n) }

/-! ### Warm interests (R209) -/

/-- A warm interest leaves with its count. -/
def State.dropWarm (s : State) (k : Packet) : State :=
  match k.wtok with
  | some (t, g, tok) => (s.dropPkt k).decTok t g tok
  | none => s.dropPkt k

/-- A router has taken an interest: a counted warm interest stays until its tile is stored or it expires. -/
def State.retirePkt (s : State) (k : Packet) : State :=
  if k.wtok.isSome then
    { s with packets := s.packets.map fun (q : Packet) => if q.id = k.id then { q with taken := some [] } else q }
  else s.dropPkt k

/-- The counted warm interests a router has taken. -/
def State.warmAt (s : State) (r : Nat) : List Packet :=
  s.packets.filter fun q => q.ty == .interest && q.at_ == .router r 0 && q.taken.isSome && q.wtok.isSome

/-! ### Interests and refreshes (R210) -/

/-- An interest or refresh merges into an entry; the packet that goes upstream, if any. -/
def PitE.merge (e : PitE) (q : Nat) (k : Packet) : PitE × Option Packet :=
  let s0 := e.slots.any fun p => p.2.specok
  let slots := e.slots.upd q ⟨0, false, none⟩ fun z =>
    { z with expiry := max z.expiry k.expiry, specok := z.specok || k.specok }
  let fwd := max e.fwd k.expiry
  ({ e with slots, fwd },
   if e.fwd < k.expiry || (!s0 && k.specok) then
     some { Packet.mk0 .refresh k.t k.i k.n with expiry := fwd, specok := slots.any fun p => p.2.specok }
   else none)

/-- A copy held whole answers an interest on its port, as the publish did, once its payload has grants; on port 0 the tile is in
the store already. -/
def State.answerCopy (s : State) (r q : Nat) (k : Packet) (e : CocoonE) : State :=
  match s.payload r e.data.length [q] with
  | none => s
  | some u => ((u.dropWarm k).useCopy r e).sendOn r q { Packet.mk0 .data k.t k.i k.n with f := e.f, data := e.data }

/-- An interest or refresh waits at its router: a copy of its name is being written (R415), or the PIT is full (R210). -/
def State.askWaits (s : State) (r : Nat) (k : Packet) : Bool :=
  let x := (s.router r).prune s.time
  s.time < k.expiry &&
    (match x.copy k with
     | some e => e.busy
     | none => k.ty == .interest && (x.entry k).isNone && (x.route k.t).isSome && 256 ≤ x.pit.length)

/-- A router takes an interest or a refresh that arrives on a port (R210). -/
def State.ask (s : State) (r q : Nat) (k : Packet) : State :=
  let x := (s.router r).prune s.time
  if k.expiry ≤ s.time then s.retirePkt k
  else if s.askWaits r k then s
  else
    match x.copy k with
    | some e => s.answerCopy r q k e
    | none =>
      match x.entry k with
      | some e =>
        let m := e.merge q k
        let s1 := (s.retirePkt k).modRouter r fun y => (y.prune s.time).modEntry k fun _ => some m.1
        (match m.2 with
         | some p => if e.up = 5 then s1 else s1.sendOn r e.up p
         | none => s1)
      | none =>
        match x.route k.t with
        | none => (s.retirePkt k).sendOn r q (Packet.mk0 .noRoute k.t k.i k.n)
        | some u =>
          if k.ty = .refresh then s.dropPkt k
          else
            let e : PitE := ⟨k.t, k.i, k.n, k.expiry, u, [(q, ⟨k.expiry, k.specok, none⟩)]⟩
            let s1 := (s.retirePkt k).modRouter r fun y => { y.prune s.time with pit := (y.prune s.time).pit ++ [e] }
            if u = 5 then s1 else s1.sendOn r u { k with warm := false }

/-- The packet of a step, where it is of a type, at a router and first at its port. -/
def State.askAt (s : State) (p : Nat) (y : PktType) : Option (Packet × Nat × Nat) :=
  match s.pkt? p with
  | none => none
  | some k =>
    if k.ty = y && k.taken.isNone && s.pktFirst k then k.at_.at?.map fun a => (k, a.1, a.2) else none

/-- INTEREST_ARRIVAL (R210). -/
def execInterestArrival (p : Nat) (s : State) : Host.Outcome State Fault Refusal :=
  .next (match s.askAt p .interest with
  | some (k, r, q) => s.ask r q k
  | none => s)

/-- REFRESH_ARRIVAL (R210). -/
def execRefreshArrival (p : Nat) (s : State) : Host.Outcome State Fault Refusal :=
  .next (match s.askAt p .refresh with
  | some (k, r, q) => s.ask r q k
  | none => s)

/-! ### Cancels and expiries (R211, R212) -/

/-- CANCEL_ARRIVAL (R212). -/
def execCancelArrival (p : Nat) (s : State) : Host.Outcome State Fault Refusal :=
  .next (match s.askAt p .cancel with
  | some (k, r, q) =>
    let x := (s.router r).prune s.time
    let s1 := (s.dropPkt k).modRouter r fun y => (y.prune s.time).modEntry k fun e =>
      let e1 := { e with slots := e.slots.erase q }
      if e1.slots.isEmpty then none else some e1
    (match x.entry k with
     | some e =>
       if (e.slots.get? q).isSome && (e.slots.erase q).isEmpty && e.up != 5 then
         s1.sendOn r e.up (Packet.mk0 .cancel k.t k.i k.n)
       else s1
     | none => s1)
  | none => s)

/-- PIT_SLOT_EXPIRY (R211): the lapsed slots of the entry at an index leave, and lapsed warm interests of the router fall
out of their counts once their expiry has passed (R17, R209). -/
def execPitSlotExpiry (router k : Nat) (s : State) : Host.Outcome State Fault Refusal :=
  let s1 := ((s.warmAt router).filter fun q => q.expiry < s.time).foldl (fun u q => u.dropWarm q) s
  .next (match (s1.router router).pit[k]? with
  | none => s1
  | some e =>
    let live := e.slots.filter fun p => s.time < p.2.expiry
    s1.modRouter router fun x =>
      { x with pit := if live.isEmpty then x.pit.eraseIdx k else listUpd x.pit k fun z => { z with slots := live } })

/-- An entry of a team has lapsed (R211, R222). -/
def State.lapsed (s : State) (t : Nat) (e : IEnt) : Bool :=
  match s.team? t with
  | some x => x.lapsed e s.time
  | none => false

/-- INTEREST_EXPIRY (R211): the entry at an index of a team's list. -/
def execInterestExpiry (t k : Nat) (s : State) : Host.Outcome State Fault Refusal :=
  .next (match (s.team? t).bind fun x => x.ilist[k]? with
  | none => s
  | some e => if s.lapsed t e then s.lapse t e else s)

/-- The entries of a core for a packet's name: team and entry. -/
def State.entriesFor (s : State) (c : Nat) (k : Packet) : List (Nat × IEnt) :=
  (s.residents c).flatMap fun p => (p.2.ilist.filter fun e => e.t == k.t && e.i == k.i && e.n == k.n).map fun e => (p.1, e)

/-- NO_ROUTE_ARRIVAL (R210). -/
def execNoRouteArrival (p : Nat) (s : State) : Host.Outcome State Fault Refusal :=
  .next (match s.pkt? p with
  | none => s
  | some k =>
    if k.ty != .noRoute then s
    else
      match k.at_ with
      | .core c => (s.entriesFor c k).foldl (fun u e => u.lapse e.1 e.2) (s.dropPkt k)
      | a =>
        match a.at? with
        | none => s
        | some (r, _) =>
          let s1 := (s.dropPkt k).modRouter r fun y => (y.prune s.time).modEntry k fun _ => none
          (match ((s.router r).prune s.time).entry k with
           | some e => e.slots.foldl (fun u q => u.sendOn r q.1 k) s1
           | none => s1))

/-! ### Data headers (R214, R215) -/

/-- A data header at a router (R214). -/
def State.dataAt (s : State) (r : Nat) (k : Packet) : State :=
  let x := (s.router r).prune s.time
  let s0 := (s.dropPkt k).modRouter r fun y => y.prune s.time
  let producer := decide (r < 256) && x.route k.t == some 5
  match x.entry k with
  | none => if producer && !k.spec then s0.keepCopy r k else s0
  | some e =>
    if k.spec then
      let go := e.slots.filter fun p => p.2.specok && p.2.served.isNone
      let s1 := s0.modRouter r fun y => y.modEntry k fun z => some { z with slots := z.slots.map fun p =>
        if p.2.specok && p.2.served.isNone then (p.1, { p.2 with served := some k.stag }) else p }
      go.foldl (fun u p => u.sendOn r p.1 k) s1
    else
      let s1 := s0.modRouter r fun y => y.modEntry k fun _ => none
      let s2 := e.slots.foldl (fun u p => u.sendOn r p.1 k) s1
      if producer || 2 ≤ e.slots.length || (e.slots.get? 0).isSome then s2.keepCopy r k else s2

/-- The ports on which a router sends a data header on (R214). -/
def State.dataPorts (s : State) (r : Nat) (k : Packet) : List Nat :=
  match ((s.router r).prune s.time).entry k with
  | some e => (e.slots.filter fun p => !k.spec || (p.2.specok && p.2.served.isNone)).map (·.1)
  | none => []

/-- A list entry that a data header at the core reaches now (R215): live, and, for a speculative tile, .spec with its window
filling. -/
def State.takes (s : State) (k : Packet) (t : Nat) (e : IEnt) : Bool :=
  s.time < e.expiry && !e.header &&
    (!k.spec || (e.spec.isSome && e.stag.isNone &&
      (match (s.team? t).bind fun x => x.win? e.win with
       | some w => w.st == .filling
       | none => false)))

/-- The state of an entry's window. -/
def State.winOf (s : State) (t : Nat) (e : IEnt) : Option Win := (s.team? t).bind fun x => x.win? e.win

/-- A real header waits at the router: the verdict buffer is in use (R221), or a window holds a delivered speculative tile
whose commit or squash is on its way. -/
def State.headerWaits (s : State) (c : Nat) (k : Packet) : Bool :=
  !k.spec && (s.entriesFor c k).any fun p =>
    s.takes k p.1 p.2 && (match s.winOf p.1 p.2 with
      | some w => p.2.stag.isSome || (w.st == .predicted && (s.core c).verdict.isSome)
      | none => false)

/-- A tile longer than its window (R215). -/
def State.oversize (s : State) (t : Nat) (e : IEnt) : State :=
  (s.endEntry t e).barUpdate t e.bar (.fail e.win 6 0)

/-- Marks an entry as reached by a header. -/
def State.reachEntry (s : State) (t : Nat) (e : IEnt) (k : Packet) : State :=
  s.modTeam t fun x => { x with ilist := x.ilist.map fun q =>
    if q.tok = e.tok then (if k.spec then { q with stag := some k.stag } else { q with header := true }) else q }

/-- One entry takes a header (R215, R221): the tile is to be written, goes to the verdict buffer, or is too long. The packet's
deliveries so far, and whether an entry must wait for the verdict buffer, go along. -/
def State.giveHeader (c : Nat) (k : Packet) (a : State × List (Nat × Nat) × Bool) (p : Nat × IEnt) :
    State × List (Nat × Nat) × Bool :=
  let s := a.1
  match s.winOf p.1 p.2 with
  | none => a
  | some w =>
    if !s.takes k p.1 p.2 then a
    else if w.bytes < k.data.length then (s.oversize p.1 p.2, a.2)
    else if w.st = .predicted then
      if (s.core c).verdict.isSome then (s, a.2.1, true)
      else ((s.reachEntry p.1 p.2 k).modCore c fun z => { z with verdict := some ⟨p.1, p.2.win, k.f, k.data⟩ }, a.2)
    else ((s.dropPrediction p.1 p.2.win).reachEntry p.1 p.2 k, a.2.1 ++ [(p.1, p.2.win)], a.2.2)

/-- A data header reaches a core (R215). -/
def State.headerAt (s : State) (c : Nat) (k : Packet) : State :=
  let r := (s.entriesFor c k).foldl (State.giveHeader c k) (s, [], false)
  let s1 := if r.2.1.isEmpty then r.1.dropPkt k
    else { r.1 with packets := r.1.packets.map fun (q : Packet) => if q.id = k.id then { q with taken := some r.2.1 } else q }
  if r.2.2 then s1.send k else s1

/-- DATA_HEADER_ARRIVAL (R214, R215). -/
def execDataHeaderArrival (p : Nat) (s : State) : Host.Outcome State Fault Refusal :=
  .next (match s.pkt? p with
  | none => s
  | some k =>
    if k.ty != .data || k.taken.isSome then s
    else
      match k.at_ with
      | .core c => if s.headerWaits c k then s else s.headerAt c k
      | a =>
        match a.at? with
        | none => s
        | some (r, _) =>
          match s.payload r k.data.length (s.dataPorts r k) with
          | some u => u.dataAt r k
          | none => s)

/-- A window receives a tile whole: its bytes, zeros beyond the tile, and every presence bit (R215). -/
def State.tileWrite (s : State) (c t : Nat) (e : IEnt) (data : List (BitVec 8)) : State :=
  match s.winOf t e with
  | none => s
  | some w =>
    (s.poolWrite c w.store w.off ((data ++ List.replicate (w.bytes - data.length) 0).take w.bytes)).setWin t e.win fun z =>
      { z with pres := z.allPres }

/-- A window is full with a real tile or a kept prediction: bytes and one arrival are counted and the entry is freed
(R215, R222). -/
def State.tileFull (s : State) (t : Nat) (e : IEnt) (f : Bool) : State :=
  match s.winOf t e with
  | none => s
  | some w =>
    let s1 := s.setWin t e.win fun z => { z with st := .full, f, level := 0, stag := none }
    (s1.freeEntry t e).barUpdate t e.bar (.count 1 w.bytes)

/-- A tile reaches one of the windows it is for (R215, R222). -/
def State.tileInto (s : State) (c : Nat) (k : Packet) (p : Nat × Nat) : State :=
  match (s.team? p.1).bind fun x => x.entryOf p.2 with
  | none => s
  | some e =>
    if !(e.t == k.t && e.i == k.i && e.n == k.n) then s
    else if k.spec then
      if e.stag = some k.stag then
        (((s.tileWrite c p.1 e k.data).setWin p.1 e.win fun w =>
          { w with st := .predicted, level := min 3 (k.level + 1), stag := some k.stag, f := k.f }).answerNcans p.1 e 1).cancelEnded p.1 e
      else s
    else if e.header then (s.tileWrite c p.1 e k.data).tileFull p.1 e k.f
    else s

/-- TILE_DELIVERY (R215): a tile whose header the core has taken is in its windows. -/
def execTileDelivery (p : Nat) (s : State) : Host.Outcome State Fault Refusal :=
  .next (match s.pkt? p with
  | none => s
  | some k =>
    match k.ty, k.at_, k.taken with
    | .data, .core c, some l => l.foldl (fun u q => u.tileInto c k q) (s.dropPkt k)
    | _, _, _ => s)

/-- COCOON_COPY_COMPLETE (R415): the copy at an index is whole; the warm interests for it are served (R209). -/
def execCocoonCopyComplete (router k : Nat) (s : State) : Host.Outcome State Fault Refusal :=
  .next (match (s.router router).cocoon[k]? with
  | none => s
  | some e =>
    if !e.busy then s
    else
      let s1 := s.modRouter router fun x => { x with cocoon := listUpd x.cocoon k fun z => { z with busy := false } }
      ((s.warmAt router).filter fun q => q.t == e.t && q.i == e.i && q.n == e.n).foldl (fun u q => u.dropWarm q) s1)

/-- PUBLISH_SENT (R213): the last flit of a publish leaves its core. -/
def execPublishSent (p : Nat) (s : State) : Host.Outcome State Fault Refusal :=
  .next (match s.packets.find? fun k => k.id == p with
  | none => s
  | some k =>
    match k.src, k.rel with
    | some (t, g, w, tok), none =>
      (match s.team? t with
       | none => s
       | some x =>
         if (s.core x.core).pre = 2 then s
         else
           let s1 := (s.dropPkt k).setWin t w fun z =>
             { z with unsent := z.unsent - 1, st := if !k.spec && z.st == .full then .empty else z.st }
           (s1.unlock x.core p).decTok t g tok)
    | _, _ => s)

end Sys2Proof.Machine
end

