-- ==== Sys2Proof/Machine/Speculate.lean ====
section
/-! DEFINITION. Machine/Speculate.lean: predictions, verdicts, and the commit and squash of tasks (R121, R183, R219 to R226, R239). -/
namespace Sys2Proof.Machine
open Sys2Proof

/-! ### Predictions (R220) -/

/-- The float format of a speculation entry's FMT (R219). -/
def specFF (fmt : Nat) : FF :=
  match fmt with
  | 0 => .f32
  | 1 => .f16
  | _ => .bf16

/-- The elements of bytes in a float format. -/
def elemsOf (f : FF) (bs : List (BitVec 8)) : List Nat :=
  let n := f.width / 8
  (List.range (bs.length / n)).map fun k => leNat ((bs.drop (n * k)).take n)

/-- The expanded bytes of a window. -/
def State.winBytes (s : State) (c : Nat) (w : Win) : List (BitVec 8) := s.poolRead c w.store w.off w.bytes

/-- A history serves a prediction (R220): full, no factor-form image, of the window's length. -/
def historyOk (x : Team) (w : Win) (h : Nat) : Bool :=
  match x.win? h with
  | some v => v.st == .full && !v.f && v.lines == w.lines
  | none => false

/-- The test of R220 holds. -/
def State.mayPredict (s : State) (x : Team) (e : IEnt) : Bool :=
  s.feat 1 && !e.header && e.stag.isNone &&
    (match e.spec, x.win? e.win with
     | some q, some w => w.st == .filling && q.policy != 0 && historyOk x w q.h1 && (q.policy != 2 || historyOk x w q.h2)
     | _, _ => false)

/-- The patience of an entry is over and its test has not been made. -/
def IEnt.patienceOver (e : IEnt) (now : Nat) : Bool :=
  e.pred == 0 && (match e.spec with | some q => e.issued + q.patience ≤ now | none => false)

/-- Sets the prediction state of an entry. -/
def State.setPred (s : State) (t : Nat) (e : IEnt) (v : Nat) : State :=
  s.modTeam t fun x => { x with ilist := x.ilist.map fun q => if q.tok = e.tok then { q with pred := v } else q }

/-- A prediction joins the copy engine's queue (R220). -/
def State.queuePrediction (s : State) (t : Nat) (x : Team) (e : IEnt) (w : Win) : State :=
  let cp : Copy :=
    { id := s.nextId, kind := 1, team := t, win := e.win, cur := w.cur, d0 := w.d0, d1 := w.d1, d2 := w.d2, d3 := w.d3, rm := 0,
      bank := 0, inflight := [], done := [], tok := none, grp := e.grp, cut := s.nextId, abandoned := false, stored := 0,
      tiles := 0, buf := [], hold := none, seen := [], locked := true }
  (State.setPred { s with nextId := s.nextId + 1 } t e 1).modCore x.core fun c => { c with copies := c.copies ++ [cp] }

/-- PREDICTION_PATIENCE (R220): the test of the entry at an index is made once; a core that is being pre-empted starts none. -/
def execPredictionPatience (t k : Nat) (s : State) : Host.Outcome State Fault Refusal :=
  .next (match s.team? t with
  | none => s
  | some x =>
    match x.ilist[k]? with
    | none => s
    | some e =>
      if !e.patienceOver s.time then s
      else
        match x.win? e.win with
        | some w =>
          if s.mayPredict x e && (s.core x.core).pre = 0 then s.queuePrediction t x e w else s.setPred t e 2
        | none => s.setPred t e 2)

/-- An element of a prediction (R220): the last value, or 2 × h1 − h2 rounded once to nearest. -/
def predictElem (f : FF) (linear : Bool) (a b : Nat) : Nat :=
  let x := f.decode a
  if linear then (f.conv 0 (fvAdd 0 (fvMul (.fin false 2 0) x).1 (f.decode b).flip).1).1
  else if x.isNan then f.nan else a

/-- The bytes of a prediction. -/
def predictBytes (f : FF) (linear : Bool) (h1 h2 : List (BitVec 8)) : List (BitVec 8) :=
  let a := elemsOf f h1
  let b := if linear then elemsOf f h2 else a
  (List.zipWith (predictElem f linear) a b).flatMap (leBytes (f.width / 8))

/-- PREDICTION_WRITTEN (R222): the window of the entry at an index is predicted at level 1. -/
def execPredictionWritten (t k : Nat) (s : State) : Host.Outcome State Fault Refusal :=
  .next (match s.team? t with
  | none => s
  | some x =>
    match x.ilist[k]? with
    | none => s
    | some e =>
      match e.spec, x.win? e.win with
      | some q, some w =>
        if e.pred != 1 || (s.core x.core).pre = 2 then s
        else
          let bytes := fun (h : Nat) => match x.win? h with | some v => s.winBytes x.core v | none => []
          let out := predictBytes (specFF q.fmt) (q.policy == 2) (bytes q.h1) (bytes q.h2)
          let s1 := ((s.dropPrediction t e.win).tileWrite x.core t e out)
          s1.setWin t e.win fun z => { z with st := if w.st == .filling then .predicted else z.st, level := 1, stag := none }
      | _, _ => s)

/-! ### Verdicts (R221, R222) -/

/-- The two infinities agree. -/
def sameInf (a b : FV) : Bool :=
  match a, b with
  | .inf m, .inf n => m == n
  | _, _ => false

/-- The value is an infinity. -/
def FV.infinite : FV → Bool
  | .inf _ => true
  | _ => false

/-- The larger of two magnitudes. -/
def fvMax (a b : FV) : FV := if fvLe a b then b else a

/-- The comparison of routine 6 (R221): d ≤ ABS + REL × m, exactly. -/
def verdictPasses (q : SpecInfo) (f : Bool) (real pred : List (BitVec 8)) : Bool :=
  let ff := specFF q.fmt
  let ps := List.zip ((elemsOf ff real).map ff.decode) ((elemsOf ff pred).map ff.decode)
  let rest := ps.filter fun p => !sameInf p.1 p.2
  let d := rest.foldl (fun a p => fvMax a (fvAbs (fvAdd 0 p.1 p.2.flip).1)) fvZero
  let m := rest.foldl (fun a p => fvMax a (fvAbs p.1)) fvZero
  let bound := fvAdd 0 (FF.f32.decode q.abs.toNat) (fvMul (FF.f32.decode q.rel.toNat) m).1
  !f && !(ps.any fun p => p.1.isNan || p.2.isNan) && !(rest.any fun p => p.1.infinite || p.2.infinite) && fvLe d bound.1

/-- A verdict: the prediction stays, or its readers are squashed and the real tile is written; either way the window is full
and counted (R222). -/
def State.judge (s : State) (c : Nat) (v : VBuf) : State :=
  match s.team? v.team with
  | none => s
  | some x =>
    match x.entryOf v.win, x.win? v.win with
    | some e, some w =>
      let real := v.data ++ List.replicate (w.bytes - v.data.length) 0
      (match e.spec with
       | none => s
       | some q =>
         if verdictPasses q v.f real (s.winBytes c w) then s.tileFull v.team e v.f
         else ((s.squashReaders v.team v.win).tileWrite c v.team e v.data).tileFull v.team e v.f)
    | _, _ => s

/-- VERDICT (R221). -/
def execVerdict (core : Nat) (s : State) : Host.Outcome State Fault Refusal :=
  .next (match (s.core core).verdict with
  | none => s
  | some v => (s.judge core v).modCore core fun c => { c with verdict := none })

/-! ### Commit (R121, R183, R224, R239) -/

/-- SPEC of a cursor is cleared (R183). -/
def curCommit (c : BitVec 128) : BitVec 128 := c &&& ~~~(0x1000 : BitVec 128)

/-- The cursors of a lane, and those whose writeback has not landed, are no longer speculative (R183). -/
def Lane.commitCurs (l : Lane) : Lane :=
  { l with
    curs := l.curs.map fun p => (p.1, curCommit p.2)
    pend := l.pend.map fun p => { p with regs := p.regs.map fun q => match q.1 with
      | .c _ => (q.1, (curCommit (BitVec.ofNat 128 q.2)).toNat + q.2 / 2 ^ 128 * 2 ^ 128)
      | _ => q } }

/-- One buffered store is issued at the commit (R121); a release store brings its fence. -/
def State.drainOne (t g : Nat) (x : Team) (s : State) (b : BufSt) : State :=
  let o : Op :=
    { id := s.nextId, kind := .store, team := t, grp := g, lane := b.lane, core := x.core, asid := x.id.asid, va := b.va, pa := b.pa,
      width := b.width, attr := b.attr, priv := b.priv, data := b.data, cmp := 0, opc := 0,
      scope := b.rel.getD 0, acq := false, rel := b.rel.isSome, pend := none, sext := false, tok := b.tok, sent := false,
      hold := false, pc := 0, rep := none, drain := true }
  let s1 := { s with ops := s.ops ++ [o], nextId := s.nextId + 2 }
  match b.rel with
  | none => s1
  | some sc => s1.modGrp t g fun y => { y with fences := y.fences ++ [⟨s.nextId + 1, [], 0, none, sc, s.nextId, false, 0, []⟩] }

/-- Commit packets wait at the core for a fence at .pkg behind the drained stores (R224). -/
def State.sendCommits (s : State) (t g : Nat) (x : Team) (pubs : List SpecPub) : State :=
  if pubs.isEmpty then s
  else
    let id := s.nextId
    let s1 := State.modGrp { s with nextId := s.nextId + 1 } t g fun y =>
      { y with fences := y.fences ++ [⟨id, [], 0, none, 4, id, false, 0, []⟩] }
    pubs.foldl (fun u p => u.send
      { Packet.mk0 .commit p.t p.i p.n with stag := p.stag, at_ := .core x.core, behind := some (t, g, id) }) s1

/-- The held trap that arose first is entered at commit; the other packs wait at their instructions (R239). -/
def State.heldNow (s : State) (t g : Nat) (l : List HeldTrap) : State :=
  match sortBy (fun h => h.order) l with
  | [] => s
  | h :: _ => s.takeTrap t g h.flt (h.flt.map (·.1)) h.rep

/-- A task commits (R224). -/
def State.commit (s : State) (t g : Nat) (x : Team) (y : Group) (k : Task) : State :=
  let s1 := s.modGrp t g fun z =>
    { z.countAll with task := none, heldTraps := [],
                      lanes := z.lanes.map Lane.commitCurs }
  let s2 := k.buf.foldl (State.drainOne t g x) s1
  let s3 := s2.sendCommits t g x k.pubs
  let s4 := k.owned.foldl (fun u w => u.setWin t w fun z => { z with st := .empty, owner := none }) s3
  s4.heldNow t g y.heldTraps

/-- The commit condition (R224): every input is full, which a delivered one is only after its publisher's commit. -/
def Team.commits (x : Team) (k : Task) : Bool :=
  k.inputs.all fun w => match x.win? w with | some z => z.st == .full | none => false

/-- A fence without a pack goes as far as it can (R115, R121). -/
def State.drainFence (s : State) (t g : Nat) (x : Team) (f : FenceRec) : State :=
  let fin := fun (u : State) => u.modGrp t g fun z =>
    { z with pathDie := [], pathPkg := if f.scope ≥ 4 then [] else z.pathPkg, fences := z.fences.filter fun q => q.id != f.id }
  match s.grp? t g with
  | none => s
  | some y =>
    if !s.fenceReady t g y f.id then s
    else if f.stage = 1 then fin s
    else if f.scope < 2 then s.modGrp t g fun z => { z with fences := z.fences.filter fun q => q.id != f.id }
    else
      let s1 := s.writeBackAll x.core t g
      s1.modGrp t g fun z => { z with fences := z.fences.map fun q =>
        if q.id = f.id then { q with stage := 1, markers := if f.scope ≥ 4 then z.pathPkg else z.pathDie } else q }

/-- The first fence of a group that belongs to no pack and may go on. -/
def State.drainable (s : State) (t g : Nat) (y : Group) : Option FenceRec :=
  y.fences.find? fun f => f.lanes.isEmpty && s.fenceReady t g y f.id

/-- TASK_COMMIT (R224): the task commits, or the fences of a drain go on. -/
def execTaskCommit (t g : Nat) (s : State) : Host.Outcome State Fault Refusal :=
  .next (match s.team? t, s.grp? t g with
  | some x, some y =>
    (match y.task with
     | some k => if x.commits k then s.commit t g x y k else s
     | none =>
       match s.drainable t g y with
       | some f => s.drainFence t g x f
       | none => s)
  | _, _ => s)

/-- Pre-emption reaches a task (R86, R225): 4,224 ticks after the request. -/
def Core.squashDue (c : Core) (now : Nat) : Bool := c.pre == 1 && c.preT0 + 4223 ≤ now

/-- TASK_SQUASH (R225) by pre-emption; every other cause squashes within its own step. -/
def execTaskSquash (t g : Nat) (s : State) : Host.Outcome State Fault Refusal :=
  .next (match s.team? t with
  | none => s
  | some x => if (s.core x.core).squashDue s.time then s.squash t g else s)

/-! ### Commit and squash packets (R222, R224, R225) -/

/-- A commit or squash packet follows its tile: it waits while the tile's packet is still at its place (R208). A commit also
waits for the tile's last line. -/
def State.verdictWaits (s : State) (k : Packet) : Bool :=
  (s.packets.any fun q => q.ty == .data && q.src.isNone && q.spec && q.stag == k.stag && q.same k && q.at_ == k.at_ &&
    (q.taken.isNone || k.ty == .commit)) ||
  (match k.behind with
   | some (t, g, f) => (match s.grp? t g with
     | some y => y.fences.any fun r => r.id == f
     | none => false)
   | none => false)

/-- A commit or squash packet at a router (R224, R225): the slots it names are freed, or wait again. -/
def State.outcomeAt (s : State) (r : Nat) (k : Packet) : State :=
  match ((s.router r).prune s.time).entry k with
  | none => s.dropPkt k
  | some e =>
    let go := e.slots.filter fun p => p.2.served == some k.stag
    let s1 := (s.dropPkt k).modRouter r fun y => (y.prune s.time).modEntry k fun z =>
      if k.ty = .commit then
        let left := z.slots.filter fun p => p.2.served != some k.stag
        if left.isEmpty then none else some { z with slots := left }
      else some { z with slots := z.slots.map fun p => if p.2.served = some k.stag then (p.1, { p.2 with served := none }) else p }
    go.foldl (fun u p => u.sendOn r p.1 k) s1

/-- A squash packet reaches an entry that took the tile (R222): its readers are squashed and the window waits again; an NCAN that
waited for the delivery cancels the entry (R212). -/
def State.untake (s : State) (t : Nat) (e : IEnt) : State :=
  let s1 := s.squashReaders t e.win
  let s2 := s1.setWin t e.win fun w => { w with st := .filling, pres := 0, level := 0, stag := none }
  let s3 := s2.modTeam t fun x => { x with ilist := x.ilist.map fun q => if q.tok = e.tok then { q with stag := none } else q }
  if e.ncan.isEmpty then s3.cancelEnded t e else (s3.answerNcans t e 0).cancelEntry t { e with ncan := [], stag := none }

/-- A commit or squash packet at a core (R222). -/
def State.outcomeCore (s : State) (c : Nat) (k : Packet) : State :=
  let hit := (s.entriesFor c k).filter fun p => p.2.stag == some k.stag
  let s0 := s.dropPkt k
  if k.ty = .commit then
    hit.foldl (fun u p => u.tileFull p.1 p.2 (match u.winOf p.1 p.2 with | some w => w.f | none => false)) s0
  else
    let s1 := { s0 with packets := s0.packets.filter fun (q : Packet) =>
      !(q.ty == .data && q.src.isNone && q.spec && q.stag == k.stag && q.same k && q.at_ == k.at_) }
    hit.foldl (fun u p => u.untake p.1 p.2) s1

/-- A commit or squash packet acts where it is (R222, R224, R225). -/
def State.outcome (s : State) (k : Packet) : State :=
  if k.taken.isSome || s.verdictWaits k then s
  else
    match k.at_ with
    | .core c =>
      if k.behind.isSome then (s.dropPkt k).send { k with behind := none, at_ := .router (routerOf c) 5 }
      else s.outcomeCore c k
    | a =>
      match a.at? with
      | none => s
      | some (r, _) => s.outcomeAt r k

/-- COMMIT_PACKET (R224). -/
def execCommitPacket (p : Nat) (s : State) : Host.Outcome State Fault Refusal :=
  .next (match s.pkt? p with
  | none => s
  | some k => if k.ty = .commit then s.outcome k else s)

/-- SQUASH_PACKET (R225). -/
def execSquashPacket (p : Nat) (s : State) : Host.Outcome State Fault Refusal :=
  .next (match s.pkt? p with
  | none => s
  | some k => if k.ty = .squash then s.outcome k else s)

end Sys2Proof.Machine
end

