-- ==== Sys2Proof/Machine/Launch.lean ====
section
/-! DEFINITION. Machine/Launch.lean: launch queues, admission, the start and end of teams and grids (R35, R36, R40 to R46, R48,
R56, R65 to R71, R93, R217, R247 to R249, R404, R419). -/
namespace Sys2Proof.Machine
open Sys2Proof

/-! ### Accesses of the base-die scheduler (R248, R419) -/

/-- A scheduler's translation: physical address and attributes, a walk to wait for, a translation fault, or an access that is
refused or that nothing answers. -/
inductive SchedX where
  | ok (pa : Nat) (a : Attr)
  | walk
  | xlate (cause : Nat)
  | refused (cause : Nat)
  deriving DecidableEq, Repr

/-- The scheduler translates an address of an ASID by a walk of its own, which it asks for and which the walkers make with the
others (R104), and checks it (R419, log entries 124 and 146). -/
def State.schedXlate (s : State) (asid va kind : Nat) (sup : Bool) : SchedX × State :=
  match s.lu.walked.find? fun w => w.asid == asid && w.page == pageOf va with
  | none => (.walk, s.addMiss 529 asid va kind false)
  | some w =>
    match w.leaf with
    | none => (.xlate w.cause, s)
    | some e =>
      if !e.permits kind sup then (.xlate cPageRights, s)
      else match s.schedCheck (e.phys va) sup with
        | some c => (.refused c, s)
        | none => (.ok (e.phys va) e.attr, s)

/-- The scheduler's work on a page has ended: the next access to it is translated anew. -/
def State.schedDone (s : State) (asid va : Nat) : State :=
  { s with lu := { s.lu with walked := s.lu.walked.filter fun w => !(w.asid == asid && w.page == pageOf va) } }

/-- An access of the base-die scheduler in flight, as master 529, for a piece of its work (R419). -/
def schedOp (kind : OpKind) (work asid va pa : Nat) : Op :=
  { id := 0, kind, team := 0, grp := 64 + work, lane := 0, core := 529, asid, va, pa, width := 8,
    attr := ⟨0, false, 0, false⟩, priv := false, data := 0, cmp := 0, opc := 0, scope := 5, acq := false, rel := false,
    pend := none, sext := false, tok := none, sent := false, hold := false, pc := 0, rep := none, drain := false }

/-- Bytes the base die reads by its own DMA: DRAM, a register, or free values of the host's or a remote package's memory. -/
def State.dmaRead (s : State) (pa n : Nat) : List (BitVec 8) × State :=
  if n = 0 then ([], s)
  else match regionOf pa with
  | .dram => s.bareGet pa n
  | .dev => ((List.range (n / 8)).flatMap fun k => leBytes 8 (s.regRead (pa + 8 * k) 8), s)
  | .host => ((List.range (n / 8)).flatMap fun k => leBytes 8 (Config.hostRead (s.freeCtr + k)).toNat,
      { s with freeCtr := s.freeCtr + n / 8, out := { s.out with hostReq := s.out.hostReq ++ [⟨pa - Config.hostBase, n, none⟩] } })
  | _ => ((List.range (n / 8)).flatMap fun k => leBytes 8 (Config.hostRead (s.freeCtr + k)).toNat, { s with freeCtr := s.freeCtr + n / 8 })

/-- What a read of the scheduler gives: bytes; nothing yet; or that its target has refused it. -/
inductive SchedR where
  | got (bs : List (BitVec 8)) (s : State)
  | wait (s : State)
  | refused (cause : Nat)

/-- Bytes the scheduler reads for a piece of its work: DRAM at its home, other targets as uncached accesses in issue order (R97,
R254, R419). -/
def State.schedRead (s : State) (work asid va pa n : Nat) (a : Attr) : SchedR :=
  if regionOf pa = .dram then
    (if s.pinned pa then .wait s else let r := s.homeGet pa n a; .got r.1 r.2)
  else
    let o := schedOp .far work asid va pa
    match lmFar o n s with
    | .ok (bs, s1) => .got bs (s1.dropFarOf 0 o.grp)
    | .error (.refused _ _) => .refused cRefused
    | .error (.fault c) => .refused c
    | .error _ => .wait (s.askFar o n)

/-- Changes the launch at an index. -/
def State.modLaunch (s : State) (k : Nat) (f : Launch → Launch) : State :=
  { s with lu := { s.lu with launches := listUpd s.lu.launches k f } }

/-- The launch at an index leaves. -/
def State.dropLaunch (s : State) (k : Nat) : State := { s with lu := { s.lu with launches := s.lu.launches.eraseIdx k } }

/-! ### Host queues (R248) -/

/-- A launch has been read and has not started. -/
def Launch.unstarted (l : Launch) : Bool := l.st == .waiting || l.st == .satisfied

/-- A host queue may have its next record read (R248). -/
def State.hqReady (s : State) (q : Nat) : Bool :=
  let z := s.lu.hq.getD q HQ.reset
  z.en && s.regs.featlock && z.head != z.tail && z.parked.isNone &&
    !s.lu.launches.any fun l => l.queue == some q && l.unstarted

/-- The scheduler's work on a queue's record or on a launch's word has been refused: what it asked for goes. -/
def State.schedDrop (s : State) (work asid va : Nat) : State := (s.dropFarOf 0 (64 + work)).schedDone asid va

/-- The record of a host queue has been read: it is numbered, or removed as malformed (R42, R248). -/
def State.takeRecord (s : State) (q va : Nat) (bs : List (BitVec 8)) : State :=
  let z := s.lu.hq.getD q HQ.reset
  let s1 := s.modHq q fun y => { y with head := y.head + 1 }
  if lrecBad (recWord bs) then s1.pushFault va cLaunch z.asid 0 528
  else
    let l := Launch.new s.lu.nextGrid.toNat (lrecOf (recWord bs)) z.asid z.prio (some q) 0
    { s1 with lu := { s1.lu with launches := s1.lu.launches ++ [l], nextGrid := s1.lu.nextGrid + 1 } }

/-- LAUNCH_RECORD_READ (R248): a fault parks the queue. -/
def execLaunchRecordRead (q : Nat) (s : State) : Host.Outcome State Fault Refusal :=
  .next (if !s.hqReady q then s
  else
    let z := s.lu.hq.getD q HQ.reset
    let va := (z.base.toNat % 2 ^ 56 + 64 * (z.head.toNat % (64 * 2 ^ z.size))) % 2 ^ 56
    let park := fun (u : State) => (u.schedDrop (2 * q) z.asid va).modHq q fun y => { y with parked := some (z.asid, pageOf va) }
    match s.schedXlate z.asid va 0 true with
    | (.ok pa a, s1) =>
      (match s1.schedRead (2 * q) z.asid va pa 64 a with
       | .got bs u => (u.schedDone z.asid va).takeRecord q va bs
       | .wait u => u
       | .refused c => park (s1.pushFault va c z.asid 0 528))
    | (.walk, s1) => s1
    | (.xlate c, s1) => park (s1.reportXlate va c z.asid 0 528 false)
    | (.refused c, s1) => park (s1.pushFault va c z.asid 0 528))

/-! ### Wait events and starts (R40, R43, R419) -/

/-- LAUNCH_WAITEV_READ (R419): a package-scope acquire read of the wait word of the launch at an index. -/
def execLaunchWaitevRead (k : Nat) (s : State) : Host.Outcome State Fault Refusal :=
  .next (match s.lu.launches[k]? with
  | none => s
  | some l =>
    if l.st != .waiting || l.parked.isSome then s
    else
      let drop := fun (u : State) => u.schedDrop (2 * l.gridid + 1) l.asid l.lr.waitev
      match s.schedXlate l.asid l.lr.waitev 0 false with
      | (.ok pa a, s1) =>
        (match s1.schedRead (2 * l.gridid + 1) l.asid l.lr.waitev pa 8 a with
         -- a word that has not come so far is read again, through the same translation
         | .got bs u => if l.lr.waitn ≤ leNat bs then (u.schedDone l.asid l.lr.waitev).modLaunch k fun z => { z with st := .satisfied } else u
         | .wait u => u
         | .refused c => (drop (s1.pushFault l.lr.waitev c l.asid 0 529)).dropLaunch k)
      | (.walk, s1) => s1
      | (.xlate c, s1) =>
        (drop (s1.reportXlate l.lr.waitev c l.asid 0 529 false)).modLaunch k fun z => { z with parked := some (pageOf l.lr.waitev, 0) }
      | (.refused c, s1) => (drop (s1.pushFault l.lr.waitev c l.asid 0 529)).dropLaunch k)

/-- No older record of the device launch queue is satisfied (R40). -/
def State.startsNext (s : State) (k : Nat) (l : Launch) : Bool :=
  l.queue.isSome || !(s.lu.launches.take k).any fun z => z.queue.isNone && z.st == .satisfied

/-! ### Admission conditions (R67, R93, R404) -/

/-- Register rows a team occupies at admission (R54). -/
def TeamId.rows (i : TeamId) : Nat := i.groups * i.bsize + 64

/-- Bytes of a team's private area (R93). -/
def TeamId.privBytes (i : TeamId) : Nat := i.priv * 128 * i.groups

/-- The lowest offset at which a private area of `n` bytes fits in a core's region (R93). -/
def State.privOffset (s : State) (c n : Nat) : Option Nat :=
  let used := ((s.residents c).map fun p => (p.2.id.area, p.2.id.privBytes)).filter fun a => a.2 != 0
  if n = 0 then some 0
  else
    ((sortBy id (0 :: used.map fun a => a.1 + a.2)).find? fun o =>
      o + n ≤ (s.core c).privsz.toNat && used.all fun a => !overlaps o n a.1 a.2)

/-- The base block B′ of a record (R49). -/
def LRec.bsize (r : LRec) : Nat := 8 * cdiv r.regs 8

/-- The weight of a record's energy class (R69). -/
def State.weight (s : State) (r : LRec) : Nat := (s.regs.enweight.extractLsb' (8 * r.energy) 8).toNat

/-- A team of a launch may be admitted to a core (R67). -/
def State.coreFits (s : State) (l : Launch) (c : Nat) : Bool :=
  let z := s.core c
  let ts := (s.residents c).map fun p => p.2.id
  let sum := fun (f : TeamId → Nat) => ts.foldl (fun n i => n + f i) 0
  let n := l.lr.priv * 128 * l.lr.groups
  z.pre == 0 && !z.retire && !s.regs.tripped &&
    ts.length < 16 && sum (·.groups) + l.lr.groups ≤ 256 &&
    sum TeamId.rows + l.lr.groups * l.lr.bsize + 64 ≤ 16384 &&
    (ts.isEmpty || z.carve == l.lr.carve) &&
    sum TeamId.privBytes + n ≤ z.privsz.toNat && (s.privOffset c n).isSome &&
    sum (·.weight) + s.weight l.lr ≤ z.limit.toNat &&
    ts.all (fun i => i.asid == l.asid) && !(2 ≤ l.lr.cores && ts.any (·.exch))

/-- The cores of a rectangle, in order of position (R27). -/
def rectCores (d x y w h : Nat) : List Nat := (List.range (w * h)).map fun p => 64 * d + 8 * (y + p / w) + x + p % w

/-- The cores of the first rectangle of a shape whose position-wise test holds (R66). -/
def firstRect (w h : Nat) (ok : Nat → Nat → Bool) : Option (List Nat) :=
  (List.range 4).findSome? fun d => (List.range (9 - h)).findSome? fun y => (List.range (9 - w)).findSome? fun x =>
    let l := rectCores d x y w h
    if (List.range l.length).all fun p => ok p (l.getD p 0) then some l else none

/-- The rectangle for the next cluster of a launch. -/
def State.rectFor (s : State) (l : Launch) : Option (List Nat) := firstRect l.lr.clw l.lr.clh fun _ c => s.coreFits l c

/-- A launch is pending admission (R65). -/
def Launch.pending (l : Launch) : Bool := l.st == .started && l.next * l.lr.cores < l.lr.teams

/-- The start order of a launch. -/
def State.startOrder (s : State) (gridid : Nat) : Nat :=
  match s.lu.launches.find? fun l => l.gridid == gridid with
  | some l => l.order
  | none => 0

/-- No blocking launch keeps a launch out (R66): among blocking launches of one priority the earlier goes first. -/
def State.unblocked (s : State) (l : Launch) : Bool :=
  !s.lu.launches.any fun b => b.pending && b.blocking && b.gridid != l.gridid &&
    (l.prio < b.prio || (l.prio == b.prio && (!l.blocking || b.order < l.order)))

/-- No blocking core set keeps a launch out (R66, R89): among a blocking launch and a blocking set of one priority the earlier
goes first. -/
def State.unblockedBySets (s : State) (l : Launch) : Bool :=
  !s.saved.any fun z => z.blocking &&
    (let p := z.teams.foldl (fun m q => max m q.2.id.prio) 0
     let o := leastOf (z.teams.map fun q => s.startOrder q.2.id.gridid)
     l.prio < p || (l.prio == p && (!l.blocking || o < l.order)))

/-- The order in which admission considers launches (R65). -/
def State.admitOrder (s : State) : List Launch :=
  sortBy (fun (l : Launch) => 3 - l.prio) (sortBy (fun l => l.order) (s.lu.launches.filter Launch.pending))

/-- The cluster to admit next, with its cores (R65, R66). -/
def State.admitNext (s : State) : Option (Launch × List Nat) :=
  s.admitOrder.findSome? fun l => if s.unblocked l && s.unblockedBySets l then (s.rectFor l).map fun r => (l, r) else none

/-! ### A new team (R26 to R28, R44, R48, R56, R68, R93) -/

/-- A lane at start (R28, R48). -/
def laneStart (pc : Nat) (regs : Tab (BitVec 32)) (sregs : Tab (BitVec 64)) : Lane :=
  ⟨BitVec.ofNat 56 pc, 0, .eligible, none, 0, 0, regs, sregs, [], [], [], none⟩

/-- The registers of a lane at start (R48, R56): ARGS in g0:1, the rest of the base block as its extents keep it for the ASID,
or 0. -/
def startRegs (z : Core) (slot bsize asid args l : Nat) : Tab (BitVec 32) :=
  let old := z.keptRows slot 0 asid 0 (min 64 bsize) l ++ z.keptRows slot 1 asid 64 (bsize - 64) l
  (old.set 0 (BitVec.ofNat 32 args)).set 1 (BitVec.ofNat 32 (args / 2 ^ 32))

/-- A group at start. -/
def groupStart (s : State) (c : Nat) (l : Launch) (slot : Nat) : Group :=
  { Group.blank with
    slot, bsize := l.lr.bsize, stklim := BitVec.ofNat 24 (min (2 ^ 24 - 1) (l.lr.priv * 4)),
    lanes := (List.range 32).map fun i => laneStart l.lr.entry (startRegs (s.core c) slot l.lr.bsize l.asid l.lr.args i) [] }

/-- The front thread at start (R35, R48). -/
def frontStart (l : Launch) : Group :=
  { Group.blank with front := true, lanes := [laneStart l.lr.front [] [(0, BitVec.ofNat 64 l.lr.args)]] }

/-- The lowest free group slots of a core (R27, R36, R328). -/
def State.freeSlots (s : State) (c n : Nat) : List Nat :=
  let used := (s.residents c).flatMap fun p => p.2.grps.filterMap fun q => if q.2.front || q.2.gone then none else some q.2.slot
  ((List.range 256).filter fun k => !used.contains k).take n

/-- The team with a number at position `p` of its cluster, on a core. -/
def State.newTeam (s : State) (l : Launch) (c p : Nat) : Team :=
  let teamid := l.next * l.lr.cores + p
  let slots := s.freeSlots c l.lr.groups
  let gs := (List.range l.lr.groups).map fun g => (g, groupStart s c l (slots.getD g 0))
  { id := { launch := l.gridid, teamid, clusterid := l.next, pos := p, gridid := l.gridid, asid := l.asid, prio := l.prio,
            clw := l.lr.clw, clh := l.lr.clh, groups := l.lr.groups, weight := s.weight l.lr, bsize := l.lr.bsize,
            priv := l.lr.priv, area := (s.privOffset c (l.lr.priv * 128 * l.lr.groups)).getD 0,
            hasFront := l.lr.front != 0, exch := 2 ≤ l.lr.cores },
    core := c, grps := if l.lr.front = 0 then gs else gs ++ [(frontKey, frontStart l)], bars := [], wins := [], dq := [],
    ilist := [], stab := [], rm := 0, nantrap := false, csrOld := none, lrbase := 0, uhvec := 0, uhdeleg := 0, reserveHeld := false,
    sampled := [] }

/-- A core takes a launch's team (R67, R68, R404): the carve and cleared stores of an empty core, cleared exchange banks. -/
def Core.takeTeam (z : Core) (empty : Bool) (l : Launch) : Core :=
  let z1 := if !empty then z
    else if z.poolAsid == some l.asid then { z with carve := l.lr.carve }
    else { z with carve := l.lr.carve, poolAsid := some l.asid, wst := [], xst := [], yst := [] }
  if 2 ≤ l.lr.cores then { z1 with xst := z1.xst.clear 0 0x10000 } else z1

/-- A team is placed. -/
def State.placeTeam (s : State) (l : Launch) (c p : Nat) : State :=
  let x := s.newTeam l c p
  let s0 := s.modCore c fun z => z.takeTeam (s.residents c).isEmpty l
  -- lines leave an L1 whose carve is smaller now (R20)
  let s1 := s0.l1Trim c (s0.core c).l1.length
  { s1 with teams := s1.teams.set s1.nextId x, nextId := s1.nextId + 1 }

/-! ### The expert-affinity record (R217) -/

/-- The names of a record's warm interests, in order. -/
def affinityNames (bs : List (BitVec 8)) : List (Nat × Nat × Nat) :=
  let mask := leNat (bs.take 32)
  let w4 := recWord bs 4
  let w5 := recWord bs 5
  let es := (List.range 256).filter fun e => bit mask e
  es.flatMap fun e => (List.range (bits w5 0 6)).map fun i => (bits w4 0 20 + e * bits w4 20 20, i, bits w4 40 24)

/-- A record that is ignored: a reserved field, or a tensor id out of range. -/
def affinityBad (bs : List (BitVec 8)) : Bool :=
  let mask := leNat (bs.take 32)
  let w4 := recWord bs 4
  bits (recWord bs 5) 6 26 != 0 || recWord bs 6 != 0 || recWord bs 7 != 0 ||
    (mask != 0 && 2 ^ 20 ≤ bits w4 0 20 + Nat.log2 mask * bits w4 20 20)

/-- The scheduler is to read the affinity record of a launch whose first cluster is admitted (R217). -/
def State.prefetch (s : State) (l : Launch) (c : Nat) : State :=
  if !s.feat 0 || l.next != 0 || l.lr.seq == 0 || l.lr.seq % 64 != 0 then s
  else { s with lu := { s.lu with seqs := s.lu.seqs ++ [⟨l.gridid, l.asid, l.lr.seq, c⟩] } }

/-- The warm interests that a record names enter the router above its core. -/
def State.warm (s : State) (c : Nat) (bs : List (BitVec 8)) : State :=
  if affinityBad bs then s
  else
    let expiry := s.time + bits (recWord bs 5) 32 32
    (affinityNames bs).foldl (fun u n => u.send
      { Packet.mk0 .interest n.1 n.2.1 n.2.2 with expiry, warm := true, at_ := .router (routerOf c) 0 }) s

/-- An affinity record is read as far as it can be now: behind its walk, and behind the scheduler's earlier accesses to its target
(R97, R104, R217); one that cannot be translated, or that is refused, is ignored (log entry 100). -/
def State.seqRead (s : State) (q : SeqReq) : State :=
  let work := 2 ^ 40 + q.gridid
  let done := fun (u : State) => State.schedDrop { u with lu := { u.lu with seqs := u.lu.seqs.filter fun p => p != q } } work q.asid q.va
  match s.schedXlate q.asid q.va 0 false with
  | (.ok pa a, s1) =>
    (match s1.schedRead work q.asid q.va pa 64 a with
     | .got bs u => (done u).warm q.core bs
     | .wait u => u
     | .refused _ => done s1)
  | (.walk, s1) => s1
  | (.xlate _, s1) => done s1
  | (.refused _, s1) => done s1

/-- Every affinity record that is to be read goes as far as it can (R217). -/
def State.seqReads (s : State) : State := s.lu.seqs.foldl State.seqRead s

/-! ### Admission (R65, R66) -/

/-- A cluster is admitted onto the cores of a rectangle. -/
def State.admitCluster (s : State) (l : Launch) (cores : List Nat) : State :=
  let s1 := (List.range cores.length).foldl (fun u p => u.placeTeam l (cores.getD p 0) p) s
  let s2 := { s1 with lu := { s1.lu with launches := s1.lu.launches.map fun (z : Launch) =>
    if z.gridid = l.gridid then { z with next := z.next + 1, since := s.time, blocking := false } else z } }
  s2.prefetch l (leastOf cores)

/-- CLUSTER_ADMIT (R65): the lines that may have to leave an L1 for a smaller carve can (R100). -/
def execClusterAdmit (s : State) : Host.Outcome State Fault Refusal :=
  .next (match s.admitNext with
  | some (l, r) => if r.all s.allOpen then s.admitCluster l r else s
  | none => s)

/-- LAUNCH_BLOCKING (R66), evaluated at every tick: a tick at which the launch's next cluster fits starts its count again; after
65,536 ticks in which it has not fitted the launch is blocking. -/
def execLaunchBlocking (k : Nat) (s : State) : Host.Outcome State Fault Refusal :=
  .next (match s.lu.launches[k]? with
  | none => s
  | some l =>
    if !l.pending || l.blocking then s
    else if (s.rectFor l).isSome then s.modLaunch k fun z => { z with since := s.time }
    else if l.since + 65536 ≤ s.time then s.modLaunch k fun z => { z with blocking := true }
    else s)

/-! ### The end of teams and grids (R36, R43) -/

/-- A team has nothing left to wait for (R36); its accesses in flight are waited for as well. -/
def State.teamDone (s : State) (t : Nat) (x : Team) : Bool :=
  x.ended && x.ilist.isEmpty && !(s.core x.core).copies.any (fun z => z.team == t) &&
    !(s.packets.any fun p => match p.src with | some q => q.1 == t | none => false) && !(s.ops.any fun o => o.team == t) &&
    !(s.core x.core).engine.any (fun j => j.team == t) &&
    x.grps.all fun p => p.2.fences.isEmpty && p.2.gone

/-- The stores of a team's groups are performed as far as the L3, and the latest write completion time (R43). -/
def State.flushTeam (s : State) (t : Nat) (x : Team) : Nat × State :=
  let s1 := x.grps.foldl (fun u p => u.writeBackAll x.core t p.1) s
  let d := dieOf x.core
  -- a slice forwards in the order it received (R113): all of each slice that holds bytes of the team
  let mine := ((s1.die d).fwd.filter fun f => f.owners.any fun p => p.1 == t).map fun f => s1.sliceOf d (f.line * 128)
  let s2 := s1.forward d fun f => mine.contains (s1.sliceOf d (f.line * 128))
  let wct := match s2.team? t with
    | some y => y.grps.foldl (fun m p => max m (max p.2.kwct p.2.wct3)) 0
    | none => 0
  (wct, s2)

/-- TEAM_FINISH (R36). -/
def execTeamFinish (t : Nat) (s : State) : Host.Outcome State Fault Refusal :=
  .next (match s.team? t with
  | none => s
  | some x =>
    if !s.teamDone t x || !s.pubOpen x.core then s
    else
      let r := s.flushTeam t x
      (r.2.removeTeam t).launchTeamDone x.id.gridid r.1 false)

/-- Every team of a launch has finished, and the time base has passed the write completion times (R43, R46). -/
def Launch.complete (l : Launch) (now : Nat) : Bool :=
  l.st == .started && l.finished == l.lr.teams && (l.finished == 0 || l.wct < now)

/-- GRID_COMPLETE (R43): a launch without a signal, or with a killed team, leaves. -/
def execGridComplete (k : Nat) (s : State) : Host.Outcome State Fault Refusal :=
  .next (match s.lu.launches[k]? with
  | none => s
  | some l =>
    if !l.complete s.time then s
    else if l.lr.sigev = 0 || l.killed then s.dropLaunch k
    else s.modLaunch k fun z => { z with st := .signalling })

/-- 1 is added to an event word at its home, as the page's attributes say (R95, R103); a target outside DRAM receives an atomic in
flight (R97, R254). The spec does not say what the add, or a WAITEV read, does with a poisoned word, whose maker is no team (R241):
both take its bytes as they stand, and the add writes the word whole, so that it is no longer poisoned (log entry 147). -/
def State.signalAt (s : State) (l : Launch) (pa : Nat) (a : Attr) : State :=
  if regionOf pa = .dram then
    let r := s.homeGet pa 8 a
    (r.2.homePut pa (leBytes 8 (leNat r.1 + 1)) a).unpoison pa 8
  else s.addOp { schedOp .atomic (2 * l.gridid + 1) l.asid l.lr.sigev pa with data := 1, rel := true }

/-- The signal of the launch at an index (R43, R419): one that meets a refusal, or that nothing answers, is recorded and
dropped. -/
def State.signalLaunch (s : State) (k : Nat) (l : Launch) : State :=
  let done := fun (u : State) => u.schedDone l.asid l.lr.sigev
  match s.schedXlate l.asid l.lr.sigev 2 false with
  | (.ok pa a, s1) =>
    if regionOf pa == .dram && s1.pinned pa then s1.modLaunch k fun z => { z with st := .signalling }
    else ((done s1).signalAt l pa a).dropLaunch k
  | (.walk, s1) => s1.modLaunch k fun z => { z with st := .signalling }
  | (.xlate c, s1) =>
    ((done s1).reportXlate l.lr.sigev c l.asid 2 529 false).modLaunch k fun z =>
      { z with st := .signalling, parked := some (pageOf l.lr.sigev, 2) }
  | (.refused c, s1) => ((done s1).pushFault l.lr.sigev c l.asid 2 529).dropLaunch k

/-- LAUNCH_SIGNAL (R43, R419). -/
def execLaunchSignal (k : Nat) (s : State) : Host.Outcome State Fault Refusal :=
  .next (match s.lu.launches[k]? with
  | none => s
  | some l => if l.st != .signalling || l.parked.isSome then s else s.signalLaunch k l)

/-- A launch starts (R40): it takes its place in the order of starts. -/
def Launch.begin (l : Launch) (order now : Nat) : Launch := { l with st := .started, order, since := now }

/-- LAUNCH_START (R40): a launch with no team completes at this moment and signals at once (R46). -/
def execLaunchStart (k : Nat) (s : State) : Host.Outcome State Fault Refusal :=
  .next (match s.lu.launches[k]? with
  | none => s
  | some l =>
    if l.st != .satisfied || !s.startsNext k l then s
    else
      let s1 := State.modLaunch { s with nextId := s.nextId + 1 } k fun z => z.begin s.nextId s.time
      if l.lr.teams != 0 then s1 else if l.lr.sigev = 0 then s1.dropLaunch k else s1.signalLaunch k l)

end Sys2Proof.Machine
end

