-- ==== Sys2Proof/Machine/Events.lean ====
section
/-! DEFINITION. Machine/Events.lean: runs, JOIN releases, extended blocks, register deadlock and asynchronous writebacks as steps
of the device (R32, R52, R53, R59, R72, R73). -/
namespace Sys2Proof.Machine
open Sys2Proof

/-- RUN_START (R73). -/
def execRunStart (core pipe : Nat) (s : State) : Host.Outcome State Fault Refusal := .next (s.startRun core pipe)

/-- RUN_FORCED_END (R73). -/
def execRunForcedEnd (core pipe : Nat) (s : State) : Host.Outcome State Fault Refusal := .next (s.forceEnd core pipe)

/-- JOIN_RELEASE (R32). -/
def execJoinRelease (t g : Nat) (pc : BitVec 56) (s : State) : Host.Outcome State Fault Refusal := .next (s.releaseJoin t g pc)

/-- ASYNC_WRITEBACK (R59): the writeback at an index of a lane's pending ones; the last of a finished group returns what the group
holds (R328). -/
def execAsyncWriteback (t g lane k : Nat) (s : State) : Host.Outcome State Fault Refusal :=
  .next ((s.landPend t g lane k).groupLeaves t g)

/-! ### Extended blocks (R52) -/

/-- Who is granted a block next on a core, and whether it comes from the team's reserve. -/
def State.grantNext (s : State) (c : Nat) : Option ((Nat × Nat) × Bool) :=
  let w := (s.core c).xwait
  if 64 ≤ s.freeRows c then w.head?.map fun p => ((p.team, p.grp), false)
  else
    (w.find? fun p => match s.team? p.team with
      | some x => !x.reserveHeld
      | none => false).map fun p => ((p.team, p.grp), true)

/-- A group holds an extended block: g128 to g191 of its lanes hold what the extent keeps for its ASID, and its packs parked
in XACQ become eligible (R51, R56). -/
def Group.takeBlock (y : Group) (z : Core) (asid : Nat) (reserve : Bool) : Group :=
  { y with
    xblk := some reserve
    lanes := (List.range y.lanes.length).map fun l =>
      let x := y.lane l
      { x with
        regs := (x.regs.filter fun p => p.1 < 128) ++ z.keptRows y.slot 2 asid 128 64 l
        st := if x.st = .parked .xacq then .eligible else x.st } }

/-- A group receives its block (R51, R52): a pack that becomes eligible issues its XACQ again, which then has no effect. -/
def State.grant (s : State) (c t g : Nat) (reserve : Bool) : State :=
  match s.team? t with
  | none => s
  | some x =>
    let s1 := s.modCore c fun z => { z with xwait := z.xwait.filter fun p => !(p.team == t && p.grp == g) }
    let s2 := s1.modGrp t g fun y => y.takeBlock (s.core c) x.id.asid reserve
    s2.modTeam t fun x => { x with reserveHeld := x.reserveHeld || reserve }

/-- EXTENDED_BLOCK_GRANT (R52). -/
def execExtendedBlockGrant (core : Nat) (s : State) : Host.Outcome State Fault Refusal :=
  .next (match s.grantNext core with
  | some (p, r) => s.grant core p.1 p.2 r
  | none => s)

/-! ### Register deadlock (R53) -/

/-- A lane waits in the sense of R53. -/
def Lane.stuck (l : Lane) : Bool :=
  match l.st with
  | .parked .xacq | .parked (.barrier _) | .parked .clbar | .held | .exited => true
  | _ => false

/-- The front thread has exited or is parked in BWAIT (R53). -/
def Lane.frontStuck (l : Lane) : Bool :=
  match l.st with
  | .parked (.barrier _) | .exited => true
  | _ => false

/-- A copy, named delivery, interest or XST that the team started is in flight (R53), or an update of one of its barrier
registers has not been tested yet (R135). -/
def State.teamTraffic (s : State) (t : Nat) (x : Team) : Bool :=
  x.bars.any (fun p => !p.2.upds.isEmpty) || (s.core x.core).copies.any (fun z => z.team == t) || !x.ilist.isEmpty ||
    s.packets.any (fun p => match p.wtok with | some q => q.1 == t | none => false) ||
    s.ops.any fun o => o.kind == .xst && o.team == t

/-- A team is in register deadlock (R53); a block that can be granted is served by R52 and ends the wait. -/
def State.deadlocked (s : State) (t : Nat) (x : Team) : Bool :=
  (s.grantNext x.core).isNone && (x.grps.any fun p => p.2.lanes.any fun l => l.st == .parked .xacq) &&
    (x.grps.all fun p => p.2.lanes.all fun l => if p.2.front then l.frontStuck else l.stuck) && !s.teamTraffic t x

/-- The packs of a group parked in XACQ trap. -/
def State.deadlockTrap (t : Nat) (s : State) (g : Nat) : State :=
  match s.team? t, s.grp? t g with
  | some x, some y =>
    let l := y.lanesWith fun z => z.st == .parked .xacq
    if l.isEmpty then s
    else
      State.takeTrap (s.modCore x.core fun c => { c with xwait := c.xwait.filter fun p => !(p.team == t && p.grp == g) }) t g
        (l.map fun k => (k, cDeadlock)) l none
  | _, _ => s

/-- REGISTER_DEADLOCK (R53). -/
def execRegisterDeadlock (t : Nat) (s : State) : Host.Outcome State Fault Refusal :=
  .next (match s.team? t with
  | none => s
  | some x =>
    if s.deadlocked t x then ((sortBy (fun (p : Nat × Group) => p.2.slot) x.grps).map (·.1)).foldl (State.deadlockTrap t) s
    else s)

end Sys2Proof.Machine
end

