-- ==== Sys2Proof/Machine/Preempt.lean ====
section
/-! DEFINITION. Machine/Preempt.lean: pre-emption of a core, context save and restore (R79, R85 to R89, R117). -/
namespace Sys2Proof.Machine
open Sys2Proof

/-! ### The halt (R86) -/

/-- A request is on its way to the core. -/
def Core.draining (c : Core) : Bool := c.pre == 0 && c.preT0 != 0

/-- The time at which the core has halted at the latest has come, 4,288 ticks after the request. -/
def Core.haltDue (c : Core) (now : Nat) : Bool := c.pre == 1 && c.preT0 + 4287 ≤ now

/-- PREEMPT_DRAIN (R86): no new run starts, and one that has issued nothing does not begin. -/
def execPreemptDrain (core : Nat) (s : State) : Host.Outcome State Fault Refusal :=
  .next (if (s.core core).draining then
    State.modCore { s with runs := s.runs.filter fun r => r.core != core || r.start.isSome } core fun c => { c with pre := 1 }
  else s)

/-- The block deadline has come, 4,160 ticks after the request. -/
def Core.blocksDue (c : Core) (now : Nat) : Bool := c.pre == 1 && c.preT0 + 4159 ≤ now

/-- The blocks in flight of a core are abandoned: they are made again after restore. -/
def State.dropBlocks (s : State) (c : Nat) : State :=
  let s1 := s.modCore c fun z => { z with copies := z.copies.map fun y => { y with inflight := [] } }
  (((s1.core c).copies.filter (·.abandoned)).foldl (fun u z => u.endCopy c z) s1)

/-- PREEMPT_BLOCK_DEADLINE (R86). -/
def execPreemptBlockDeadline (core : Nat) (s : State) : Host.Outcome State Fault Refusal :=
  .next (if (s.core core).blocksDue s.time then s.dropBlocks core else s)

/-- PREEMPT_SQUASH_DEADLINE (R86): every task of the core's teams is squashed. -/
def execPreemptSquashDeadline (core : Nat) (s : State) : Host.Outcome State Fault Refusal :=
  .next (if !(s.core core).squashDue s.time then s
  else
    (s.residents core).foldl (fun u p => p.2.grps.foldl (fun v q => if q.2.spec then v.squash p.1 q.1 else v) u) s)

/-- A core may halt: no run, no block in flight, no task, and trap entries complete (R239); at the latest tick of R86 an entry
that waits for a page fault waits on (R87). -/
def State.mayHalt (s : State) (c : Nat) : Bool :=
  (s.core c).pre == 1 && !s.runs.any (fun r => r.core == c) && (s.core c).copies.all (fun z => z.inflight.isEmpty) &&
    (s.residents c).all fun p => p.2.grps.all fun q => !q.2.spec && (q.2.es.entry.isNone || (s.core c).haltDue s.time)

/-- The pack of a latch record issues its crew instruction again (R79). -/
def State.unlatch (t : Nat) (s : State) (r : LatchRec) : State :=
  (s.modGrp t r.grp fun y => { y with lanes := (List.range y.lanes.length).map fun l =>
    let x := y.lane l
    if (r.lanes.contains l && x.st == .parked .latch) then { x with st := .eligible } else x }).decTok? t r.grp r.tok

/-- The rendezvous latches of a core are cleared (R79): their instructions are issued again after restore. A crew instruction that has
passed its rendezvous stays with its packs in the engine. -/
def State.clearLatches (s : State) (c : Nat) : State :=
  let s1 := (s.core c).crews.foldl (fun u k => k.latch.foldl (State.unlatch k.team) u) s
  s1.modCore c fun z => { z with crews := z.crews.map fun k => { k with latch := [] } }

/-- PREEMPT_HALT (R86). -/
def execPreemptHalt (core : Nat) (s : State) : Host.Outcome State Fault Refusal :=
  .next (if s.mayHalt core then (s.clearLatches core).modCore core fun c => { c with pre := 2, quiet := false } else s)

/-- The tokens of COPIES that a halted core suspends (R86 to R88): copies of windows, publishes that have not been sent, and
interests with no delivery under way. -/
def State.suspended (s : State) (t : Nat) (x : Team) : List Nat :=
  ((s.core x.core).copies.filterMap fun z => if z.team = t then z.tok.map (·.2) else none) ++
    ((x.ilist.filter fun e => !e.header && e.ncan.isEmpty).map (·.tok)) ++
    (s.packets.filterMap fun p => match p.src with | some q => if q.1 = t then some q.2.2.2 else none | none => none) ++
    s.packets.filterMap fun p => match p.wtok with | some q => if q.1 = t then some q.2.2 else none | none => none

/-- The parts of a counted operation that are kept for restore: those of lanes that stay parked at their instruction, on a page fault
or a wait, and those of lanes in EVWAIT (R87, R327). -/
def State.keptParts (s : State) (t g : Nat) (y : Group) (k : Nat) : Nat :=
  (y.lanes.filter fun l => match l.held with | some h => h.tok == k | none => false).length +
    (s.ops.filter fun o => o.kind == .evwait && o.team == t && o.grp == g && o.tok == some k).length

/-- An operation is kept by a save: an EVWAIT, or an answer that its instruction or engine has yet to take. -/
def Op.kept (o : Op) : Bool := o.kind == .evwait || o.got

/-- Every access of a halted core that has been issued is done and its results are in the registers: LOADS and STORES of every group
are 0 but for what stays parked, and what COPIES counts is suspended (R85, R87, R88, R183, log entry 105). -/
def State.mayQuiet (s : State) (c : Nat) : Bool :=
  (s.core c).pre == 2 && !(s.core c).quiet &&
    (s.residents c).all fun p =>
      (s.ops.all fun o => o.team != p.1 || o.kept) &&
        p.2.grps.all fun q =>
          (q.2.lanes.all fun l => l.pend.isEmpty) &&
            q.2.toks.all fun k =>
              match k.2.ctr with
              | 0 | 1 => k.2.left ≤ s.keptParts p.1 q.1 q.2 k.1
              | 2 => (s.suspended p.1 p.2).contains k.1
              | _ => true

/-- PREEMPT_QUIET (R87). -/
def execPreemptQuiet (core : Nat) (s : State) : Host.Outcome State Fault Refusal :=
  .next (if s.mayQuiet core then s.modCore core fun c => { c with quiet := true } else s)

/-! ### Context save (R88) -/

/-- The trap frames of a group as they stand in its private area; a line whose page is not mapped, or lies outside DRAM, gives nothing
(log entry 107). -/
def State.frameImage (s : State) (x : Team) (g : Nat) : List (BitVec 8) :=
  (List.range 4).flatMap fun k =>
    let va := s.frameVa x g k
    match s.lookup x.core x.id.asid va 0 true with
    | .ok e => if regionOf (e.phys va) = .dram then (s.loadBytes x.core (e.phys va) 128 e.attr true).1 else []
    | .error _ => []

/-- A pending interest as it is saved: its window waits, its lifetime is what remains (R88). -/
def IEnt.saved (e : IEnt) (now : Nat) : IEnt := { e with expiry := e.expiry - now, pred := 0, stag := none }

/-- The windows of pending interests as they are saved. -/
def Team.savedWins (x : Team) : Tab Win :=
  x.wins.map fun p =>
    if (x.entryOf p.1).isSome then (p.1, { p.2 with st := .filling, pres := 0, level := 0, stag := none }) else p

/-- A group as it is saved: its stores are written, so it keeps no path, and a lane in CREW issues it again. -/
def Group.saved (y : Group) : Group :=
  { y with pathDie := [], pathPkg := [], fences := y.fences.map fun f => { f with markers := [] },
           lanes := y.lanes.map fun l => if l.st = .parked .form then { l with st := .eligible } else l }

/-- A team as it is saved. -/
def Team.saved (x : Team) (now : Nat) : Team :=
  { x with ilist := x.ilist.map fun e => e.saved now, wins := x.savedWins, grps := x.grps.map fun p => (p.1, p.2.saved) }

/-- Publishes of a team whose header has gone and whose last flit has not (R86). -/
def State.unsentOf (s : State) (t : Nat) : List Packet :=
  s.packets.filter fun p => p.rel.isNone && (match p.src with | some q => q.1 == t | none => false)

/-- A core's L1 lines of private pages are written back (R88). -/
def State.writeBackPriv (s : State) (c : Nat) : State :=
  ((s.core c).l1.filter fun z => z.dirty != 0 && z.priv).foldl (fun u z => u.writeBack c [] z) s

/-- A team leaves its core for a core set: its stores are written through to the L3, its operations in flight go with it, and its
pending interests are cancelled on the network. -/
def State.leaveCore (s : State) (t : Nat) : State :=
  match s.team? t with
  | none => s
  | some x =>
    let s1 := (s.flushTeam t x).2.writeBackPriv x.core
    let s2 := { s1.forward (dieOf x.core) (fun _ => true) with
      teams := s1.teams.erase t
      ops := s1.ops.filter fun o => o.team != t
      packets := s1.packets.filter fun (p : Packet) => match p.src with | some q => q.1 != t | none => true }
    x.ilist.foldl (fun u e => u.sendCancel x.core e) (s2.modCore x.core fun c => c.keepTeam x)

/-- The set a core's teams form, taken from the state after the write-backs and drops of their leaving. -/
def State.coreSet (s : State) (c : Nat) (ts : List Nat) (id : Nat) : CoreSet :=
  let z := s.core c
  let xs := ts.filterMap fun t => (s.team? t).map fun x => (t, x)
  { id, asid := z.poolAsid.getD 0, carve := z.carve, wst := z.wst, xst := z.xst, yst := z.yst,
    teams := xs.map fun p => (p.1, p.2.saved s.time), crews := z.crews, engine := z.engine,
    locks := z.locks.filter fun l => z.engine.any fun j => j.id == l.op, copies := z.copies.filter fun y => y.kind == 0,
    pubs := ts.flatMap s.unsentOf, since := s.time, blocking := false,
    frames := xs.flatMap fun p => p.2.grps.filterMap fun q => if q.2.es.inh then some (p.1, q.1, s.frameImage p.2 q.1) else none
    ops := s.ops.filter fun o => ts.contains o.team, xwait := z.xwait
    ready := s.l3Granted.foldl (fun m p => max m p.2) s.time }

/-- Publishes that wait for a release are dropped; their NPUBs are issued again after restore. -/
def State.dropWaiting (s : State) (t : Nat) : State :=
  match s.team? t with
  | none => s
  | some x => x.grps.foldl (fun u p => u.dropPublishes t p.1) s

/-- CONTEXT_SAVE (R88): once QUIET is 1 the core's teams leave as one core set; their dirty lines can be written back (R100). -/
def execContextSave (core : Nat) (s : State) : Host.Outcome State Fault Refusal :=
  .next (if !((s.core core).pre == 2 && (s.core core).quiet) || !s.allOpen core then s
  else
    let ts := (s.residents core).map (·.1)
    if ts.isEmpty then s
    else
      let s1 := ts.foldl (fun u t => u.dropWaiting t) s
      let set := s1.coreSet core ts s1.nextId
      let s2 := ts.foldl (fun u t => u.leaveCore t) { s1 with nextId := s1.nextId + 1 }
      let s3 := s2.modCore core fun c =>
        { c with crews := [], engine := [], forms := [], copies := [], locks := [], xwait := [], ready := [] }
      { s3 with saved := s3.saved ++ [set] })

/-! ### Restore (R89) -/

/-- Admission conditions for a core set on an empty core (R67, R89), once no cache of its new place can serve a copy older than its own
writes (R110). -/
def State.setFits (s : State) (z : CoreSet) (c : Nat) : Bool :=
  let k := s.core c
  let ids := z.teams.map fun p => p.2.id
  k.pre == 0 && !k.retire && !s.regs.tripped && (s.residents c).isEmpty && z.ready ≤ s.time &&
    ids.foldl (fun n i => n + i.privBytes) 0 ≤ k.privsz.toNat &&
    ids.foldl (fun n i => n + i.weight) 0 ≤ k.limit.toNat

/-- The team of a set that belongs to a cluster of several cores. -/
def CoreSet.exchId (z : CoreSet) : Option TeamId := (z.teams.map fun p => p.2.id).find? fun i => i.exch

/-- The sets to restore together with one, in order of cluster position (R89); none while one is missing. -/
def State.setGroup (s : State) (z : CoreSet) : Option (Nat × Nat × List CoreSet) :=
  match z.exchId with
  | none => some (1, 1, [z])
  | some i =>
    let l := (List.range (i.clw * i.clh)).filterMap fun p => s.saved.find? fun q =>
      match q.exchId with
      | some j => j.gridid == i.gridid && j.clusterid == i.clusterid && j.pos == p
      | none => false
    if l.length = i.clw * i.clh then some (i.clw, i.clh, l) else none

/-- The rectangle onto which a set goes with the other sets of its cluster, in order of position (R89). -/
def State.setRect (s : State) (z : CoreSet) : Option (List (CoreSet × Nat)) :=
  match s.setGroup z with
  | none => none
  | some (w, h, l) =>
    (firstRect w h fun p c => match l[p]? with | some y => s.setFits y c | none => false).map fun cores => l.zip cores

/-- The place of a set in the order of R65: the highest priority of its teams, the earliest start among their launches. -/
def State.setRank (s : State) (z : CoreSet) : Nat × Nat :=
  (z.teams.foldl (fun m p => max m p.2.id.prio) 0,
   leastOf (z.teams.map fun p => s.startOrder p.2.id.gridid))

/-- One place goes before another (R65). -/
def rankLt (a b : Nat × Nat) : Bool := b.1 < a.1 || (a.1 == b.1 && a.2 < b.2)

/-- No blocking launch and no other blocking set keeps a set out (R66, R89). -/
def State.setUnblocked (s : State) (z : CoreSet) : Bool :=
  let r := s.setRank z
  !(s.lu.launches.any fun b => b.pending && b.blocking && (if z.blocking then rankLt (b.prio, b.order) r else r.1 ≤ b.prio)) &&
    !s.saved.any fun b => b.blocking && b.id != z.id && (if z.blocking then rankLt (s.setRank b) r else r.1 ≤ (s.setRank b).1)

/-- No set and no pending launch that goes before this set in the order of R65 fits (R89). -/
def State.setFirst (s : State) (z : CoreSet) : Bool :=
  let r := s.setRank z
  !(s.lu.launches.any fun b => b.pending && rankLt (b.prio, b.order) r && s.unblocked b && s.unblockedBySets b && (s.rectFor b).isSome) &&
    !s.saved.any fun b => b.id != z.id && rankLt (s.setRank b) r && s.setUnblocked b && (s.setRect b).isSome

/-- A group as it is restored on a slot: KWCT lies after every write it could have issued (R117). -/
def Group.restored (y : Group) (slot kwct : Nat) : Group := { y with slot := if y.front then 0 else slot, kwct }

/-- The groups of a team on new slots. -/
def restoreGroups (kwct : Nat) : Tab Group → List Nat → Tab Group
  | [], _ => []
  | (g, y) :: t, slots =>
    if y.front || y.finished then (g, y.restored y.slot kwct) :: restoreGroups kwct t slots
    else
      match slots with
      | a :: r => (g, y.restored a kwct) :: restoreGroups kwct t r
      | [] => (g, y.restored 0 kwct) :: restoreGroups kwct t []

/-- The areas of a set's teams, which keep their offsets where they lie within the core's PRIVSZ, else are placed anew from 0 on
(R67, R93). -/
def placeAreas (size : Nat) (teams : Tab Team) : Tab Team :=
  if teams.all fun p => p.2.id.area + p.2.id.privBytes ≤ size then teams
  else
    (teams.foldl (fun (acc : Nat × Tab Team) p =>
      (acc.1 + p.2.id.privBytes, acc.2 ++ [(p.1, { p.2 with id := { p.2.id with area := acc.1 } })])) (0, [])).2

/-- A team takes its place on the core; its pending interests are issued again with their remaining lifetimes. -/
def State.restoreTeam (c : Nat) (s : State) (p : Nat × Team) : State :=
  let kwct := s.time + max s.regs.l1lease s.regs.l2lease
  let x := p.2
  let n := (x.grps.filter fun q => !q.2.front && !q.2.finished).length
  let x1 := { x with
    core := c, grps := restoreGroups kwct x.grps (s.freeSlots c n)
    ilist := x.ilist.map fun e => { e with expiry := s.time + max 1 e.expiry, issued := s.time } }
  let s1 := { s with teams := s.teams.set p.1 x1 }
  x1.ilist.foldl (fun u e => u.send { Packet.mk0 .interest e.t e.i e.n with
    expiry := e.expiry, specok := e.spec.isSome, at_ := .router (routerOf c) 5 }) s1

/-- A group that waits for an extended block waits on in its place, on its new slot (R52, R87). -/
def State.restoreWait (s : State) (w : XWait) : XWait :=
  match s.grp? w.team w.grp with
  | some y => { w with slot := y.slot }
  | none => w

/-- An operation goes on from its new core; an EVWAIT reads its word afresh (R327). -/
def Op.restored (o : Op) (c : Nat) : Op := if o.kind = .evwait then { o with core := c, sent := false } else { o with core := c }

/-- A publish goes on from its new core. -/
def State.restorePub (c : Nat) (s : State) (p : Packet) : State :=
  let s1 := { s with packets := s.packets ++ [{ p with at_ := .core c }] }
  match p.src with
  | some (t, _, w, _) =>
    (match (s.team? t).bind fun x => x.win? w with
     | some v => s1.lock c p.id (spaceOf v.store) 0 v.off v.bytes false
     | none => s1)
  | none => s1

/-- Trap frames are written into a group's private area (R88). -/
def State.restoreFrame (s : State) (f : Nat × Nat × List (BitVec 8)) : State :=
  match s.team? f.1 with
  | none => s
  | some x =>
    (List.range 4).foldl (fun u k =>
      let va := s.frameVa x f.2.1 k
      match s.lookup x.core x.id.asid va 1 true with
      | .ok e => if regionOf (e.phys va) = .dram then u.storeBytes x.core f.1 f.2.1 (e.phys va) e.attr false true ((f.2.2.drop (128 * k)).take 128) else u
      | .error _ => u) s

/-- A core set takes its core (R89). -/
def State.restoreSet (s : State) (z : CoreSet) (c : Nat) : State :=
  let s1 := s.modCore c fun k =>
    { k with carve := z.carve, poolAsid := some z.asid, wst := z.wst, xst := z.xst, yst := z.yst, crews := z.crews,
             engine := z.engine.map fun j => { j with parked := none }, locks := z.locks
             copies := z.copies.map fun y => { y with locked := false } }
  -- lines leave an L1 whose carve is smaller now (R20)
  let s1 := s1.l1Trim c (s1.core c).l1.length
  let s2 := (placeAreas (s.core c).privsz.toNat z.teams).foldl (State.restoreTeam c) s1
  let s2 := State.modCore { s2 with ops := s2.ops ++ z.ops.map (Op.restored · c) } c fun k => { k with xwait := z.xwait.map s2.restoreWait }
  let s3 := z.pubs.foldl (State.restorePub c) (s2.lockCopies c)
  let s4 := z.frames.foldl State.restoreFrame s3
  { s4 with saved := s4.saved.filter fun y => y.id != z.id }

/-- CORE_SET_RESTORE (R89): the set at an index, with the other sets of its cluster, on the first fitting rectangle, where it is
next in the order of R65 and no blocking launch or set keeps it out. -/
def execCoreSetRestore (k : Nat) (s : State) : Host.Outcome State Fault Refusal :=
  .next (match s.saved[k]? with
  | none => s
  | some z =>
    match s.setRect z with
    | none => s
    | some l => if s.setUnblocked z && s.setFirst z && l.all (fun p => s.allOpen p.2) then l.foldl (fun u p => u.restoreSet p.1 p.2) s else s)

/-- The count of R66 for the core sets, at every tick: one that fits starts its count again, and one that has not fitted for
65,536 ticks is blocking (R89). -/
def State.countSets (s : State) : State :=
  { s with saved := s.saved.map fun z =>
      if z.blocking then z
      else if (s.setRect z).isSome then { z with since := s.time }
      else if z.since + 65536 ≤ s.time then { z with blocking := true } else z }

end Sys2Proof.Machine
end

