-- ==== Sys2Proof/Machine/Hash.lean ====
section
/-! DEFINITION. Machine/Hash.lean: SHA-256 (FIPS 180-4) and the verification of an LMS signature (RFC 8554), which R263 to R265 name. -/
namespace Sys2Proof.Machine
open Sys2Proof

/-! ### SHA-256 -/

/-- A big-endian number of bytes. -/
def beNat (l : List (BitVec 8)) : Nat := l.foldl (fun n b => 256 * n + b.toNat) 0

/-- A number as so many bytes, the most significant first. -/
def beBytes (n v : Nat) : List (BitVec 8) := ((List.range n).map fun k => BitVec.ofNat 8 (v / 256 ^ k)).reverse

/-- The constants of the 64 rounds. -/
def shaK : List (BitVec 32) :=
  ([0x428a2f98, 0x71374491, 0xb5c0fbcf, 0xe9b5dba5, 0x3956c25b, 0x59f111f1, 0x923f82a4, 0xab1c5ed5,
    0xd807aa98, 0x12835b01, 0x243185be, 0x550c7dc3, 0x72be5d74, 0x80deb1fe, 0x9bdc06a7, 0xc19bf174] : List (BitVec 32)) ++
  [0xe49b69c1, 0xefbe4786, 0x0fc19dc6, 0x240ca1cc, 0x2de92c6f, 0x4a7484aa, 0x5cb0a9dc, 0x76f988da,
    0x983e5152, 0xa831c66d, 0xb00327c8, 0xbf597fc7, 0xc6e00bf3, 0xd5a79147, 0x06ca6351, 0x14292967] ++
  [0x27b70a85, 0x2e1b2138, 0x4d2c6dfc, 0x53380d13, 0x650a7354, 0x766a0abb, 0x81c2c92e, 0x92722c85,
    0xa2bfe8a1, 0xa81a664b, 0xc24b8b70, 0xc76c51a3, 0xd192e819, 0xd6990624, 0xf40e3585, 0x106aa070] ++
  [0x19a4c116, 0x1e376c08, 0x2748774c, 0x34b0bcb5, 0x391c0cb3, 0x4ed8aa4a, 0x5b9cca4f, 0x682e6ff3,
    0x748f82ee, 0x78a5636f, 0x84c87814, 0x8cc70208, 0x90befffa, 0xa4506ceb, 0xbef9a3f7, 0xc67178f2]

/-- The eight working words. -/
structure Sha where
  a : BitVec 32
  b : BitVec 32
  c : BitVec 32
  d : BitVec 32
  e : BitVec 32
  f : BitVec 32
  g : BitVec 32
  h : BitVec 32
  deriving DecidableEq, Repr

/-- The initial hash value. -/
def Sha.start : Sha :=
  ⟨0x6a09e667, 0xbb67ae85, 0x3c6ef372, 0xa54ff53a, 0x510e527f, 0x9b05688c, 0x1f83d9ab, 0x5be0cd19⟩

/-- One round with a constant and a word of the schedule. -/
def Sha.round (x : Sha) (k w : BitVec 32) : Sha :=
  let s1 := x.e.rotateRight 6 ^^^ x.e.rotateRight 11 ^^^ x.e.rotateRight 25
  let ch := (x.e &&& x.f) ^^^ (~~~x.e &&& x.g)
  let t1 := x.h + s1 + ch + k + w
  let s0 := x.a.rotateRight 2 ^^^ x.a.rotateRight 13 ^^^ x.a.rotateRight 22
  let maj := (x.a &&& x.b) ^^^ (x.a &&& x.c) ^^^ (x.b &&& x.c)
  ⟨t1 + s0 + maj, x.a, x.b, x.c, x.d + t1, x.e, x.f, x.g⟩

/-- The schedule of a block, latest word first, grown by so many words. -/
def shaWords : Nat → List (BitVec 32) → List (BitVec 32)
  | 0, l => l
  | n + 1, l =>
    let u := l.getD 14 0
    let v := l.getD 1 0
    let s0 := u.rotateRight 7 ^^^ u.rotateRight 18 ^^^ u >>> 3
    let s1 := v.rotateRight 17 ^^^ v.rotateRight 19 ^^^ v >>> 10
    shaWords n ((l.getD 15 0 + s0 + l.getD 6 0 + s1) :: l)

/-- The 16 words of a block of 64 bytes, latest first. -/
def shaBlock (bs : List (BitVec 8)) : List (BitVec 32) :=
  ((List.range 16).map fun k => BitVec.ofNat 32 (beNat ((bs.drop (4 * k)).take 4))).reverse

/-- A block is taken into the hash. -/
def Sha.block (x : Sha) (bs : List (BitVec 8)) : Sha :=
  let y := (shaK.zip (shaWords 48 (shaBlock bs)).reverse).foldl (fun (z : Sha) p => z.round p.1 p.2) x
  ⟨x.a + y.a, x.b + y.b, x.c + y.c, x.d + y.d, x.e + y.e, x.f + y.f, x.g + y.g, x.h + y.h⟩

/-- So many blocks of a message are taken. -/
def Sha.blocks : Nat → Sha → List (BitVec 8) → Sha
  | 0, x, _ => x
  | n + 1, x, bs => Sha.blocks n (x.block (bs.take 64)) (bs.drop 64)

/-- SHA-256 of bytes. -/
def sha256 (m : List (BitVec 8)) : List (BitVec 8) :=
  let n := (m.length + 8) / 64 + 1
  let x := Sha.start.blocks n (m ++ [0x80] ++ List.replicate (64 * n - m.length - 9) 0 ++ beBytes 8 (8 * m.length))
  [x.a, x.b, x.c, x.d, x.e, x.f, x.g, x.h].flatMap fun w => beBytes 4 w.toNat

/-! ### LMS (RFC 8554): LMOTS_SHA256_N32_W8 under LMS_SHA256_M32_H20 -/

/-- Exactly so many bytes: the first of a list, and zeros where it is short. -/
def fit (n : Nat) (l : List (BitVec 8)) : List (BitVec 8) := (l ++ List.replicate n 0).take n

/-- A part of a byte string. -/
def slice (l : List (BitVec 8)) (off n : Nat) : List (BitVec 8) := (l.drop off).take n

/-- The Winternitz chain of coefficient `i`, from place `j` for `n` steps. -/
def lmsChain (iq : List (BitVec 8)) (i : Nat) : Nat → Nat → List (BitVec 8) → List (BitVec 8)
  | 0, _, t => t
  | n + 1, j, t => lmsChain iq i n (j + 1) (sha256 (iq ++ beBytes 2 i ++ beBytes 1 j ++ t))

/-- The 34 coefficients of a message hash: its bytes, and those of its checksum. -/
def lmsCoefs (q : List (BitVec 8)) : List Nat :=
  let c := q.map (·.toNat)
  let sum := c.foldl (fun n v => n + (255 - v)) 0
  c ++ [sum / 256 % 256, sum % 256]

/-- The candidate of the one-time public key that a signature's C and y give for a message. -/
def otsKey (iq msg c y : List (BitVec 8)) : List (BitVec 8) :=
  let co := lmsCoefs (sha256 (iq ++ [0x81, 0x81] ++ c ++ msg))
  sha256 (iq ++ [0x80, 0x80] ++ (List.range 34).flatMap fun i =>
    let a := co.getD i 0
    lmsChain iq i (255 - a) a (slice y (32 * i) 32))

/-- The root that a path gives from a node. -/
def lmsRoot (key : List (BitVec 8)) : Nat → Nat → List (BitVec 8) → List (BitVec 8) → List (BitVec 8)
  | 0, _, _, t => t
  | n + 1, node, path, t =>
    let p := path.take 32
    let pre := key ++ beBytes 4 (node / 2) ++ [0x83, 0x83]
    lmsRoot key n (node / 2) (path.drop 32) (sha256 (if node % 2 = 1 then pre ++ p ++ t else pre ++ t ++ p))

/-- The signature of a message verifies against a public key of 56 bytes (R263). -/
def lmsOk (key msg sig : List (BitVec 8)) : Bool :=
  let id := slice key 8 16
  let q := beNat (slice sig 0 4)
  let iq := id ++ beBytes 4 q
  let leaf := otsKey iq msg (slice sig 8 32) (slice sig 40 1088)
  key.length == 56 && sig.length == 1772 && slice key 0 4 == beBytes 4 8 && slice key 4 4 == beBytes 4 4 &&
    slice sig 4 4 == beBytes 4 4 && slice sig 1128 4 == beBytes 4 8 && q < 2 ^ 20 &&
    lmsRoot id 20 (2 ^ 20 + q) (slice sig 1132 640) (sha256 (id ++ beBytes 4 (2 ^ 20 + q) ++ [0x82, 0x82] ++ leaf)) == slice key 24 32

end Sys2Proof.Machine
end

