-- ==== Sys2Proof/Machine/Service.lean ====
section
/-! DEFINITION. Machine/Service.lean: resets, the thermal trip, Beylas links, host accesses, routine installation, ECC errors and
Dehenan's mailbox (R18, R136, R137, R241 to R246, R251 to R265). -/
namespace Sys2Proof.Machine
open Sys2Proof

/-! ### Resets (R244, R245) -/

/-- DRAM after a package reset: the spec states no contents (log entry 1). -/
def dramAfter (n : Nat) : Mem := (Config.resetDram n).foldl (fun m p => m.write (p.1 % Config.dramTop) p.2) []

/-- Dehenan after a package reset: fuses and images are kept, and the marked image starts under a new boot key (R244, R263). -/
def Dehenan.boot (d : Dehenan) : Dehenan :=
  { Dehenan.reset with imgA := d.imgA, imgB := d.imgB, marked := d.marked, active := d.marked, leafCtr := d.leafCtr + 1 }

/-- PACKAGE_RESET (R244). -/
def execPackageReset (s : State) : Host.Outcome State Fault Refusal :=
  .next { State.reset with
    mem := dramAfter s.freeCtr, deh := s.deh.boot, out := s.out, schedule := s.schedule, nextId := s.nextId, freeCtr := s.freeCtr + 1 }

/-- A launch that a function reset leaves alone: every team has finished (R245). -/
def Launch.survives (l : Launch) : Bool := l.st == .signalling || (l.st == .started && l.finished == l.lr.teams)

/-- The mailbox registers of R261 at reset; a half-written image loses its mark (R245). -/
def Dehenan.functionReset (d : Dehenan) : Dehenan :=
  { d with opc := 0, len := 0, pa := 0, busy := false, done := false, err := 0, rlen := 0,
           marked := if d.busy && d.cmd.1 == 2 then d.active else d.marked }

/-- FUNCTION_RESET (R245). -/
def execFunctionReset (s : State) : Host.Outcome State Fault Refusal :=
  let s1 := (s.teams.map (·.1)).foldl (fun u t => u.endTeam t) s
  .next { s1 with
    lu := { s1.lu with hq := s1.lu.hq.map fun p => (p.1, { p.2 with en := false, parked := none }), dlqEn := false,
                       launches := s1.lu.launches.filter Launch.survives, walked := [], seqs := [] }
    hostq := [], paid := []
    routers := s1.routers.map fun p => (p.1, { p.2 with pit := [] })
    fq := FaultQ.reset, outst := [], misses := [], deh := s1.deh.functionReset
    regs := { s1.regs with featacc := 0, featlock := false } }

/-- THERMAL_TRIP (R18): every core is pre-empted, admission stops, and the host driver is told. -/
def execThermalTrip (s : State) : Host.Outcome State Fault Refusal :=
  let s1 := (List.range Config.cores).foldl State.preemptCore s
  .next (State.msix { s1 with regs := { s1.regs with tripped := true } } 1)

/-! ### Spills (R255, R257) -/

/-- Bytes of a spill land in a region of DRAM of `n` units of 2 MiB, as the home's other writes do (R103). -/
def State.spillInto (s : State) (base n : Nat) : State :=
  let size := n * 2 ^ 21
  if size = 0 then s
  else
    (Config.spillBytes s.freeCtr).foldl (fun u p =>
      let a := base + p.1 % size
      if a < Config.dramTop then u.barePut a [p.2] else u) { s with freeCtr := s.freeCtr + 1 }

/-- Packets a receive buffer of 512 KiB holds, one flit of 128 bytes each. -/
def rxRoom : Nat := 4096

/-- A port is blocked (R255): its receive buffer is full, and it has held no credit of its peer for 256 ticks. -/
def Port.isBlocked (z : Port) (now : Nat) : Bool := rxRoom ≤ z.rx.length && z.credits == 0 && z.creditT + 256 ≤ now

/-- LINK_PORT_BLOCKED (R255): the port spills from now on, until it has a credit or room. -/
def execLinkPortBlocked (port : Nat) (s : State) : Host.Outcome State Fault Refusal :=
  .next (if s.feat 6 && (s.port port).ovSize != 0 && (s.port port).isBlocked s.time then
      s.modPort port fun z => { z with blocked := true }
    else s)

/-- The requests of a die toward the base die, in order of arrival, that do not stand in its spill region (R257). -/
def State.dieQueue (s : State) (d : Nat) : List Nat :=
  (s.ops.filter fun o => s.queueOf o == some d && !o.sent && !(s.die d).qSpilled.contains o.id).map (·.id)

/-- A die's queue toward the base die is blocked (R257): it is full, and has had no credit for 256 ticks. -/
def State.dieBlocked (s : State) (d : Nat) : Bool :=
  (s.die d).qSize != 0 && (s.die d).qCredit + 256 ≤ s.time && Config.dieQueueRoom ≤ (s.dieQueue d).length

/-- The requests of a die that ask for its region: while spilled requests remain, every one that arrived after them; while the
queue is blocked, those that it has no room for (R255, R257). -/
def State.dieArrivals (s : State) (d : Nat) : List Nat :=
  if (s.spilled d).isEmpty then (if s.dieBlocked d then (s.dieQueue d).drop Config.dieQueueRoom else [])
  else (s.dieQueue d).filter fun k => (s.spilled d).any fun j => j < k

/-- Those that the region takes: oldest first, as far as there is space. -/
def State.dieSpills (s : State) (d : Nat) : List Nat :=
  (s.dieArrivals d).take (Config.dieSpillRoom (s.die d).qSize.toNat - (s.spilled d).length)

/-- The region of a die is full, and a request finds no space in it. -/
def State.dieOverflows (s : State) (d : Nat) : Bool := (s.dieSpills d).length < (s.dieArrivals d).length

/-- DIE_QUEUE_BLOCKED (R257): the requests of a die that ask for its region are written to it, from which they are delivered in
order before any later one; a region that fills says so. -/
def execDieQueueBlocked (die : Nat) (s : State) : Host.Outcome State Fault Refusal :=
  .next (if (s.dieArrivals die).isEmpty then s
  else
    let l := s.dieSpills die
    let s1 := (if l.isEmpty then s else s.spillInto (s.die die).qBase.toNat (s.die die).qSize.toNat).modDie die fun z =>
      { z with qSpilled := s.spilled die ++ l }
    if s.dieOverflows die && !(s.die die).qFull then (s1.modDie die fun z => { z with qFull := true }).msix 3 else s1)

/-! ### Flits of a Beylas link (R251, R255) -/

/-- The credit of a packet goes back to the package at the port's other end, with a number of its own (R251); a credit packet was
sent without one. -/
def State.credit (s : State) (p : Nat) (k : LinkPkt) : State :=
  if k.kind = .credit then s
  else
    let r := s.stamp { kind := .credit, src := s.regs.pkgid.toNat, dst := Config.linkPeer p, seq := 0, pa := 0, width := 0, val := 0,
                       cmp := 0, opc := 0, tag := 0 }
    r.2.flitOut p r.1

/-- A spill write of a packet, a flit of 128 bytes, takes link-receive grants of its port, and waits for a retraining channel; the
spec gives no place in the region, whose first line stands for it (R82, R255, R258). -/
def State.spillReady (s : State) (p : Nat) : Option State :=
  let pa := (s.port p).ovBase.toNat
  if s.pinned pa then none else s.spendAll 5 p 128 256 [dramTarget pa, l3Target pa]

/-- A port writes what arrives to its region: while it is blocked, or while spilled packets remain (R255). -/
def State.portSpills (s : State) (p : Nat) : Bool :=
  let z := s.port p
  z.blocked || !z.spilled.isEmpty || (z.ovSize != 0 && z.isBlocked s.time)

/-- A packet has come whole and in order: it is buffered, or spilled. A flit that finds no room, or no grant for its spill write, is
not acknowledged, and the peer sends it again (R251, R255). -/
def State.linkTake (s : State) (p : Nat) (k : LinkPkt) : State :=
  let z := s.port p
  let next := fun (y : Port) => { y with nextSeq := (y.nextSeq + 1) % 4096, fails := 0 }
  if s.portSpills p then
    if z.spilled.length < z.ovSize.toNat * 16384 then
      match s.spillReady p with
      | none => s
      | some u => ((u.spillInto z.ovBase.toNat z.ovSize.toNat).modPort p fun y => { next y with spilled := y.spilled ++ [k] }).credit p k
    else if z.ovfull then s
    else (s.modPort p fun y => { y with ovfull := true }).msix 3
  else if z.rx.length < rxRoom then s.modPort p fun y => { next y with rx := y.rx ++ [k] }
  else s

/-- A flit has failed its CRC: it is replayed; the ninth failure in a row takes the port down. -/
def State.flitFails (s : State) (p : Nat) : State :=
  if 8 ≤ (s.port p).fails then
    (s.modPort p fun y =>
      { y with down := true, fails := 0, lost := y.lost ++ y.unacked, unacked := [], txq := [] }).msix 3
  else s.modPort p fun y => { y with fails := y.fails + 1 }

/-- LINK_FLIT_RECEIVE (R251): a flit out of sequence is a replay that has been taken already. -/
def execLinkFlitReceive (port seq : Nat) (crcOk : Bool) (pkt : LinkPkt) (s : State) : Host.Outcome State Fault Refusal :=
  .next (if !s.feat 6 || (s.port port).down then s
  else if !crcOk then s.flitFails port
  else if seq = (s.port port).nextSeq then s.linkTake port pkt
  else s)

/-! ### Packets of a Beylas link (R252 to R254) -/

/-- The port of the route to a package (R252). -/
def State.routeOf (s : State) (d : Nat) : Option Nat :=
  let e := s.links.routes.getD d 0
  if e.getLsbD 4 then some (e.extractLsb' 0 4).toNat else none

/-- The answer to a request. -/
def linkReply (k : LinkPkt) (kind : LinkKind) (me val : Nat) : LinkPkt := { k with kind, src := me, dst := k.src, val }

/-- An answer goes back to its package under a sequence number of its own, and is kept (R251, R256); without a route it waits for
one. -/
def State.reply (s : State) (k : LinkPkt) : State :=
  let r := s.stamp k
  match s.routeOf k.dst with
  | some p => r.2.linkSend p r.1
  | none => r.2.modPort 0 fun z => { z with lost := z.lost ++ [r.1] }

/-- The access kind of a request (R102). -/
def linkAccess (k : LinkKind) : Nat :=
  match k with
  | .write => 1
  | .atomic => 2
  | _ => 0

/-- Reads of the target a request names; a request carries no page (R103, log entry 145). -/
def State.linkRead (s : State) (k : LinkPkt) : Nat × State :=
  match regionOf k.pa with
  | .dram => let r := s.bareGet k.pa k.width; (leNat r.1, r.2)
  | _ => s.hostAsk k.pa k.width none

/-- Writes of the target a request names. -/
def State.linkWrite (s : State) (k : LinkPkt) (v : Nat) : State :=
  match regionOf k.pa with
  | .dram => s.barePut k.pa (leBytes k.width v)
  | .host => s.hostPut k.pa (leBytes k.width v)
  | _ => s

/-- Why a request is not performed (R15, R107, R253): its cause; device control space is not for link masters, and poisoned
bytes are not given out. -/
def State.linkRefuses (s : State) (p : Nat) (k : LinkPkt) : Option Nat :=
  match s.physCheck (512 + p) (linkAccess k.kind) k.pa k.width false with
  | some c => some (if c = cUnmapped then cUnmapped else cRefused)
  | none => if regionOf k.pa = .link || (linkAccess k.kind != 1 && s.poisoned k.pa k.width) then some cRefused else none

/-- A request performs at the local L3 home at .pkg (R253, R254); a refusal goes back with its cause. -/
def State.linkPerform (s : State) (p : Nat) (k : LinkPkt) : State :=
  let me := s.regs.pkgid.toNat
  match s.linkRefuses p k with
  | some c => (s.pushRefused k.pa c 0 (linkAccess k.kind) (512 + p)).reply (linkReply k .refusal me c)
  | none =>
    match k.kind with
    | .write =>
      (s.linkWrite k k.val).modPort p fun z =>
        { z with acks := z.acks ++ [(s.l3Wct (k.pa / 128), linkReply k .writeAck me 0)] }
    | .atomic =>
      let r := s.linkRead k
      (if regionOf k.pa = .host then (s.hostAsk k.pa k.width (some (k.opc, k.val, k.cmp))).2
       else r.2.linkWrite k (atomNew k.opc (8 * k.width) r.1 k.val k.cmp)).reply (linkReply k .atomicResp me r.1)
    | _ =>
      let r := s.linkRead k
      r.2.reply (linkReply k .readResp me r.1)

/-- A packet asks for an access. -/
def asks (q : LinkPkt) : Bool := q.kind == .read || q.kind == .write || q.kind == .atomic

/-- An answer reaches the operation that asked (R254, R256); a refusal may come from a package on the way (R252). -/
def State.linkAnswer (s : State) (k : LinkPkt) : State :=
  let mine := fun (q : LinkPkt) => (q.dst == k.src || k.kind == .refusal) && q.tag == k.tag && asks q
  let drop := fun (z : Port) => { z with unacked := z.unacked.filter fun q => !mine q, lost := z.lost.filter fun q => !mine q }
  let s1 := { s with links := { s.links with ports := s.links.ports.map fun (p : Nat × Port) => (p.1, drop p.2) } }
  match s1.ops.find? fun (o : Op) => o.id == k.tag && o.sent with
  | none => s1
  | some o =>
    match k.kind with
    | .refusal => s1.refuseOp o (if k.val = cUnmapped then cUnmapped else cRefused)
    | .readResp =>
      if o.kind = .evwait then
        (match s1.grp? o.team o.grp with
         | some y => s1.evwaitSees o y k.val
         | none => s1)
      else s1.answer o (o.value k.val)
    | .atomicResp => s1.answer o k.val
    | _ => s1.ackOp o

/-- A packet that has left the receive buffer is routed on, or acts here; one whose end-to-end sequence number has been accepted
already is dropped (R252, R254). Where a passing packet has no route, its request is refused by this package, under this package's
numbers; an answer, which no master waits to be refused, goes no further (log entry 115). -/
def State.linkAct (s : State) (p : Nat) (k : LinkPkt) : State :=
  if k.dst != s.regs.pkgid.toNat && k.kind != .credit then
    match s.routeOf k.dst with
    | some q => s.portOut q k
    | none => if asks k then s.reply (linkReply k .refusal s.regs.pkgid.toNat cRefused) else s
  else if s.links.e2eSeen.contains (k.src, k.seq) then s
  else
    let s0 := { s with links := { s.links with e2eSeen := (k.src, k.seq) :: s.links.e2eSeen } }
    match k.kind with
    | .read | .write | .atomic => s0.linkPerform p k
    | .credit => s0.creditIn p
    | _ => s0.linkAnswer k

/-- What the next packet needs before it acts (R82, R258): a request for DRAM takes link-receive grants and waits for a retraining
channel. -/
def State.linkReady (s : State) (p : Nat) (k : LinkPkt) : Option State :=
  if k.dst = s.regs.pkgid.toNat && asks k && regionOf k.pa == .dram then
    if s.pinned k.pa then none else s.spendAll 5 p k.width 256 [dramTarget k.pa, l3Target k.pa]
  else some s

/-- The first acknowledgement of a port whose time has come. -/
def Port.dueAck (z : Port) (now : Nat) : Option (Nat × LinkPkt) := z.acks.find? fun a => a.1 < now

/-- LINK_PACKET_RECEIVE (R254, R255): a due acknowledgement leaves, else the next packet acts: the receive buffer's first,
then the region's in order. -/
def execLinkPacketReceive (port : Nat) (s : State) : Host.Outcome State Fault Refusal :=
  let z := s.port port
  .next (match z.dueAck s.time with
  | some a => (s.modPort port fun y => { y with acks := y.acks.filter fun q => q != a }).reply a.2
  | none =>
    match z.rx, z.spilled with
    | k :: t, _ =>
      (match s.linkReady port k with
       | none => s
       | some u => ((u.modPort port fun y => { y with rx := t, blocked := y.blocked && t.length ≥ rxRoom }).credit port k).linkAct port k)
    | [], k :: t =>
      (match s.linkReady port k with
       | none => s
       | some u => (u.modPort port fun y => { y with spilled := t, blocked := false }).linkAct port k)
    | [], [] => s)

/-! ### Host accesses through BAR0 and BAR2 (R107, R108, R242) -/

/-- The access tables let the host reach an interval of DRAM. -/
def State.hostOk (s : State) (right pa n : Nat) : Bool :=
  (List.range (cdiv (pa % 128 + n) 128)).all fun k =>
    let a := (pa / 128 + k) * 128
    s.accOk (l3Slice a) 528 right pa n && s.accOk (64 + dramCtl a) 528 right pa n

/-- The name under which a piece of the host interface's work keeps the grants it has taken: 0 a request of PCIe, 1 and 2 a mailbox
command's request and reply, 3 a routine image. -/
def hostWork (k : Nat) : Nat × Nat × Nat := (0, 0, 64 + k)

/-- Host DMA takes grants of 256 bytes at the controllers and the slices that it uses, and waits for a retraining channel (R82, R83,
R258): whether it has all of them, and the state. -/
def State.dmaPay (s : State) (k pa n : Nat) : Bool × State :=
  if n = 0 || regionOf pa != .dram then (true, s)
  else if s.pinnedIn pa n then (false, s)
  else (linePieces pa n).foldl (fun (r : Bool × State) p =>
    match r.2.payLine (hostWork k) (p.1 / 128) 4 0 p.2 256 [dramTarget p.1, l3Target p.1] with
    | some u => (r.1, u)
    | none => (false, r.2)) (true, s)

/-- The work of the host interface is done: what it took grants for goes. -/
def State.dmaDone (s : State) (k : Nat) : State := { s with paid := s.paid.filter fun p => (p.1, p.2.1, p.2.2.1) != hostWork k }

/-- The parts of an interval of device control space that lie in one aligned 8-byte word each: address and bytes. -/
def wordParts (pa n : Nat) : List (Nat × Nat) :=
  (List.range (cdiv (pa % 8 + n) 8)).map fun k =>
    let lo := max pa (pa / 8 * 8 + 8 * k)
    (lo, min (pa + n) (pa / 8 * 8 + 8 * k + 8) - lo)

/-- A write of the host that can be made is made: BAR0's register bytes, or BAR2's DRAM bytes; beyond the DRAM the request is
unsupported, and a refused one is reported (R108, R242). -/
def State.barWrite (s : State) (pa : Nat) (bytes : List (BitVec 8)) : Bool × State :=
  let n := bytes.length
  if regionOf pa = .dev then
    (true, (wordParts pa n).foldl (fun u p => u.regWrite p.1 p.2 (BitVec.ofNat 64 (leNat ((bytes.drop (p.1 - pa)).take p.2))) true) s)
  else if Config.dramTop < pa + n then (true, s)
  else if !s.hostOk 2 pa n then (true, s.pushFault pa cRefused 0 1 528)
  else
    let r := s.dmaPay 0 pa n
    if r.1 then (true, (r.2.barePut pa bytes).dmaDone 0) else (false, r.2)

/-- A completion of a host read. -/
def State.complete (s : State) (pa : Nat) (c : Completion) : State := { s with out := { s.out with reads := s.out.reads ++ [(pa, c)] } }

/-- A read of the host that can be made is made: BAR0's register bytes, or the bytes of BAR2 that are performed at .pkg; a refused
read ends with a Completer Abort, one beyond the DRAM as unsupported (R108, R242). -/
def State.barRead (s : State) (pa n : Nat) : Bool × State :=
  if regionOf pa = .dev then (true, s.complete pa (.data ((wordParts pa n).flatMap fun p => leBytes p.2 (s.regRead p.1 p.2))))
  else if Config.dramTop < pa + n then (true, s.complete pa .unsupported)
  else if !s.hostOk 1 pa n then (true, (s.pushFault pa cRefused 0 0 528).complete pa .abort)
  else
    let r := s.dmaPay 0 pa n
    if r.1 then
      let b := r.2.bareGet pa n
      (true, (b.2.complete pa (.data b.1)).dmaDone 0)
    else (false, r.2)

/-- A request of the host that can be made is made; one that waits for grants or for a retraining channel says so. -/
def State.hostDo (s : State) (r : HostQ) : Bool × State :=
  match r with
  | .write pa bytes => s.barWrite pa bytes
  | .read pa n => s.barRead pa n

/-- The requests of the host are made in the order in which PCIe delivers them, as far as the first that waits (R242). -/
def State.hostGo (s : State) : List HostQ → State
  | [] => { s with hostq := [] }
  | r :: t =>
    let u := s.hostDo r
    if u.1 then u.2.hostGo t else { u.2 with hostq := r :: t }

/-- Requests of the host that wait are tried again. -/
def State.hostRun (s : State) : State := if s.hostq.isEmpty then s else s.hostGo s.hostq

/-- HOST_BAR_WRITE (R242). -/
def execHostBarWrite (pa : Nat) (bytes : List (BitVec 8)) (s : State) : Host.Outcome State Fault Refusal :=
  .next (s.hostGo (s.hostq ++ [.write pa bytes]))

/-- HOST_BAR_READ (R242). -/
def execHostBarRead (pa n : Nat) (s : State) : Host.Outcome State Fault Refusal := .next (s.hostGo (s.hostq ++ [.read pa n]))

/-! ### Routine installation (R259, R263) -/

/-- Bytes of a routine image: 16 KiB of code at most and its LMS signature of 1,772 bytes (RFC 8554, H20 with W8). -/
def routineBytes : Nat := 16384 + 1772

/-- A queued copy, one of a resident team or of a saved core set, still runs the bank that the installation would overwrite
(R259, log entry 64). -/
def State.bankBusy (s : State) (slot : Nat) : Bool :=
  let bank := 1 - (s.routines.getD slot Routine.empty).active
  let runs := fun (z : Copy) => z.kind == 0 && (z.d0.extractLsb' 11 4).toNat == slot && z.bank == bank
  (s.cores.any fun p => p.2.copies.any runs) || s.saved.any fun z => z.copies.any runs

/-- The public key of Prisal, whose hash is fused (R263). -/
def prisal : List (BitVec 8) := fit 56 Config.prisalKey

/-- Bytes signed by Prisal, or for a routine by the owner registered in this boot (R263). -/
def State.signed (s : State) (msg sig : List (BitVec 8)) : Bool :=
  lmsOk prisal msg sig || (match s.deh.ownerKey with | some k => lmsOk k msg sig | none => false)

/-- The host interface's reads (right 1) or writes (right 2) reach an interval in DRAM or the host window (R15, R107). -/
def State.dmaOk (s : State) (right pa n : Nat) : Bool :=
  match regionOf pa with
  | .dram => decide (pa + n ≤ Config.dramTop) && (n == 0 || s.hostOk right pa n)
  | .host => decide (pa + n ≤ Config.hostTop) && (n == 0 || s.accOk 344 528 right pa n)
  | _ => n == 0

/-- An access of the host interface that a table has refused is reported (R108); one that nothing answers is not. -/
def State.dmaRefused (s : State) (kind pa n : Nat) : State :=
  let there := match regionOf pa with
    | .dram => decide (pa + n ≤ Config.dramTop)
    | .host => decide (pa + n ≤ Config.hostTop)
    | _ => false
  if there && !s.dmaOk (rightOf kind) pa n then s.pushFault pa cRefused 0 kind 528 else s

/-- The bytes from an address of DRAM or the host window that may be a routine image. -/
def imageRoom (pa : Nat) : Nat :=
  match regionOf pa with
  | .dram => min routineBytes (Config.dramTop - pa)
  | .host => min routineBytes (Config.hostTop - pa)
  | _ => 0

/-- The code of a routine image, whose length the spec does not say how to find (log entry 65). -/
def routineCode (bs : List (BitVec 8)) : List (BitVec 8) := bs.take (min 16384 (Config.routineLen bs))

/-- The inactive bank takes code, and the banks swap. -/
def Routine.install (r : Routine) (code : List (BitVec 8)) : Routine :=
  if r.active = 0 then { r with bank1 := code, active := 1 } else { r with bank0 := code, active := 0, standard := false }

/-- An installation ends without a routine (R259). -/
def State.installFails (s : State) : State := { s with regs := { s.regs with rtBusy := false, rtOk := false, rtSigfail := true } }

/-- ROUTINE_INSTALL (R259): the image is read by the host interface's DMA, master 528 (log entry 64); one that cannot be read does
not verify. -/
def execRoutineInstall (s : State) : Host.Outcome State Fault Refusal :=
  .next (if !s.regs.rtBusy || s.bankBusy s.regs.rtSlot then s
  else
    let pa := s.regs.rtPa.toNat
    let r := s.dmaRead pa (imageRoom pa)
    let code := routineCode r.1
    let n := code.length + 1772
    if r.1.length < n then s.installFails
    else if !s.dmaOk 1 pa n then (s.dmaRefused 0 pa n).installFails
    else
      let u := s.dmaPay 3 pa n
      if !u.1 then u.2
      else
        let s1 := (u.2.dmaRead pa n).2.dmaDone 3
        if s1.signed code ((r.1.drop code.length).take 1772) then
          { s1 with routines := s1.routines.upd s1.regs.rtSlot Routine.empty fun z => z.install code
                    regs := { s1.regs with rtBusy := false, rtOk := true, rtSigfail := false } }
        else s1.installFails)

/-! ### ECC errors (R241) -/

/-- A corrected error is counted, saturating. -/
def State.eccGood (s : State) (c : Nat) : State :=
  s.modCore c fun z => { z with eccCorr := if z.eccCorr = -1 then z.eccCorr else z.eccCorr + 1 }

/-- An uncorrected error is counted, saturating. -/
def State.eccBad (s : State) (c : Nat) : State :=
  s.modCore c fun z => { z with eccUncorr := if z.eccUncorr = -1 then z.eccUncorr else z.eccUncorr + 1 }

/-- ECC_CORRECTED (R241). -/
def execEccCorrected (core : Nat) (s : State) : Host.Outcome State Fault Refusal := .next (s.eccGood core)

/-- The aligned 8-byte words of a line that hold bytes of a mask. -/
def dirtyWords (line : Nat) (mask : BitVec 128) : List Nat :=
  ((List.range 16).filter fun k => mask.extractLsb' (8 * k) 8 != 0).map fun k => line * 16 + k

/-- The bytes of a line that a unit holds and its home has not received (R241): the L1's dirty bytes, or those a die's slice has
not forwarded. -/
def State.dirtyMask (s : State) (unit line : Nat) : BitVec 128 :=
  if unit < 256 then (match (s.core unit).l1Find line with | some x => x.dirty | none => 0)
  else ((s.die (unit - 256)).fwd.filter fun f => f.line == line).foldl (fun m f => m ||| f.mask) 0

/-- The core that counts the errors of a unit: the lowest of the unit's die, core 0 for the base die. -/
def unitCore (unit : Nat) : Nat := if unit < 256 then unit else if unit < 260 then 64 * (unit - 256) else 0

/-- A clean line of a unit is discarded. -/
def State.discard (s : State) (unit line : Nat) : State :=
  if unit < 256 then
    s.modCore unit fun z =>
      { z with l1 := z.l1.filter fun x => !(x.line == line && x.dirty == 0), mdc := z.mdc.filter fun x => x.line != line,
               ipath := z.ipath.filter fun x => x.line != line }
  else if unit < 260 then (if s.dirtyMask unit line = 0 then s.modDie (unit - 256) fun z => z.l2Drop line else s)
  else { s with l3 := s.l3.filter fun x => x.line != line }

/-- Words become poisoned. -/
def State.poisonWords (s : State) (l : List Nat) : State := { s with poison := s.poison ++ l.filter fun w => !s.poison.contains w }

/-- The core that counts errors of a router's die; the exchange lies on the base die. -/
def routerCore (r : Nat) : Nat := if r = 256 then 0 else r / 64 * 64

/-- ECC_UNCORRECTED (R241). An error in a register file or a store pool meets no access, so no lane faults: the spec gives the kill
record's VA as the lowest faulting lane's PC and no other, and the model puts 0 there (log entry 148). -/
def execEccUncorrected (loc : EccLoc) (s : State) : Host.Outcome State Fault Refusal :=
  .next (match loc with
  | .owned t =>
    (match s.team? t with
     | some x => (s.eccBad x.core).killTeam t cEcc 0
     | none => s)
  | .clean u line => (s.eccGood (unitCore u)).discard u line
  | .tlb u k =>
    let s1 := s.eccGood (unitCore u)
    if u < 256 then s1.modCore u fun z => { z with tlb := z.tlb.eraseIdx k }
    else s1.modDie (u - 256) fun z => { z with l2tlb := z.l2tlb.eraseIdx k }
  | .dirty u line =>
    if s.dirtyMask u line = 0 then s else (s.eccBad (unitCore u)).poisonWords (dirtyWords line (s.dirtyMask u line))
  | .dram pa => (s.eccBad 0).poisonWords [pa / 8]
  | .pit r k => (s.eccBad (routerCore r)).modRouter r fun x => { x with pit := x.pit.eraseIdx k }
  | .nrt r k => (s.eccBad (routerCore r)).modRouter r fun x => { x with nrt := x.nrt.erase k }
  | .cocoon r k => (s.eccBad (routerCore r)).modRouter r fun x => { x with cocoon := x.cocoon.eraseIdx k })

/-! ### Dehenan's mailbox (R260 to R265) -/

/-- The buffer of the command that runs, and the bytes of its request (R261). -/
def Dehenan.buf (d : Dehenan) : Nat := d.cmd.2.2.toNat
def Dehenan.size (d : Dehenan) : Nat := d.cmd.2.1

/-- A command ends: the reply is in the buffer, the result in MBSTAT, and MSI-X vector 1 is signalled (R261). -/
def State.mbEnd (s : State) (err : Nat) (reply : List (BitVec 8)) : State :=
  let s1 := if reply.isEmpty then s else s.devicePut s.deh.buf reply
  State.msix { s1 with deh := { s1.deh with busy := false, done := true, err, rlen := reply.length } } 1

/-- A command of the mailbox runs now. -/
def Dehenan.runs (d : Dehenan) (opc : Nat) : Bool := d.busy && !d.restarting && d.cmd.1 == opc

/-- A command's request is read and its reply written as host DMA (R261): a length that does not fit or a buffer that is not reachable
ends it with ERR 2, a refusal reported (R108, R262); it waits for grants (R82) and for a retraining channel (R258). -/
def State.mbDma (s : State) (fits : Bool) (reply : Nat) (run : List (BitVec 8) → State → State) : State :=
  let pa := s.deh.buf
  let len := s.deh.size
  if !fits then s.mbEnd 2 []
  else if !s.dmaOk 1 pa len then (s.dmaRefused 0 pa len).mbEnd 2 []
  else if !s.dmaOk 2 pa reply then (s.dmaRefused 1 pa reply).mbEnd 2 []
  else
    let a := s.dmaPay 1 pa len
    let b := a.2.dmaPay 2 pa reply
    if !(a.1 && b.1) then b.2
    else
      let r := (b.2.dmaDone 1).dmaDone 2 |>.dmaRead pa len
      run r.1 r.2

/-- A command whose request has a fixed length, and its reply (R262). -/
def State.mbCommand (s : State) (opc len reply : Nat) (run : List (BitVec 8) → State → State) : State :=
  if !s.deh.runs opc then s else s.mbDma (s.deh.size == len) reply run

/-- The firmware image at an index. -/
def Dehenan.image (d : Dehenan) (k : Nat) : List (BitVec 8) := if k = 0 then d.imgA else d.imgB

/-- A command that Dehenan answers on the sideband as well (R24, R262): through the mailbox where the mailbox runs it, else as a
request of platform management, whose reply leaves with the OPC before it. -/
def State.sideCommand (s : State) (opc len reply : Nat) (side : List (BitVec 8))
    (run : List (BitVec 8) → State → State × Nat × List (BitVec 8)) : State :=
  if s.deh.runs opc then
    s.mbCommand opc len reply fun req u =>
      let r := run req u
      r.1.mbEnd r.2.1 r.2.2
  else if s.deh.restarting then s
  else
    let r := run side s
    { r.1 with out := { r.1.out with side := r.1.out.side ++ [leBytes 1 opc ++ r.2.2] } }

/-- The reply of INFO (R262). -/
def Dehenan.info (d : Dehenan) : List (BitVec 8) :=
  leBytes 8 (Config.imageVersion d.imgA).toNat ++ leBytes 8 (Config.imageVersion d.imgB).toNat ++
    leBytes 1 d.active ++ leBytes 1 0 ++ leBytes 2 (32768 - d.leafCtr) ++ leBytes 2 (1024 - d.reports) ++
    leBytes 1 (b2n d.ownerKey.isSome) ++ List.replicate 41 0

/-- MB_INFO (R262). -/
def execMbInfo (s : State) : Host.Outcome State Fault Refusal := .next (s.sideCommand 1 0 64 [] fun _ u => (u, 0, u.deh.info))

/-- MB_FWLOAD (R262). -/
def execMbFwload (s : State) : Host.Outcome State Fault Refusal :=
  .next (if !s.deh.runs 2 then s
  else s.mbDma (decide (s.deh.size ≤ 8388608) && s.deh.size % 8 == 0) 0 fun img u =>
    let d := u.deh
    let d1 := if d.active = 0 then { d with imgB := img } else { d with imgA := img }
    State.mbEnd { u with deh := { d1 with marked := d.active } } 0 [])

/-- A firmware image ends in its LMS signature, which verifies against Prisal's key (R262, R263, log entry 65). -/
def firmwareOk (img : List (BitVec 8)) : Bool :=
  decide (1772 ≤ img.length) && lmsOk prisal (img.take (img.length - 1772)) (img.drop (img.length - 1772))

/-- MB_FWMARK (R262). -/
def execMbFwmark (s : State) : Host.Outcome State Fault Refusal :=
  .next (s.mbCommand 3 0 0 fun _ u =>
    let d := u.deh
    if firmwareOk (d.image (1 - d.active)) then State.mbEnd { u with deh := { d with marked := 1 - d.active } } 0 []
    else u.mbEnd 3 [])

/-- MB_RESTART (R262): the command ends with the restart. -/
def execMbRestart (s : State) : Host.Outcome State Fault Refusal :=
  .next (s.mbCommand 4 0 0 fun _ u => { u with deh := { u.deh with restarting := true } })

/-- DEHENAN_RESTART_DONE (R260): the marked image runs; an image that fails to start three times in a row is abandoned. -/
def execDehenanRestartDone (ok : Bool) (s : State) : Host.Outcome State Fault Refusal :=
  .next (if !s.deh.restarting then s
  else
    let d := s.deh
    if ok then
      let s1 := { s with deh := { d with active := d.marked, fails := 0, restarting := false } }
      if d.busy && d.cmd.1 == 4 then s1.mbEnd 0 [] else s1
    else if 2 ≤ d.fails then { s with deh := { d with fails := 0, marked := 1 - d.marked } }
    else { s with deh := { d with fails := d.fails + 1 } })

/-- MB_OWNERKEY (R262). -/
def execMbOwnerkey (s : State) : Host.Outcome State Fault Refusal :=
  .next (s.mbCommand 5 56 0 fun key u =>
    if u.regs.featlock || u.deh.ownerKey.isSome then u.mbEnd 4 []
    else State.mbEnd { u with deh := { u.deh with ownerKey := some key } } 0 [])

/-- The measurement of a routine bank (R265). -/
def bankHash (slot : Nat) (r : Routine) (bank : Nat) : List (BitVec 8) :=
  let code := if bank = 0 then (if r.standard then Config.standardCode slot else r.bank0) else r.bank1
  if code.isEmpty then List.replicate 32 0 else sha256 code

/-- The signed part of an attestation report (R264, R265). -/
def State.reportBody (s : State) (nonce : List (BitVec 8)) : List (BitVec 8) :=
  nonce ++ leBytes 8 s.regs.pkgid.toNat ++ leBytes 32 s.regs.featacc.toNat ++ leBytes 8 s.time ++
    sha256 s.deh.imgA ++ sha256 s.deh.imgB ++ leBytes 16 s.deh.active ++
    (List.range 16).flatMap fun k =>
      let r := s.routines.getD k Routine.empty
      bankHash k r 0 ++ bankHash k r 1

/-- MB_ATTEST (R264). -/
def execMbAttest (s : State) : Host.Outcome State Fault Refusal :=
  .next (State.sideCommand { s with freeCtr := s.freeCtr + 1 } 6 32 4304 (leBytes 32 (Config.sideNonce s.freeCtr).toNat) fun nonce u =>
    if 1024 ≤ u.deh.reports then (u, 5, [])
    else
      let body := u.reportBody nonce
      let k := u.deh.leafCtr
      let report := body ++ fit 1452 (Config.bootSign k u.deh.reports body) ++ fit 56 (Config.bootKey k) ++ fit 1612 (Config.bootCert k)
      ({ u with deh := { u.deh with reports := u.deh.reports + 1 } }, 0, report))

/-- MB_SENSORS (R262). -/
def execMbSensors (s : State) : Host.Outcome State Fault Refusal :=
  .next (s.sideCommand 7 0 32 [] fun _ u =>
    let v := fun (k : Nat) => leBytes 2 (Config.sensor u.time k).toNat
    (u, 0, (List.range 5).flatMap v ++ leBytes 2 0 ++ v 5 ++ v 6 ++ leBytes 2 u.regs.trip ++ List.replicate 14 0))

/-- MB_UNKNOWN_COMMAND (R262). -/
def execMbUnknownCommand (s : State) : Host.Outcome State Fault Refusal :=
  .next (if s.deh.busy && !s.deh.restarting && (s.deh.cmd.1 == 0 || 7 < s.deh.cmd.1) then s.mbEnd 1 [] else s)

end Sys2Proof.Machine
end

