-- ==== Sys2Proof/Machine/Dispatch.lean ====
section
/-! DEFINITION. Machine/Dispatch.lean: one arm per instruction, each one call of its meaning. -/
namespace Sys2Proof.Machine
open Sys2Proof

/-- The meaning of every instruction of spec/opcode_table.json. -/
def exec (i : Instr) (s : State) : Host.Outcome State Fault Refusal :=
  match i with
  | .and h d a b n => Sys2Proof.Machine.execAnd h d a b n s
  | .andImm h d a imm n => Sys2Proof.Machine.execAndImm h d a imm n s
  | .or h d a b => Sys2Proof.Machine.execOr h d a b s
  | .orImm h d a imm => Sys2Proof.Machine.execOrImm h d a imm s
  | .xor h d a b => Sys2Proof.Machine.execXor h d a b s
  | .xorImm h d a imm => Sys2Proof.Machine.execXorImm h d a imm s
  | .iadd h d a b ty => Sys2Proof.Machine.execIadd h d a b ty s
  | .iaddImm h d a imm ty => Sys2Proof.Machine.execIaddImm h d a imm ty s
  | .isub h d a b ty => Sys2Proof.Machine.execIsub h d a b ty s
  | .isubImm h d a imm ty => Sys2Proof.Machine.execIsubImm h d a imm ty s
  | .imul h d a b ty => Sys2Proof.Machine.execImul h d a b ty s
  | .imulImm h d a imm ty => Sys2Proof.Machine.execImulImm h d a imm ty s
  | .imulh h d a b ty => Sys2Proof.Machine.execImulh h d a b ty s
  | .imad h d a b c ty => Sys2Proof.Machine.execImad h d a b c ty s
  | .idiv h d a b ty => Sys2Proof.Machine.execIdiv h d a b ty s
  | .irem h d a b ty => Sys2Proof.Machine.execIrem h d a b ty s
  | .imin h d a b ty => Sys2Proof.Machine.execImin h d a b ty s
  | .iminImm h d a imm ty => Sys2Proof.Machine.execIminImm h d a imm ty s
  | .imax h d a b ty => Sys2Proof.Machine.execImax h d a b ty s
  | .imaxImm h d a imm ty => Sys2Proof.Machine.execImaxImm h d a imm ty s
  | .iabs h d a => Sys2Proof.Machine.execIabs h d a s
  | .iset h d a b k cond ty => Sys2Proof.Machine.execIset h d a b k cond ty s
  | .sel h d a b c => Sys2Proof.Machine.execSel h d a b c s
  | .shl h d a b => Sys2Proof.Machine.execShl h d a b s
  | .shlImm h d a imm => Sys2Proof.Machine.execShlImm h d a imm s
  | .shr h d a b => Sys2Proof.Machine.execShr h d a b s
  | .shrImm h d a imm => Sys2Proof.Machine.execShrImm h d a imm s
  | .sha h d a b => Sys2Proof.Machine.execSha h d a b s
  | .shaImm h d a imm => Sys2Proof.Machine.execShaImm h d a imm s
  | .rot h d a b => Sys2Proof.Machine.execRot h d a b s
  | .rotImm h d a imm => Sys2Proof.Machine.execRotImm h d a imm s
  | .bfx h d a b ty => Sys2Proof.Machine.execBfx h d a b ty s
  | .bfi h d a b c => Sys2Proof.Machine.execBfi h d a b c s
  | .brev h d a => Sys2Proof.Machine.execBrev h d a s
  | .clz h d a => Sys2Proof.Machine.execClz h d a s
  | .ctz h d a => Sys2Proof.Machine.execCtz h d a s
  | .popc h d a => Sys2Proof.Machine.execPopc h d a s
  | .icvt h d a ext => Sys2Proof.Machine.execIcvt h d a ext s
  | .zord h d a b c => Sys2Proof.Machine.execZord h d a b c s
  | .mov h d a p => Sys2Proof.Machine.execMov h d a p s
  | .movImm h d imm => Sys2Proof.Machine.execMovImm h d imm s
  | .movi h d imm => Sys2Proof.Machine.execMovi h d imm s
  | .movx h dir r a n => Sys2Proof.Machine.execMovx h dir r a n s
  | .fadd h d a b ty => Sys2Proof.Machine.execFadd h d a b ty s
  | .fsub h d a b ty => Sys2Proof.Machine.execFsub h d a b ty s
  | .fmul h d a b ty => Sys2Proof.Machine.execFmul h d a b ty s
  | .ffma h d a b c ty => Sys2Proof.Machine.execFfma h d a b c ty s
  | .fdiv h d a b => Sys2Proof.Machine.execFdiv h d a b s
  | .fmin h d a b ty => Sys2Proof.Machine.execFmin h d a b ty s
  | .fmax h d a b ty => Sys2Proof.Machine.execFmax h d a b ty s
  | .fset h d a b k cond ty => Sys2Proof.Machine.execFset h d a b k cond ty s
  | .fclass h d a ty => Sys2Proof.Machine.execFclass h d a ty s
  | .fcvt h d a td ts => Sys2Proof.Machine.execFcvt h d a td ts s
  | .fsf h d a fn => Sys2Proof.Machine.execFsf h d a fn s
  | .qrow h d a b q blk ty => Sys2Proof.Machine.execQrow h d a b q blk ty s
  | .shfl h d a b mode w => Sys2Proof.Machine.execShfl h d a b mode w s
  | .vote h d a k j mode => Sys2Proof.Machine.execVote h d a k j mode s
  | .matchL h d a w64 => Sys2Proof.Machine.execMatchL h d a w64 s
  | .red h d a op ty => Sys2Proof.Machine.execRed h d a op ty s
  | .scan h d a op excl ty => Sys2Proof.Machine.execScan h d a op excl ty s
  | .tkins h d a b n => Sys2Proof.Machine.execTkins h d a b n s
  | .mfld h d b imm tag w16 => Sys2Proof.Machine.execMfld h d b imm tag w16 s
  | .bra h off => Sys2Proof.Machine.execBra h off s
  | .brx h a => Sys2Proof.Machine.execBrx h a s
  | .call h d off => Sys2Proof.Machine.execCall h d off s
  | .ret h a => Sys2Proof.Machine.execRet h a s
  | .join h mask => Sys2Proof.Machine.execJoin h mask s
  | .exit h => Sys2Proof.Machine.execExit h s
  | .nop h => Sys2Proof.Machine.execNop h s
  | .rep n sd sa sb sc => Sys2Proof.Machine.execRep n sd sa sb sc s
  | .wait h l s0 c t => Sys2Proof.Machine.execWait h l s0 c t s
  | .trap h code => Sys2Proof.Machine.execTrap h code s
  | .tret h => Sys2Proof.Machine.execTret h s
  | .fence h sc => Sys2Proof.Machine.execFence h sc s
  | .lfence h => Sys2Proof.Machine.execLfence h s
  | .binit h n a b => Sys2Proof.Machine.execBinit h n a b s
  | .barv h n => Sys2Proof.Machine.execBarv h n s
  | .bwait h n => Sys2Proof.Machine.execBwait h n s
  | .bxpc h n a b => Sys2Proof.Machine.execBxpc h n a b s
  | .bqry h d n w => Sys2Proof.Machine.execBqry h d n w s
  | .clbar h => Sys2Proof.Machine.execClbar h s
  | .evsig h d cur sc b imm => Sys2Proof.Machine.execEvsig h d cur sc b imm s
  | .evsigFront h d a => Sys2Proof.Machine.execEvsigFront h d a s
  | .evwait h d cur sc b imm => Sys2Proof.Machine.execEvwait h d cur sc b imm s
  | .evwaitFront h d a => Sys2Proof.Machine.execEvwaitFront h d a s
  | .ld h w sx ord d cur b imm => Sys2Proof.Machine.execLd h w sx ord d cur b imm s
  | .st h w ord d cur b imm => Sys2Proof.Machine.execSt h w ord d cur b imm s
  | .ldp h w sx d b imm => Sys2Proof.Machine.execLdp h w sx d b imm s
  | .stp h w d b imm => Sys2Proof.Machine.execStp h w d b imm s
  | .lds h w sx tag d b imm => Sys2Proof.Machine.execLds h w sx tag d b imm s
  | .sts h w tag d b imm => Sys2Proof.Machine.execSts h w tag d b imm s
  | .xst h w d b imm => Sys2Proof.Machine.execXst h w d b imm s
  | .atom h w64 acq rel sc d cur b imm => Sys2Proof.Machine.execAtom h w64 acq rel sc d cur b imm s
  | .cctl h d cur b imm => Sys2Proof.Machine.execCctl h d cur b imm s
  | .prsq h d cur b imm => Sys2Proof.Machine.execPrsq h d cur b imm s
  | .rgnset h w cd ca b imm => Sys2Proof.Machine.execRgnset h w cd ca b imm s
  | .rgnclr h w u => Sys2Proof.Machine.execRgnclr h w u s
  | .touch h w => Sys2Proof.Machine.execTouch h w s
  | .cmk h app cd a => Sys2Proof.Machine.execCmk h app cd a s
  | .cdesc h app cd ca => Sys2Proof.Machine.execCdesc h app cd ca s
  | .cnrw h cd ca b c => Sys2Proof.Machine.execCnrw h cd ca b c s
  | .cnext h d ca => Sys2Proof.Machine.execCnext h d ca s
  | .cseek h d ca b => Sys2Proof.Machine.execCseek h d ca b s
  | .cget h d ca f k => Sys2Proof.Machine.execCget h d ca f k s
  | .ccoit h union d ca cb => Sys2Proof.Machine.execCcoit h union d ca cb s
  | .capp h d ca b => Sys2Proof.Machine.execCapp h d ca b s
  | .cfin h ca => Sys2Proof.Machine.execCfin h ca s
  | .crew h a b => Sys2Proof.Machine.execCrew h a b s
  | .crewEnd h => Sys2Proof.Machine.execCrewEnd h s
  | .obres h o a b => Sys2Proof.Machine.execObres h o a b s
  | .obrel h o => Sys2Proof.Machine.execObrel h o s
  | .ufcfg h a b => Sys2Proof.Machine.execUfcfg h a b s
  | .mma h m oa ob c => Sys2Proof.Machine.execMma h m oa ob c s
  | .mmal h d a b => Sys2Proof.Machine.execMmal h d a b s
  | .madd h d a b => Sys2Proof.Machine.execMadd h d a b s
  | .mscl h d a b => Sys2Proof.Machine.execMscl h d a b s
  | .mdense h d a => Sys2Proof.Machine.execMdense h d a s
  | .mrcmp h d a b => Sys2Proof.Machine.execMrcmp h d a b s
  | .mzero h d => Sys2Proof.Machine.execMzero h d s
  | .mrank h d a => Sys2Proof.Machine.execMrank h d a s
  | .mld h d cur b imm => Sys2Proof.Machine.execMld h d cur b imm s
  | .mst h d cur b imm => Sys2Proof.Machine.execMst h d cur b imm s
  | .nsub h w a b n => Sys2Proof.Machine.execNsub h w a b n s
  | .nsubWarm h a b => Sys2Proof.Machine.execNsubWarm h a b s
  | .nsubSpec h w a b n h1 h2 => Sys2Proof.Machine.execNsubSpec h w a b n h1 h2 s
  | .npub h f w a => Sys2Proof.Machine.execNpub h f w a s
  | .ncan h d a w => Sys2Proof.Machine.execNcan h d a w s
  | .nstat h d w => Sys2Proof.Machine.execNstat h d w s
  | .ntol h a b => Sys2Proof.Machine.execNtol h a b s
  | .nrtw h a b => Sys2Proof.Machine.execNrtw h a b s
  | .spec h d => Sys2Proof.Machine.execSpec h d s
  | .dqpush h a b => Sys2Proof.Machine.execDqpush h a b s
  | .dqpop h d b k => Sys2Proof.Machine.execDqpop h d b k s
  | .launch h d cur b imm => Sys2Proof.Machine.execLaunch h d cur b imm s
  | .launchFront h d a => Sys2Proof.Machine.execLaunchFront h d a s
  | .sreg h d sel => Sys2Proof.Machine.execSreg h d sel s
  | .csrr h d csr => Sys2Proof.Machine.execCsrr h d csr s
  | .csrw h a csr => Sys2Proof.Machine.execCsrw h a csr s
  | .xacq h => Sys2Proof.Machine.execXacq h s
  | .xrel h => Sys2Proof.Machine.execXrel h s
  | .tlbinv h a b => Sys2Proof.Machine.execTlbinv h a b s
  | .packageReset => Sys2Proof.Machine.execPackageReset s
  | .functionReset => Sys2Proof.Machine.execFunctionReset s
  | .thermalTrip => Sys2Proof.Machine.execThermalTrip s
  | .budgetPeriodEnd => Sys2Proof.Machine.execBudgetPeriodEnd s
  | .rbcmdWrite die v => Sys2Proof.Machine.execRbcmdWrite die v s
  | .bucketMoveComplete die => Sys2Proof.Machine.execBucketMoveComplete die s
  | .budgetWrite a v => Sys2Proof.Machine.execBudgetWrite a v s
  | .launchQueueDoorbell q tail => Sys2Proof.Machine.execLaunchQueueDoorbell q tail s
  | .launchQueueEnable q => Sys2Proof.Machine.execLaunchQueueEnable q s
  | .launchRecordRead q => Sys2Proof.Machine.execLaunchRecordRead q s
  | .deviceQueueEnable => Sys2Proof.Machine.execDeviceQueueEnable s
  | .launchWaitevRead k => Sys2Proof.Machine.execLaunchWaitevRead k s
  | .launchStart k => Sys2Proof.Machine.execLaunchStart k s
  | .clusterAdmit => Sys2Proof.Machine.execClusterAdmit s
  | .launchBlocking k => Sys2Proof.Machine.execLaunchBlocking k s
  | .teamFinish t => Sys2Proof.Machine.execTeamFinish t s
  | .gridComplete k => Sys2Proof.Machine.execGridComplete k s
  | .launchSignal k => Sys2Proof.Machine.execLaunchSignal k s
  | .runStart core pipe => Sys2Proof.Machine.execRunStart core pipe s
  | .runForcedEnd core pipe => Sys2Proof.Machine.execRunForcedEnd core pipe s
  | .joinRelease t g pc => Sys2Proof.Machine.execJoinRelease t g pc s
  | .extendedBlockGrant core => Sys2Proof.Machine.execExtendedBlockGrant core s
  | .registerDeadlock t => Sys2Proof.Machine.execRegisterDeadlock t s
  | .asyncWriteback t g lane k => Sys2Proof.Machine.execAsyncWriteback t g lane k s
  | .crewFormation core k => Sys2Proof.Machine.execCrewFormation core k s
  | .crewRendezvous core crew => Sys2Proof.Machine.execCrewRendezvous core crew s
  | .matrixEngineStart core => Sys2Proof.Machine.execMatrixEngineStart core s
  | .matrixOpComplete core => Sys2Proof.Machine.execMatrixOpComplete core s
  | .prectlReq core => Sys2Proof.Machine.execPrectlReq core s
  | .preemptDrain core => Sys2Proof.Machine.execPreemptDrain core s
  | .preemptBlockDeadline core => Sys2Proof.Machine.execPreemptBlockDeadline core s
  | .preemptSquashDeadline core => Sys2Proof.Machine.execPreemptSquashDeadline core s
  | .preemptHalt core => Sys2Proof.Machine.execPreemptHalt core s
  | .preemptQuiet core => Sys2Proof.Machine.execPreemptQuiet core s
  | .prectlResume core => Sys2Proof.Machine.execPrectlResume core s
  | .contextSave core => Sys2Proof.Machine.execContextSave core s
  | .coreSetRestore k => Sys2Proof.Machine.execCoreSetRestore k s
  | .storeAtHome op => Sys2Proof.Machine.execStoreAtHome op s
  | .loadReturn op => Sys2Proof.Machine.execLoadReturn op s
  | .l2Forward die line => Sys2Proof.Machine.execL2Forward die line s
  | .leaseExpiry unit line => Sys2Proof.Machine.execLeaseExpiry unit line s
  | .l1Eviction core line => Sys2Proof.Machine.execL1Eviction core line s
  | .fenceMarker t g slice => Sys2Proof.Machine.execFenceMarker t g slice s
  | .pageWalk k => Sys2Proof.Machine.execPageWalk k s
  | .faultrespReplay asid page => Sys2Proof.Machine.execFaultrespReplay asid page s
  | .faultrespKill asid page => Sys2Proof.Machine.execFaultrespKill asid page s
  | .faultQueueHead v => Sys2Proof.Machine.execFaultQueueHead v s
  | .faultRecordWrite => Sys2Proof.Machine.execFaultRecordWrite s
  | .copyBlockStart core => Sys2Proof.Machine.execCopyBlockStart core s
  | .copyBlockComplete core k => Sys2Proof.Machine.execCopyBlockComplete core k s
  | .routineTimeout core k => Sys2Proof.Machine.execRoutineTimeout core k s
  | .clusterSwap t => Sys2Proof.Machine.execClusterSwap t s
  | .xstReceive op => Sys2Proof.Machine.execXstReceive op s
  | .evwaitRepoll t g lane => Sys2Proof.Machine.execEvwaitRepoll t g lane s
  | .interestArrival p => Sys2Proof.Machine.execInterestArrival p s
  | .refreshArrival p => Sys2Proof.Machine.execRefreshArrival p s
  | .noRouteArrival p => Sys2Proof.Machine.execNoRouteArrival p s
  | .dataHeaderArrival p => Sys2Proof.Machine.execDataHeaderArrival p s
  | .cocoonCopyComplete router k => Sys2Proof.Machine.execCocoonCopyComplete router k s
  | .tileDelivery p => Sys2Proof.Machine.execTileDelivery p s
  | .pitSlotExpiry router k => Sys2Proof.Machine.execPitSlotExpiry router k s
  | .interestExpiry t k => Sys2Proof.Machine.execInterestExpiry t k s
  | .cancelArrival p => Sys2Proof.Machine.execCancelArrival p s
  | .predictionPatience t k => Sys2Proof.Machine.execPredictionPatience t k s
  | .predictionWritten t k => Sys2Proof.Machine.execPredictionWritten t k s
  | .verdict core => Sys2Proof.Machine.execVerdict core s
  | .taskCommit t g => Sys2Proof.Machine.execTaskCommit t g s
  | .taskSquash t g => Sys2Proof.Machine.execTaskSquash t g s
  | .commitPacket p => Sys2Proof.Machine.execCommitPacket p s
  | .squashPacket p => Sys2Proof.Machine.execSquashPacket p s
  | .linkFlitReceive port seq crcOk pkt => Sys2Proof.Machine.execLinkFlitReceive port seq crcOk pkt s
  | .linkPacketReceive port => Sys2Proof.Machine.execLinkPacketReceive port s
  | .linkPortBlocked port => Sys2Proof.Machine.execLinkPortBlocked port s
  | .dieQueueBlocked die => Sys2Proof.Machine.execDieQueueBlocked die s
  | .hostBarWrite pa bytes => Sys2Proof.Machine.execHostBarWrite pa bytes s
  | .hostBarRead pa n => Sys2Proof.Machine.execHostBarRead pa n s
  | .featctlLock => Sys2Proof.Machine.execFeatctlLock s
  | .cocooncfgWrite die v => Sys2Proof.Machine.execCocooncfgWrite die v s
  | .coreRetire core => Sys2Proof.Machine.execCoreRetire core s
  | .sliceRetire slice => Sys2Proof.Machine.execSliceRetire slice s
  | .dramRetrain ctl v => Sys2Proof.Machine.execDramRetrain ctl v s
  | .dramRetrainDone ctl => Sys2Proof.Machine.execDramRetrainDone ctl s
  | .routineInstall => Sys2Proof.Machine.execRoutineInstall s
  | .eccstatClear core => Sys2Proof.Machine.execEccstatClear core s
  | .eccCorrected core => Sys2Proof.Machine.execEccCorrected core s
  | .eccUncorrected loc => Sys2Proof.Machine.execEccUncorrected loc s
  | .mbInfo => Sys2Proof.Machine.execMbInfo s
  | .mbFwload => Sys2Proof.Machine.execMbFwload s
  | .mbFwmark => Sys2Proof.Machine.execMbFwmark s
  | .mbRestart => Sys2Proof.Machine.execMbRestart s
  | .dehenanRestartDone ok => Sys2Proof.Machine.execDehenanRestartDone ok s
  | .mbOwnerkey => Sys2Proof.Machine.execMbOwnerkey s
  | .mbAttest => Sys2Proof.Machine.execMbAttest s
  | .mbSensors => Sys2Proof.Machine.execMbSensors s
  | .mbUnknownCommand => Sys2Proof.Machine.execMbUnknownCommand s
  | .registerWrite pa v => Sys2Proof.Machine.execRegisterWrite pa v s
  | .publishSent p => Sys2Proof.Machine.execPublishSent p s
  | .nrtEntryWritten op => Sys2Proof.Machine.execNrtEntryWritten op s
  | .tlbInvalidationDone t g => Sys2Proof.Machine.execTlbInvalidationDone t g s
  | .routeTableWrite d v => Sys2Proof.Machine.execRouteTableWrite d v s
  | .enbudgetLimitLower core v => Sys2Proof.Machine.execEnbudgetLimitLower core v s

end Sys2Proof.Machine
end

