-- ==== Sys2Proof/Machine/Sched.lean ====
section
/-! DEFINITION. Machine/Sched.lean: what moves next (log entry 2): the schedule's choice, else an order of the model's own.
Every order the spec admits is some schedule; the order taken when the schedule is empty is one of them. -/
namespace Sys2Proof.Machine
open Sys2Proof

/-! ### The next instruction of a run -/

/-- The places that have issued on a core in the present core cycle. -/
def State.issuedNow (s : State) (c : Nat) : List Nat := if (s.core c).cycle = cycleOf s.time then (s.core c).issued else []

/-- An instruction issues on a core: its place is noted for the cycle. -/
def State.noteIssue (s : State) (c place : Nat) : State :=
  s.modCore c fun z => { z with cycle := cycleOf s.time, issued := place :: s.issuedNow c }

/-- A run that issues now: its first issue starts the count of R73. -/
def Run.begun (r : Run) (now : Nat) : Run := { r with start := some (r.start.getD (cycleOf now)) }

/-- The head of the open runs issues its next instruction, or ends where 256 core cycles are over (R73). -/
def State.issueHead (s : State) : Host.Outcome State Fault Refusal :=
  match s.runs with
  | [] => .next s
  | r :: rest =>
    if s.forcedDue r then .next (s.forceEnd r.core r.pipe)
    else
      match s.issuer? with
      | none => .next { s with runs := rest }
      | some x =>
        match s.nextInstr x with
        | .instr i r1 s1 => exec i ((s1.setRun (r1.begun s.time)).noteIssue r.core (x.gp.place r.team))
        | .illegal r1 s1 => .next (s1.illegalPack r1 x.pc)
        | .other s1 => .next s1

/-- A row of the table that is a device step. -/
def deviceStep (i : Instr) : Bool := (i.roles false).issuer == .device

/-- A device step happens; an instruction is no event. -/
def State.event (s : State) (e : Instr) : Host.Outcome State Fault Refusal := if deviceStep e then exec e s else .next s

/-! ### Steps that may be due -/

/-- Indices below a length. -/
def indices {α : Type} (l : List α) : List Nat := List.range l.length

/-- The indices of a list from the highest down, so that a step may remove its element. -/
def indicesDown {α : Type} (l : List α) : List Nat := (indices l).reverse

/-- The steps of a core that its pre-emption is due to make (R86). -/
def Core.timed (z : Core) (c now : Nat) : List Instr :=
  if z.draining then (if z.preT0 + 63 ≤ now then [.preemptDrain c] else [])
  else if z.pre = 1 then
    [.preemptBlockDeadline c, .preemptSquashDeadline c] ++ (if z.haltDue now then [.preemptHalt c] else [])
  else []

/-- The steps of a team that are due in the cycle in which their conditions hold: verdicts (R224), expiries (R211), patience
(R220) and register deadlock (R53). -/
def Team.timed (x : Team) (t : Nat) (waits : Bool) : List Instr :=
  ((x.grps.filter fun q => q.2.task.isSome).map fun q => .taskCommit t q.1) ++
    ((indicesDown x.ilist).flatMap fun k => [.interestExpiry t k, .predictionPatience t k]) ++
    (if waits then [.registerDeadlock t] else [])

/-- Steps that the time base, or the moment at which their condition holds, calls for. -/
def State.timedSteps (s : State) : List Instr :=
  (if s.periods < s.time / 4096 then [.budgetPeriodEnd] else []) ++
    (s.cores.flatMap fun p => p.2.timed p.1 s.time) ++
    (s.teams.flatMap fun p => p.2.timed p.1 !(s.core p.2.core).xwait.isEmpty) ++
    ((indices s.lu.launches).map fun k => .launchBlocking k) ++
    -- a run ends in its 256th core cycle (R73)
    ((s.runs.filter s.forcedDue).map fun r => .runForcedEnd r.core r.pipe) ++
    (s.routers.flatMap fun p => (indicesDown p.2.pit).map fun k => .pitSlotExpiry p.1 k) ++
    (s.packets.filterMap fun k => match k.wtok, k.at_ with
      | some _, .router r _ => some (.pitSlotExpiry r 0)
      | _, _ => none) ++
    -- a slice forwards within 512 ticks (R113)
    s.dies.flatMap fun p => (p.2.fwd.filter fun f => f.tick + 512 ≤ s.time).map fun f => .l2Forward p.1 f.line

/-- A step of the device happens. -/
def stepOn (s : State) (e : Instr) : State :=
  match exec e s with
  | .next u => u
  | _ => s

/-- Trap entries that wait for their frames are tried again (R233). -/
def State.retryAll (s : State) : State :=
  s.allGroups.foldl (fun u p => if p.2.2.es.entry.isSome then u.tryEntry p.1 p.2.1 else u) s

/-- What is due at the present tick happens. -/
def State.due (s : State) : State := (((s.timedSteps.foldl stepOn s).retryAll).countSets).seqReads.hostRun

/-- The ready lists of the cores that hold teams are brought up to date (R72). -/
def State.sampleCores (s : State) : State := ((s.teams.map fun p => p.2.core).eraseDups).foldl State.sampleReady s

/-- What happens before the next tick: at the end of a core cycle the barrier registers are tested (R135), the states that NSTAT and
SPEC read are noted (R368, R388), and the ready lists take the cycle's groups (R72). -/
def State.endTick (s : State) : State := if s.time % 2 = 1 then s.settleBars.sampleAll.sampleCores else s

/-- Time passes, tick by tick: what is due at a tick happens before the next one comes. -/
def State.ticks : Nat → State → State
  | 0, s => s
  | n + 1, s => State.ticks n (State.due { s.due.endTick with time := s.due.endTick.time + 1 })

/-- A group that has issued in this core cycle, or a pipe that has, issues next in the following one; within a cycle the
groups of a core issue in ascending slot order, its front threads last (R149). -/
def State.mustWait (s : State) (r : Run) : Bool :=
  match s.grp? r.team r.grp with
  | none => false
  | some y => (s.issuedNow r.core).any fun k => y.place r.team ≤ k || (if 256 ≤ k then r.pipe == 8 else k % 8 == r.pipe)

/-- The run of one core's pipe issues, in the next core cycle where it cannot in this one; a pipe with no open run does
nothing. -/
def State.issueOn (s : State) (c pipe : Nat) : Host.Outcome State Fault Refusal :=
  match s.runs.find? fun r => r.core == c && r.pipe == pipe with
  | none => .next s
  | some r =>
    if s.mustWait r then
      let s1 := State.ticks (2 - s.time % 2) s
      if s1.pipeBusy c pipe then (s1.rotate c pipe).issueHead else .next s1
    else (s.rotate c pipe).issueHead

/-- Steps of a core's units. -/
def Core.steps (z : Core) (c : Nat) : List Instr :=
  ((indices z.forms).map fun k => .crewFormation c k) ++ (z.crews.map fun k => .crewRendezvous c k.no) ++
    (if z.engine.isEmpty then [] else [.matrixOpComplete c, .matrixEngineStart c]) ++
    (if z.draining || z.pre != 0 then [.preemptDrain c, .preemptHalt c, .preemptQuiet c] else []) ++
    (if z.xwait.isEmpty then [] else [.extendedBlockGrant c]) ++
    ((indices z.blocksInFlight).flatMap fun k => [.copyBlockComplete c k, .routineTimeout c k]) ++
    (if z.copies.isEmpty then [] else [.copyBlockStart c]) ++ (if z.verdict.isSome then [.verdict c] else [])

/-- Steps of one group. -/
def Group.steps (y : Group) (t g : Nat) : List Instr :=
  ((indices y.lanes).flatMap fun l =>
    ((indices (y.lane l).pend).map fun k => .asyncWriteback t g l k) ++
      (match (y.lane l).st with
       | .held => [.joinRelease t g (y.lane l).pc]
       | .parked (.event _) => [.evwaitRepoll t g l]
       | .parked (.tlbinv _ _) => [.tlbInvalidationDone t g]
       | _ => [])) ++
    (y.fences.flatMap fun f => f.markers.map fun k => .fenceMarker t g k) ++ [.taskCommit t g]

/-- Steps of a team. -/
def Team.steps (x : Team) (t : Nat) : List Instr :=
  (x.grps.flatMap fun p => p.2.steps t p.1) ++ [.clusterSwap t, .registerDeadlock t] ++
    ((indices x.ilist).flatMap fun k => [.interestExpiry t k, .predictionWritten t k, .predictionPatience t k]) ++ [.teamFinish t]

/-- The step of an operation in flight. -/
def Op.steps (o : Op) : List Instr :=
  match o.kind with
  | .store | .atomic | .clean | .sts => [.storeAtHome o.id]
  | .load | .presence | .far => [.loadReturn o.id]
  | .xst => [.xstReceive o.id]
  | .nrtw => [.nrtEntryWritten o.id]
  | .evwait => []

/-- The steps of a named packet. -/
def Packet.steps (k : Packet) : List Instr :=
  match k.ty with
  | .interest => [.interestArrival k.id]
  | .refresh => [.refreshArrival k.id]
  | .cancel => [.cancelArrival k.id]
  | .noRoute => [.noRouteArrival k.id]
  | .commit => [.commitPacket k.id]
  | .squash => [.squashPacket k.id]
  | .data => [.publishSent k.id, .dataHeaderArrival k.id, .tileDelivery k.id]

/-- The steps of a router's tables. -/
def Router.steps (x : Router) (r : Nat) : List Instr :=
  ((indices x.cocoon).map fun k => .cocoonCopyComplete r k) ++ (indices x.pit).map fun k => .pitSlotExpiry r k

/-- The steps of the launch machinery. -/
def LaunchUnit.steps (u : LaunchUnit) : List Instr :=
  ((indices u.launches).flatMap fun k =>
    [.launchSignal k, .gridComplete k, .launchStart k, .launchBlocking k, .launchWaitevRead k]) ++
    (if u.launches.isEmpty then [] else [.clusterAdmit]) ++ u.hq.map fun p => .launchRecordRead p.1

/-- The steps of a die. -/
def State.dieSteps (s : State) (d : Nat) (z : Die) : List Instr :=
  (if z.move.isSome then [.bucketMoveComplete d] else []) ++
    (if z.qSize != 0 && !(s.dieQueue d).isEmpty && (!z.qSpilled.isEmpty || z.qCredit + 256 ≤ s.time) then [.dieQueueBlocked d] else []) ++
    (z.l2.filter fun x => x.lease ≤ s.time).map fun x => .leaseExpiry (256 + d) x.line

/-- The steps of Dehenan's mailbox and of the base die's own commands. -/
def State.serviceSteps (s : State) : List Instr :=
  (if s.fq.wait.isEmpty then [] else [.faultRecordWrite]) ++ (if s.regs.rtBusy then [.routineInstall] else []) ++
    (s.regs.dramBusy.map fun c => .dramRetrainDone c) ++
    (if s.deh.busy then
      [[.mbUnknownCommand], [.mbInfo], [.mbFwload], [.mbFwmark], [.mbRestart], [.mbOwnerkey], [.mbAttest], [.mbSensors]].getD s.deh.cmd.1
        [.mbUnknownCommand]
     else [])

/-- Every step of the machine's own that may be due. -/
def State.dueSteps (s : State) : List Instr :=
  (s.ops.flatMap Op.steps) ++ ((indices s.misses).map fun k => .pageWalk k) ++ (s.packets.flatMap Packet.steps) ++
    (s.teams.flatMap fun p => p.2.steps p.1) ++ (s.cores.flatMap fun p => p.2.steps p.1) ++
    (s.routers.flatMap fun p => p.2.steps p.1) ++ s.lu.steps ++ (s.dies.flatMap fun p => s.dieSteps p.1 p.2) ++
    (s.links.ports.map fun p => .linkPacketReceive p.1) ++ s.serviceSteps

/-- The pipes on which a resident team could start a run. -/
def State.runStarts (s : State) : List Instr :=
  s.teams.flatMap fun p => ((p.2.grps.map fun q => q.2.pipe).eraseDups).map fun k => .runStart p.2.core k

/-! ### The order when the schedule is empty -/

/-- A list begun at another place, so that no step is passed over for ever. -/
def rotated {α : Type} (n : Nat) (l : List α) : List α := l.drop (n % max 1 l.length) ++ l.take (n % max 1 l.length)

/-- The state after the first step of a list that changes anything. -/
def State.firstStep (s : State) : List Instr → Option (Host.Outcome State Fault Refusal)
  | [] => none
  | e :: t =>
    match exec e s with
    | .next s' => if s' = s then s.firstStep t else some (.next s')
    | o => some o

/-- One core cycle passes after what happened. -/
def pass (o : Host.Outcome State Fault Refusal) : Host.Outcome State Fault Refusal :=
  match o with
  | .next s => .next (s.ticks 2)
  | o => o

/-- What the machine does of its own accord: the steps that the time base calls for; then instructions and the machine's
other steps by turns; runs start where none of these is due. -/
def State.autoStep (s : State) : Host.Outcome State Fault Refusal :=
  let n := s.time / 4
  let other := fun (_ : Unit) => (s.firstStep (rotated n s.dueSteps)).orElse fun _ => s.firstStep (rotated n s.runStarts)
  let head := fun (_ : Unit) =>
    match rotated n s.runs with
    | [] => none
    | r :: _ => some (s.issueOn r.core r.pipe)
  pass ((((s.firstStep s.timedSteps).orElse fun _ =>
    if s.time / 2 % 2 = 0 then (head ()).orElse other else (other ()).orElse head)).getD (.next s))

end Sys2Proof.Machine
end

