-- ==== Sys2Proof/Machine/Step.lean ====
section
/-! DEFINITION. Machine/Step.lean: one step of the machine, and the placing of an instruction where it fetches next. -/
namespace Sys2Proof.Machine
open Sys2Proof

/-- One step: the first choice of the schedule, or the model's own order where the schedule is empty (log entry 2). -/
def step (s : State) : Host.Outcome State Fault Refusal :=
  match s.schedule with
  | .issue c p :: t => State.issueOn { s with schedule := t } c p
  | .event e :: t => State.event { s with schedule := t } e
  | .tick n :: t => .next (State.ticks n { s with schedule := t })
  | .evict c k :: t => .next (State.evict { s with schedule := t } c k)
  | [] => s.autoStep

/-- Where a placed instruction stands: virtual and physical address. -/
def fetchVa : Nat := 0x10000

/-- A launch of one team with one group, or one front thread besides, entered at `fetchVa` (log entry 8). -/
def fetchLaunch (front : Bool) : Launch :=
  { gridid := 0, asid := 1, prio := 0, queue := none, st := .started, order := 0, next := 0, finished := 0, since := 0,
    blocking := false, killed := false, parked := none, wct := 0, slot := 0
    lr := { entry := fetchVa, front := if front then fetchVa else 0, gx := 1, gy := 1, gz := 1, clw := 1, clh := 1, groups := 1,
            regs := 3, energy := 0, priv := 0, carve := [0, 0, 0, 24], waitev := 0, waitn := 0, sigev := 0, seq := 0, args := 0 } }

/-- The translation under which it is fetched. -/
def fetchTlb : TlbE :=
  { asid := 1, va := fetchVa, lg := 16, pa := fetchVa, rd := true, wr := true, ex := true, usr := true, alloc := 0, wb := false,
    cmp := false, evp := 0 }

/-- An instruction stored where the next step fetches (log entry 8): a resident team on core 0, its open run, the page and
core 0's access-table window for the fetch, the word, and the choice of that run as the next to issue. -/
def State.withFetchWord (s : State) (nbits w : Nat) : State :=
  let v := w % 2 ^ nbits
  let l := bytesOfWord (BitVec.ofNat 64 v) ++ bytesOfWord (BitVec.ofNat 64 (v / 2 ^ 64))
  let front := match decodeBytes false l with | .ok _ => false | .error _ => true
  let t := s.nextId
  let s1 := s.placeTeam (fetchLaunch front) 0 0
  let slot := match s1.grp? t 0 with | some y => y.pipe | none => 0
  let s2 := s1.modCore 0 fun z => { z with tlb := fetchTlb :: z.tlb }
  let a := (l3Slice fetchVa * 529) * 8
  { s2 with
    mem := s2.mem.writeN fetchVa l
    acc := (s2.acc.set a 0x1F).set (a + 1) 0xFFFF_FFFF_0000
    poison := s2.poison.filter fun k => k / 2 != fetchVa / 16
    outst := s2.outst.filter fun o => o.asid != 1
    runs := [if front then ⟨0, 8, t, frontKey, [0], none, 0, [], none⟩ else ⟨0, slot, t, 0, List.range 32, none, 0, [], none⟩]
    schedule := [.issue 0 (if front then 8 else slot)] }

end Sys2Proof.Machine
end

