-- ==== Sys2Proof/Safety.lean ====
section
/-! DEFINITION. Safety.lean: the words in which claims about the machine are stated: when an instruction issues and executes
normally, what a pack looks like afterwards, what stays as it was, and the invariant that every step keeps. -/
namespace Sys2Proof.Machine
open Sys2Proof

/-- Every step keeps this: the memory is in its canonical form. -/
def State.Inv (s : State) : Prop := s.mem.wf = true

/-! ### An instruction executes normally -/

/-- Instruction `i` is issued from state `s` by the pack, group and team of `x`, whose lanes are distinct lanes of the group (R28,
R31), and none of R272's checks stops it: the word
is legal there, the guard register is in bounds and free, some lane is active, every named register is in bounds and free,
a crew instruction finds a crew, and a speculative group does not have to wait. -/
structure Issues (s : State) (x : Ctx) (i : Instr) : Prop where
  issuer : s.issuer? = some x
  pack   : x.run.lanes.Nodup ∧ (∀ l ∈ x.run.lanes, l < x.gp.lanes.length) ∧ x.gp.lanes.length ≤ 32
  legal  : illegalNow s x i = false
  guard  : guardOut x i = false ∧ guardLock x i = false
  active : activeOf x i ≠ []
  regs   : ∀ u ∈ (i.roles x.front).rd ++ (i.roles x.front).wr, x.gp.useOk u = true
  free   : interlock x i (activeOf x i) = false
  crew   : (i.roles x.front).crewI = true → x.gp.crew.valid = true
  task   : x.gp.spec = true → (i.roles x.front).specWait = false

/-- The lanes of an access that take their parts of it now (R81): those that `sel` counts and that hold none yet. -/
def newLanes (x : Ctx) (i : Instr) (sel : Nat → Bool) : List Nat :=
  (activeOf x i).filter fun l => sel l && ((x.lane l).tokAt x.pc (x.run.rep.map (·.ix))).isNone

/-- Nothing is in the way of a memory instruction that wait counter `k` counts for the lanes of `sel` (R81, R115, R118): no
fence of another pack is open, no active lane has an acquire pending, and where a lane is counted now the counter has room; a
store that is buffered is counted at the commit (R121). -/
structure Unhindered (s : State) (x : Ctx) (i : Instr) (k : Nat) (buffered : Bool) (sel : Nat → Bool) : Prop where
  fence   : x.groupFence? (activeOf x i) = none
  acquire : ∀ l ∈ activeOf x i, s.acqPending x l = false
  room    : newLanes x i sel = [] ∨ buffered = true ∨ x.gp.ctr k < ctrMax k

/-- Each active lane's part of an instruction succeeds: the answers, in lane order, and the state after the parts. -/
def PartsOk {α : Type} (part : Ctx → Nat → LM α) (s : State) (x : Ctx) (i : Instr) (oks : List (Nat × α)) (s1 : State) : Prop :=
  oks.map (·.1) = activeOf x i ∧ eachLane (part x) (activeOf x i) s = (oks.map fun p => (p.1, .ok p.2), s1)

/-! ### What an instruction's completion leaves -/

/-- No run has been opened, and those that are left have changed in their operand latches alone (R60, R73). -/
def RunsLeft (s : State) (rs : List Run) : Prop := ∀ r ∈ rs, ∃ q ∈ s.runs, { r with latch := q.latch } = q

/-- A lane that goes past the instruction, to the next repetition or the next word (R61, R276). -/
def passed (x : Ctx) (i : Instr) (z : Lane) : Lane := { nextPc x.run (i.roles x.front).words z with st := .eligible }

/-- A lane that parks at the instruction (R28). -/
def parked (x : Ctx) (w : Wait) (z : Lane) : Lane := { z with st := .parked w, rep := x.run.rep.map (·.ix) }

/-- Lanes that leave the instruction give up what they still hold of it: their parts of its count (R81) and the answers of
targets outside DRAM (R97). -/
def State.leave (s : State) (x : Ctx) (ls : List Nat) : State :=
  (s.releaseAll x.run.team x.run.grp ls).dropFar x.run.team x.run.grp ls

/-- Listed lanes of the issuing group become `f` of themselves. -/
def State.onLanes (s : State) (x : Ctx) (ls : List Nat) (f : Nat → Lane → Lane) : State :=
  s.onGrp x fun y => { y with lanes := (List.range y.lanes.length).map fun l => if ls.contains l then f l (y.lane l) else y.lane l }

/-- The issuing pack is settled: its lanes but those of `stay` leave the instruction, all become `f` of themselves, and the
group's fence records and the open runs are as given. -/
def State.settle (s : State) (x : Ctx) (stay : List Nat) (f : Nat → Lane → Lane) (fs : List FenceRec) (rs : List Run) : State :=
  { ((s.leave x (x.run.lanes.filter fun l => !stay.contains l)).onGrp x fun y => { y with fences := fs }).onLanes x x.run.lanes f with
    runs := rs }

/-- Lanes of the issuing pack fault at the instruction with their causes, and its other lanes become `f` of themselves: the pack's run
ends, and its group takes the trap (R233, R285). -/
def State.faults (s : State) (x : Ctx) (flt : List (Nat × Nat)) (f : Nat → Lane → Lane) : State :=
  let rep := x.run.rep.map (·.ix)
  (s.settle x [] (fun l z => if flt.any (fun p => p.1 == l) then { z with st := .eligible, rep } else f l z) x.gp.fences
    (s.runs.filter fun r => !(r.team == x.run.team && r.grp == x.run.grp))).takeTrap x.run.team x.run.grp flt x.run.lanes
      (x.run.rep.map fun c => (x.pc, c.ix))

/-- The instruction executes normally whenever it issues and `h` holds: the machine becomes `e` of itself, and then each lane
of the pack `f` of itself; the lanes of `stay` have not left the instruction. No run is opened; fence records of the pack may be
dropped (R115). What neither `e` nor `f` changes stays as it was. -/
def EffectTo (i : Instr) (h : State → Ctx → Prop) (e : State → Ctx → State) (stay : Ctx → List Nat) (f : Ctx → Nat → Lane → Lane) :
    Prop :=
  ∀ s x, Issues s x i → h s x → ∃ fs rs, RunsLeft s rs ∧ (∀ q ∈ fs, q ∈ x.gp.fences) ∧
    exec i s = .next ((e s x).settle x (stay x) (f x) fs rs)

/-- `EffectTo` for an instruction that every lane of the pack goes past. -/
def Effect (i : Instr) (h : State → Ctx → Prop) (e : State → Ctx → State) : Prop :=
  EffectTo i h e (fun _ => []) fun x _ z => passed x i z

/-- The instruction executes normally, and its whole effect is that each active lane becomes `f` of itself and the group's other
fields those of `g`, and that the pack goes past it: no other lane, no other group, no memory, no special register and no other
part of the machine changes. -/
def CompletesIn (i : Instr) (h : State → Ctx → Prop) (g : State → Ctx → Group → Group) (f : State → Ctx → Nat → Lane → Lane) : Prop :=
  Effect i h fun s x => (s.onLanes x (activeOf x i) (f s x)).onGrp x (g s x)

/-- `CompletesIn` for an instruction that needs nothing more and changes no field of the group but its lanes. -/
def Completes (i : Instr) (f : State → Ctx → Nat → Lane → Lane) : Prop :=
  Effect i (fun _ _ => True) fun s x => s.onLanes x (activeOf x i) (f s x)

/-- `EffectTo` for an instruction that changes the lanes of its pack alone. -/
def CompletesTo (i : Instr) (h : State → Ctx → Prop) (f : Ctx → Nat → Lane → Lane) : Prop :=
  EffectTo i h (fun s _ => s) (fun _ => []) f

/-- Every active lane writes `v` to the register or scalar register `d`, and that is all (R57: a pipe result). -/
def Writes (i : Instr) (d : BitVec 8) (v : State → Ctx → Nat → Lane → Nat) : Prop :=
  Completes i fun s x l z => z.put x.front d.toNat (v s x l (x.lane l))

/-! ### Asynchronous results (R57) -/

/-- Each listed lane's finished asynchronous writeback, where it has one, joins the lane with its registers and values (R57). -/
def State.give (s : State) (x : Ctx) (l : List (Nat × List (PReg × Nat))) : State :=
  l.foldl (fun u p => if p.2.isEmpty then u else (u.addPend x.run.team x.run.grp p.1 p.2 true none).2) s

/-- Each active lane receives one finished asynchronous writeback of the registers and values that `w` lists for it; the group's
other fields become those of `g`, and the pack goes past the instruction. Nothing else changes but the identifiers that have been
given out. -/
def AsyncIn (i : Instr) (h : State → Ctx → Prop) (g : State → Ctx → Group → Group) (w : State → Ctx → Nat → List (PReg × Nat)) : Prop :=
  Effect i h fun s x => (s.give x ((activeOf x i).map fun l => (l, w s x l))).onGrp x (g s x)

/-- `AsyncIn` for an instruction that needs `h` and changes nothing else of its group. -/
def AsyncWritesIf (i : Instr) (h : State → Ctx → Prop) (w : State → Ctx → Nat → List (PReg × Nat)) : Prop :=
  Effect i h fun s x => s.give x ((activeOf x i).map fun l => (l, w s x l))

/-- `AsyncWritesIf` for an instruction that needs nothing more. -/
def AsyncWrites (i : Instr) (w : State → Ctx → Nat → List (PReg × Nat)) : Prop := AsyncWritesIf i (fun _ _ => True) w

/-! ### Accesses -/

/-- A release or fence of a scope that comes before the instruction's own effect is complete, and `u` is the machine then
(R115, R118): none is asked for, or the group is speculative and leaves it to its commit (R121). -/
def Released (s : State) (x : Ctx) (i : Instr) (scope : Option Nat) (own : Bool) (u : State) : Prop :=
  match scope with
  | none => u = s
  | some k => s.fenceStep x (activeOf x i) k own = (u, none)

/-- The release of a memory instruction: a speculative group leaves it to its commit (R118, R121). -/
def MemReleased (s : State) (x : Ctx) (i : Instr) (scope : Option Nat) (u : State) : Prop :=
  Released s x i (if x.gp.spec then none else scope) false u

/-- The lanes of `sel` that hold no part of the instruction yet take their parts of it, which counter `k` counts once (R81). -/
def State.counted (s : State) (x : Ctx) (i : Instr) (k : Nat) (buffered : Bool) (sel : Nat → Bool) : State :=
  s.takeParts x k (!buffered) (newLanes x i sel)

/-- The active lanes' accesses start, counted as one in wait counter `k`, which counts the lanes of `sel`: each lane's part gives
an answer, `pre` acts on the machine for them, and `mk` makes of each the accesses and the registers that receive their values
(R81, R113). `h` is what else it needs. -/
def AccessStartsIn {α : Type} (i : Instr) (h : State → Ctx → Prop) (k : Ctx → Nat) (buffered : Ctx → Bool)
    (sel : Ctx → Nat → Bool) (scope : Option Nat) (part : Ctx → Nat → LM α) (pre : Ctx → List (Nat × α) → State → State) (mk : Ctx → Nat × α → List Start) : Prop :=
  ∀ s x u oks s1, Issues s x i → MemReleased s x i scope u → h u x → Unhindered u x i (k x) (buffered x) (sel x) →
    PartsOk part (u.counted x i (k x) (buffered x) (sel x)) x i oks s1 →
    ∃ fs rs, RunsLeft s rs ∧ (∀ q ∈ fs, q ∈ x.gp.fences) ∧
      exec i s = .next (((pre x oks s1).start x (oks.flatMap (mk x))).settle x [] (fun _ z => passed x i z) fs rs)

/-- `AccessStartsIn` for an access that every active lane is counted in and that does nothing else at issue. -/
def AccessStarts {α : Type} (i : Instr) (k : Ctx → Nat) (scope : Option Nat) (part : Ctx → Nat → LM α)
    (mk : Ctx → Nat × α → List Start) : Prop :=
  AccessStartsIn i (fun _ _ => True) k (fun _ => false) (fun _ _ => true) scope part (fun _ _ u => u) mk

/-- Nothing is in the way of a job of the Loopers (R122, R181). -/
structure JobFree (s : State) (x : Ctx) (i : Instr) : Prop where
  fence   : x.groupFence? (activeOf x i) = none
  acquire : ∀ l ∈ activeOf x i, s.acqPending x l = false
  room    : s.lockRoom x.tm.core 1 = true

/-- The active lanes' jobs succeed in lane order, and each lane receives its job's registers and values (R57, R168). -/
def JobGives (i : Instr) (h : State → Ctx → Prop) (part : Ctx → Nat → LM (List (PReg × Nat))) : Prop :=
  ∀ s x oks s1, Issues s x i → JobFree s x i → h s x → PartsOk part s x i oks s1 →
    ∃ fs rs, RunsLeft s rs ∧ (∀ q ∈ fs, q ∈ x.gp.fences) ∧
      exec i s = .next ((s1.give x oks).settle x [] (fun _ z => passed x i z) fs rs)

/-! ### Metadata of cursors (R163, R175) -/

/-- A job's read of `n` bytes at `va` answers `w` and changes nothing. -/
def Reads (x : Ctx) (l : Nat) (s : State) (va n w : Nat) : Prop := lmRead x l va n s = .ok (w, s)

/-- A job's write of `v` to `n` bytes at `va` leaves `t`. -/
def Puts (x : Ctx) (l : Nat) (s : State) (va n v : Nat) (t : State) : Prop := lmWrite x l va n v s = .ok ((), t)

/-- From link `n` on, these chunks with their USED follow one another, and then comes link `e` (R175). -/
def Chunks (x : Ctx) (l : Nat) (s : State) (base : Nat) : Nat → List (Nat × Nat) → Nat → Prop
  | n, [], e => n = e
  | n, (k, u) :: t, e => n = k ∧ k ≠ none32 ∧ (∃ w, Reads x l s (base + 16 * k + 4) 2 w ∧ u = w % 512) ∧
      ∃ m, Reads x l s (base + 16 * k) 4 m ∧ Chunks x l s base m t e

/-- Index `j` of a bitmap of 64-bit words is set. -/
def bitSet (ws : Nat → Nat) (j : Nat) : Bool := bit (ws (j / 64)) (j % 64)

/-- The coordinate at a position of a cursor's fibre is `k`, as R163 gives it for the kind of the level, from metadata that answer and
leave no coordinate open (R165). -/
def CoordAt (x : Ctx) (l : Nat) (s : State) (v : Level) (c : Cur) (pos k : Nat) : Prop :=
  disordered x v c s = false ∧
    ((c.kind = 1 ∧ k = pos % v.ext) ∨ ((c.kind = 2 ∨ c.kind = 3) ∧ Reads x l s (v.crda + 4 * pos) 4 k) ∨
     (c.kind = 4 ∧ ∃ (p : Nat) (o ws : Nat → Nat), p < 2 ^ 31 ∧
        (∀ i ≤ p + 1, Reads x l s (v.crda + 4 * i) 4 (o i)) ∧ (∀ i ≤ p, o i ≤ pos) ∧ pos < o (p + 1) ∧
        (∀ w < cdiv v.ext 64, Reads x l s (v.posa + 8 * (cdiv v.ext 64 * p + w)) 8 (ws w)) ∧
        k < v.ext ∧ bitSet ws k = true ∧ ((List.range k).filter (bitSet ws)).length = pos - o p) ∨
     (c.kind = 5 ∧ ∃ key, Reads x l s (v.crda + 8 * pos) 8 key ∧ k = if key = emptyKey then none32 else key % 2 ^ 32) ∨
     (c.kind = 6 ∧ ∃ (r st : Nat) (vp : Nat → Nat), c.first ≤ r ∧ r < c.first + 2 ^ 32 ∧
        (∀ i, c.first ≤ i → i ≤ r + 1 → Reads x l s (v.crda + 8 * i + 4) 4 (vp i)) ∧
        (∀ i, c.first ≤ i → i ≤ r → vp i ≤ pos) ∧ pos < vp (r + 1) ∧
        Reads x l s (v.crda + 8 * r) 4 st ∧ k = (st + pos - vp r) % 2 ^ 32) ∨
     (c.kind = 7 ∧ ∃ a, Reads x l s (v.crda + 4 * (pos / v.param)) 4 a ∧ k = (v.param * a + pos % v.param) % 2 ^ 32))

/-- The slot of probe `i` for a key in the table at `lo` (R164). -/
def probeAt (v : Level) (lo key i : Nat) : Nat := (lo + (slotOf v.param key + i) % 2 ^ v.param) % 2 ^ 32

/-- A lookup of a key in the table at `lo` finds it at a slot, or does not find it (R164). -/
def LooksUp (x : Ctx) (l : Nat) (s : State) (v : Level) (lo key : Nat) (r : Option Nat) : Prop :=
  ∃ (n : Nat) (at_ : Nat → Nat), n ≤ min 32 (2 ^ v.param) ∧
    (∀ i < n, Reads x l s (v.crda + 8 * probeAt v lo key i) 8 (at_ i) ∧ at_ i ≠ key ∧ at_ i ≠ emptyKey) ∧
    match r with
    | some q => n < min 32 (2 ^ v.param) ∧ q = probeAt v lo key n ∧ Reads x l s (v.crda + 8 * q) 8 key
    | none => n = min 32 (2 ^ v.param) ∨ (key ≠ emptyKey ∧ Reads x l s (v.crda + 8 * probeAt v lo key n) 8 emptyKey)

/-! ### Device steps -/

/-- One part of the counted instruction of an access is done between `s` and `t`: its token counts one part less, and the last one
leaves and lowers its wait counter (R81). -/
def Acknowledged (s : State) (o : Op) (t : State) : Prop :=
  ∀ (y : Group) (n : Nat) (q : Tok), s.grp? o.team o.grp = some y → o.tok = some n → y.toks.get? n = some q → q.ctr < 4 →
    ∃ y', t.grp? o.team o.grp = some y' ∧
      (q.left ≤ 1 → y'.toks.get? n = none ∧ ∀ k < 4, y'.ctr k = if k = q.ctr ∧ q.counted = true then y.ctr k - 1 else y.ctr k) ∧
      (1 < q.left → y'.toks.get? n = some { q with left := q.left - 1 } ∧ ∀ k < 4, y'.ctr k = y.ctr k)

/-- Device step `e` completes whenever `h` holds, and the machine becomes `f` of itself: what `f` does not change stays. -/
def Steps (e : Instr) (h : State → Prop) (f : State → State) : Prop := ∀ s, h s → exec e s = .next (f s)

/-- Device step `e` changes nothing where `h` holds: it is not due there. -/
def Idles (e : Instr) (h : State → Prop) : Prop := Steps e h fun s => s

/-! ### Operands as bit vectors of the issuer's width (R47, R277) -/

/-- A register operand: 32 bits in a lane, 64 in the front thread. -/
def opnd (x : Ctx) (z : Lane) (r : BitVec 8) : BitVec (regW x.front) := BitVec.ofNat _ (z.get x.front r.toNat)

/-- Two register sources and one destination. -/
def Writes2 (i : Instr) (d a b : BitVec 8) (f : {n : Nat} → BitVec n → BitVec n → BitVec n) : Prop :=
  Writes i d fun _ x _ z => (f (opnd x z a) (opnd x z b)).toNat

/-- One register source, the sign-extended immediate, and one destination. -/
def WritesI (i : Instr) (d a : BitVec 8) (imm : BitVec 12) (f : {n : Nat} → BitVec n → BitVec n → BitVec n) : Prop :=
  Writes i d fun _ x _ z => (f (opnd x z a) (imm.signExtend _)).toNat

/-- One register source and one destination. -/
def Writes1 (i : Instr) (d a : BitVec 8) (f : {n : Nat} → BitVec n → BitVec n) : Prop :=
  Writes i d fun _ x _ z => (f (opnd x z a)).toNat

/-- Three register sources and one destination. -/
def Writes3 (i : Instr) (d a b c : BitVec 8) (f : {n : Nat} → BitVec n → BitVec n → BitVec n → BitVec n) : Prop :=
  Writes i d fun _ x _ z => (f (opnd x z a) (opnd x z b) (opnd x z c)).toNat

/-- An operand's integer value under a type (R337). -/
def opVal {n : Nat} (ty : Ty) (p : BitVec n) : Int := if ty = .i32 then p.toInt else p.toNat

/-- A mask of the lanes 0 to 31 that satisfy a test. -/
def laneMask (p : Nat → Bool) : Nat := (List.range 32).foldl (fun m l => if p l then m + 2 ^ l else m) 0

/-! ### Floating-point results: bits, flags, whether the result is a NaN -/

/-- An operation on the parts of an arithmetic type: the low bits in the type's format, or both halves for .h2 (R329). -/
def fpHalves (ty : Ty) (op : FF → Nat → Nat → Nat → Nat × Nat) (a b c : Nat) : Nat × Nat × Bool :=
  if ty = .h2 then
    let lo := op .f16 (a % 65536) (b % 65536) (c % 65536)
    let hi := op .f16 (a / 65536 % 65536) (b / 65536 % 65536) (c / 65536 % 65536)
    (lo.1 + 65536 * hi.1, lo.2 ||| hi.2, (FF.f16.decode lo.1).isNan || (FF.f16.decode hi.1).isNan)
  else
    let f := partFmt ty
    let r := op f (a % 2 ^ f.width) (b % 2 ^ f.width) (c % 2 ^ f.width)
    (r.1, r.2, (f.decode r.1).isNan)

/-- The NaN trap is off, or no active lane's result is a NaN (R158). -/
def FpQuiet (x : Ctx) (i : Instr) (r : Lane → Nat × Nat × Bool) : Prop :=
  x.tm.nantrap = true → ∀ l ∈ activeOf x i, (r (x.lane l)).2.2 = false

/-- Every active lane's flags are gathered into the group's FPFLAGS (R157), as flags raised in this core cycle. -/
def fpFlagged (s : State) (x : Ctx) (i : Instr) (r : Nat → Nat × Nat × Bool) (y : Group) : Group :=
  let f := (activeOf x i).foldl (fun f l => f ||| (r l).2.1) 0
  if f = 0 then y else y.raise s.time (BitVec.ofNat 6 f)

/-- A floating-point instruction with a pipe result in register `d`. -/
def FpWrites (i : Instr) (d : BitVec 8) (r : Ctx → Lane → Nat × Nat × Bool) : Prop :=
  CompletesIn i (fun _ x => FpQuiet x i (r x)) (fun s x => fpFlagged s x i fun l => r x (x.lane l))
    fun _ x l z => z.put x.front d.toNat (r x (x.lane l)).1

/-- The quotient, rounded once (R332). -/
def fdivOf (x : Ctx) (z : Lane) (a b : BitVec 8) : Nat × Nat × Bool :=
  let r := FF.f32.pack x.rm (fvDiv (FF.f32.decode (x.rd z a)) (FF.f32.decode (x.rd z b)))
  (r.1, r.2, (FF.f32.decode r.1).isNan)

/-- The special function, rounded once (R336). -/
def fsfOf (x : Ctx) (z : Lane) (a : BitVec 8) (fn : SFn) : Nat × Nat × Bool :=
  let r := FF.f32.pack x.rm (fsfFV fn (FF.f32.decode (x.rd z a)))
  (r.1, r.2, (FF.f32.decode r.1).isNan)

/-- The elements a lane gives QROW (R378). -/
def qrowElem (z : Lane) (a : BitVec 8) (ty : Ty) (j : Nat) : FV := tyDecode ty (z.get false (a.toNat + j))

/-- The scale of QROW's block: all elements of all active lanes (R146, R378). -/
def qrowScale (x : Ctx) (i : Instr) (a : BitVec 8) (q : QFmt) (blk : BitVec 2) (ty : Ty) : Nat :=
  blockScale q ((activeOf x i).flatMap fun l => (List.range (2 ^ blk.toNat)).map fun j => qrowElem (x.lane l) a ty j)

/-- A lane's part of QROW: its elements quantised, packed from the low byte up (R379). -/
def qrowOf (x : Ctx) (i : Instr) (z : Lane) (a : BitVec 8) (q : QFmt) (blk : BitVec 2) (ty : Ty) : Nat × Nat × Bool :=
  let e := fun (j : Nat) => quantOne q (qrowScale x i a q blk ty) (qrowElem z a ty j)
  (List.range (2 ^ blk.toNat)).foldl (fun r j => (r.1 + 256 ^ j * (e j).1, r.2.1 ||| (e j).2.1, r.2.2 || (e j).2.2)) (0, 0, false)

/-! ### The tree of RED and SCAN (R154) -/

/-- Leaf `l` of the tree: the lane's value where it is active, else the identity (R155). -/
def redLeaf (x : Ctx) (i : Instr) (a : BitVec 8) (op : RedOp) (ty : Ty) (l : Nat) : Nat :=
  if (activeOf x i).contains l then (x.lane l).get false a.toNat else redIdent op ty

/-- Node (k, i): its value, and the flags of the operations below it and at it. -/
def redNode (f : Nat → Nat → Nat × Nat) (leaf : Nat → Nat) : Nat → Nat → Nat × Nat
  | 0, i => (leaf i, 0)
  | k + 1, i =>
    let a := redNode f leaf k (2 * i)
    let b := redNode f leaf k (2 * i + 1)
    ((f a.1 b.1).1, a.2 ||| b.2 ||| (f a.1 b.1).2)

/-- The prefix of `m` lanes from the aligned blocks of `m`'s bits, the largest first. -/
def redPrefix (f : Nat → Nat → Nat × Nat) (leaf : Nat → Nat) (m : Nat) : Nat → Option Nat → Nat → Nat → Option Nat × Nat
  | 0, p, _, fl => (p, fl)
  | k + 1, p, base, fl =>
    if bit m k then
      let t := (redNode f leaf k (base / 2 ^ k)).1
      match p with
      | none => redPrefix f leaf m k (some t) (base + 2 ^ k) fl
      | some q => redPrefix f leaf m k (some (f q t).1) (base + 2 ^ k) (fl ||| (f q t).2)
    else redPrefix f leaf m k p base fl

/-- What lane `l` receives: of RED where `excl` is none, else of SCAN. -/
def redOf (x : Ctx) (i : Instr) (a : BitVec 8) (op : RedOp) (ty : Ty) (excl : Option Bool) (l : Nat) : Nat × Nat × Bool :=
  let f := redOp x.rm op ty
  let leaf := redLeaf x i a op ty
  let root := redNode f leaf 5 0
  let r : Nat × Nat := match excl with
    | none => (root.1, 0)
    | some e =>
      let q := redPrefix f leaf (if e then l else l + 1) 6 none 0 0
      (q.1.getD (redIdent op ty), q.2)
  let nan := ty == .f32 && (FF.f32.decode r.1).isNan
  (if nan then FF.f32.nan else r.1, r.2 ||| root.2, nan)

/-- No NaN trap of RED or SCAN (R158, R380). -/
def RedQuiet (x : Ctx) (i : Instr) (a : BitVec 8) (op : RedOp) (ty : Ty) (excl : Option Bool) : Prop :=
  x.tm.nantrap = true → ∀ l ∈ activeOf x i, (redOf x i a op ty excl l).2.2 = false

end Sys2Proof.Machine
end

