-- ==== Sys2Proof/Certificates/Slice0/Obligations.lean ====
section
/-! DEFINITION. Certificates/Slice0/Obligations.lean: the statements for the provers, in the words of Safety.lean. -/
open Sys2Proof Sys2Proof.Machine

/-! ### Integer and logic instructions -/

/-- AND, OR, XOR and SEL in both operand forms (R287, R375, R386): the destination of every active lane, and the frame. -/
def Claims.LogicResults : Prop :=
  ∀ (h : Hdr) (d a b c : BitVec 8) (imm : BitVec 12) (n : Bool),
    Writes2 (.and h d a b n) d a b (fun p q => p &&& (if n then ~~~q else q)) ∧
    WritesI (.andImm h d a imm n) d a imm (fun p q => p &&& (if n then ~~~q else q)) ∧
    Writes2 (.or h d a b) d a b (fun p q => p ||| q) ∧ WritesI (.orImm h d a imm) d a imm (fun p q => p ||| q) ∧
    Writes2 (.xor h d a b) d a b (fun p q => p ^^^ q) ∧ WritesI (.xorImm h d a imm) d a imm (fun p q => p ^^^ q) ∧
    Writes3 (.sel h d a b c) d a b c (fun p q m => (p &&& m) ||| (q &&& ~~~m))

/-- IADD, ISUB, IMUL, IMULH and IMAD (R337): arithmetic modulo 2^W, and the high half of the exact product. -/
def Claims.ArithmeticResults : Prop :=
  ∀ (h : Hdr) (d a b c : BitVec 8) (imm : BitVec 12) (ty : Ty),
    Writes2 (.iadd h d a b ty) d a b (fun p q => p + q) ∧ WritesI (.iaddImm h d a imm ty) d a imm (fun p q => p + q) ∧
    Writes2 (.isub h d a b ty) d a b (fun p q => p - q) ∧ WritesI (.isubImm h d a imm ty) d a imm (fun p q => p - q) ∧
    Writes2 (.imul h d a b ty) d a b (fun p q => p * q) ∧ WritesI (.imulImm h d a imm ty) d a imm (fun p q => p * q) ∧
    Writes2 (.imulh h d a b ty) d a b
      (fun {n} p q => BitVec.ofInt n (opVal ty p * opVal ty q / 2 ^ n)) ∧
    Writes3 (.imad h d a b c ty) d a b c (fun p q r => p * q + r)

/-- IMIN, IMAX, IABS and ISET (R337, R340): comparisons are of the values under the type; IABS of the most negative number
is itself; ISET replaces one bit of the destination. -/
def Claims.CompareResults : Prop :=
  ∀ (h : Hdr) (d a b : BitVec 8) (imm : BitVec 12) (k : BitVec 5) (cond : ICond) (ty : Ty),
    Writes2 (.imin h d a b ty) d a b (fun p q => if opVal ty p ≤ opVal ty q then p else q) ∧
    WritesI (.iminImm h d a imm ty) d a imm (fun p q => if opVal ty p ≤ opVal ty q then p else q) ∧
    Writes2 (.imax h d a b ty) d a b (fun p q => if opVal ty p ≤ opVal ty q then q else p) ∧
    WritesI (.imaxImm h d a imm ty) d a imm (fun p q => if opVal ty p ≤ opVal ty q then q else p) ∧
    Writes1 (.iabs h d a) d a (fun p => if p.toInt < 0 then -p else p) ∧
    Writes (.iset h d a b k cond ty) d (fun _ x _ z =>
      let p := opVal ty (opnd x z a)
      let q := opVal ty (opnd x z b)
      let r : Bool := match cond with
        | .eq => decide (p = q)
        | .ne => decide (p ≠ q)
        | .lt => decide (p < q)
        | .le => decide (p ≤ q)
        | .gt => decide (q < p)
        | .ge => decide (q ≤ p)
      (if r then opnd x z d ||| (1#_ <<< k.toNat) else opnd x z d &&& ~~~(1#_ <<< k.toNat)).toNat)

/-- `Claims.LogicResults` and `Claims.ArithmeticResults` and `Claims.CompareResults` together. -/
def Obligations.IntegerResults : Prop := Claims.LogicResults ∧ Claims.ArithmeticResults ∧ Claims.CompareResults

/-- SHL, SHR, SHA and ROT in both operand forms (R385): the amount is the low byte of the register or the immediate, a shift
by the width or more leaves zeros (or sign bits), and a rotation is by the amount modulo the width. -/
def Claims.ShiftResults : Prop :=
  ∀ (h : Hdr) (d a b : BitVec 8) (imm : BitVec 12),
    Writes2 (.shl h d a b) d a b (fun p q => p <<< (q.toNat % 256)) ∧ Writes1 (.shlImm h d a imm) d a (fun p => p <<< imm.toNat) ∧
    Writes2 (.shr h d a b) d a b (fun p q => p >>> (q.toNat % 256)) ∧ Writes1 (.shrImm h d a imm) d a (fun p => p >>> imm.toNat) ∧
    Writes2 (.sha h d a b) d a b (fun p q => p.sshiftRight (q.toNat % 256)) ∧
    Writes1 (.shaImm h d a imm) d a (fun p => p.sshiftRight imm.toNat) ∧
    Writes2 (.rot h d a b) d a b (fun p q => p.rotateLeft (q.toNat % 256)) ∧
    Writes1 (.rotImm h d a imm) d a (fun p => p.rotateLeft imm.toNat)

/-- BFX, BFI, BREV, CLZ, CTZ, POPC and ZORD (R292, R293, R297, R311, R320, R376, R406, R174). -/
def Claims.BitFieldResults : Prop :=
  ∀ (h : Hdr) (d a b c : BitVec 8) (ty : Ty),
    Writes2 (.bfx h d a b ty) d a b (fun {n} p q =>
      let pos := q.toNat % 256
      let len := min (q.toNat / 256 % 256) n
      if ty = .i32 then ((p.sshiftRight pos).setWidth len).signExtend n else ((p >>> pos).setWidth len).setWidth n) ∧
    Writes3 (.bfi h d a b c) d a b c (fun {n} p q r =>
      let pos := r.toNat % 256
      let mask := (BitVec.allOnes (r.toNat / 256 % 256)).setWidth n <<< pos
      (q &&& ~~~mask) ||| ((p <<< pos) &&& mask)) ∧
    Writes1 (.brev h d a) d a (fun p => p.reverse) ∧ Writes1 (.clz h d a) d a (fun p => p.clz) ∧
    Writes1 (.ctz h d a) d a (fun p => p.reverse.clz) ∧
    Writes1 (.popc h d a) d a (fun {n} p => BitVec.ofNat n ((List.range n).filter fun i => p.getLsbD i).length) ∧
    Writes (.zord h d a b c) d (fun _ x _ z => (List.range 10).foldl (fun r i =>
      r + ((opnd x z a).getLsbD i).toNat * 2 ^ (3 * i) + ((opnd x z b).getLsbD i).toNat * 2 ^ (3 * i + 1) +
        ((opnd x z c).getLsbD i).toNat * 2 ^ (3 * i + 2)) 0)

/-- `Claims.ShiftResults` and `Claims.BitFieldResults` together. -/
def Obligations.ShiftAndBitResults : Prop := Claims.ShiftResults ∧ Claims.BitFieldResults

/-- MOV, its pair form and its immediate form, MOVI, and ICVT (R357, R338): ICVT clamps to a signed byte, or sign-extends one,
and raises SAT for the group where some active lane was out of range. -/
def Claims.MoveResults : Prop :=
  ∀ (h : Hdr) (d a : BitVec 8) (imm : BitVec 12) (w : BitVec 32),
    Writes1 (.mov h d a false) d a (fun p => p) ∧
    Completes (.mov h d a true) (fun _ x l z => z.put64 x.front d.toNat ((x.lane l).get64 x.front a.toNat)) ∧
    Writes (.movImm h d imm) d (fun _ x _ _ => (imm.signExtend (regW x.front)).toNat) ∧
    Writes (.movi h d w) d (fun _ x _ _ => (w.signExtend (regW x.front)).toNat) ∧
    Writes1 (.icvt h d a true) d a (fun {n} p => (p.setWidth 8).signExtend n) ∧
    CompletesIn (.icvt h d a false) (fun _ _ => True)
      (fun s x y => if ∃ l ∈ activeOf x (.icvt h d a false),
          (opnd x (x.lane l) a).toInt < -128 ∨ 127 < (opnd x (x.lane l) a).toInt
        then y.raise s.time (BitVec.ofNat 6 fSAT) else y)
      (fun _ x l z => z.put x.front d.toNat
        (BitVec.ofInt (regW x.front) (max (-128) (min 127 (opnd x (x.lane l) a).toInt))).toNat)

/-- IDIV and IREM (R339), with division by zero and the overflowing quotient, and MOVX in both directions (R358), whose
computed register lies in bounds and is free: results are asynchronous writebacks. -/
def Claims.AsyncIntegerResults : Prop :=
  ∀ (h : Hdr) (d a b : BitVec 8) (ty : Ty),
    AsyncWrites (.idiv h d a b ty) (fun _ x l =>
      let p := opnd x (x.lane l) a
      let q := opnd x (x.lane l) b
      [(pregOf x.front d.toNat, (if q = 0 then BitVec.allOnes _ else if ty = .i32 then p.sdiv q else p.udiv q).toNat)]) ∧
    AsyncWrites (.irem h d a b ty) (fun _ x l =>
      let p := opnd x (x.lane l) a
      let q := opnd x (x.lane l) b
      [(pregOf x.front d.toNat, (if q = 0 then p else if ty = .i32 then p.srem q else p.umod q).toNat)]) ∧
    ∀ dir : Bool, AsyncWritesIf (.movx h dir d a b)
      (fun _ x => ∀ l ∈ activeOf x (.movx h dir d a b),
        let j := b.toNat + (x.lane l).get x.front a.toNat % 2 ^ 32
        x.gp.regOk j = true ∧ (x.lane l).pendingReg x.front j = false)
      (fun _ x l =>
        let j := b.toNat + (x.lane l).get x.front a.toNat % 2 ^ 32
        if dir then [(pregOf x.front j, (x.lane l).get x.front d.toNat)]
        else [(pregOf x.front d.toNat, (x.lane l).get x.front j)])

/-- `Claims.MoveResults` and `Claims.AsyncIntegerResults` together. -/
def Obligations.MoveAndLongIntegerResults : Prop := Claims.MoveResults ∧ Claims.AsyncIntegerResults

/-! ### Floating-point instructions -/

/-- FADD, FSUB, FMUL and FFMA in every type (R329, R148): one rounding of the exact result into the type's format, in both halves
for .h2, with its flags; FMIN and FMAX (R334), FSET (R335), FCVT (R331) and FCLASS (R330). Where the NaN trap is off or no
active lane's result is a NaN, every active lane writes its result and the group's FPFLAGS gather every lane's flags (R157). -/
def Claims.FloatResults : Prop :=
  ∀ (h : Hdr) (d a b c : BitVec 8) (k : BitVec 5) (cond : FCond) (ty ts : Ty),
    FpWrites (.fadd h d a b ty) d (fun x z => fpHalves ty (fun f p q _ => f.pack x.rm (fvAdd x.rm (f.decode p) (f.decode q)))
      (x.rd z a) (x.rd z b) 0) ∧
    FpWrites (.fsub h d a b ty) d (fun x z => fpHalves ty (fun f p q _ => f.pack x.rm (fvAdd x.rm (f.decode p) (f.decode q).flip))
      (x.rd z a) (x.rd z b) 0) ∧
    FpWrites (.fmul h d a b ty) d (fun x z => fpHalves ty (fun f p q _ => f.pack x.rm (fvMul (f.decode p) (f.decode q)))
      (x.rd z a) (x.rd z b) 0) ∧
    FpWrites (.ffma h d a b c ty) d (fun x z =>
      fpHalves ty (fun f p q r => f.pack x.rm (fvFma x.rm (f.decode p) (f.decode q) (f.decode r)))
        (x.rd z a) (x.rd z b) (x.rd z c)) ∧
    FpWrites (.fmin h d a b ty) d (fun x z => fpHalves ty (fun f p q _ => f.minmax false p q) (x.rd z a) (x.rd z b) 0) ∧
    FpWrites (.fmax h d a b ty) d (fun x z => fpHalves ty (fun f p q _ => f.minmax true p q) (x.rd z a) (x.rd z b) 0) ∧
    FpWrites (.fset h d a b k cond ty) d (fun x z =>
      let r := fsetBits (partFmt ty) cond (x.rd z a) (x.rd z b)
      ((if r.1 then opnd x z d ||| (1#_ <<< k.toNat) else opnd x z d &&& ~~~(1#_ <<< k.toNat)).toNat, r.2, false)) ∧
    FpWrites (.fcvt h d a ty ts) d (fun x z => fcvt x.rm ty ts (x.rd z a)) ∧
    Writes (.fclass h d a ty) d (fun _ x _ z => fclassBits (partFmt ty) (x.rd z a))

/-- FDIV (R332) and the special functions (R336), whose results are asynchronous writebacks, and QROW (R378, R379), which writes
the quantised elements and the block's scale. -/
def Claims.FloatAsyncResults : Prop :=
  ∀ (h : Hdr) (d a b : BitVec 8) (fn : SFn) (q : QFmt) (blk : BitVec 2) (ty : Ty),
    AsyncIn (.fdiv h d a b) (fun _ x => FpQuiet x (.fdiv h d a b) fun z => fdivOf x z a b)
      (fun s x => fpFlagged s x (.fdiv h d a b) fun l => fdivOf x (x.lane l) a b)
      (fun _ x l => [(pregOf x.front d.toNat, (fdivOf x (x.lane l) a b).1)]) ∧
    AsyncIn (.fsf h d a fn) (fun _ x => FpQuiet x (.fsf h d a fn) fun z => fsfOf x z a fn)
      (fun s x => fpFlagged s x (.fsf h d a fn) fun l => fsfOf x (x.lane l) a fn)
      (fun _ x l => [(pregOf x.front d.toNat, (fsfOf x (x.lane l) a fn).1)]) ∧
    CompletesIn (.qrow h d a b q blk ty)
      (fun _ x => FpQuiet x (.qrow h d a b q blk ty) fun z => qrowOf x (.qrow h d a b q blk ty) z a q blk ty)
      (fun s x => fpFlagged s x (.qrow h d a b q blk ty) fun l => qrowOf x (.qrow h d a b q blk ty) (x.lane l) a q blk ty)
      (fun _ x l z => (z.put x.front d.toNat (qrowOf x (.qrow h d a b q blk ty) (x.lane l) a q blk ty).1).put x.front b.toNat
        (qrowScale x (.qrow h d a b q blk ty) a q blk ty))

/-- `Claims.FloatResults` and `Claims.FloatAsyncResults` together. -/
def Obligations.FloatingPointResults : Prop := Claims.FloatResults ∧ Claims.FloatAsyncResults

/-! ### Instructions across lanes -/

/-- SHFL, VOTE and MATCH (R387, R401, R351): only active lanes take part. -/
def Claims.LaneExchangeResults : Prop :=
  ∀ (h : Hdr) (d a b : BitVec 8) (sm : ShflMode) (w : BitVec 3) (k j : BitVec 5) (vm : VoteMode) (w64 : Bool),
    Writes (.shfl h d a b sm w) d (fun _ x l z =>
      let sz := 2 ^ w.toNat
      let n := x.rd z b
      let base := l / sz * sz
      let from' : Nat := match sm with
        | .idx => base + n % sz
        | .xor => base + ((l % sz) ^^^ (n % sz))
        | .up => if n ≤ l % sz then l - n else l
        | .down => if l % sz + n < sz then l + n else l
      x.rd (x.lane (if (activeOf x (.shfl h d a b sm w)).contains from' then from' else l)) a) ∧
    Writes (.vote h d a k j vm) d (fun _ x _ z =>
      let p := fun (l : Nat) => (activeOf x (.vote h d a k j vm)).contains l && (opnd x (x.lane l) a).getLsbD k.toNat
      let q := fun (l : Nat) => !(activeOf x (.vote h d a k j vm)).contains l || (opnd x (x.lane l) a).getLsbD k.toNat
      let put := fun (r : Bool) => (if r then opnd x z d ||| (1#_ <<< j.toNat) else opnd x z d &&& ~~~(1#_ <<< j.toNat)).toNat
      match vm with
      | .ballot => laneMask p
      | .any => put ((List.range 32).any p)
      | .all => put ((List.range 32).all q)
      | .eq => put ((List.range 32).all q || !(List.range 32).any p)) ∧
    Writes (.matchL h d a w64) d (fun _ x l _ =>
      let v := fun (m : Nat) => if w64 then (x.lane m).get64 false a.toNat else (x.lane m).get false a.toNat
      laneMask fun m => (activeOf x (.matchL h d a w64)).contains m && v m == v l)

/-- RED and SCAN (R380, R154, R155): node (k, i) of the tree combines nodes (k−1, 2i) and (k−1, 2i+1), inactive lanes hold the
identity, RED gives node (5, 0), and SCAN the aligned blocks of the prefix from left to right, with the flags of every node; a
result that is a NaN is the canonical one (R142). -/
def Claims.ReductionResults : Prop :=
  ∀ (h : Hdr) (d a : BitVec 8) (op : RedOp) (ty : Ty) (excl : Bool),
    CompletesIn (.red h d a op ty) (fun _ x => RedQuiet x (.red h d a op ty) a op ty none)
      (fun s x => fpFlagged s x (.red h d a op ty) (redOf x (.red h d a op ty) a op ty none))
      (fun _ x l z => z.put x.front d.toNat (redOf x (.red h d a op ty) a op ty none l).1) ∧
    CompletesIn (.scan h d a op excl ty) (fun _ x => RedQuiet x (.scan h d a op excl ty) a op ty (some excl))
      (fun s x => fpFlagged s x (.scan h d a op excl ty) (redOf x (.scan h d a op excl ty) a op ty (some excl)))
      (fun _ x l z => z.put x.front d.toNat (redOf x (.scan h d a op excl ty) a op ty (some excl) l).1)

/-- `Claims.LaneExchangeResults` and `Claims.ReductionResults` together. -/
def Obligations.CrossLaneResults : Prop := Claims.LaneExchangeResults ∧ Claims.ReductionResults

/-- TKINS (R394, R395): the pair goes before the first pair that it stands above, a NaN changes nothing; and MFLD (R196, R353): a
tile of 32 rows of 32 bytes in a store whose lines are present, 32-byte aligned, in the carve and under no lock, comes transposed
to lane l: bytes 4k to 4k + 3 of column l, or the halfwords of rows 2k and 2k + 1 of its half of the tile. -/
def Obligations.TopListAndTileResults : Prop :=
  ∀ (h : Hdr) (d a b : BitVec 8) (n : BitVec 4) (imm : BitVec 12) (tag : BitVec 2) (w16 : Bool),
    AsyncWrites (.tkins h d a b n) (fun _ x l =>
      let z := x.lane l
      let cnt := n.toNat + 1
      let old := (List.range cnt).map fun i => (z.get false (d.toNat + 2 * i), z.get false (d.toNat + 2 * i + 1))
      let v := z.get false a.toNat
      let below := fun (p : Nat × Nat) => tkAbove v (z.get false b.toNat) p.1 p.2
      let new := if (FF.f32.decode v).isNan then old
        else (old.takeWhile (fun p => !below p) ++ (v, z.get false b.toNat) :: old.dropWhile fun p => !below p).take cnt
      (List.range cnt).flatMap fun i =>
        [(PReg.g (d.toNat + 2 * i), (new.getD i (0, 0)).1), (PReg.g (d.toNat + 2 * i + 1), (new.getD i (0, 0)).2)]) ∧
    ∀ base : Nat, AsyncWritesIf (.mfld h d b imm tag w16)
      (fun s x => Unhindered s x (.mfld h d b imm tag w16) 0 false (fun _ => false) ∧
        ((x.lane (low (activeOf x (.mfld h d b imm tag w16)))).get false b.toNat : Int) + imm.toInt = base ∧
        base % 32 = 0 ∧ base + 1024 ≤ (s.core x.tm.core).carveBytes tag.toNat ∧
        s.dstLocked x.tm.core (spaceOf tag.toNat) 0 base 1024 = false ∧
        s.poolReady x.tm.core tag.toNat base 1024 x.run.team x.run.grp = true)
      (fun s x l =>
        let byte := fun (r c : Nat) => s.poolRead x.tm.core tag.toNat base 1024 |>.getD (32 * r + c) 0
        (List.range 8).map fun k => (PReg.g (d.toNat + k),
          if w16 then
            let r := 16 * (l / 16) + 2 * k
            leNat [byte r (2 * (l % 16)), byte r (2 * (l % 16) + 1), byte (r + 1) (2 * (l % 16)), byte (r + 1) (2 * (l % 16) + 1)]
          else leNat [byte (4 * k) l, byte (4 * k + 1) l, byte (4 * k + 2) l, byte (4 * k + 3) l]))

/-! ### Control flow -/

/-- BRA, CALL, BRX and RET (R29, R296, R298, R301, R382): the target, the stamp, which rises by one up to its maximum on a taken
BRA or BRX that does not go forward, and CALL's link. Lanes whose register target is not aligned or lies outside the address space
fault with misaligned, and the others of the pack branch. -/
def Claims.BranchResults : Prop :=
  ∀ (h : Hdr) (d a : BitVec 8) (off : BitVec 32),
    let go := fun (x : Ctx) (i : Instr) (bump : Bool) (t : Nat → BitVec 56) (l : Nat) (z : Lane) =>
      if (activeOf x i).contains l then
        { z with
          pc := t l
          stamp := if bump ∧ (t l).toNat ≤ x.pc.toNat ∧ (x.lane l).stamp ≠ 0xFFFF then (x.lane l).stamp + 1 else (x.lane l).stamp
          rep := none, st := .eligible }
      else passed x i z
    let aligned := fun (x : Ctx) (i : Instr) => ∀ l ∈ activeOf x i,
      (x.lane l).get64 x.front a.toNat < 2 ^ 56 ∧ (x.lane l).get64 x.front a.toNat % 8 = 0
    let target := fun (x : Ctx) (l : Nat) => BitVec.ofNat 56 ((x.lane l).get64 x.front a.toNat)
    CompletesTo (.bra h off) (fun _ _ => True) (fun x => go x (.bra h off) true fun _ => x.pc + off.signExtend 56) ∧
    EffectTo (.call h d off) (fun _ _ => True)
      (fun s x => s.onLanes x (activeOf x (.call h d off)) fun _ z => z.put64 x.front d.toNat (x.pc + 16).toNat) (fun _ => [])
      (fun x => go x (.call h d off) false fun _ => x.pc + off.signExtend 56) ∧
    let bad := fun (x : Ctx) (i : Instr) => (activeOf x i).filter fun l =>
      decide (2 ^ 56 ≤ (x.lane l).get64 x.front a.toNat) || (x.lane l).get64 x.front a.toNat % 8 != 0
    let faults := fun (i : Instr) (bump : Bool) => ∀ s x, Issues s x i → bad x i ≠ [] →
      exec i s = .next (s.faults x ((bad x i).map fun l => (l, 0x04)) (go x i bump (target x)))
    CompletesTo (.brx h a) (fun _ x => aligned x (.brx h a)) (fun x => go x (.brx h a) true (target x)) ∧
    CompletesTo (.ret h a) (fun _ x => aligned x (.ret h a)) (fun x => go x (.ret h a) false (target x)) ∧
    faults (.brx h a) true ∧ faults (.ret h a) false

/-- JOIN holds each active lane with its mask, and a JOIN that this satisfies lets its lanes go (R32); NOP only advances (R372);
WAIT goes on where the four counters are at or below its bounds, and else parks its active lanes until they are (R402); REP starts the repetitions of a word that it may stand
before (R275, R276); a lane that exits leaves the group, which may satisfy a JOIN, and the last one finishes the group (R328,
R36). -/
def Claims.FlowResults : Prop :=
  ∀ (h : Hdr) (m : Option (BitVec 8)) (l sc c : BitVec 6) (t : BitVec 4) (n : BitVec 6) (sd sa sb sc' : BitVec 4),
    let joined := fun (x : Ctx) (k : Nat) (z : Lane) =>
      if (activeOf x (.join h m)).contains k then
        { z with
          st := .held, rep := x.run.rep.map (·.ix)
          jmask := match m with
            | some a => BitVec.ofNat 32 ((x.lane k).get false a.toNat)
            | none => BitVec.allOnes 32 }
      else passed x (.join h m) z
    let exited := fun (x : Ctx) (k : Nat) (z : Lane) =>
      if (activeOf x (.exit h)).contains k then { passed x (.exit h) z with st := .exited } else passed x (.exit h) z
    (∀ s x, Issues s x (.join h m) → ∃ fs rs, RunsLeft s rs ∧ (∀ q ∈ fs, q ∈ x.gp.fences) ∧
      exec (.join h m) s = .next ((s.settle x [] (joined x) fs rs).releaseJoins x.run.team x.run.grp)) ∧
    Effect (.nop h) (fun _ _ => True) (fun s _ => s) ∧
    Effect (.wait h l sc c t)
      (fun _ x => x.gp.loads ≤ l.toNat ∧ x.gp.stores ≤ sc.toNat ∧ x.gp.copies ≤ c.toNat ∧ x.gp.tiles ≤ t.toNat) (fun s _ => s) ∧
    EffectTo (.wait h l sc c t)
      (fun _ x => l.toNat < x.gp.loads ∨ sc.toNat < x.gp.stores ∨ c.toNat < x.gp.copies ∨ t.toNat < x.gp.tiles) (fun s _ => s)
      (fun x => activeOf x (.wait h l sc c t)) (fun x k z =>
        if (activeOf x (.wait h l sc c t)).contains k then parked x (.counters l.toNat sc.toNat c.toNat t.toNat) z
        else passed x (.wait h l sc c t) z) ∧
    EffectTo (.rep n sd sa sb sc')
      (fun s x => ∃ w u, s.fetchWord x.tm x.gp (x.pc + 8) = .ok w u ∧ repOk s x.front w sd sa sb sc' = true)
      (fun s x => match s.fetchWord x.tm x.gp (x.pc + 8) with | .ok _ u => u | _ => s) (fun _ => [])
      (fun _ _ z => { z with rep := some 0, st := .eligible }) ∧
    ∀ s x, Issues s x (.exit h) →
      ∃ fs rs, RunsLeft s rs ∧ (∀ q ∈ fs, q ∈ x.gp.fences) ∧
        let u := (s.settle x [] (exited x) fs rs).releaseJoins x.run.team x.run.grp
        ((∃ k < x.gp.lanes.length, ¬(activeOf x (.exit h)).contains k ∧ (x.run.lanes.contains k ∨ (x.gp.lane k).st ≠ .exited)) →
          exec (.exit h) s = .next u) ∧
        (x.gp.finished = false →
          (∀ k < x.gp.lanes.length, (activeOf x (.exit h)).contains k ∨ (¬x.run.lanes.contains k ∧ (x.gp.lane k).st = .exited)) →
          exec (.exit h) s = .next (u.groupFinished x.run.team x.run.grp))

/-- `Claims.BranchResults` and `Claims.FlowResults` together. -/
def Obligations.ControlFlowResults : Prop := Claims.BranchResults ∧ Claims.FlowResults

/-- FENCE and LFENCE (R115, R124): with the fence complete, the pack goes on; LFENCE empties the core's layout-record cache. A
release or fence that covers an access still in flight waits. -/
def Obligations.FenceResults : Prop :=
  ∀ (h : Hdr) (sc : BitVec 3),
    (∀ u, Effect (.fence h sc) (fun s x => Released s x (.fence h sc) (some sc.toNat) false u) (fun _ _ => u)) ∧
    (∀ u, Effect (.lfence h) (fun s x => Released s x (.lfence h) (some 3) false u)
      (fun _ x => u.modCore x.tm.core fun c => { c with lrc := [] })) ∧
    (∀ (s : State) (x : Ctx) (act : List Nat), x.fence? act = none →
      (∃ o ∈ s.ops, o.team = x.run.team ∧ o.grp = x.run.grp ∧ o.id < s.nextId ∧ o.priv = false ∧ o.kind ≠ .evwait ∧ o.got = false ∧
        o.sent = false) →
      ∃ u id, s.fenceStep x act sc.toNat false = (u, some id) ∧ u.mem = s.mem ∧ u.ops = s.ops) ∧
    ∀ (s : State) (x : Ctx) (act : List Nat), x.fence? act = none → s.issuer? = some x →
      (∀ o ∈ s.ops, ¬(o.team = x.run.team ∧ o.grp = x.run.grp)) → (s.core x.tm.core).engine = [] →
      (∀ z ∈ (s.core x.tm.core).l1, z.dirty = 0 ∨ z.priv = true) →
      (2 ≤ sc.toNat → (if 4 ≤ sc.toNat then x.gp.pathPkg = [] else x.gp.pathDie = []) ∧ x.gp.kwct < s.time) →
      (s.fenceStep x act sc.toNat false).2 = none

/-! ### Traps -/

/-- TRAP (R229, R231, R233, R398), in a group outside a handler that is not held at an earlier trap's entry, with frames that
translate and that no store of the group is on its way to, and with a handler for its level: the
group is in its handler at the level that R229 gives it, with the cause; every lane is eligible at the handler's vector with stamp
0; each lane's frame holds its PC, state, stamp and cause; and no register of a lane changes. -/
def Claims.TrapTaken : Prop :=
  ∀ (h : Hdr) (code : BitVec 12) (s : State) (x : Ctx) (es : List TlbE),
    let i : Instr := .trap h code
    Issues s x i → x.front = false → x.gp.es.inh = false → x.gp.es.entry = none → x.gp.spec = false → 4 ≤ x.tm.id.priv →
      x.gp.lanes.length = 32 → s.frameBusy x.tm x.run.team x.run.grp es = false →
      let sup := !(x.tm.hasUser && x.tm.uhdeleg.getLsbD 4)
      (sup = true → s.regs.shvec.extractLsb' 3 53 ≠ 0) → s.frameXlate x.tm x.run.grp 1 x.gp.sup = .ok es →
      ∃ t x' y', exec i s = .next t ∧ t.team? x.run.team = some x' ∧ x'.grp? x.run.grp = some y' ∧
        y'.es.inh = true ∧ y'.es.sup = sup ∧ y'.es.cause = 0x28 ∧ y'.es.entry = none ∧
        (∀ l < 32, ∃ z f, y'.lanes[l]? = some z ∧ y'.es.frames.get? l = some f ∧
          z.st = .eligible ∧ z.stamp = 0 ∧ z.rep = none ∧
          z.pc = (if sup then s.regs.shvec else x.tm.uhvec).extractLsb' 3 53 ++ (0 : BitVec 3) ∧
          z.regs = (x.lane l).regs ∧ z.curs = (x.lane l).curs ∧ z.runs = (x.lane l).runs ∧ z.pend = (x.lane l).pend ∧ z.wpar = (x.lane l).wpar ∧
          ((activeOf x i).contains l → f.w3 = 0x28 ∧ f.w0 = (x.lane l).pc.extractLsb' 0 32 ∧
            f.w1 = 0x04000000 + ((x.lane l).pc.extractLsb' 32 24).setWidth 32 ∧ f.w2 = (x.lane l).stamp.setWidth 32) ∧
          (¬(activeOf x i).contains l → f.w3 = 0)) ∧
        (∀ r ∈ t.runs, ¬(r.team = x.run.team ∧ r.grp = x.run.grp))

/-- TRET (R238, R399), by the whole pack of a group in a handler whose frames are present, not poisoned and as R236 allows, with the
homes of their lines in DRAM ready, or the reads of them elsewhere answered (R97): the group leaves its handler, and each lane takes PC, stamp, repetition and state from its frame's words; lanes held at a JOIN that is
satisfied then go on (R32). -/
def Claims.TrapReturned : Prop :=
  ∀ (h : Hdr) (s : State) (x : Ctx) (es : List TlbE) (e : Nat → TlbE) (b : Nat → List (BitVec 8)),
    let w := fun (k l : Nat) => BitVec.ofNat 32 (leNat (((b k).drop (4 * l)).take 4))
    Issues s x (.tret h) → x.run.lanes = List.range 32 → activeOf x (.tret h) = List.range 32 → x.gp.lanes.length = 32 →
      (∀ o ∈ s.ops, o.team = x.run.team → o.grp = x.run.grp → o.kind = .far) → s.frameXlate x.tm x.run.grp 0 x.gp.sup = .ok es →
      s.frameBusy x.tm x.run.team x.run.grp es = false → s.framePoisoned x.tm x.run.grp es = false →
      (∀ k < 4, es[k]? = some (e k) ∧
        if regionOf ((e k).phys (s.frameVa x.tm x.run.grp k)) = .dram then
          s.loadBytes x.tm.core ((e k).phys (s.frameVa x.tm x.run.grp k)) 128 (e k).attr true = (b k, s)
        else lmFar (s.frameRead x k (e k)) 128 s = .ok (b k, s)) →
      (∀ l < 32, frameOk (x.gp.es.frames.getD l Frame.zero) (w 0 l) (w 1 l) (w 2 l) (w 3 l) = true) →
      (∃ l < 32, (w 1 l).extractLsb' 24 2 ≠ 3) →
      ∃ (t : State) (x' : Team) (y' : Group), exec (.tret h) s = .next (t.releaseJoins x.run.team x.run.grp) ∧ t.team? x.run.team = some x' ∧
        x'.grp? x.run.grp = some y' ∧ t.mem = s.mem ∧
        y'.es.inh = false ∧ y'.es.sup = false ∧
        ∀ l < 32, ∃ z, y'.lanes[l]? = some z ∧
          z.pc = (w 1 l).extractLsb' 0 24 ++ w 0 l ∧ z.stamp = (w 2 l).extractLsb' 0 16 ∧
          z.rep = (if (w 1 l).getLsbD 27 then some ((w 2 l).extractLsb' 16 6).toNat else none) ∧
          z.st = (if (w 1 l).extractLsb' 24 2 = 3 then LSt.exited else if (w 1 l).extractLsb' 24 2 = 2 then .held else .eligible) ∧
          z.regs = (x.lane l).regs ∧ z.curs = (x.lane l).curs ∧ z.runs = (x.lane l).runs ∧ z.pend = (x.lane l).pend ∧ z.wpar = (x.lane l).wpar

/-- `Claims.TrapTaken` and `Claims.TrapReturned` together. -/
def Obligations.TrapsTakenAndReturned : Prop := Claims.TrapTaken ∧ Claims.TrapReturned

/-! ### Barrier registers and the cluster phase -/

/-- BINIT, BXPC, BQRY and BARV (R134, R291, R294, R295, R300): the update that each gives its register in its core cycle, with
values of the lowest active lane; the word that BQRY reads, which is that of the end of the last cycle; and the effect of an arrival on
the stamps (R29), once the release at .team of BARV is complete. What the updates of a cycle do together, `Claims.BarrierUpdates`
says. That BARV resets the stamps of the pack's active lanes, where R291 says the pack's lanes, is the model's choice (log entry 15). -/
def Claims.BarrierResults : Prop :=
  ∀ (h : Hdr) (n : BitVec 4) (a b d : BitVec 8) (hi : Bool),
    let given := fun (x : Ctx) (s : State) (u : BarUpd) =>
      s.onTeam x fun m => { m with bars := m.bars.set n.toNat { m.bar n.toNat with upds := (m.bar n.toNat).upds ++ [u] } }
    Effect (.binit h n a b) (fun _ _ => True) (fun s x =>
      let z := x.lane (low (activeOf x (.binit h n a b)))
      given x s (.init (BitVec.ofNat 8 (z.get x.front a.toNat)) (BitVec.ofNat 32 (z.get x.front b.toNat)))) ∧
    Effect (.bxpc h n a b) (fun _ _ => True) (fun s x =>
      let z := x.lane (low (activeOf x (.bxpc h n a b)))
      given x s (.expect (z.get x.front a.toNat % 2 ^ 8) (z.get x.front b.toNat % 2 ^ 32))) ∧
    Completes (.bqry h d n hi) (fun _ x _ z =>
      let r := x.tm.bar n.toNat
      z.put64 x.front d.toNat (if hi then (r.arrb ++ r.expb).toNat
        else (0#1 ++ r.cfcode ++ r.arrmask ++ r.cfcause ++ BitVec.ofBool r.cfail ++ BitVec.ofBool r.nprod ++
          BitVec.ofBool r.phase ++ r.arra ++ r.expa).toNat)) ∧
    ∀ u, Effect (.barv h n) (fun s x => Released s x (.barv h n) (some 1) true u) (fun _ x =>
      given x (u.onLanes x (activeOf x (.barv h n)) fun _ z => { z with stamp := 0 }) (.arrive x.run.grp))

/-- What a barrier register holds after the updates of one core cycle (R34, R134, R135, R294, R300): a BINIT comes before every other
update; arrivals, bytes and expectations are added up, saturating, a member counting once in a phase however often it arrives; NPROD and CFAIL are sticky, and of
the failures of a cycle the one of the lowest cause, then of the lowest window, is recorded; then the register is tested once, where a
count, an expectation or a first arrival was among the updates. That the two sticky bits call for no test, and that of
several BINITs of a cycle the last given stands, are the model's choices (log entry 131). -/
def Claims.CycleOfUpdates : Prop :=
  ∀ (b0 : Bar) (us : List BarUpd),
    let member := fun (u : BarUpd) => match u with
      | .arrive w => some w
      | _ => none
    let isInit := fun (u : BarUpd) => match u with
      | .init .. => true
      | _ => false
    let failure := fun (u : BarUpd) => match u with
      | .fail win cause code => some (cause, win, code)
      | _ => none
    -- members, causes and codes are those of the register's fields
    (∀ w ∈ us.filterMap member, w < 33) → (∀ k ∈ us.filterMap failure, k.1 < 8 ∧ k.2.2 < 256) →
    ∃ base : Bar,
      (us.all (fun u => !isInit u) = true → base = { b0 with upds := [] }) ∧
      (∀ l r ea eb, us = l ++ .init ea eb :: r → r.all (fun u => !isInit u) = true →
        base = ⟨ea, 0, false, false, false, 0, 0, 0, eb, 0, []⟩) ∧
      let first := fun (u : BarUpd) => match u with
        | .arrive w => !base.arrmask.getLsbD w
        | _ => false
      let arr := fun (u : BarUpd) => match u with
        | .count a _ => a
        | _ => 0
      let members := (us.filterMap member).eraseDups.filter fun w => !base.arrmask.getLsbD w
      let bytes := fun (u : BarUpd) => match u with
        | .count _ n => n
        | _ => 0
      let more := fun (u : BarUpd) => match u with
        | .expect a n => (a, n)
        | _ => (0, 0)
      let tested := us.any fun u => match u with
        | .count .. | .expect .. => true
        | _ => first u
      ∃ r : Bar,
        r.arra.toNat = min 255 (base.arra.toNat + (us.map arr).sum + members.length) ∧
        r.arrb.toNat = min (2 ^ 32 - 1) (base.arrb.toNat + (us.map bytes).sum) ∧
        r.expa.toNat = min 255 (base.expa.toNat + (us.map fun u => (more u).1).sum) ∧
        r.expb.toNat = min (2 ^ 32 - 1) (base.expb.toNat + (us.map fun u => (more u).2).sum) ∧
        (∀ w < 33, r.arrmask.getLsbD w = (base.arrmask.getLsbD w || us.contains (.arrive w))) ∧
        r.nprod = (base.nprod || us.contains .never) ∧ r.phase = base.phase ∧ r.upds = [] ∧
        r.cfail = (base.cfail || us.any fun u => (failure u).isSome) ∧
        (base.cfail = true ∨ us.filterMap failure = [] → r.cfcause = base.cfcause ∧ r.cfcode = base.cfcode) ∧
        (base.cfail = false → us.filterMap failure ≠ [] → ∃ k ∈ us.filterMap failure,
          r.cfcause.toNat = k.1 ∧ r.cfcode.toNat = k.2.2 ∧
          ∀ q ∈ us.filterMap failure, k.1 < q.1 ∨ (k.1 = q.1 ∧ k.2.1 ≤ q.2.1)) ∧
        let met := tested = true ∧ r.expa.toNat ≤ r.arra.toNat ∧ r.expb.toNat ≤ r.arrb.toNat
        ({ b0 with upds := us } : Bar).settle =
          (if met then { r with arra := r.arra - r.expa, arrb := r.arrb - r.expb, phase := !r.phase, arrmask := 0 } else r)

/-- The end of a core cycle at a barrier register (R130, R135, R294, R299): the register takes what its updates make of it; a BINIT
clears its wait parities in every lane and in the front thread; an advance makes the empty buffer windows counted on it full; and of the
lanes that wait on a register without a failure those whose parity differs from the phase go on, while every other lane stays as it
was. -/
def Claims.BarrierUpdates : Prop :=
  ∀ (s : State) (t n : Nat) (x : Team), s.team? t = some x → (x.bar n).upds ≠ [] →
    let b := x.bar n
    let r := b.settle
    let bit := BitVec.ofNat 16 (2 ^ n)
    let clear := fun (l : Lane) => if (∃ ea eb, BarUpd.init ea eb ∈ b.upds) then { l with wpar := l.wpar &&& ~~~bit } else l
    let x1 := { x with
      bars := x.bars.set n r
      grps := x.grps.map fun p => (p.1, { p.2 with lanes := p.2.lanes.map clear })
      wins := if b.advances = true then x.wins.map fun p =>
          (p.1, if p.2.buffer ∧ p.2.bar = n ∧ p.2.st = .empty ∧ p.2.owner = none then { p.2 with st := .full } else p.2)
        else x.wins }
    ((∀ p ∈ x.grps, ∀ l ∈ p.2.lanes, l.st ≠ .parked (.barrier n)) →
      s.settleBar t n = { s with teams := s.teams.set t x1 }) ∧
    (r.cfail = false → r.nprod = false → ∃ x2, (s.settleBar t n).team? t = some x2 ∧
      x2.bars = x1.bars ∧ x2.wins = x1.wins ∧ (s.settleBar t n).mem = s.mem ∧
      ∀ g y, x.grp? g = some y → ∃ y', x2.grp? g = some y' ∧ y' = { y with
        lanes := (y.lanes.map clear).map fun l =>
          if l.st = .parked (.barrier n) ∧ l.wpar.getLsbD n ≠ r.phase then
            { l with
              st := .eligible, pc := l.pc + 8
              wpar := if r.phase then l.wpar ||| bit else l.wpar &&& ~~~bit }
          else l })

/-- `Claims.BarrierResults`, `Claims.CycleOfUpdates` and `Claims.BarrierUpdates` together.
The model's choices: BARV resets the stamps of the active lanes (log entry 15), and which of two updates of one cycle stands (log entry
131). -/
def Obligations.BarrierRegisters : Prop := Claims.BarrierResults ∧ Claims.CycleOfUpdates ∧ Claims.BarrierUpdates

/-- BWAIT on a register without a failure (R299): each active lane whose parity differs from the phase goes on with the phase as its
parity, and the others park. CLBAR (R29, R310): the group is marked arrived, the stamps are 0, and the active lanes park until the
swap; CLUSTER_SWAP, where every team of the cluster has arrived and every XST of the phase is acknowledged, lets them go on,
clears the marks, and exchanges the visible and the shadow bank of each core that holds an exchange area of the cluster (R125, R404):
what lay at 0x8000 to 0xFFFF lies at 0x0000 to 0x7FFF and the other way round, and nothing else of a core changes. -/
def Obligations.PhaseWaits : Prop :=
  ∀ (h : Hdr) (n : BitVec 4),
    EffectTo (.bwait h n) (fun _ x => (x.tm.bar n.toNat).cfail = false ∧ (x.tm.bar n.toNat).nprod = false) (fun s _ => s)
      (fun x => (activeOf x (.bwait h n)).filter fun l => (x.lane l).wpar.getLsbD n.toNat == (x.tm.bar n.toNat).phase)
      (fun x l z =>
        let ph := (x.tm.bar n.toNat).phase
        if (activeOf x (.bwait h n)).contains l then
          if (x.lane l).wpar.getLsbD n.toNat ≠ ph then
            { passed x (.bwait h n) z with
              wpar := if ph then z.wpar ||| BitVec.ofNat 16 (2 ^ n.toNat) else z.wpar &&& ~~~BitVec.ofNat 16 (2 ^ n.toNat) }
          else parked x (.barrier n.toNat) z
        else passed x (.bwait h n) z) ∧
    EffectTo (.clbar h) (fun _ _ => True) (fun s x => s.onGrp x fun y => { y with clArr := true })
      (fun x => activeOf x (.clbar h)) (fun x l z =>
      if (activeOf x (.clbar h)).contains l then { parked x .clbar z with stamp := 0 } else passed x (.clbar h) z) ∧
    ∀ (s : State) (t : Nat) (x : Team), s.team? t = some x → s.swapReady x = true →
      ∃ s', exec (.clusterSwap t) s = .next s' ∧ s'.mem = s.mem ∧
        (∀ c, ((s.cluster x).filter fun p => p.2.id.exch && p.2.core == c).length = 1 → (s.core c).xst.wf = true →
          (s'.core c).xst.wf = true ∧ s'.core c = { s.core c with xst := (s'.core c).xst } ∧
          ∀ a, (s'.core c).xst.read a =
            (s.core c).xst.read (if a < 0x8000 then a + 0x8000 else if a < 0x10000 then a - 0x8000 else a)) ∧
        (∀ c, (∀ p ∈ s.cluster x, p.2.id.exch = true → p.2.core ≠ c) → s'.core c = s.core c) ∧
        ∀ q z, s.team? q = some z → (q, z) ∈ s.cluster x → (s.cluster x).Pairwise (fun a b => a.1 ≠ b.1) →
          ∃ z', s'.team? q = some z' ∧ z' = { z with grps := z.grps.map fun p => (p.1, { p.2 with
            clArr := false
            lanes := p.2.lanes.map fun l =>
              if l.st = .parked .clbar then
                match l.rep with
                | some i => { l with st := .eligible, rep := some (i + 1) }
                | none => { l with st := .eligible, pc := l.pc + 8 }
              else l }) }

/-! ### Loads, stores, atomics and event words -/

/-- LD, LDP and PRSQ (R92 to R94, R343 to R345, R377): where every active lane's address translates and nothing of the group is in
the way, one access per lane starts (two for a 64-bit private load), at the physical address of the lane's address, with the
registers that its value goes to; it is counted once in LOADS. -/
def Claims.LoadsStart : Prop :=
  ∀ (h : Hdr) (w : Width) (sx : Bool) (ord : Option (BitVec 3)) (d b : BitVec 8) (cur : BitVec 3) (imm : BitVec 12),
    let regs : List PReg := if w = .b64 then [.g d.toNat, .g (d.toNat + 1)] else [.g d.toNat]
    let load := fun (x : Ctx) (l va : Nat) (e : TlbE) (n : Nat) (priv : Bool) (acq : Option (BitVec 3)) =>
      { Op.mk0 x l .load va e n with
        priv, sext := sx, acq := acq.isSome, scope := (acq.map (·.toNat)).getD 0
        data := (x.gp.bufBytes (e.phys va) n).1, cmp := (x.gp.bufBytes (e.phys va) n).2 }
    AccessStarts (.ld h w sx ord d cur b imm) (fun _ => 0) none (globalPart cur b imm w.bytes 0 true)
      (fun x p => [(load x p.1 p.2.1 p.2.2 w.bytes false ord, regs)]) ∧
    AccessStarts (.ldp h w sx d b imm) (fun _ => 0) none (privPart b imm w.bytes 0)
      (fun x p => (List.range p.2.length).filterMap fun i =>
        (p.2[i]?).map fun q => (load x p.1 q.1 q.2.1 q.2.2 true none, [PReg.g (d.toNat + i)])) ∧
    AccessStarts (.prsq h d cur b imm) (fun _ => 0) none (globalPart cur b imm 1 4 false)
      (fun x p => [(Op.mk0 x p.1 .presence p.2.1 p.2.2 1, [.g d.toNat])])

/-- ST, STP and XST (R92 to R94, R391, R392, R405), after the release that ST's order asks for: one store per lane starts (one for
each word of a private store, and none in a speculative group, which buffers them), with the low bits of the lane's data, counted
once in STORES; that a buffered store holds a token that is counted from its commit on only is the model's choice (log entry 40). XST comes after the lane's earlier loads have their values (R111). -/
def Claims.StoresStart : Prop :=
  ∀ (h : Hdr) (w : Width) (ord : Option (BitVec 3)) (d b : BitVec 8) (cur : BitVec 3) (imm : BitVec 12),
    let data := fun (x : Ctx) (l : Nat) => BitVec.ofNat 64
      (if w = .b64 then (x.lane l).get64 false d.toNat else (x.lane l).get false d.toNat % 2 ^ (8 * w.bytes))
    AccessStartsIn (.st h w ord d cur b imm) (fun _ _ => True) (fun _ => 1) (fun x => x.gp.spec) (fun _ _ => true)
      (ord.map (·.toNat)) (stPart w ord d cur b imm) (fun _ _ u => u)
      (fun x p => if x.gp.spec then [] else
        [({ Op.mk0 x p.1 .store p.2.1 p.2.2 w.bytes with
            data := data x p.1, rel := ord.isSome, scope := (ord.map (·.toNat)).getD 0 }, [])]) ∧
    AccessStartsIn (.stp h w d b imm) (fun _ _ => True) (fun _ => 1) (fun x => x.gp.spec) (fun _ _ => true) none
      (stpPart w d b imm) (fun _ _ u => u)
      (fun x p => if x.gp.spec then [] else
        p.2.map fun q => ({ Op.mk0 x p.1 .store q.1 q.2.1 q.2.2.1 with data := q.2.2.2, priv := true }, [])) ∧
    AccessStartsIn (.xst h w d b imm) (fun s x => ∀ l ∈ activeOf x (.xst h w d b imm), s.loadsPending x l = false) (fun _ => 1)
      (fun _ => false) (fun _ _ => true) none (xstPart w b imm) (fun _ _ u => u)
      (fun x p =>
        [({ Op.mk0 x p.1 .xst p.2.1 ⟨0, 0, 0, 0, true, true, false, true, 0, false, false, 0⟩ w.bytes with
            pa := p.2.2, data := data x p.1, hold := x.gp.clArr }, [])])

/-- `Claims.LoadsStart` and `Claims.StoresStart` together.
The model's choice: a buffered store gives a token that is counted from its commit on (log entry 40). -/
def Obligations.AccessesStart : Prop := Claims.LoadsStart ∧ Claims.StoresStart

/-- ATOM, EVSIG and CCTL (R288, R289, R306, R325), after the release they ask for. ATOM's operation, compare value and value come from
its registers, and it is counted in LOADS where some lane returns its old value, else in STORES; EVSIG adds as a release at its scope,
the front thread's at .sys; CCTL sets eviction priorities and prefetches at once, which no counter counts, and cleans and drops as
stores of the lane. -/
def Obligations.AtomicsStart : Prop :=
  ∀ (h : Hdr) (w64 acq rel : Bool) (sc cur : BitVec 3) (d b a : BitVec 8) (imm : BitVec 12),
    let word := fun (x : Ctx) (l : Nat) => (x.lane l).get false (d.toNat + if w64 then 4 else 2)
    let returns := fun (x : Ctx) (l : Nat) => (word x l / 16) % 2 = 0
    let add := fun (x : Ctx) (p : Nat × (Nat × TlbE)) (scope v : Nat) =>
      ({ Op.mk0 x p.1 .atomic p.2.1 p.2.2 8 with data := BitVec.ofNat 64 v, opc := 0, scope, rel := true }, ([] : List PReg))
    AccessStarts (.atom h w64 acq rel sc d cur b imm)
      (fun x => if ∃ l ∈ activeOf x (.atom h w64 acq rel sc d cur b imm), returns x l then 0 else 1)
      (if rel then some sc.toNat else none) (atomPart w64 d cur b imm)
      (fun x p =>
        let z := x.lane p.1
        [({ Op.mk0 x p.1 .atomic p.2.1 p.2.2 (if w64 then 8 else 4) with
            data := BitVec.ofNat 64 (if w64 then z.get64 false d.toNat else z.get false d.toNat)
            cmp := BitVec.ofNat 64 (if w64 then z.get64 false (d.toNat + 2) else z.get false (d.toNat + 1))
            opc := word x p.1 % 16, scope := sc.toNat, acq, rel },
          if returns x p.1 then (if w64 then [.g d.toNat, .g (d.toNat + 1)] else [.g d.toNat]) else [])]) ∧
    AccessStarts (.evsig h d cur sc b imm) (fun _ => 1) (some sc.toNat) (globalPart cur b imm 8 2 true)
      (fun x p => [add x p sc.toNat ((x.lane p.1).get false d.toNat)]) ∧
    AccessStarts (.evsigFront h d a) (fun _ => 1) (some 5) (frontPart a 8 2)
      (fun x p => [add x p 5 ((x.lane p.1).get true d.toNat)]) ∧
    AccessStartsIn (.cctl h d cur b imm) (fun _ _ => True) (fun _ => 1) (fun _ => false)
      (fun x l => (x.lane l).get false d.toNat % 8 == 1 || (x.lane l).get false d.toNat % 8 == 2) none
      (cctlPart d cur b imm) (fun x oks u => oks.foldl (cctlNow x d) u)
      (fun x p =>
        match p.2, (x.lane p.1).get false d.toNat % 8 with
        | some (va, e), 1 => [({ Op.mk0 x p.1 .clean (va / 128 * 128) e 128 with opc := 1 }, [])]
        | some (va, e), 2 => [({ Op.mk0 x p.1 .clean (va / 128 * 128) e 128 with opc := 2 }, [])]
        | _, _ => [])

/-- EVWAIT (R324, R326): every active lane parks at the instruction on an operation that reads its event word at the lane's address and
waits for the threshold in D, as its part of the instruction that LOADS counts; nothing is written and no register changes. -/
def Obligations.EventWaits : Prop :=
  ∀ (h : Hdr) (d b a : BitVec 8) (cur sc : BitVec 3) (imm : BitVec 12),
    let waits := fun (i : Instr) (part : Ctx → Nat → LM (Nat × TlbE)) (scope : Nat) (th : Ctx → Nat → Nat) =>
      ∀ s x oks s1, Issues s x i → Unhindered s x i 0 false (fun _ => true) →
        PartsOk part (s.counted x i 0 false fun _ => true) x i oks s1 →
        ∃ t x' y', exec i s = .next t ∧ t.mem = s1.mem ∧ t.cores = s1.cores ∧ t.dies = s1.dies ∧
          t.team? x.run.team = some x' ∧ x'.grp? x.run.grp = some y' ∧ y'.loads ≤ x.gp.loads + 1 ∧
          y'.stores ≤ x.gp.stores ∧ y'.copies ≤ x.gp.copies ∧ y'.tiles ≤ x.gp.tiles ∧
          ∀ p ∈ oks, ∃ z o, y'.lanes[p.1]? = some z ∧ o ∈ t.ops ∧
            z = { parked x (.event o.id) (x.lane p.1) with held := z.held } ∧ z.held.map (·.tok) = o.tok ∧
            o.kind = .evwait ∧ o.team = x.run.team ∧ o.grp = x.run.grp ∧ o.lane = p.1 ∧ o.va = p.2.1 ∧ o.pa = p.2.2.phys p.2.1 ∧
            o.width = 8 ∧ o.data = BitVec.ofNat 64 (th x p.1) ∧ o.cmp = d.setWidth 64 ∧ o.scope = scope
    waits (.evwait h d cur sc b imm) (globalPart cur b imm 8 0 true) sc.toNat (fun x l => (x.lane l).get64 false d.toNat) ∧
    waits (.evwaitFront h d a) (frontPart a 8 0) 5 (fun x l => (x.lane l).get true d.toNat)

/-- What an instruction's lanes hold of it (R81): listed lanes that hold nothing yet each take a part of one new token of the
instruction's wait counter, which rises by one where the instruction is counted; nothing else changes. -/
def Claims.PartsTaken : Prop :=
  ∀ (s : State) (x : Ctx) (k : Nat) (counted : Bool) (ls : List Nat) (m : Team) (y : Group),
    s.team? x.run.team = some m → m.grp? x.run.grp = some y → ls.Nodup → ls ≠ [] → (∀ l ∈ ls, (y.lane l).held = none) →
      let y1 := { (if counted then y.modCtr k (· + 1) else y) with
        toks := y.toks.set s.nextId ⟨k, ls.length, counted⟩
        lanes := (List.range y.lanes.length).map fun l =>
          if ls.contains l then { y.lane l with held := some ⟨s.nextId, x.pc, x.run.rep.map (·.ix)⟩ } else y.lane l }
      s.takeParts x k counted ls =
        { s with nextId := s.nextId + 1, teams := s.teams.set x.run.team { m with grps := m.grps.set x.run.grp y1 } }

/-- What starting accesses does (R57, R81): the accesses join those in flight in order, under fresh identifiers, each one part more
of the token that its lane holds; the registers that a value goes to wait for it in the lane; nothing else changes. -/
def Claims.AccessesJoin : Prop :=
  ∀ (s : State) (x : Ctx) (l : List Start) (m : Team) (y : Group),
    s.team? x.run.team = some m → m.grp? x.run.grp = some y → (∀ p ∈ l, p.1.lane < y.lanes.length) →
      let tok := fun (p : Start) => (y.lane p.1.lane).held.map (·.tok)
      ∃ (new : List Op) (ls : List Lane) (tk : Tab Tok) (n : Nat),
        (let y1 := { y with toks := tk, lanes := ls }
         let m1 := { m with grps := m.grps.set x.run.grp y1 }
         s.start x l = { s with ops := s.ops ++ new, nextId := n, teams := s.teams.set x.run.team m1 }) ∧
        new.length = l.length ∧ ls.length = y.lanes.length ∧
        (∀ k, tk.getD k ⟨0, 0, true⟩ =
          { y.toks.getD k ⟨0, 0, true⟩ with
            left := (y.toks.getD k ⟨0, 0, true⟩).left + (l.filter fun p => tok p == some k).length }) ∧
        (∀ (j : Nat) (p : Start), l[j]? = some p → ∃ o : Op, new[j]? = some o ∧ s.nextId ≤ o.id ∧ o.id < n ∧
          o = { p.1 with id := o.id, tok := tok p, pend := o.pend } ∧ (p.2 = [] → o.pend = p.1.pend) ∧
          (p.2 ≠ [] → ∃ (q : Pend) (z : Lane), o.pend = some q.id ∧ ls[p.1.lane]? = some z ∧ q ∈ z.pend ∧ q.regs = p.2.map (fun r => (r, 0)) ∧
            q.ready = false ∧ q.tok = tok p)) ∧
        ∀ (j : Nat) (z : Lane), ls[j]? = some z → ∃ ps, z = { y.lane j with pend := (y.lane j).pend ++ ps } ∧ (ps ≠ [] → ∃ p ∈ l, p.1.lane = j)

/-- The addresses of accesses (R92, R124, R343): a private, exchange or front-thread address is found without any change of the
machine; and finding an address through a cursor changes no register of a lane, and nothing at all where the layout records it needs
are in the core's cache. -/
def Claims.AddressesKeepLanes : Prop :=
  ∀ (s s1 : State) (x : Ctx) (l n kind : Nat) (cur : BitVec 3) (b a : BitVec 8) (imm : BitVec 12) (lock : Bool) (w : Width),
    (∀ r, privPart b imm n kind x l s = .ok (r, s1) → s1 = s) ∧ (∀ r, frontPart a n kind x l s = .ok (r, s1) → s1 = s) ∧
    (∀ r, xstPart w b imm x l s = .ok (r, s1) → s1 = s) ∧
    (∀ r, globalPart cur b imm n kind lock x l s = .ok (r, s1) →
      s1.ops = s.ops ∧ s1.time = s.time ∧ s1.runs = s.runs ∧
      (∀ t g y, s.grp? t g = some y → ∃ y', s1.grp? t g = some y' ∧ y'.lanes = y.lanes ∧ y'.fences = y.fences ∧ y'.toks = y.toks) ∧
      (let c := Cur.of ((x.lane l).cur cur.toNat)
       let key := fun (va : Nat) => x.tm.id.asid * 2 ^ 56 + va
       ((s.core x.tm.core).lrc.get? (key (recordVa x c.handle)) ≠ none →
        (s.core x.tm.core).lrc.get? (key ((recordVa x c.handle + 0x40 + 0x40 * c.level) % 2 ^ 56)) ≠ none → s1 = s)))

/-! ### The store pool and region windows -/

/-- LDS and STS (R91, R122, R131, R346, R393): where every active lane's bytes lie in the store's carve, aligned, under no lock that
forbids the access and present, LDS gives each lane the bytes of its offset, zero- or sign-extended, and STS puts each lane's data at its
offset, in lane order; LDS is counted in LOADS and STS in STORES (R80, R81). A speculative group stores to buffer windows that its task
owns or takes (R223). -/
def Obligations.PoolAccesses : Prop :=
  ∀ (h : Hdr) (w : Width) (sx : Bool) (tag : BitVec 2) (d b : BitVec 8) (imm : BitVec 12) (at_ : Nat → Nat),
    let open_ := fun (s : State) (x : Ctx) (i : Instr) (store : Bool) => ∀ l ∈ activeOf x i,
      ((x.lane l).get false b.toNat : Int) + imm.toInt = at_ l ∧ at_ l + w.bytes ≤ (s.core x.tm.core).carveBytes tag.toNat ∧
      at_ l % w.bytes = 0 ∧ s.lockHit x.tm.core (spaceOf tag.toNat) 0 (at_ l) w.bytes store = false ∧
      s.poolReady x.tm.core tag.toNat (at_ l) w.bytes x.run.team x.run.grp = true
    let value := fun (v : Nat) => if sx then ((BitVec.ofNat (8 * w.bytes) v).signExtend 32).toNat else v
    let regs := fun (v : Nat) => if w = .b64 then [(PReg.g d.toNat, v % 2 ^ 32), (.g (d.toNat + 1), v / 2 ^ 32)] else [(.g d.toNat, v % 2 ^ 32)]
    let data := fun (z : Lane) => leBytes w.bytes
      (if w = .b64 then z.get64 false d.toNat else z.get false d.toNat % 2 ^ (8 * w.bytes))
    Effect (.lds h w sx tag d b imm)
      (fun s x => Unhindered s x (.lds h w sx tag d b imm) 0 false (fun _ => true) ∧ open_ s x (.lds h w sx tag d b imm) false)
      (fun s x => (activeOf x (.lds h w sx tag d b imm)).foldl (fun v l =>
          let r := v.lanePart x l
          (r.2.addPend x.run.team x.run.grp l
            (regs (value (leNat (s.poolRead x.tm.core tag.toNat (at_ l) w.bytes)))) true r.1).2)
        (s.counted x (.lds h w sx tag d b imm) 0 false fun _ => true)) ∧
    Effect (.sts h w tag d b imm)
      (fun s x => Unhindered s x (.sts h w tag d b imm) 1 false (fun _ => true) ∧ open_ s x (.sts h w tag d b imm) true ∧
        (∀ l ∈ activeOf x (.sts h w tag d b imm), s.loadsPending x l = false) ∧
        (x.gp.spec = true → ∀ l ∈ activeOf x (.sts h w tag d b imm), (s.ownWin x tag.toNat (at_ l) w.bytes).isSome = true))
      (fun s x =>
        let u := (activeOf x (.sts h w tag d b imm)).foldl (fun v l =>
          let v1 := if x.gp.spec then (match v.ownWin x tag.toNat (at_ l) w.bytes with | some k => v.takeWin x k | none => v) else v
          v1.modCore x.tm.core fun z => z.poolPut tag.toNat (at_ l) (data (x.lane l)))
          (s.counted x (.sts h w tag d b imm) 1 false fun _ => true)
        u.start x ((activeOf x (.sts h w tag d b imm)).map fun l =>
          (Op.mk0 x l .sts (at_ l) ⟨0, 0, 0, 0, true, true, false, true, 0, false, false, 0⟩ w.bytes, [])))

/-- RGNSET, RGNCLR and TOUCH (R128 to R130, R383, R384, R397), where the window may change: a valid descriptor declares the window, a
buffer empty with every line present, any other absent; RGNCLR abandons its copies and makes it absent or undeclares it; TOUCH does
nothing to a buffer or to a window that fills or is predicted, and else queues the window's copy, counted in COPIES. -/
def Obligations.WindowResults : Prop :=
  ∀ (h : Hdr) (w : BitVec 5) (cd ca : BitVec 3) (b : BitVec 8) (imm : BitVec 12) (und : Bool),
    (∀ s x u bs, Issues s x (.rgnset h w cd ca b imm) → Unhindered s x (.rgnset h w cd ca b imm) 0 false (fun _ => true) →
      s.winFree x.tm w.toNat 0 = true →
      rgnsetPart cd b imm x (low (activeOf x (.rgnset h w cd ca b imm)))
        (s.counted x (.rgnset h w cd ca b imm) 0 false fun _ => true) = .ok (bs, u) →
      let d := fun (k : Nat) => BitVec.ofNat 64 (leNat ((bs.drop (8 * k)).take 8))
      u.descOk x.tm.core x.run.team w.toNat (d 0) (d 1) (d 2) (d 3) = true →
      let buffer := (d 0).getLsbD 2
      let n := 128 * ((d 1).extractLsb' 32 14).toNat
      let v : Win :=
        { st := if buffer then .empty else .absent
          cur := (x.lane (low (activeOf x (.rgnset h w cd ca b imm)))).cur ca.toNat
          d0 := d 0, d1 := d 1, d2 := d 2, d3 := d 3, pres := if buffer then 2 ^ ((n + 127) / 128) - 1 else 0
          f := false, level := 0, stag := none, owner := none, unsent := 0 }
      ∃ fs rs, RunsLeft s rs ∧ exec (.rgnset h w cd ca b imm) s =
        .next ((u.onTeam x fun m => { m with wins := m.wins.set w.toNat v }).settle x []
          (fun _ z => passed x (.rgnset h w cd ca b imm) z) fs rs)) ∧
    Effect (.rgnclr h w und)
      (fun s x => (x.tm.win? w.toNat).isSome = true ∧ s.winFree x.tm w.toNat 1 = true ∧
        ∀ e, x.tm.entryOf w.toNat = some e → e.header = false)
      (fun s x =>
        let s0 := match x.tm.entryOf w.toNat with
          | some e => s.cancelEntry x.run.team e
          | none => s
        let s1 := s0.abandonWin x.tm.core x.run.team w.toNat
        let s2 := s1.setWin x.run.team w.toNat fun z => { z with st := .absent, level := 0, stag := none }
        if und then s2.onTeam x fun m => { m with wins := m.wins.erase w.toNat } else s2) ∧
    Effect (.touch h w)
      (fun _ x => ∃ z, x.tm.win? w.toNat = some z ∧ (z.buffer = true ∨ z.st = .filling ∨ z.st = .predicted)) (fun s _ => s) ∧
    ∀ s x z, Issues s x (.touch h w) → x.tm.win? w.toNat = some z → z.buffer = false → z.st ≠ .filling → z.st ≠ .predicted →
      s.winFree x.tm w.toNat 2 = true → x.gp.copies < 63 →
      let s1 := (s.newTok x.run.team x.run.grp 2 1).2.startCopy x.run.team w.toNat (some (x.run.grp, s.nextId)) x.run.grp
      s.lockRoom x.tm.core (s1.newRanges x.tm.core) = true →
      ∃ fs rs, RunsLeft s rs ∧ exec (.touch h w) s =
        .next ((s1.lockCopies x.tm.core).settle x [] (fun _ z => passed x (.touch h w) z) fs rs)

/-! ### Accesses perform at their homes -/

/-- Byte memory: after bytes are written from an address on, each of those addresses reads as the byte written there and every other
address as before; and the memory stays in its canonical form. -/
def Claims.MemoryBytes : Prop :=
  ∀ (m : Mem) (a k : Nat) (bs : List (BitVec 8)), m.wf = true →
    (m.writeN a bs).wf = true ∧
    (m.writeN a bs).read k = if a ≤ k ∧ k < a + bs.length then bs.getD (k - a) 0 else m.read k

/-- `Claims.PartsTaken`, `Claims.AccessesJoin`, `Claims.AddressesKeepLanes` and `Claims.MemoryBytes` together. -/
def Obligations.MemoryOfLanes : Prop := Claims.PartsTaken ∧ Claims.AccessesJoin ∧ Claims.AddressesKeepLanes ∧ Claims.MemoryBytes

/-- STORE_AT_HOME of a store to DRAM that is no release beyond its team (R95, R109, R113): on a page with ALLOC below 2 the bytes are
written at the L3 home and nowhere else, but that a compressible block is compressed again (R103); on other pages they are written into
the L2 line, whose bytes wait to be forwarded for their group, or, for a plain store to a write-back page whose line the L1 holds, into
the L1 line alone, whose bytes become dirty; the store leaves. -/
def Claims.PlainStores : Prop :=
  ∀ (s : State) (o : Op), s.ops.find? (fun q => q.id == o.id) = some o → o.kind = .store → regionOf o.pa = .dram →
    s.storeReady o = true → (o.rel = false ∨ o.scope ≤ 1) →
    let bs := leBytes o.width o.data.toNat
    let line := o.pa / 128
    let left := s.ops.filter fun q => q.id != o.id
    let l1 : Bool := 3 ≤ o.alloc && o.attr.wb && !o.rel
    let code := (s.codePlace o.pa).1
    (o.alloc < 2 → o.attr.cmp = false → ∃ t, exec (.storeAtHome o.id) s = .next t ∧ t.mem = s.mem.writeN o.pa bs ∧ t.ops = left ∧
      t.cores = s.cores ∧ t.regs = s.regs ∧ ∀ d, (t.die d).l2 = (s.die d).l2 ∧ (t.die d).fwd = (s.die d).fwd) ∧
    (o.alloc < 2 → o.attr.cmp = true → s.Inv → code / 512 ≠ o.pa / 512 → o.pa % 512 + o.width ≤ 512 →
      ∃ t, exec (.storeAtHome o.id) s = .next t ∧ (∀ k < o.width, t.mem.read (o.pa + k) = bs.getD k 0) ∧
        (∀ a, a / 512 ≠ o.pa / 512 → a ≠ code → t.mem.read a = s.mem.read a) ∧ t.ops = left ∧ t.cores = s.cores) ∧
    (2 ≤ o.alloc → l1 = false → (∀ f ∈ (s.die (dieOf o.core)).fwd, f.line ≠ line) → o.attr.cmp = false →
      ((s.die (dieOf o.core)).l2Find line = none → (s.die (dieOf o.core)).l2.length < (s.die (dieOf o.core)).l2Lines) →
      ∃ t z f, exec (.storeAtHome o.id) s = .next t ∧ t.mem = s.mem ∧ t.ops = left ∧ t.regs = s.regs ∧
        (t.die (dieOf o.core)).l2Find line = some z ∧ f ∈ (t.die (dieOf o.core)).fwd ∧
        z.data = linePut (match (s.die (dieOf o.core)).l2Find line with
          | some y => if s.time < y.lease then y.data else s.memLine line
          | none => s.memLine line) (o.pa % 128) bs ∧
        f.line = line ∧ f.mask = byteMask (o.pa % 128) bs.length ∧ f.data = linePut 0 (o.pa % 128) bs ∧
        f.owners = [(o.team, o.grp)]) ∧
    (l1 = true → ∀ y, (s.core o.core).l1Find line = some y → s.time < y.lease →
      ∃ t, exec (.storeAtHome o.id) s = .next t ∧ t.mem = s.mem ∧ t.ops = left ∧ t.dies = s.dies ∧
        (t.core o.core).l1Find line =
          some { y with
            data := linePut y.data (o.pa % 128) bs, dirty := y.dirty ||| byteMask (o.pa % 128) bs.length
            owners := if y.owners.contains (o.team, o.grp) then y.owners else (o.team, o.grp) :: y.owners })

/-- STORE_AT_HOME of a release store of scope .clu or wider to DRAM (R109, R112, R113, R118): it first goes out, from when on its line
takes no new lease; once the latest lease granted on the line has run out it is written, at the L3 home on a page with ALLOC below 2,
else in the L2 line, and for .pkg and .sys it is forwarded to the L3 at once; the store leaves. Every store that is written is
acknowledged and lowers its counter (R81). -/
def Claims.ReleaseStores : Prop :=
  ∀ (s : State) (o : Op), s.ops.find? (fun q => q.id == o.id) = some o → o.kind = .store → regionOf o.pa = .dram → s.storeReady o = true →
    let bs := leBytes o.width o.data.toNat
    let left := s.ops.filter fun q => q.id != o.id
    let d := dieOf o.core
    (o.rel = false ∨ o.scope ≤ 1 ∨ o.sent = true → ∃ t, exec (.storeAtHome o.id) s = .next t ∧ t.ops = left ∧ Acknowledged s o t) ∧
    (o.rel = true → 2 ≤ o.scope →
      (o.sent = false → ∃ t, exec (.storeAtHome o.id) s = .next t ∧ t.mem = s.mem ∧ t.cores = s.cores ∧ t.teams = s.teams ∧
        t.ops = s.ops.map fun q => if q.id = o.id then { q with sent := true } else q) ∧
      (o.sent = true → s.latestLease o < s.time ∧
        (o.alloc < 2 → o.attr.cmp = false → ∃ t, exec (.storeAtHome o.id) s = .next t ∧ t.mem = s.mem.writeN o.pa bs) ∧
        (2 ≤ o.alloc → o.attr.cmp = false → (∀ f ∈ (s.die d).fwd, f.line ≠ o.pa / 128) →
          (∀ z, (s.die d).l2Find (o.pa / 128) = some z → z.cmp = false) →
          ((s.die d).l2Find (o.pa / 128) = none → (s.die d).l2.length < (s.die d).l2Lines) → o.pa % 128 + o.width ≤ 128 →
          ∃ t z, exec (.storeAtHome o.id) s = .next t ∧ (t.die d).l2Find (o.pa / 128) = some z ∧
            lineBytes z.data (o.pa % 128) o.width = bs ∧
            (o.scope ≤ 3 → t.mem = s.mem ∧ ∃ f ∈ (t.die d).fwd, f.line = o.pa / 128 ∧ f.owners = [(o.team, o.grp)] ∧
              f.mask = byteMask (o.pa % 128) o.width) ∧
            (4 ≤ o.scope → (∀ k < o.width, t.mem.read (o.pa + k) = bs.getD k 0) ∧ ∀ f ∈ (t.die d).fwd, f.line ≠ o.pa / 128))))

/-- `Claims.PlainStores` and `Claims.ReleaseStores` together. -/
def Obligations.StoresPerform : Prop := Claims.PlainStores ∧ Claims.ReleaseStores

/-- STORE_AT_HOME of an atomic to DRAM, on a page that is not compressible (R119, R288, R289): the new value of its operation is written
at the home for its scope, and the pending writeback, where the lane asked for one, receives the old value. -/
def Obligations.AtomicsPerform : Prop :=
  ∀ (s : State) (o : Op) (y : Group) (w : Nat), s.ops.find? (fun q => q.id == o.id) = some o → o.kind = .atomic →
    regionOf o.pa = .dram → s.storeReady o = true → s.poisoned o.pa o.width = false → o.width = w → (w = 4 ∨ w = 8) →
    (o.opc < 10 ∨ (o.opc = 10 ∧ w = 4)) → s.grp? o.team o.grp = some y →
    (∀ z, (s.core o.core).l1Find (o.pa / 128) = some z → z.dirty = 0) →
    (∀ f ∈ (s.die (dieOf o.core)).fwd, f.line ≠ o.pa / 128) → o.attr.cmp = false →
    let v := o.data.setWidth (8 * w)
    let new := fun (old : BitVec (8 * w)) =>
      match o.opc with
      | 0 => old + v
      | 1 => if v.slt old then v else old
      | 2 => if old.slt v then v else old
      | 3 => if v.ult old then v else old
      | 4 => if old.ult v then v else old
      | 5 => old &&& v
      | 6 => old ||| v
      | 7 => old ^^^ v
      | 8 => v
      | 9 => if old = o.cmp.setWidth (8 * w) then v else old
      | _ => BitVec.ofNat _ (FF.f32.pack 0 (fvAdd 0 (FF.f32.decode old.toNat) (FF.f32.decode v.toNat))).1
    let filled := fun (t : State) (old : BitVec (8 * w)) => ∃ y', t.grp? o.team o.grp = some y' ∧
      ∀ id, o.pend = some id → (y'.lane o.lane).pend = (y.lane o.lane).pend.map fun q =>
        if q.id = id then { q with regs := fillRegs q.regs old.toNat, ready := true } else q
    (¬(2 ≤ o.alloc ∧ o.scope ≤ 3) → ∃ t, exec (.storeAtHome o.id) s = .next t ∧
      t.ops = s.ops.filter (fun q => q.id != o.id) ∧
      (let old := BitVec.ofNat (8 * w) (leNat (s.mem.readN o.pa w))
       t.mem = s.mem.writeN o.pa (leBytes w (new old).toNat) ∧ filled t old)) ∧
    (2 ≤ o.alloc → o.scope ≤ 3 →
      ((s.die (dieOf o.core)).l2Find (o.pa / 128) = none → (s.die (dieOf o.core)).l2.length < (s.die (dieOf o.core)).l2Lines) →
      ∃ t z, exec (.storeAtHome o.id) s = .next t ∧
      t.ops = s.ops.filter (fun q => q.id != o.id) ∧ t.mem = s.mem ∧
      (let was := match (s.die (dieOf o.core)).l2Find (o.pa / 128) with
        | some k => if s.time < k.lease then k.data else s.memLine (o.pa / 128)
        | none => s.memLine (o.pa / 128)
       let old := BitVec.ofNat (8 * w) (leNat (lineBytes was (o.pa % 128) w))
       (t.die (dieOf o.core)).l2Find (o.pa / 128) = some z ∧ z.data = linePut was (o.pa % 128) (leBytes w (new old).toNat) ∧ filled t old))

/-- LOAD_RETURN of a load from DRAM (R95, R112, R343): the bytes come from memory on a page with ALLOC below 2, from the die's L2 line on
one with ALLOC 2 and from the core's L1 line on one with ALLOC 3, where the lease of that copy has not run out; the lane's pending
writeback receives the value, zero- or sign-extended, and no byte of memory changes. A compressible block whose size code is 0 reads as
zeros, but for lines that the L3 holds (R103): the bytes of the block's other lines are zeros from then on, and no other byte changes. -/
def Obligations.LoadsReturn : Prop :=
  ∀ (s : State) (o : Op) (y : Group) (id : Nat) (bs : List (BitVec 8)), s.ops.find? (fun q => q.id == o.id) = some o →
    o.kind = .load → regionOf o.pa = .dram → s.loadReady o = true → s.poisoned o.pa o.width = false → o.width ≤ 8 →
    s.grp? o.team o.grp = some y → o.pend = some id →
    let zero := o.attr.cmp = true ∧ s.sizeCode (o.pa / 128 * 128) = 0 ∧ s.l3Has (o.pa / 128) = false
    ((o.alloc < 2 ∧ ¬zero ∧ bs = s.mem.readN o.pa o.width) ∨
      (o.alloc < 2 ∧ zero ∧ s.Inv ∧ o.pa % 128 + o.width ≤ 128 ∧ bs = List.replicate o.width 0) ∨
      (o.alloc = 2 ∧ ∃ z, (s.die (dieOf o.core)).l2Find (o.pa / 128) = some z ∧ s.time < z.lease ∧
        bs = lineBytes z.data (o.pa % 128) o.width) ∨
      (3 ≤ o.alloc ∧ ∃ z, (s.core o.core).l1Find (o.pa / 128) = some z ∧ s.time < z.lease ∧
        bs = lineBytes z.data (o.pa % 128) o.width)) →
    let raw := ((BitVec.ofNat 64 (leNat bs) &&& ~~~o.cmp) ||| (o.data &&& o.cmp)).setWidth (8 * o.width)
    let v := if o.sext then (raw.signExtend 32).toNat else raw.toNat
    ∃ t y', exec (.loadReturn o.id) s = .next t ∧ (¬(o.alloc < 2 ∧ zero) → t.mem = s.mem) ∧
      (o.alloc < 2 → zero → ∀ a, t.mem.read a =
        if a / 512 = o.pa / 512 ∧ s.l3Has (a / 128) = false then 0 else s.mem.read a) ∧
      t.ops = s.ops.filter (fun q => q.id != o.id) ∧ (∀ c k, (t.core c).l1Find k = (s.core c).l1Find k) ∧ t.grp? o.team o.grp = some y' ∧
      (y'.lane o.lane).pend = (y.lane o.lane).pend.map (fun q =>
        if q.id = id then { q with regs := fillRegs q.regs v, ready := true } else q)

/-! ### Cursors -/

/-- CMK, CDESC, CNEXT, CSEEK, CGET, CCOIT, CAPP and CFIN (R168, R305, R307 to R309, R312, R313, R317): where every active lane's job
succeeds and nothing is in its way, each lane receives what its job gives. CFIN that closes a linked tail comes after a release at
.die (R180). -/
def Claims.CursorJobs : Prop :=
  ∀ (h : Hdr) (app union : Bool) (cd ca : BitVec 3) (a d b : BitVec 8) (f : CField) (k : BitVec 5),
    let any := fun (_ : State) (_ : Ctx) => True
    JobGives (.cmk h app cd a) any (cmkPart app cd a) ∧ JobGives (.cdesc h app cd ca) any (cdescPart app cd ca) ∧
    JobGives (.cnext h d ca) any (cnextPart d ca) ∧ JobGives (.cseek h d ca b) any (cseekPart d ca b) ∧
    JobGives (.cget h d ca f k) any (cgetPart d ca f k) ∧ JobGives (.ccoit h union d cd ca) any (ccoitPart union d cd ca) ∧
    JobGives (.capp h d ca b) any (cappPart d ca b) ∧
    let tail := fun (x : Ctx) => ∃ l ∈ activeOf x (.cfin h ca),
      let c := (x.lane l).curAt ca.toNat
      c.app = true ∧ c.own = true ∧ c.kind = 3
    JobGives (.cfin h ca) (fun _ x => x.gp.spec = true ∨ ¬tail x) (cfinPart ca) ∧
    ∀ s x u oks s1, Issues s x (.cfin h ca) → JobFree s x (.cfin h ca) → x.gp.spec = false → tail x →
      Released s x (.cfin h ca) (some 3) false u → PartsOk (cfinPart ca) u x (.cfin h ca) oks s1 →
      ∃ fs rs, RunsLeft s rs ∧ (∀ q ∈ fs, q ∈ x.gp.fences) ∧
        exec (.cfin h ca) s = .next ((s1.give x oks).settle x [] (fun _ z => passed x (.cfin h ca) z) fs rs)

/-- CNRW (R170, R314): the fibre narrows to the offsets in B and C, unless the level is linked, hashed or there is none; the copy is a
read cursor, with SPEC as the group's state gives it (R183). -/
def Claims.NarrowResults : Prop :=
  ∀ (h : Hdr) (cd ca : BitVec 3) (b c : BitVec 8),
    AsyncWrites (.cnrw h cd ca b c) (fun _ x l =>
      let z := x.lane l
      let k := z.curAt ca.toNat
      let m := k.hi - k.lo
      let lo := k.lo + min (z.get false b.toNat) m
      let hi := max lo (k.lo + min (z.get false c.toNat) m)
      let pos := max k.pos lo
      let n := if k.kind = 3 ∨ k.kind = 5 ∨ k.kind = 0 then k
        else if lo = hi then { k with lo, hi, pos := lo, done := true }
        else if hi ≤ pos then { k with lo, hi, pos := hi - 1, done := true }
        else { k with lo, hi, pos }
      [(PReg.c cd.toNat, Cur.toNat { n with app := false, own := false, fnd := false, spec := x.gp.spec })])

/-- CCOIT (R172, R173, R305), after the participants of the last match have moved on: a union gives the lower coordinate and who holds
it; an intersection of ordered fibres gives their lowest common coordinate, both cursors standing on it, or is done when there is none;
with a hashed operand the other one drives, and its first coordinate that the table holds is given; a union with a hashed operand
faults. Linked fibres that go on in further chunks and fibres that two hashed cursors walk are given by their jobs. -/
def Claims.CursorPairs : Prop :=
  ∀ (s : State) (x : Ctx) (l : Nat) (ca cb : BitVec 3) (d : BitVec 8) (a b : Cur) (va vb : Level),
    let a0 := (x.lane l).curAt ca.toNat
    let b0 := (x.lane l).curAt cb.toNat
    let wr := fun (n : BitVec 3) (k : Cur) => (PReg.c n.toNat, Cur.toNat { k with spec := x.gp.spec })
    let gives := fun (union : Bool) (p q : Cur) (k m : Nat) =>
      ccoitPart union d ca cb x l s = .ok ([wr ca p, wr cb q, (.g d.toNat, k), (.g (d.toNat + 1), m)], s)
    let moved := fun (c0 c : Cur) => if c0.fnd = false then c = c0 else
      if c0.isDone = true ∨ c0.app = true then c = { c0 with fnd := false }
      else c0.kind ≠ 3 ∧ c0.kind ≠ 5 ∧
        c = (if c0.pos + 1 < c0.hi then { c0 with fnd := false, pos := c0.pos + 1 } else { c0 with fnd := false, done := true })
    let apart := fun (k : Nat) => k = 1 ∨ k = 2 ∨ k = 4 ∨ k = 6 ∨ k = 7
    (a0.kind = 5 ∨ b0.kind = 5 → ccoitPart true d ca cb x l s = .error (.fault 0x16)) ∧
    ((a0.isDone = false → lmLevel x a0.handle a0.level s = .ok (va, s)) → (b0.isDone = false → lmLevel x b0.handle b0.level s = .ok (vb, s)) →
      moved a0 a → moved b0 b →
      (a.kind ≠ 5 → b.kind ≠ 5 → ∀ i j, (a.isDone = false → CoordAt x l s va a a.pos i) → (b.isDone = false → CoordAt x l s vb b b.pos j) →
        let fa := { a with fnd := true }
        let fb := { b with fnd := true }
        (a.isDone = true → b.isDone = true → gives true a b none32 4) ∧ (a.isDone = false → b.isDone = true → gives true fa b i 1) ∧
        (a.isDone = true → b.isDone = false → gives true a fb j 2) ∧
        (a.isDone = false → b.isDone = false →
          (i < j → gives true fa b i 1) ∧ (j < i → gives true a fb j 2) ∧ (i = j → gives true fa fb i 3))) ∧
      (a.isDone = true ∨ b.isDone = true → a.kind ≠ 5 → b.kind ≠ 5 → gives false a b none32 4) ∧
      (apart a.kind → apart b.kind → a.idle = false → b.idle = false → a.pos < a.hi → b.pos < b.hi → ∀ fa fb : Nat → Nat,
        (∀ i, a.pos ≤ i → i < a.hi → CoordAt x l s va a i (fa i)) → (∀ i, a.pos ≤ i → i + 1 < a.hi → fa i < fa (i + 1)) →
        (∀ j, b.pos ≤ j → j < b.hi → CoordAt x l s vb b j (fb j)) → (∀ j, b.pos ≤ j → j + 1 < b.hi → fb j < fb (j + 1)) →
        (∀ p q, a.pos ≤ p → p < a.hi → b.pos ≤ q → q < b.hi → fa p = fb q →
          gives false { a with pos := p, fnd := true } { b with pos := q, fnd := true } (fa p) 3) ∧
        ((∀ p q, a.pos ≤ p → p < a.hi → b.pos ≤ q → q < b.hi → fa p ≠ fb q) →
          ∃ a' b', (a'.done = true ∨ b'.done = true) ∧ gives false a' b' none32 4)) ∧
      (∀ (dv pr : Cur) (vd vp : Level), (dv = a ∧ pr = b ∧ vd = va ∧ vp = vb ∨ dv = b ∧ pr = a ∧ vd = vb ∧ vp = va) →
        pr.kind = 5 → pr.isDone = false → apart dv.kind →
        let out := fun (n q : Cur) (k m : Nat) => if b.kind = 5 then gives false n q k m else gives false q n k m
        (dv.isDone = true → out dv pr none32 4) ∧
        (dv.idle = false → ∀ f : Nat → Nat, (∀ i, dv.pos ≤ i → i < dv.hi → CoordAt x l s vd dv i (f i)) →
          (∀ p z, dv.pos ≤ p → p < dv.hi → (∀ i, dv.pos ≤ i → i < p → LooksUp x l s vp pr.lo (f i) none) → LooksUp x l s vp pr.lo (f p) (some z) →
            out { dv with pos := p, fnd := true } { pr with pos := z } (f p) 3) ∧
          (dv.pos < dv.hi → (∀ i, dv.pos ≤ i → i < dv.hi → LooksUp x l s vp pr.lo (f i) none) →
            out { dv with pos := dv.hi - 1, fnd := false, done := true } pr none32 4))))

/-- Append cursors (R175 to R179, R307, R308, R312): CMK and CDESC with the append bit take a linked fibre by setting OPEN, whose last
entry the owner's cursor stands on, and a hashed table whole. CAPP inserts a key in a table at the first free slot of its probe, or
finds it, or overflows; its owner's append to a linked fibre writes the coordinate behind the last, USED and CNT, after a new chunk of
the heap where the last is full; it gives the position, and none to a cursor that owns nothing. -/
def Claims.AppendCursors : Prop :=
  ∀ (s : State) (x : Ctx) (l : Nat) (ca cd : BitVec 3) (a d b : BitVec 8) (v : Level),
    (∀ (handle level p : Nat) (part : Bool → LM (List (PReg × Nat))),
      let parent := (x.lane l).curAt ca.toNat
      (part = (fun app => cmkPart app cd a x l) ∧ handle = (x.lane l).get false a.toNat % 65536 ∧ handle ≠ 0 ∧ level = 0 ∧ p = 0) ∨
        (part = (fun app => cdescPart app cd ca x l) ∧ parent.isDone = false ∧ handle = parent.handle ∧ level = parent.level + 1 ∧
          p = parent.pos ∧ ∃ n, lmNlev x handle s = .ok (n, s) ∧ level < n) →
      lmLevel x handle level s = .ok (v, s) →
      let makes := fun (t : State) (own : Bool) (lo hi pos : Nat) => part true s =
        .ok ([(PReg.c cd.toNat, Cur.toNat ⟨v.kind, level, true, true, own, false, false, x.gp.spec, handle, lo, hi, pos, 0⟩)], t)
      (v.kind ≠ 3 → v.kind ≠ 5 → part true s = part false s) ∧
      (v.kind = 5 → let lo := p * 2 ^ v.param % 2 ^ 32; makes s true lo (lo + 2 ^ v.param) lo) ∧
      (v.kind = 3 → x.gp.spec = true → part true s = .error (.wait .verdict)) ∧
      (v.kind = 3 → x.gp.spec = false → ∀ old t, lmAtom x l (fibreVa v p 12) 4 6 1 0 s = .ok (old, t) →
        (bit old 0 = true → makes t false 0 0 0) ∧
        (bit old 0 = false → ∀ last, Reads x l t (fibreVa v p 4) 4 last → (last = none32 → makes t true p p p) ∧
          ∀ w u, last ≠ none32 → Reads x l t v.aux 8 w → Reads x l t (w % 2 ^ 56 + 16 * last + 4) 2 u →
            if u % 512 = 0 then makes t true p p p
            else makes t true (256 * last) (256 * last + u % 512) (256 * last + u % 512 - 1)))) ∧
    (let c := (x.lane l).curAt ca.toNat
     let key := (x.lane l).get false b.toNat
     let gives := fun (t : State) (n : Cur) (k : Nat) => cappPart d ca b x l s =
       .ok ([(PReg.c ca.toNat, Cur.toNat { n with spec := x.gp.spec }), (.g d.toNat, k)], t)
     (x.gp.spec = true → c.kind = 3 ∨ c.kind = 5 → cappPart d ca b x l s = .error (.wait .verdict)) ∧
     (x.gp.spec = false → c.app = false ∨ c.own = false → cappPart d ca b x l s = .ok ([(.g d.toNat, none32)], s)) ∧
     (x.gp.spec = false → c.app = true → c.own = true → lmLevel x c.handle c.level s = .ok (v, s) →
      (c.kind = 5 → ∀ (n : Nat) (st : Nat → State) (old : Nat → Nat), n ≤ min 32 (2 ^ v.param) → st 0 = s →
        (∀ i < n, lmAtom x l (v.crda + 8 * probeAt v c.lo key i) 8 9 key emptyKey (st i) = .ok (old i, st (i + 1)) ∧ old i ≠ key ∧
          old i ≠ emptyKey) →
        (n = min 32 (2 ^ v.param) → gives (st n) { c with ovf := true } none32) ∧
        (n < min 32 (2 ^ v.param) → ∀ k t, lmAtom x l (v.crda + 8 * probeAt v c.lo key n) 8 9 key emptyKey (st n) = .ok (k, t) →
          (k = key → gives t { c with pos := probeAt v c.lo key n, fnd := true } (probeAt v c.lo key n)) ∧
          (k ≠ key → k = emptyKey → gives t { c with pos := probeAt v c.lo key n, fnd := false } (probeAt v c.lo key n)))) ∧
      (c.kind = 3 → ∀ w p tail, let base := w % 2 ^ 56
        Reads x l s v.aux 8 w →
        (if c.lo < c.hi then Reads x l s (base + 16 * (c.lo / 256) + 8) 4 p ∧ tail = c.lo / 256
         else p = c.lo ∧ Reads x l s (fibreVa v p 4) 4 tail) →
        let ends := fun (u : State) (k n : Nat) => ∀ u1 u2 u3 cnt, Puts x l u (v.crda + 4 * (256 * k + n)) 4 key u1 →
          Puts x l u1 (base + 16 * k + 4) 4 ((n + 1) % 512) u2 → Reads x l u2 (fibreVa v p 8) 4 cnt →
          Puts x l u2 (fibreVa v p 8) 4 (cnt + 1) u3 →
          gives u3 { c with lo := 256 * k, hi := 256 * k + n + 1, pos := 256 * k + n, fnd := false } (256 * k + n)
        (∀ r, tail ≠ none32 → Reads x l s (base + 16 * tail + 4) 2 r → r % 512 ≠ 256 → ends s tail (r % 512)) ∧
        (tail = none32 ∨ (∃ r, Reads x l s (base + 16 * tail + 4) 2 r ∧ r % 512 = 256) →
          ∀ m t0, lmAtom x l (v.aux + 8) 8 11 0 0 s = .ok (m, t0) →
          (m % 2 ^ 32 ≤ m / 2 ^ 32 → cappPart d ca b x l s = .error (.fault 0x17)) ∧
          (m / 2 ^ 32 < m % 2 ^ 32 → let n := m / 2 ^ 32
            ∀ t1 t2 t3 t4 r, Puts x l t0 (base + 16 * n) 8 none32 t1 → Puts x l t1 (base + 16 * n + 8) 8 p t2 →
              Puts x l t2 (if tail = none32 then fibreVa v p 0 else base + 16 * tail) 4 n t3 → Puts x l t3 (fibreVa v p 4) 4 n t4 →
              Reads x l t4 (base + 16 * n + 4) 2 r → ends t4 n (r % 512))))))

/-- `Claims.CursorJobs`, `Claims.NarrowResults`, `Claims.CursorPairs` and `Claims.AppendCursors` together. -/
def Obligations.CursorResults : Prop := Claims.CursorJobs ∧ Claims.NarrowResults ∧ Claims.CursorPairs ∧ Claims.AppendCursors

/-- Cursors of a dense level, whose records can be read without a change of the machine (R163, R167 to R169, R171, R309): CMK stands on
the first of EXT coordinates, CNEXT moves one position on or is done past the last, CSEEK moves to the key's coordinate or is done, CGET
gives the coordinate, and a cursor that is done gives the done coordinate. -/
def Claims.DenseLevels : Prop :=
  ∀ (s : State) (x : Ctx) (l : Nat) (ca : BitVec 3) (a d b : BitVec 8) (v : Level),
    let c := (x.lane l).curAt ca.toNat
    let handle := (x.lane l).get false a.toNat % 65536
    let wr := fun (k : Cur) => (PReg.c ca.toNat, Cur.toNat { k with spec := x.gp.spec })
    v.kind = 1 → 0 < v.ext → v.ext < 2 ^ 32 →
    (handle ≠ 0 → lmLevel x handle 0 s = .ok (v, s) →
      cmkPart false ca a x l s = .ok ([wr ⟨1, 0, false, false, false, false, false, false, handle, 0, v.ext, 0, 0⟩], s)) ∧
    (c.kind = 1 → c.app = false → lmLevel x c.handle c.level s = .ok (v, s) →
      (c.done = false → c.pos + 1 < c.hi → cnextPart d ca x l s =
        .ok ([wr { c with pos := c.pos + 1, fnd := false }, (.g d.toNat, (c.pos + 1) % v.ext)], s)) ∧
      (c.done = false → c.hi ≤ c.pos + 1 → cnextPart d ca x l s =
        .ok ([wr { c with done := true, fnd := false }, (.g d.toNat, 2 ^ 32 - 1)], s)) ∧
      (c.done = true → cnextPart d ca x l s = .ok ([(.g d.toNat, 2 ^ 32 - 1)], s)) ∧
      (let key := (x.lane l).get false b.toNat
       let q := c.pos + (key - c.pos % v.ext)
       c.done = false → cseekPart d ca b x l s =
        .ok (if q < c.hi then [wr { c with pos := q, fnd := false }, (.g d.toNat, q % v.ext)]
          else [wr { c with done := true, fnd := false }, (.g d.toNat, 2 ^ 32 - 1)], s)) ∧
      (¬(c.done = true ∧ c.lo = c.hi) → cgetPart d ca .crd 0 x l s = .ok ([(.g d.toNat, c.pos % v.ext)], s)))

/-- CMK and CDESC of a read cursor (R163, R167, R169, R307, R312): the bounds are those that the level's arrays give for the parent
position, and the cursor stands on the first position, on the first occupied slot of a hashed table and on the first chunk of a linked
fibre that is in use; it is done where there is none. -/
def Claims.FibresMade : Prop :=
  ∀ (s : State) (x : Ctx) (l handle level p : Nat) (cd ca : BitVec 3) (a : BitVec 8) (v : Level) (part : LM (List (PReg × Nat))),
    let parent := (x.lane l).curAt ca.toNat
    let rd := Reads x l s
    let makes := fun (done : Bool) (lo hi pos first : Nat) => part s =
      .ok ([(PReg.c cd.toNat, Cur.toNat ⟨v.kind, level, done, false, false, false, false, x.gp.spec, handle, lo, hi, pos, first⟩)], s)
    (part = cmkPart false cd a x l ∧ handle = (x.lane l).get false a.toNat % 65536 ∧ handle ≠ 0 ∧ level = 0 ∧ p = 0) ∨
      (part = cdescPart false cd ca x l ∧ parent.isDone = false ∧ handle = parent.handle ∧ level = parent.level + 1 ∧ p = parent.pos ∧
        ∃ n, lmNlev x handle s = .ok (n, s) ∧ level < n) →
    lmLevel x handle level s = .ok (v, s) →
    (∀ lo hi first,
      (v.kind = 1 ∧ lo = p * v.ext ∧ hi = p * v.ext + v.ext ∧ first = 0) ∨
      (v.kind = 2 ∧ rd (v.posa + 4 * p) 4 lo ∧ rd (v.posa + 4 * (p + 1)) 4 hi ∧ first = 0) ∨
      (v.kind = 4 ∧ rd (v.crda + 4 * p) 4 lo ∧ rd (v.crda + 4 * (p + 1)) 4 hi ∧ first = 0) ∨
      (v.kind = 6 ∧ ∃ n, rd (v.posa + 4 * p) 4 first ∧ rd (v.posa + 4 * (p + 1)) 4 n ∧ rd (v.crda + 8 * first + 4) 4 lo ∧
        rd (v.crda + 8 * n + 4) 4 hi) ∨
      (v.kind = 7 ∧ ∃ m n, rd (v.posa + 4 * p) 4 m ∧ rd (v.posa + 4 * (p + 1)) 4 n ∧ lo = v.param * m ∧ hi = v.param * n ∧ first = 0) →
      if lo % 2 ^ 32 < hi % 2 ^ 32 then makes false (lo % 2 ^ 32) (hi % 2 ^ 32) (lo % 2 ^ 32) first
      else makes true (lo % 2 ^ 32) (lo % 2 ^ 32) (lo % 2 ^ 32) first) ∧
    (v.kind = 5 → let lo := p * 2 ^ v.param % 2 ^ 32
      let hi := (p * 2 ^ v.param + 2 ^ v.param) % 2 ^ 32
      (∀ q k, lo ≤ q → q < hi → (∀ i, lo ≤ i → i < q → rd (v.crda + 8 * i) 8 emptyKey) → rd (v.crda + 8 * q) 8 k → k ≠ emptyKey →
        makes false lo hi q 0) ∧
      (lo < hi → (∀ i, lo ≤ i → i < hi → rd (v.crda + 8 * i) 8 emptyKey) → makes true lo hi lo 0)) ∧
    (v.kind = 3 → ∀ w f e cs, rd v.aux 8 w → rd (fibreVa v p 0) 4 f → Chunks x l s (w % 2 ^ 56) f cs e → (∀ q ∈ cs, q.2 = 0) →
      cs.length < 2 ^ 32 →
      (e = none32 → makes true p p p 0) ∧
      ∀ u, e ≠ none32 → rd (w % 2 ^ 56 + 16 * e + 4) 2 u → u % 512 ≠ 0 → makes false (256 * e) (256 * e + u % 512) (256 * e) 0)

/-- CGET, CNEXT and CSEEK (R163, R168, R171, R309, R313, R317) on the levels of every kind: CGET gives the coordinate at the position;
CNEXT moves one position on, to the next occupied slot or to the next chunk in use, and gives its coordinate; CSEEK moves to the first
position from its own whose coordinate reaches the key, in the chunks of a linked fibre one after another, and on a hashed level looks
the key up (R164); past the last it is done and gives the done coordinate. -/
def Claims.CursorMoves : Prop :=
  ∀ (s : State) (x : Ctx) (l : Nat) (ca : BitVec 3) (d b : BitVec 8) (v : Level),
    let c := (x.lane l).curAt ca.toNat
    let key := (x.lane l).get false b.toNat
    let rd := Reads x l s
    let out := fun (n : Cur) (k : Nat) => Except.ok (ε := LStop)
      ([(PReg.c ca.toNat, Cur.toNat { n with spec := x.gp.spec }), (PReg.g d.toNat, k)], s)
    let done := out { c with done := true, fnd := false } none32
    let next := cnextPart d ca x l s
    let seek := cseekPart d ca b x l s
    let chunk := fun (k u : Nat) => { c with lo := 256 * k, hi := 256 * k + u, pos := 256 * k, fnd := false }
    (c.isDone = true ∨ c.app = true → next = .ok ([(.g d.toNat, none32)], s) ∧ seek = .ok ([(.g d.toNat, none32)], s)) ∧
    (c.kind ≠ 0 → lmLevel x c.handle c.level s = .ok (v, s) →
      (∀ k, ¬(c.done = true ∧ c.lo = c.hi) → CoordAt x l s v c c.pos k → cgetPart d ca .crd 0 x l s = .ok ([(.g d.toNat, k)], s)) ∧
      (c.done = false → c.app = false →
        (∀ k, c.kind ≠ 5 → c.pos + 1 < c.hi → CoordAt x l s v c (c.pos + 1) k → next = out { c with pos := c.pos + 1, fnd := false } k) ∧
        (c.kind ≠ 3 → c.kind ≠ 5 → c.hi ≤ c.pos + 1 → next = done) ∧
        (c.kind = 5 → (∀ q k, c.pos < q → q < c.hi → (∀ i, c.pos < i → i < q → rd (v.crda + 8 * i) 8 emptyKey) → rd (v.crda + 8 * q) 8 k →
            k ≠ emptyKey → next = out { c with pos := q, fnd := false } (k % 2 ^ 32)) ∧
          ((∀ i, c.pos < i → i < c.hi → rd (v.crda + 8 * i) 8 emptyKey) → next = done) ∧
          (∀ q, LooksUp x l s v c.lo key (some q) → seek = out { c with pos := q, fnd := true } key) ∧
          (LooksUp x l s v c.lo key none → seek = out { c with fnd := false } none32)) ∧
        (c.kind ≠ 1 → c.kind ≠ 5 → ∀ (f : Nat → Nat) (q : Nat), c.pos ≤ q → q < c.hi →
          (∀ i, c.pos ≤ i → i ≤ q → CoordAt x l s v c i (f i)) → (∀ i, c.pos ≤ i → i < q → f i < key) → key ≤ f q →
          seek = out { c with pos := q, fnd := false } (f q)) ∧
        (c.kind ≠ 1 → c.kind ≠ 3 → c.kind ≠ 5 → disordered x v c s = false →
          (∀ i, c.pos ≤ i → i < c.hi → ∃ k < key, CoordAt x l s v c i k) → seek = done) ∧
        (c.kind = 3 → ∀ w m e ks, rd v.aux 8 w → rd (w % 2 ^ 56 + 16 * (c.lo / 256)) 4 m → Chunks x l s (w % 2 ^ 56) m ks e →
          ks.length < 2 ^ 32 →
          (c.hi ≤ c.pos + 1 → (∀ q ∈ ks, q.2 = 0) → (e = none32 → next = done) ∧
            ∀ u k, e ≠ none32 → rd (w % 2 ^ 56 + 16 * e + 4) 2 u → u % 512 ≠ 0 → CoordAt x l s v (chunk e (u % 512)) (256 * e) k →
              next = out (chunk e (u % 512)) k) ∧
          (disordered x v c s = false → (∀ i, c.pos ≤ i → i < c.hi → ∃ k < key, CoordAt x l s v c i k) →
            (∀ q ∈ ks, ∀ i < q.2, ∃ k < key, CoordAt x l s v (chunk q.1 q.2) (256 * q.1 + i) k) → (e = none32 → seek = done) ∧
            ∀ (u q : Nat) (f : Nat → Nat), e ≠ none32 → rd (w % 2 ^ 56 + 16 * e + 4) 2 u → q < u % 512 →
              (∀ i ≤ q, CoordAt x l s v (chunk e (u % 512)) (256 * e + i) (f i)) → (∀ i < q, f i < key) → key ≤ f q →
              seek = out { chunk e (u % 512) with pos := 256 * e + q } (f q)))))

/-- What the metadata accesses of a job do to memory, on a page with ALLOC below 2 where nothing is in their way (R177, R181): a read
gives the bytes there, a write puts its bytes there and no others, and an indivisible update does both, for the operations that jobs
make: setting OPEN, taking an empty slot, and taking a chunk (R164, R175, R176). A key's start slot is the XOR of its pieces (R164). -/
def Claims.MetadataAccesses : Prop :=
  (∀ (s : State) (x : Ctx) (l va n kind : Nat) (e : TlbE),
    let pa := e.phys (va % 2 ^ 56)
    s.xlate x.tm.core x.tm.id.asid (va % 2 ^ 56) kind x.gp.sup = .ok e → s.physCheck x.tm.core kind pa n x.gp.sup = none →
    regionOf pa = .dram → e.alloc < 2 → e.cmp = false → s.pinned pa = false → s.poisoned pa n = false → x.gp.task = none →
    (∀ o ∈ s.ops, o.before x l pa n (kind != 0) = false) → (∀ z, (s.core x.tm.core).l1Find (pa / 128) = some z → z.dirty = 0) →
    (∀ f ∈ (s.die (dieOf x.tm.core)).fwd, f.line ≠ pa / 128) →
    (kind = 0 → ∃ t, lmRead x l va n s = .ok (leNat (s.mem.readN pa n), t) ∧ t.mem = s.mem) ∧
    (kind = 1 → ∀ w, ∃ t, lmWrite x l va n w s = .ok ((), t) ∧ t.mem = s.mem.writeN pa (leBytes n w)) ∧
    (kind = 2 → s.Inv → ∀ opc w cmp, let old := leNat (s.mem.readN pa n)
      ∀ new, (opc = 6 ∧ new = old ||| w) ∨ (opc = 9 ∧ new = if old = cmp then w else old) ∨
        (opc = 11 ∧ n = 8 ∧ new = if old / 2 ^ 32 < old % 2 ^ 32 then (old + 2 ^ 32) % 2 ^ 64 else old) →
      ∃ t, lmAtom x l va n opc w cmp s = .ok (old, t) ∧ ∀ a, t.mem.read a = (s.mem.writeN pa (leBytes n new)).read a)) ∧
  ∀ h key i, key < 2 ^ 64 → i < h → h ≤ 20 →
    (slotOf h key).testBit i = (((List.range 64).filter fun j => j % h == i && key.testBit j).length % 2 == 1)

/-- `Claims.DenseLevels`, `Claims.FibresMade`, `Claims.CursorMoves` and `Claims.MetadataAccesses` together. -/
def Obligations.LevelCursors : Prop := Claims.DenseLevels ∧ Claims.FibresMade ∧ Claims.CursorMoves ∧ Claims.MetadataAccesses

/-! ### Crews and the matrix engine -/

/-- CREW with valid operands, in a group of no crew (R315): the mask and the control word are recorded and the pack parks. Every other
crew instruction of a member (R77, R78, R81, R348): with no differing record in the latch and none of this pack in latch or engine, the
pack parks with a record of the word, the REP prefix and its lanes, counted in TILES. -/
def Claims.CrewRecords : Prop :=
  ∀ (h : Hdr) (a b d : BitVec 8) (o oa : BitVec 3) (m ma mb : BitVec 4) (imm : BitVec 12),
    EffectTo (.crew h a b)
      (fun s x =>
        let z := x.lane (low (activeOf x (.crew h a b)))
        let mask := BitVec.ofNat 32 (z.get false a.toNat)
        let ctl := BitVec.ofNat 32 (z.get false b.toNat)
        let n := ((List.range 32).filter fun i => mask.getLsbD i).length
        2 ≤ n ∧ n ≤ 6 ∧ mask.toNat < 2 ^ x.tm.id.groups ∧ mask.getLsbD x.run.grp = true ∧ ctl.extractLsb' 13 19 = 0 ∧
          ctl.extractLsb' 0 12 ≠ 0 ∧ x.gp.crew.valid = false ∧
          ∀ f ∈ (s.core x.tm.core).forms, f.team = x.run.team → f.grp = x.run.grp → f.mask = mask ∧ f.ctl = ctl)
      (fun s x =>
        let z := x.lane (low (activeOf x (.crew h a b)))
        if ∃ f ∈ (s.core x.tm.core).forms, f.team = x.run.team ∧ f.grp = x.run.grp then s
        else s.modCore x.tm.core fun k =>
          { k with forms := k.forms ++
            [⟨x.run.team, x.run.grp, BitVec.ofNat 32 (z.get false a.toNat), BitVec.ofNat 32 (z.get false b.toNat)⟩] })
      (fun x => activeOf x (.crew h a b))
      (fun x l z => if (activeOf x (.crew h a b)).contains l then parked x .form z else passed x (.crew h a b) z) ∧
    ∀ i ∈ [Instr.crewEnd h, .obres h o a b, .obrel h o, .ufcfg h a b, .mma h m o oa a, .mmal h m ma mb, .madd h m ma mb,
        .mscl h m ma a, .mdense h m ma, .mrcmp h m ma a, .mzero h m, .mrank h d ma, .mld h m o b imm, .mst h m o b imm],
      ∀ k : Crew, EffectTo i
        (fun s x => s.crewOf x.tm.core x.run.team x.run.grp = some k ∧ s.memberGone k = false ∧
          s.inEngine x.tm.core x.run.team x.run.grp x.run.lanes = false ∧ (∀ r ∈ k.latch, r.ofPack x.run.grp x.run.lanes = false) ∧
          (isImage i = true → x.groupFence? (activeOf x i) = none) ∧ x.gp.tiles < 15 ∧
          ∀ r ∈ k.latch, latchWord r.instr = latchWord i ∧ r.rep = x.run.rep.map (fun q => (q.word, q.ix)) ∧ r.act ≠ [])
        (fun s x => (s.newTok x.run.team x.run.grp 3 1).2.modCore x.tm.core fun z =>
          { z with crews := z.crews.map fun q => if q.no = k.no then
              { q with latch := q.latch ++ [⟨x.run.grp, x.run.lanes, activeOf x i,
                x.run.rep.map fun p => (p.word, p.ix), i, some s.nextId⟩] } else q })
        (fun x => x.run.lanes) (fun x _ z => parked x .latch z)

/-- CREW_FORMATION, where every named group has an equal record, fewer than four crews stand and the area fits (R315): the crew stands on
the lowest area with its registers at rank 0, and each named group that is in the team belongs to it and goes on. CREW_RENDEZVOUS with a
record of every member, none of them speculative (R78, R186, R195, R223): the instruction joins the engine's queue under the team's
rounding mode, behind those of earlier cycles and of crews with lower numbers; the latch is empty; and MMA's operands, as the crew's
queued instructions leave its slots, are registered as source ranges. -/
def Claims.CrewMeets : Prop :=
  ∀ (s : State) (core : Nat),
    (∀ (n : Nat) (f : FormRec) (base : Nat), (s.core core).forms[n]? = some f →
      let names := (List.range 32).filter fun i => f.mask.getLsbD i
      let recs := (s.core core).forms.filter fun r => r.team == f.team && names.contains r.grp
      recs.length = names.length → (∀ r ∈ recs, r.mask = f.mask ∧ r.ctl = f.ctl) → (s.core core).crews.length < 4 → s.lockRoom core 1 = true →
      (∀ o < base, (s.core core).carveBytes 2 / 2048 < o + (f.ctl.extractLsb' 0 12).toNat ∨
        ∃ k ∈ (s.core core).crews, k.base < o + (f.ctl.extractLsb' 0 12).toNat ∧ o < k.base + k.count) →
      base + (f.ctl.extractLsb' 0 12).toNat ≤ (s.core core).carveBytes 2 / 2048 →
      (∀ k ∈ (s.core core).crews, ¬(k.base < base + (f.ctl.extractLsb' 0 12).toNat ∧ base < k.base + k.count)) →
      ∃ t k, exec (.crewFormation core n) s = .next t ∧ t.mem = s.mem ∧
        (t.core core).crews = (s.core core).crews ++ [k] ∧ (∀ q ∈ (s.core core).crews, q.no ≠ k.no) ∧ k.no < 4 ∧
        k = ⟨k.no, f.team, names, base, (f.ctl.extractLsb' 0 12).toNat, f.ctl.getLsbD 12, [], [], 0, 0, []⟩ ∧
        (t.core core).forms = (s.core core).forms.filter (fun r => !(r.team == f.team && names.contains r.grp)) ∧
        ∀ g ∈ names, ∀ y, s.grp? f.team g = some y → ∃ y', t.grp? f.team g = some y' ∧
          y'.crew = ⟨f.mask, k.no, true, k.ovf, false, 0, false, k.count, base, k.count⟩ ∧
          y'.lanes = y.lanes.map fun l =>
            if l.st = .parked .form then
              match l.rep with
              | some i => { l with st := .eligible, rep := some (i + 1) }
              | none => { l with st := .eligible, pc := l.pc + 8 }
            else l) ∧
    (∀ (k : Crew) (x : Team) (r0 : LatchRec) (rs : List LatchRec), (s.core core).crews.find? (fun q => q.no == k.no) = some k →
      sortBy (·.grp) k.latch = r0 :: rs → (∀ m ∈ k.members, ∃ r ∈ k.latch, r.grp = m) → r0.act ≠ [] →
      s.team? k.team = some x → (x.grp? r0.grp).isSome = true → isImage r0.instr = false → s.specMember k = false →
      let ka := s.ahead core k
      s.lockRoom core (mmaRanges ka r0.instr).length = true →
      let now := s.time / 2
      let fresh := x.csrOld.filter fun p => p.cycle == now
      let before := (s.core core).engine.takeWhile fun q => q.started || q.cycle != now || q.crew ≤ k.no
      ∃ t, exec (.crewRendezvous core k.no) s = .next t ∧ t.mem = s.mem ∧ t.teams = s.teams ∧ t.ops = s.ops ∧
        (t.core core).engine = before ++
          ⟨s.nextId, k.team, k.no, r0 :: rs, r0.instr, (fresh.map (·.rm)).getD x.rm, (fresh.map (·.nantrap)).getD x.nantrap,
            false, now, none, none, none, [], none, mmaScales ka r0.instr⟩ :: (s.core core).engine.drop before.length ∧
        (t.core core).locks = (s.core core).locks ++
          (mmaRanges ka r0.instr).map (fun p => { op := s.nextId, space := p.1, asid := 0, base := p.2.1, len := p.2.2, dst := false }) ∧
        (((s.core core).engine.all fun q => q.team != k.team || q.crew != k.no) = true → ka = k) ∧
        (t.core core).crews = (s.core core).crews.map fun q => if q.no = k.no then { q with latch := [] } else q)

/-- `Claims.CrewRecords` and `Claims.CrewMeets` together. -/
def Obligations.CrewInstructions : Prop := Claims.CrewRecords ∧ Claims.CrewMeets

/-- The engine starts the instruction at the head of its queue in a cycle after its rendezvous, without the NaN trap (R186, R189, R191,
R198 to R200, R316, R348, R359, R361, R373, R374, R400): the configuration instructions change the crew; a result that fits the free
granules and those of the register it replaces waits for the instruction's completion. `mul` gives each element as one rounding of the
exact sum of its exact products. -/
def Claims.ConfigurationAndAlgebra : Prop :=
  ∀ (s : State) (core : Nat) (j : Job) (k : Crew) (x : Team) (y : Group) (r0 : LatchRec) (h : Hdr) (a b : BitVec 8) (o : BitVec 3)
    (d ma mb : BitVec 4),
    (s.core core).engine.head? = some j → j.started = false → s.jobCrew core j = some k → s.team? j.team = some x →
    j.recs.head? = some r0 → x.grp? r0.grp = some y → j.nantrap = false → x.core = core → j.cycle ≠ s.time / 2 →
    ((s.core core).engine.map (·.id)).Nodup →
    let z := y.lane (low r0.act)
    let rm := j.rm.toNat
    let pa := k.reg ma
    let pb := k.reg mb
    let whole := fun (r : MReg) => r.rank = 0 ∨ (r.rank ≤ 32 ∧ r.u.length = 64 * r.rank ∧ r.v.length = 64 * r.rank) ∨
      (r.rank = 63 ∧ r.u.length = 4096)
    let val := fun (l : List (BitVec 32)) (e : Nat) => FF.f32.decode (l.getD e 0).toNat
    let mul := fun (n q m : Nat) (u v : List (BitVec 32)) => (List.range (n * m)).map fun e =>
      toF32 rm (fvSum rm ((List.range q).map fun t => (fvMul (val u (e / m * q + t)) (val v (t * m + e % m))).1))
    let gives := fun (r : MReg) => r.granules ≤ k.count - ((k.m.map fun p => p.2.granules).foldl (· + ·) 0) + (k.reg d).granules →
      ∃ t, exec (.matrixEngineStart core) s = .next t ∧ t.mem = s.mem ∧ (t.core core).crews = (s.core core).crews ∧
        ∃ j', (t.core core).engine = j' :: (s.core core).engine.tail ∧ j'.id = j.id ∧ j'.started = true ∧ j'.res = some (d.toNat, r)
    let sets := fun (e : Crew → Crew) => ∃ t, exec (.matrixEngineStart core) s = .next t ∧ t.mem = s.mem ∧
      (t.core core).crews = (s.core core).crews.map (fun q => if q.no = k.no then e q else q) ∧
      (t.core core).engine = { j with started := true } :: (s.core core).engine.tail
    (j.instr = .obres h o a b →
      let w := BitVec.ofNat 64 (z.get64 false b.toNat) ++ BitVec.ofNat 64 (z.get64 false a.toNat)
      s.orecOk core w = true → sets fun q => { q with slots := q.slots.set o.toNat w }) ∧
    (j.instr = .obrel h o → sets fun q => { q with slots := q.slots.erase o.toNat }) ∧
    (j.instr = .ufcfg h a b → unfOk (BitVec.ofNat 64 (z.get64 false a.toNat)) (BitVec.ofNat 64 (z.get64 false b.toNat)) = true →
      sets fun q => { q with uf0 := BitVec.ofNat 64 (z.get64 false a.toNat), uf1 := BitVec.ofNat 64 (z.get64 false b.toNat) }) ∧
    (j.instr = .mzero h d → gives ⟨0, [], []⟩) ∧
    (j.instr = .mdense h d ma → whole pa → gives ⟨63, if pa.rank = 63 then pa.u else if pa.rank = 0 then List.replicate 4096 0
      else mul 64 pa.rank 64 pa.u pa.v, []⟩) ∧
    (j.instr = .mscl h d ma a →
      let scaled := fun (l : List (BitVec 32)) => l.map fun e =>
        toF32 rm (fvMul (FF.f32.decode (z.get false a.toNat)) (FF.f32.decode e.toNat)).1
      gives (if pa.rank = 0 then ⟨0, [], []⟩ else if pa.rank = 63 then ⟨63, scaled pa.u, []⟩ else ⟨pa.rank, pa.u, scaled pa.v⟩)) ∧
    (j.instr = .mmal h d ma mb → whole pa → whole pb →
      gives (if pa.rank = 0 ∨ pb.rank = 0 then ⟨0, [], []⟩
        else if pa.rank = 63 ∧ pb.rank = 63 then ⟨63, mul 64 64 64 pa.u pb.u, []⟩
        else if pa.rank = 63 then ⟨pb.rank, mul 64 64 pb.rank pa.u pb.u, pb.v⟩
        else if pb.rank = 63 then ⟨pa.rank, pa.u, mul pa.rank 64 64 pa.v pb.u⟩
        else
          let w := mul pa.rank 64 pb.rank pa.v pb.u
          if pa.rank ≤ pb.rank then ⟨pa.rank, pa.u, mul pa.rank pb.rank 64 w pb.v⟩
          else ⟨pb.rank, mul 64 pa.rank pb.rank pa.u w, pb.v⟩)) ∧
    (j.instr = .madd h d ma mb → whole pa → whole pb →
      (pa.rank = 0 → gives pb) ∧ (pa.rank ≠ 0 → pb.rank = 0 → gives pa) ∧
      (0 < pa.rank → 0 < pb.rank → pa.rank + pb.rank ≤ 32 → gives ⟨pa.rank + pb.rank,
        (List.range 64).flatMap (fun i => (pa.u.drop (pa.rank * i)).take pa.rank ++ (pb.u.drop (pb.rank * i)).take pb.rank),
        pa.v ++ pb.v⟩) ∧
      (0 < pa.rank → 0 < pb.rank → pa.rank ≤ 32 → pb.rank ≤ 32 → 32 < pa.rank + pb.rank → k.ovf = false →
        exec (.matrixEngineStart core) s = .next (j.recs.foldl (fun u r => u.latchTrap j.team cRank r)
          (((s.unlock core j.id).dropFarOf j.team (64 + j.id)).modCore core fun c => { c with engine := c.engine.filter fun q => q.id != j.id })))) ∧
    (j.instr = .mrcmp h d ma a →
      (pa.rank = 0 → gives ⟨0, [], []⟩) ∧
      ((∃ e ∈ pa.u ++ pa.v, ¬∃ n m q, FF.f32.decode e.toNat = .fin n m q) → pa.rank ≠ 0 → gives pa) ∧
      (let r := mrcmpRes pa (z.get false a.toNat)
       gives r.1 ∧ ∀ t, exec (.matrixEngineStart core) s = .next t → r.1.granules ≤ k.freeGran + (k.reg d).granules →
        ∀ j', (t.core core).engine.head? = some j' → j'.kept = some r.2))

/-- The stages of rank recompression (R202, R360), where no value that they compute is an infinity or a NaN (each `some` is one rounding
to a finite FP32 value): Gram-Schmidt column by column; six sweeps of Jacobi rotations over the pairs p < q; the singular values in
falling order, stably; the least rank whose tail of squares is within tol² of the total; and the factors of that rank, or an exact copy
of a dense source whose rank stays above 32. An infinity or a NaN anywhere gives an exact copy with LASTK 127. -/
def Claims.Recompression : Prop :=
  let at_ := fun (m : List (List FV)) (j e : Nat) => (m.getD j []).getD e fvZero
  let mul := fun (p q : FV) => (fvMul p q).1
  let neg := fun (p : FV) => p.flip
  let two : FV := .fin false 2 0
  -- Gram-Schmidt
  (∀ (n : Nat) (cols Q R : List (List FV)), (∀ c ∈ cols, c.length = n) → mgs [] [] cols = some (Q, R) →
    Q.length = cols.length ∧ R.length = cols.length ∧ ∀ j < cols.length, (Q.getD j []).length = n ∧ ∃ v : Nat → List FV, v 0 = cols.getD j [] ∧
      (∀ i ≤ j, (v i).length = n) ∧
      (∀ i < j, rnDot (Q.getD i []) (v i) = some (at_ R j i) ∧
        ∀ e < n, rn (fvSum 0 [(v i).getD e fvZero, neg (mul (at_ R j i) (at_ Q i e))]) = some ((v (i + 1)).getD e fvZero)) ∧
      ((rnDot (v j) (v j)).bind rnSqrt = some (at_ R j j)) ∧
      ∀ e < n, if (at_ R j j).isZero then at_ Q j e = fvZero else rnDiv ((v j).getD e fvZero) (at_ R j j) = some (at_ Q j e)) ∧
  -- one pair of a sweep
  (∀ (n : Nat) (M J M' J' : List (List FV)) (p q : Nat), (∀ c ∈ M, c.length = n) → (∀ c ∈ J, c.length = n) → p < q → q < M.length →
    J.length = M.length → sweepPair (M, J) p q = some (M', J') →
    ∃ al be ga, rnDot (M.getD p []) (M.getD p []) = some al ∧ rnDot (M.getD q []) (M.getD q []) = some be ∧
      rnDot (M.getD p []) (M.getD q []) = some ga ∧ (ga.isZero = true → M' = M ∧ J' = J) ∧
      (ga.isZero = false → ∃ ze t c w, rnDiv (fvAdd 0 be (neg al)).1 (mul two ga) = some ze ∧
        (((rn (fvSum 0 [fvOne, mul ze ze])).bind rnSqrt).bind fun h => (rnAdd (fvAbs ze) h).bind fun k => rnDiv (signOne ze) k) = some t ∧
        (((rn (fvSum 0 [fvOne, mul t t])).bind rnSqrt).bind fun h => rnDiv fvOne h) = some c ∧ rn (mul c t) = some w ∧
        ∀ z ∈ [(M, M'), (J, J')], z.2.length = z.1.length ∧ (∀ k, k ≠ p → k ≠ q → z.2.getD k [] = z.1.getD k []) ∧
          ∀ e < n, rn (fvSum 0 [mul c (at_ z.1 p e), mul (neg w) (at_ z.1 q e)]) = some (at_ z.2 p e) ∧
            rn (fvSum 0 [mul w (at_ z.1 p e), mul c (at_ z.1 q e)]) = some (at_ z.2 q e))) ∧
  -- the sweeps
  (∀ (l : List (Nat × Nat)) (a b : List (List FV) × List (List FV)), sweep l a = some b →
    ∃ st : Nat → List (List FV) × List (List FV), st 0 = a ∧ st l.length = b ∧
      ∀ i p, l[i]? = some p → sweepPair (st i) p.1 p.2 = some (st (i + 1))) ∧
  (∀ r, sweepPairs r = (List.replicate 6 ((List.range r).flatMap fun p => ((List.range r).filter (p < ·)).map fun q => (p, q))).flatten) ∧
  -- the order and the rank
  (∀ sig : List FV, (∀ v ∈ sig, ∃ m e, v = .fin false m e) → (orderDesc sig).Perm (List.range sig.length) ∧
    (orderDesc sig).Pairwise fun i j => fvCmp (sig.getD j fvZero) (sig.getD i fvZero) = -1 ∨
      (fvCmp (sig.getD j fvZero) (sig.getD i fvZero) = 0 ∧ i < j)) ∧
  (∀ (tol : FV) (sq : List FV), (∀ v ∈ sq, ∃ m e, v = .fin false m e) → (∃ m e, tol = .fin false m e) →
    let tail := fun (k : Nat) => fvSum 0 (sq.drop k)
    let bound := mul (mul tol tol) (fvSum 0 sq)
    ((fvSum 0 sq).isZero = true → truncRank tol sq = 0) ∧ truncRank (.inf false) sq = 0 ∧ truncRank tol sq ≤ sq.length ∧
      ((fvSum 0 sq).isZero = false → fvCmp (tail (truncRank tol sq)) bound ≠ 1 ∧ ∀ k < truncRank tol sq, fvCmp (tail k) bound = 1)) ∧
  -- the whole
  (∀ (tol : FV) (us vs : List (List FV)) (k : Nat) (un vn : List (BitVec 32)), us.length = vs.length → (∀ c ∈ us ++ vs, c.length = 64) →
    recompress tol us vs = some (k, un, vn) →
    let r := us.length
    ∃ Qu Ru Qv Rv M0 J0 M J sig, mgs [] [] us = some (Qu, Ru) ∧ mgs [] [] vs = some (Qv, Rv) ∧ M0.length = r ∧ J0.length = r ∧
      (∀ i j, i < r → j < r → (M0.getD j []).length = r ∧ at_ J0 j i = (if i = j then fvOne else fvZero) ∧
        rnDot ((List.range r).map fun t => if i ≤ t then at_ Ru t i else fvZero) ((List.range r).map fun t => if j ≤ t then at_ Rv t j else fvZero) =
          some (at_ M0 j i)) ∧
      sweep (sweepPairs r) (M0, J0) = some (M, J) ∧ sig.length = r ∧
      (∀ j < r, (rnDot (M.getD j []) (M.getD j [])).bind rnSqrt = some (sig.getD j fvZero)) ∧
      k = truncRank tol ((orderDesc sig).map fun i => mul (sig.getD i fvZero) (sig.getD i fvZero)) ∧
      (k ≤ 32 → un.length = 64 * k ∧ vn.length = 64 * k ∧ ∀ t e, t < k → e < 64 →
        ((rnDot ((List.range r).map fun c => at_ Qu c e) (M.getD ((orderDesc sig).getD t 0) [])).map (toF32 0) = un[k * e + t]?) ∧
        ((rnDot (J.getD ((orderDesc sig).getD t 0) []) ((List.range r).map fun c => at_ Qv c e)).map (toF32 0) = vn[64 * t + e]?))) ∧
  ∀ (a : MReg) (tb : Nat), (a.rank = 63 ∧ a.u.length = 4096 ∧ a.v = []) ∨ (0 < a.rank ∧ a.rank ≤ 32 ∧ a.u.length = 64 * a.rank ∧ a.v.length = 64 * a.rank) →
    (∀ e ∈ a.u ++ a.v, ∃ n m q, FF.f32.decode e.toNat = .fin n m q) →
    let w := if a.rank = 63 then 64 else a.rank
    let us := (List.range w).map fun j => (List.range 64).map fun i => FF.f32.decode (a.u.getD (w * i + j) 0).toNat
    let vs := (List.range w).map fun j => (List.range 64).map fun i =>
      if a.rank = 63 then (if i = j then fvOne else fvZero) else FF.f32.decode (a.v.getD (64 * j + i) 0).toNat
    let t := FF.f32.decode tb
    let tol := if t.isNan || (t.neg && !t.isZero) then fvZero else t
    (recompress tol us vs = none → mrcmpRes a tb = (a, false, 127)) ∧
    ∀ k un vn, recompress tol us vs = some (k, un, vn) →
      mrcmpRes a tb = if 32 < k then (a, true, k) else (if k = 0 then ⟨0, [], []⟩ else ⟨k, un, vn⟩, false, k)

/-- `Claims.ConfigurationAndAlgebra` and `Claims.Recompression` together. -/
def Obligations.MatrixStarts : Prop := Claims.ConfigurationAndAlgebra ∧ Claims.Recompression

/-- The engine completes its instruction (R78, R81, R185, R197): the result is in the crew's register, the instruction leaves the queue
with its ranges, and no byte of memory changes unless it stores an image. -/
def Claims.MatrixCompletes : Prop :=
  ∀ (s : State) (core : Nat) (j : Job) (k : Crew) (d : Nat) (r : MReg),
    (s.core core).engine.head? = some j → j.started = true → s.jobCrew core j = some k → j.res = some (d, r) → j.img = [] →
    s.imageOut j = false →
    ∃ t k', exec (.matrixOpComplete core) s = .next t ∧ t.mem = s.mem ∧
      (∀ o ∈ s.ops, ¬(o.team = j.team ∧ o.grp = 64 + j.id) → o ∈ t.ops) ∧ (∀ o ∈ t.ops, o ∈ s.ops) ∧
      (t.core core).engine = (s.core core).engine.filter (fun q => q.id != j.id) ∧
      (t.core core).locks = (s.core core).locks.filter (fun l => l.op != j.id) ∧
      k' ∈ (t.core core).crews ∧ k'.no = k.no ∧ k'.m.get? d = some r ∧ (∀ e, e ≠ d → k'.m.get? e = k.m.get? e) ∧
      k'.slots = k.slots ∧ k'.members = k.members ∧ k'.uf0 = k.uf0 ∧ k'.uf1 = k.uf1

/-- MMA at its start, without the NaN trap (R152, R153, R190 to R193, R355), on an X-store operand A and a W-store operand B of an
accepted pair whose range and geometry fit and whose lines are present: k-group by k-group each element of the accumulator becomes the
rounded sum of itself and the exact sum of 32 exact products, blocks of B marked as zero left out; or, for unscaled bytes, the 32-bit
saturated integer sum. MRANK gives each active lane of its packs the rank of a register (R359), and CREW.end dissolves the crew (R316). -/
def Claims.MatrixMultiplies : Prop :=
  ∀ (s : State) (core : Nat) (j : Job) (k : Crew) (x : Team) (y : Group) (r0 : LatchRec) (h : Hdr) (c : BitVec 8) (oa ob : BitVec 3)
    (m : BitVec 4) (wa wb : BitVec 128),
    (s.core core).engine.head? = some j → j.started = false → s.jobCrew core j = some k → s.team? j.team = some x →
    j.recs.head? = some r0 → x.grp? r0.grp = some y → j.nantrap = false → x.core = core → j.cycle ≠ s.time / 2 →
    ((s.core core).engine.map (·.id)).Nodup →
    (j.instr = .mma h m oa ob c → k.slots.get? oa.toNat = some wa → k.slots.get? ob.toNat = some wb →
      let ra := ORec.of wa
      let rb := ORec.of wb
      let u := Unf.of k.uf0 k.uf1
      let p0 := (y.lane (low r0.act)).get false c.toNat
      let int := ra.fmt = 6 ∧ ra.sblk = 0 ∧ rb.sblk = 0
      let kk := 32 * rb.kext
      let start : List (BitVec 32) := if (k.reg m).rank = 63 then (k.reg m).u else (k.reg m).dense j.rm.toNat
      let terms := fun (q e : Nat) => fvSum 0 ((List.range 32).map fun i =>
        if s.skipped core rb (32 * q + i) (e % 64) then FV.fin false 0 0
        else (fvMul (s.elemA core ra u p0 (e / 64) (32 * q + i)) (s.operandElem core rb (e % 64 * kk + (32 * q + i)))).1)
      let clamp := fun (v : Int) => max (-(2 ^ 31)) (min (2 ^ 31 - 1) v)
      ra.store = 1 → rb.store = 0 → mmaPair ra.fmt rb.fmt = true → ((k.reg m).rank = 63 → (k.reg m).u.length = 4096) →
      (int → (k.reg m).rank = 63 ∨ (k.reg m).rank = 0) → u.ch ≠ 0 → u.kh * u.kw * u.ch = kk → u.bytes ra ≤ ra.len →
      s.imageFits core rb = true → k.fits m ⟨63, [], []⟩ = true →
      s.poolReady core 1 ra.base (u.bytes ra) k.team (low k.members) = true →
      s.poolReady core 0 rb.base (if rb.cmp then kk * 64 * fmtBytes rb.fmt else rb.len) k.team (low k.members) = true →
      (ra.sblk = 0 ∨ s.poolReady core 1 ra.soff ra.scaleBytes k.team (low k.members) = true) →
      (rb.sblk = 0 ∨ s.poolReady core 0 rb.soff (2 * cdiv (kk * 64) rb.sblk) k.team (low k.members) = true) →
      (rb.zb = false ∨ s.poolReady core 0 rb.zoff (kk / 8) k.team (low k.members) = true) → start.length = 4096 →
      ∃ t j', exec (.matrixEngineStart core) s = .next t ∧ t.mem = s.mem ∧ (t.core core).crews = (s.core core).crews ∧
        (t.core core).engine = j' :: (s.core core).engine.tail ∧ j'.id = j.id ∧ j'.started = true ∧
        j'.res = some (m.toNat, ⟨63, (List.range rb.kext).foldl (fun w q => (List.range 4096).map fun e =>
          if int then BitVec.ofInt 32 (clamp ((w.getD e 0).toInt + intOf (terms q e)))
          else toF32 j.rm.toNat (fvAdd j.rm.toNat (FF.f32.decode (w.getD e 0).toNat) (terms q e)).1) start, []⟩)) ∧
    (j.instr = .mrank h c m → ∃ t, exec (.matrixEngineStart core) s = .next t ∧ t.mem = s.mem ∧
      ∀ r ∈ j.recs, ∀ l ∈ r.act, ∀ y', x.grp? r.grp = some y' → l < y'.lanes.length →
        ∃ y2 p, t.grp? j.team r.grp = some y2 ∧ p ∈ (y2.lane l).pend ∧ p.regs = [(.g c.toNat, (k.reg m).rank)] ∧ p.ready = true) ∧
    (j.instr = .crewEnd h → ∃ t, exec (.matrixEngineStart core) s = .next t ∧ t.mem = s.mem ∧
      (t.core core).crews = (s.core core).crews.filter (fun q => q.no != k.no) ∧
      ∀ g ∈ k.members, ∀ y', s.grp? k.team g = some y' → ∃ y2, t.grp? k.team g = some y2 ∧ y2.crew.valid = false)

/-- MLD and MST (R78, R92, R195, R198, R201, R348, R354, R362), where their layout record answers and every piece of the image is in a
DRAM page with ALLOC below 2 with nothing in its way. MLD reads the header, traps on a rank of 33 to 62 or another bit, and else its
register receives the image bit for bit once the instruction completes; the image is its source range. MST makes the image of its
register, rank byte, zeros, then the tile or U and V, for its completion to store, and holds it as a destination range; its completion
changes the image's bytes of memory and no others. An image that ends past the cursor's bounds traps with cursor-bound. -/
def Claims.MatrixImages : Prop :=
  ∀ (s : State) (core : Nat) (j : Job) (k : Crew) (x : Team) (y : Group) (r0 : LatchRec) (h : Hdr) (b : BitVec 8) (cur : BitVec 3)
    (d : BitVec 4) (imm : BitVec 12) (va e : Nat) (p : Nat → TlbE),
    (s.core core).engine.head? = some j → s.jobCrew core j = some k → s.team? j.team = some x →
    j.recs.head? = some r0 → x.grp? r0.grp = some y → x.core = core → ((s.core core).engine.map (·.id)).Nodup → y.task = none →
    let lane := low r0.act
    let cx : Ctx := ⟨⟨core, 0, j.team, 64 + j.id, r0.lanes, none, 0, [], none⟩, x, y⟩
    let pa := fun (i : Nat) => (p i).phys (va + 64 * i)
    let open_ := fun (kind n : Nat) => ∀ i < n, s.xlate core x.id.asid (va + 64 * i) kind cx.gp.sup = .ok (p i) ∧
      s.physCheck core kind (pa i) 64 cx.gp.sup = none ∧ regionOf (pa i) = .dram ∧ (p i).alloc < 2 ∧ (p i).cmp = false ∧
      s.retraining (pa i) = false ∧ s.poisoned (pa i) 64 = false ∧ s.imageWaits j (pa i) 64 (kind == 1) = false
    let byte := fun (n : Nat) => s.mem.read (pa (n / 64) + n % 64)
    let rank := (byte 0).toNat
    let ok := rank < 64 ∧ ¬(33 ≤ rank ∧ rank ≤ 62) ∧ (1 ≤ rank → rank ≤ 32 → s.feat 2 = true) ∧ ∀ i < 64, 1 ≤ i → byte i = 0
    let size := fun (n : Nat) => if n = 63 then 64 + 16384 else 64 + 512 * n
    let traps := fun (c : Nat) => ∃ u, u.mem = s.mem ∧ u.teams = s.teams ∧ (u.core core).engine = (s.core core).engine.tail ∧
      exec (.matrixEngineStart core) s = .next (j.recs.foldl (fun w r => w.latchTrap j.team c r) u)
    (j.started = false → j.cycle ≠ s.time / 2 → imageVa cx lane cur b imm s = .ok (va, s) → imageEnd cx lane cur s = .ok (e, s) →
      (j.instr = .mld h d cur b imm → open_ 0 1 → (¬ok → traps 0x1D) ∧
        (ok → e < va + size rank → traps 0x07) ∧
        (ok → va + size rank ≤ e → k.fits d ⟨rank, [], []⟩ = false → traps 0x1B) ∧
        (ok → va + size rank ≤ e → k.fits d ⟨rank, [], []⟩ = true → open_ 0 (size rank / 64) →
          ∃ t j' r, exec (.matrixEngineStart core) s = .next t ∧ t.mem = s.mem ∧ (t.core core).engine = j' :: (s.core core).engine.tail ∧
            j'.id = j.id ∧ j'.started = true ∧ j'.res = some (d.toNat, r) ∧ r.rank = rank ∧ 4 * (r.u.length + r.v.length) = size rank - 64 ∧
            (rank ≠ 63 → r.u.length = 64 * rank) ∧
            (∀ i < r.u.length + r.v.length,
              ((r.u ++ r.v).getD i 0).toNat = leNat ((List.range 4).map fun q => byte (64 + 4 * i + q))) ∧
            ∃ l ∈ (t.core core).locks, l.op = j.id ∧ l.space = 0 ∧ l.asid = x.id.asid ∧ l.base = va ∧ l.len = size rank ∧ l.dst = false)) ∧
      (j.instr = .mst h d cur b imm →
        let r := k.reg d
        let img := (BitVec.ofNat 8 r.rank :: List.replicate 63 0) ++ (r.u ++ r.v).flatMap fun w => leBytes 4 w.toNat
        img.length = size r.rank → (e < va + size r.rank → traps 0x07) ∧
        (va + size r.rank ≤ e → open_ 1 (size r.rank / 64) →
          ∃ t j', exec (.matrixEngineStart core) s = .next t ∧ t.mem = s.mem ∧ (t.core core).engine = j' :: (s.core core).engine.tail ∧
            j'.id = j.id ∧ j'.started = true ∧ j'.res = j.res ∧
            j'.img = (List.range (size r.rank / 64)).map (fun i => (p i, va + 64 * i, (img.drop (64 * i)).take 64)) ∧
            ∃ l ∈ (t.core core).locks, l.op = j.id ∧ l.space = 0 ∧ l.asid = x.id.asid ∧ l.base = va ∧ l.len = size r.rank ∧ l.dst = true))) ∧
    (j.started = true → j.instr = .mst h d cur b imm → j.res = none → s.imageOut j = false →
      (∀ q ∈ j.img, let a := q.1.phys q.2.1
        regionOf a = .dram ∧ q.1.alloc < 2 ∧ q.1.cmp = false ∧ s.retraining a = false ∧ a % 64 = 0 ∧ q.2.2.length = 64 ∧
        (∀ z, (s.core core).l1Find (a / 128) = some z → z.dirty = 0) ∧ ∀ f ∈ (s.die (dieOf core)).fwd, f.line ≠ a / 128) →
      ∃ t, exec (.matrixOpComplete core) s = .next t ∧ (t.core core).engine = (s.core core).engine.tail ∧
        t.mem = j.img.foldl (fun m q => m.writeN (q.1.phys q.2.1) q.2.2) s.mem)

/-- `Claims.MatrixCompletes`, `Claims.MatrixMultiplies` and `Claims.MatrixImages` together. -/
def Obligations.MatrixResults : Prop := Claims.MatrixCompletes ∧ Claims.MatrixMultiplies ∧ Claims.MatrixImages

/-! ### Named data and speculation -/

/-- NSUB, NSUB.spec and NSUB.warm (R203, R209, R369), with a valid name and nothing to wait for: the window fills with nothing present,
an entry that names the window before is cancelled, the new one joins the list with its expiry and is counted in COPIES, and an interest
goes to the router above the core; a warm interest enters that router on port 0 and is counted. -/
def Claims.SubscribeResults : Prop :=
  ∀ (h : Hdr) (w h1 h2 : BitVec 5) (a b : BitVec 8) (n : BitVec 4) (t i k : Nat),
    let named := fun (x : Ctx) (j : Instr) =>
      let z := x.lane (low (activeOf x j))
      (z.get x.front a.toNat, z.get x.front (a.toNat + 1), z.get x.front (a.toNat + 2)) = (t, i, k) ∧
        t < 2 ^ 20 ∧ i < 2 ^ 32 ∧ k < 2 ^ 24
    let expiry := fun (s : State) (x : Ctx) (j : Instr) => s.time + max ((x.lane (low (activeOf x j))).get x.front b.toNat % 2 ^ 32) 1
    let free := fun (s : State) (x : Ctx) => x.gp.copies < 63 ∧ s.winFree x.tm w.toNat 3 = true ∧
      (∃ v, x.tm.win? w.toNat = some v ∧ ¬(v.store = 0 ∧ v.dstfmt = 9 ∧ v.buffer = false)) ∧
      (∀ e, x.tm.entryOf w.toNat = some e → e.header = false) ∧ (x.tm.entryOf w.toNat = none → x.tm.ilist.length < 64)
    let subscribed := fun (s : State) (x : Ctx) (j : Instr) (spec : Option SpecInfo) =>
      let s0 := match x.tm.entryOf w.toNat with
        | some e => s.cancelEntry x.run.team e
        | none => s
      let e : IEnt := ⟨t, i, k, w.toNat, n.toNat, expiry s x j, s.time, x.run.grp, s0.nextId, spec, false, 0, none, []⟩
      let s1 := (s0.newTok x.run.team x.run.grp 2 1).2
      let s2 := (s1.setWin x.run.team w.toNat fun v => { v with st := .filling, pres := 0, level := 0, stag := none }).onTeam x
        fun m => { m with ilist := m.ilist ++ [e] }
      let p := { Packet.mk0 .interest t i k with
        id := s2.nextId, expiry := expiry s x j, specok := spec.isSome, at_ := .router x.tm.core 5 }
      { s2 with packets := s2.packets ++ [p], nextId := s2.nextId + 1 }
    Effect (.nsub h w a b n) (fun s x => named x (.nsub h w a b n) ∧ free s x) (fun s x => subscribed s x (.nsub h w a b n) none) ∧
    Effect (.nsubSpec h w a b n h1 h2)
      (fun s x => named x (.nsubSpec h w a b n h1 h2) ∧ free s x ∧ (x.tm.win? h1.toNat).isSome = true ∧
        (x.tm.win? h2.toNat).isSome = true ∧ h1 ≠ w ∧ h2 ≠ w ∧ h1 ≠ h2)
      (fun s x => subscribed s x (.nsubSpec h w a b n h1 h2) (some (specInfo x.tm t h1.toNat h2.toNat))) ∧
    Effect (.nsubWarm h a b) (fun _ x => named x (.nsubWarm h a b) ∧ x.gp.copies < 63) (fun s x =>
      let s1 := (s.newTok x.run.team x.run.grp 2 1).2
      let p := { Packet.mk0 .interest t i k with
        id := s1.nextId, expiry := expiry s x (.nsubWarm h a b), warm := true, at_ := .router x.tm.core 0
        wtok := some (x.run.team, x.run.grp, s.nextId) }
      { s1 with packets := s1.packets ++ [p], nextId := s1.nextId + 1 })

/-- NPUB, once its release at .pkg is complete (R126, R213, R366): in a group without a task or below level 3, the window's bytes as they
stand in the store go upward under the name, as a speculative tile of the task's level where the group runs one, the window's source
range is held, and the publish is counted in COPIES until its last flit has left. That a speculative tile's STAG is the number of a fresh
operation modulo 65,536, and the moments of the snapshot, the lock and the release, are the model's choices (log entries 82 and 83). -/
def Claims.PublishResults : Prop :=
  ∀ (h : Hdr) (f : Bool) (w : BitVec 5) (a : BitVec 8) (s s1 u : State) (x : Ctx) (v : Win) (t i k : Nat),
    let j : Instr := .npub h f w a
    let act := activeOf x j
    let z := x.lane (low act)
    Issues s x j → s.issuer? = some x → (z.get x.front a.toNat, z.get x.front (a.toNat + 1), z.get x.front (a.toNat + 2)) = (t, i, k) →
    t < 2 ^ 20 → i < 2 ^ 32 → k < 2 ^ 24 → x.tm.win? w.toNat = some v → ¬(v.store = 0 ∧ v.dstfmt = 9 ∧ v.buffer = false) → v.lines ≤ 512 →
    (v.st = .full ∨ (x.gp.spec = true ∧ v.owner = some x.run.grp)) → x.gp.copies < 63 → s.lockRoom x.tm.core 1 = true →
    s.pubOf x act w.toNat = none → (∀ q, x.gp.task = some q → q.level < 3) →
    s1 = s.pubBegin x act w.toNat f (t, i, k) v → Released s1 x j (some 4) false u → u.pubOf x act w.toNat = s1.pubOf x act w.toNat →
    (∃ p, s1.pubOf x act w.toNat = some p ∧ p.ty = .data ∧ (p.t, p.i, p.n) = (t, i, k) ∧ p.f = f ∧ p.id = s.nextId + 1 ∧
      p.data = ((s.core x.tm.core).pool v.store).readN v.off v.bytes ∧ p.src = some (x.run.team, x.run.grp, w.toNat, s.nextId) ∧
      (∃ l ∈ (s1.core x.tm.core).locks, 
        l = { op := p.id, space := v.store + 1, asid := 0, base := v.off, len := v.bytes, dst := false }) ∧
      ∃ fs rs, RunsLeft s rs ∧ exec j s = .next ((u.pubSend x p).settle x [] (fun _ y => passed x j y) fs rs)) ∧
    ∀ p : Packet, (u.pubSend x p).packets = (u.packets ++ [{ p with
        id := u.nextId, src := none, rel := none, at_ := .router x.tm.core 5, spec := x.gp.task.isSome
        level := (x.gp.task.map fun (q : Task) => q.level).getD 0
        stag := if x.gp.task.isSome then u.nextId % 65536 else 0 }]).map fun (q : Packet) =>
      if q.id = p.id then { q with rel := none, spec := x.gp.task.isSome } else q

/-- `Claims.SubscribeResults` and `Claims.PublishResults` together.
The model's choices: what a publish's STAG is, and when it leaves (log entries 82 and 83). -/
def Obligations.NamedTileRequests : Prop := Claims.SubscribeResults ∧ Claims.PublishResults

/-- The status word of a window (R218). -/
def Claims.windowStatus (x : Team) (w : Nat) (v : Win) : Nat :=
  let code := match v.st with
    | .absent => 0
    | .filling => 1
    | .full => 2
    | .empty => 3
    | .predicted => 4
  let e := x.entryOf w
  code + 8 * b2n e.isSome + 16 * b2n ((e.map (·.spec.isSome)).getD false) + 32 * b2n (v.level != 0) + 64 * v.level +
    256 * b2n (x.bar v.bar).nprod + 512 * b2n v.owner.isSome + 1024 * b2n v.f

/-- The state word of a group (R227). -/
def Claims.groupState (y : Group) : Nat :=
  match y.task with
  | none => 8 * b2n (y.lanes.any fun l => l.st == .parked .verdict) + 16 * b2n y.lastSq
  | some q => 1 + 2 * q.level + 8 * b2n (y.lanes.any fun l => l.st == .parked .verdict) + 16 * b2n y.lastSq + 32 * min 512 q.lines

/-- What NSTAT and SPEC will read is noted at the end of each core cycle, after its barrier updates (R218, R227, R368, R388): the status
of each window, and the state of each group that has begun a task since it was admitted. -/
def Claims.StatesSampled : Prop :=
  (∀ (s : State) (t : Nat), s.time % 2 = 1 → s.endTick.team? t = (s.settleBars.team? t).map Team.sample) ∧
  (∀ (x : Team) (w : Nat), x.sample.sampled.get? w = (x.win? w).map (Claims.windowStatus x w)) ∧
  ∀ (x : Team) (g : Nat), x.sample.grp? g = (x.grp? g).map fun y =>
    { y with sampled := if y.task = none ∧ y.sampled = none then none else some (Claims.groupState y) }

/-- NCAN, NSTAT, NTOL, NRTW and SPEC (R206, R212, R218, R219, R227, R365, R367, R368, R370). NCAN gives 2 where the pending list has no
such entry or the entry has come to its expiry, which it then lapses at; 0 where it cancels the entry; and, for an entry whose tile is
on its way into the window, an answer that waits for the delivery. NSTAT and SPEC give what stood at the end of the last core cycle; of a
window that has been declared since, and of a group whose state has not changed since it was admitted, what stands. The model's choices:
that a speculative tile on its way counts as such a delivery, that a whole one is cancelled with status 0, and how the status is written
(log entry 84); that NSTAT's NPROD is that of the barrier the window names (log entry 85); and what stands as said (log entry 143). -/
def Claims.NamedResults : Prop :=
  ∀ (h : Hdr) (d a b : BitVec 8) (w : BitVec 5) (t i k : Nat),
    let named := fun (x : Ctx) (j : Instr) =>
      let z := x.lane (low (activeOf x j))
      (z.get x.front a.toNat, z.get x.front (a.toNat + 1), z.get x.front (a.toNat + 2)) = (t, i, k) ∧
        t < 2 ^ 20 ∧ i < 2 ^ 32 ∧ k < 2 ^ 24 ∧ (x.tm.win? w.toNat).isSome = true
    let entry := fun (x : Ctx) => x.tm.ilist.find? fun e => e.t == t && e.i == i && e.n == k && e.win == w.toNat
    let status := fun (u : State) (x : Ctx) (v : Nat) => (activeOf x (.ncan h d a w)).foldl (fun q l =>
      (q.addPend x.run.team x.run.grp l [(pregOf x.front d.toNat, v)] true none).2) u
    let arriving := fun (x : Ctx) (e : IEnt) =>
      e.header = true ∨ (e.stag ≠ none ∧ ∀ v, x.tm.win? e.win = some v → v.st ≠ .predicted)
    Effect (.ncan h d a w) (fun _ x => named x (.ncan h d a w) ∧ entry x = none) (fun s x => status s x 2) ∧
    (∀ e, Effect (.ncan h d a w) (fun s x => named x (.ncan h d a w) ∧ entry x = some e ∧ ¬arriving x e ∧ e.expiry ≤ s.time)
      (fun s x => status (s.lapse x.run.team e) x 2)) ∧
    (∀ e, Effect (.ncan h d a w) (fun s x => named x (.ncan h d a w) ∧ entry x = some e ∧ ¬arriving x e ∧ s.time < e.expiry)
      (fun s x => status (s.cancelEntry x.run.team e) x 0)) ∧
    (∀ e, Effect (.ncan h d a w) (fun _ x => named x (.ncan h d a w) ∧ entry x = some e ∧ arriving x e)
      (fun s x => (activeOf x (.ncan h d a w)).foldl (fun q l =>
        (q.addPend x.run.team x.run.grp l [(pregOf x.front d.toNat, 0)] false none).2.onTeam x fun m =>
          { m with ilist := m.ilist.map fun r => if r.tok = e.tok then { r with ncan := r.ncan ++ [(x.run.grp, l, q.nextId)] } else r }) s)) ∧
    (∀ v : Win, CompletesIn (.nstat h d w) (fun _ x => x.tm.win? w.toNat = some v) (fun _ _ y => y) (fun _ x _ z =>
      z.put x.front d.toNat ((x.tm.sampled.get? w.toNat).getD (Claims.windowStatus x.tm w.toNat v)))) ∧
    Effect (.ntol h a b)
      (fun _ x =>
        let z := x.lane (low (activeOf x (.ntol h a b)))
        (⟨BitVec.ofNat 64 (z.get64 x.front a.toNat), BitVec.ofNat 64 (z.get64 x.front b.toNat)⟩ : SEnt).ok = true)
      (fun s x =>
        let z := x.lane (low (activeOf x (.ntol h a b)))
        let p := BitVec.ofNat 64 (z.get64 x.front a.toNat)
        s.onTeam x fun m =>
          { m with stab := m.stab.set (p.extractLsb' 44 3).toNat ⟨p, BitVec.ofNat 64 (z.get64 x.front b.toNat)⟩ }) ∧
    Effect (.nrtw h a b)
      (fun s x =>
        let z := x.lane (low (activeOf x (.nrtw h a b)))
        Unhindered s x (.nrtw h a b) 1 false (fun _ => true) ∧ nrtOk (BitVec.ofNat 64 (z.get64 x.front a.toNat)) (z.get x.front b.toNat) = true)
      (fun s x =>
        let l := low (activeOf x (.nrtw h a b))
        (s.counted x (.nrtw h a b) 1 false fun _ => true).start x [({ Op.mk0 x l .nrtw ((x.lane l).get x.front b.toNat) ⟨0, 0, 0, 0, true, true, false, true, 0, false, false, 0⟩ 8 with
          data := BitVec.ofNat 64 ((x.lane l).get64 x.front a.toNat) }, [])]) ∧
    Writes (.spec h d) d (fun _ x _ _ => x.gp.sampled.getD (Claims.groupState x.gp))

/-- `Claims.NamedResults` and `Claims.StatesSampled` together.
The model's choices: NCAN of a tile under way (log entry 84), NPROD in the status word (log entry 85), and what is sampled when (log
entry 143). -/
def Obligations.NamedResults : Prop := Claims.NamedResults ∧ Claims.StatesSampled

/-! ### Queues, launches, special values and control registers -/

/-- DQPUSH after its release at .team, with its windows declared and room in the queue (R37, R323): the entry joins the queue. DQPOP in
its turn (R38, R39, R223, R322): the first eligible entry leaves the queue, and every active lane receives its item and flag 0; an
entry with a predicted input begins a task; with no more work to come the lanes receive 0 and flag 1. -/
def Obligations.DecisionQueueResults : Prop :=
  ∀ (h : Hdr) (a b d : BitVec 8) (k : BitVec 5),
    let masks := fun (x : Ctx) => (x.lane (low (activeOf x (.dqpush h a b)))).get true b.toNat
    let give := fun (x : Ctx) (item flag : Nat) (u : State) => (activeOf x (.dqpop h d b k)).foldl (fun v l =>
      (v.addPend x.run.team x.run.grp l
        [(.g d.toNat, item % 2 ^ 32), (.g (d.toNat + 1), item / 2 ^ 32), (.bit b.toNat k.toNat, flag)] true none).2) u
    let turn := fun (s : State) (x : Ctx) => ∀ j ∈ x.tm.dqWaiters, dqPlace s x (activeOf x (.dqpop h d b k)) ≤ j
    let popped := fun (x : Ctx) (e : DqEntry) (s : State) => s.onTeam x fun m => { m with dq := m.dq.filter fun q => q.order != e.order }
    let inputs := fun (e : DqEntry) => (List.range 32).filter fun w => e.imask.getLsbD w
    let level := fun (x : Ctx) (e : DqEntry) => ((inputs e).filterMap fun w =>
      (x.tm.win? w).bind fun v => if v.st = .predicted then some v.level else none).foldl max 0
    (∀ u, Effect (.dqpush h a b)
      (fun s x => (∀ w < 32, (masks x).testBit w ∨ (masks x).testBit (32 + w) → (x.tm.win? w).isSome = true) ∧
        x.tm.dq.length < 64 ∧ Released s x (.dqpush h a b) (some 1) false u)
      (fun _ x => State.onTeam { u with nextId := u.nextId + 1 } x fun m =>
        { m with dq := m.dq ++ [⟨BitVec.ofNat 64 ((x.lane (low (activeOf x (.dqpush h a b)))).get true a.toNat),
          BitVec.ofNat 32 (masks x), BitVec.ofNat 32 (masks x / 2 ^ 32), u.nextId, false⟩] })) ∧
    (∀ e, Effect (.dqpop h d b k)
      (fun s x => turn s x ∧ x.tm.dq.find? x.tm.dqEligible = some e ∧ level x e = 0)
      (fun s x => give x e.item.toNat 0 (popped x e s))) ∧
    (∀ e, Effect (.dqpop h d b k)
      (fun s x => turn s x ∧ x.tm.dq.find? x.tm.dqEligible = some e ∧ level x e ≠ 0)
      (fun s x => give x e.item.toNat 0 ((popped x e s).onGrp x fun y =>
        { y with lastSq := false, task := some ⟨e, level x e, x.pc, none, x.gp.lanesWith (fun l => l.st != .exited), inputs e, [], [], []⟩ }))) ∧
    Effect (.dqpop h d b k)
      (fun _ x => x.tm.dq = [] ∧ ∀ y, x.tm.grp? 32 = some y → y.finished = true)
      (fun s x => give x 0 1 s)

/-- LAUNCH of lanes and of the front thread (R41, R42, R45, R249), where the lowest lane's record is not malformed and after the release
at .pkg that follows: each active lane in turn has its record
read, and with a record that is not malformed, the device launch queue enabled and room in it, the record is appended and the lane
receives the launch's number. The model's choices (log entry 94): one release stands before the first append, after the lowest lane's
record has been read and found well-formed; the slot is the lowest free one, where R249 says a free slot; a record waits for a ring whose
channel retrains, and a ring outside DRAM takes none. -/
def Obligations.LaunchResults : Prop :=
  ∀ (h : Hdr) (d a b : BitVec 8) (cur : BitVec 3) (imm : BitVec 12),
    let one := fun (part : Ctx → Nat → LM (List (BitVec 8))) (x : Ctx) (l : Nat) (v : State) =>
      match part x l v with
      | .error e => (.error e : Except LStop (Unit × State))
      | .ok (bs, v1) =>
        if lrecBad (recWord bs) = true ∨ v.lu.dlqEn = false ∨ 4096 ≤ v.dlqCount ∨ v.pinned (v.dlqPa v.dlqSlot) = true ∨ v.dlqBad ≠ none then
          .error (.fault cLaunch)
        else
          .ok ((), ((v1.launchAppend x.tm bs).2.addPend x.run.team x.run.grp l
            [(pregOf x.front d.toNat, (v1.launchAppend x.tm bs).1)] true none).2)
    let appends := fun (i : Instr) (part : Ctx → Nat → LM (List (BitVec 8))) => ∀ s x u oks s1, Issues s x i →
      (∃ bs v, part x (low (activeOf x i)) s = .ok (bs, v) ∧ lrecBad (recWord bs) = false) →
      Released s x i (some 4) false u → PartsOk (one part) u x i oks s1 →
      ∃ fs rs, RunsLeft s rs ∧ (∀ q ∈ fs, q ∈ x.gp.fences) ∧ exec i s = .next (s1.settle x [] (fun _ z => passed x i z) fs rs)
    appends (.launch h d cur b imm) (fun x l => do
      let va ← lmAddr x ((x.lane l).cur cur.toNat) (signed ((x.lane l).get false b.toNat) 32) imm.toInt 64
      lmRec64 x l va) ∧
    appends (.launchFront h d a) (fun x l =>
      if (x.lane l).get true a.toNat % 64 = 0 then lmRec64 x l ((x.lane l).get true a.toNat % 2 ^ 56) else lmFault cMisaligned) ∧
    ∀ (s : State) (x : Team) (bs : List (BitVec 8)) (slot : Nat), s.Inv → bs.length = 64 → slot < 4096 →
      (∀ l ∈ s.lu.launches, l.queue = none → l.st = .waiting ∨ l.st = .satisfied → l.slot ≠ slot) →
      (∀ k < slot, ∃ l ∈ s.lu.launches, l.queue = none ∧ (l.st = .waiting ∨ l.st = .satisfied) ∧ l.slot = k) →
      (s.launchAppend x bs).1 = s.lu.nextGrid.toNat ∧
      (let pa := (s.lu.dlqBase.extractLsb' 18 30).toNat * 2 ^ 18 + 64 * slot
       (s.cmpAt pa = false → (s.launchAppend x bs).2.mem = s.mem.writeN pa bs) ∧
         ((s.codePlace pa).1 / 128 ≠ pa / 128 → ∀ k < 64, (s.launchAppend x bs).2.mem.read (pa + k) = bs.getD k 0)) ∧
      (s.launchAppend x bs).2.teams = s.teams ∧ (s.launchAppend x bs).2.lu.nextGrid = s.lu.nextGrid + 1 ∧
      (s.launchAppend x bs).2.lu.dlqAppended = s.lu.dlqAppended + 1 ∧
      ∃ l, (s.launchAppend x bs).2.lu.launches = s.lu.launches ++ [l] ∧ l.lr = lrecOf (recWord bs) ∧ l.asid = x.id.asid ∧
        l.prio = x.id.prio ∧ l.queue = none ∧ l.slot = slot ∧ l.gridid = s.lu.nextGrid.toNat ∧
        l.st = if l.lr.waitev = 0 then .satisfied else .waiting

/-- SREG and CSRR (R26, R55, R70, R76, R80, R94, R147, R156, R159, R160, R185, R229, R232, R318, R319, R389): the special values, and
the control registers with their fields in place, as they stood before the writes of this core cycle; the registers that a group holds
read 0 in the front thread. -/
def Obligations.SpecialReads : Prop :=
  ∀ (h : Hdr) (d : BitVec 8) (sel : Sel) (csr : BitVec 12),
    Completes (.sreg h d sel) (fun s x l z => match sel with
      | .laneid => z.put x.front d.toNat (if x.front then 0 else l)
      | .groupid => z.put x.front d.toNat (if x.front then 2 ^ 32 - 1 else x.run.grp)
      | .teamid => z.put x.front d.toNat x.tm.id.teamid
      | .clusterid => z.put x.front d.toNat x.tm.id.clusterid
      | .gridid => z.put x.front d.toNat x.tm.id.gridid
      | .coreid => z.put x.front d.toNat x.tm.core
      | .dieid => z.put x.front d.toNat (x.tm.core / 64)
      | .time => z.put64 x.front d.toNat (s.time / 2 * 2)) ∧
    Completes (.csrr h d csr) (fun s x _ z =>
      let y := x.gp
      let own := fun (v : Nat) => if x.front then 0 else v
      if csr = 0x049 then z.put64 x.front d.toNat x.tm.lrbase.toNat
      else if csr = 0x04C then z.put64 x.front d.toNat (own x.tm.uhvec.toNat)
      else z.put x.front d.toNat (
        if csr = 0x040 then own (y.bsize + 2 ^ 8 * b2n y.xblk.isSome + 2 ^ 16 * min 255 (s.freeRows x.tm.core / 64) +
          2 ^ 24 * b2n (!x.tm.reserveHeld))
        else if csr = 0x041 then own y.stklim.toNat
        else if csr = 0x042 then x.tm.rm.toNat + 4 * b2n (x.tm.nantrap && s.feat 8)
        else if csr = 0x043 then y.fpflags.toNat
        else if csr = 0x044 then own y.crew.mask.toNat
        else if csr = 0x045 then own (y.crew.no + 4 * b2n y.crew.valid + 8 * b2n y.crew.ovf +
          16 * b2n (((s.crewOf x.tm.core x.run.team x.run.grp).map fun k => k.latch.any fun r => r.grp == x.run.grp).getD false))
        else if csr = 0x046 then own (y.loads + 2 ^ 6 * min 63 y.stores + 2 ^ 12 * y.copies + 2 ^ 18 * y.tiles)
        else if csr = 0x047 then own y.naninfo.toNat
        else if csr = 0x048 then ((((s.core x.tm.core).limitOld.filter fun p => p.1 == s.time / 2).map (·.2)).getD
          (s.core x.tm.core).limit).toNat + 2 ^ 12 * (s.energyUsed x.tm.core % 4096)
        else if csr = 0x04A then own (b2n y.crew.keptDense + 2 * y.crew.lastK + 2 ^ 8 * b2n y.crew.fellBack + 2 ^ 9 * y.crew.free)
        else if csr = 0x04B then own (y.crew.base + 2 ^ 12 * y.crew.count)
        else if csr = 0x04D then own x.tm.uhdeleg.toNat
        else own (y.es.cause.toNat + 2 ^ 8 * b2n y.es.inh + 2 ^ 9 * b2n y.es.sup)))

/-- CSRW, XACQ, XREL and TLBINV (R51, R94, R147, R156, R160, R229, R318, R319, R396): CSRW changes the writable fields of its register and
no other, and what an instruction of that core cycle still reads is kept; XACQ with a block goes on, without one its group waits in order
for one, groups of one cycle by their slots; XREL returns the block to its source once no write to it is pending, and its rows keep their
contents; TLBINV removes every entry that it names from each core's and die's TLB, with the layout records and cached table entries of the
ASID, and its pack parks until the accesses made before it have left. -/
def Obligations.SystemResults : Prop :=
  ∀ (h : Hdr) (a b : BitVec 8) (csr : BitVec 12),
    Effect (.csrw h a csr) (fun _ _ => True) (fun s x =>
      let z := x.lane (low (activeOf x (.csrw h a csr)))
      let v : BitVec 64 := if csr = 0x049 ∨ csr = 0x04C then BitVec.ofNat 64 (z.get64 x.front a.toNat)
        else (BitVec.ofNat 32 (z.get x.front a.toNat)).setWidth 64
      -- what an instruction of this core cycle still finds
      let old := fun (m : Team) =>
        let q := (m.csrOld.filter fun p => p.cycle == s.time / 2).getD ⟨0, m.rm, m.nantrap, m.lrbase, m.uhvec, m.uhdeleg⟩
        some { q with cycle := s.time / 2 }
      if csr = 0x042 then
        s.onTeam x fun m => { m with rm := v.extractLsb' 0 2, nantrap := v.getLsbD 2 && s.feat 8, csrOld := old m }
      else if csr = 0x043 then s.onGrp x fun y =>
        let now := if y.ffRaised.1 = s.time / 2 then y.ffRaised.2 else 0
        { y with fpflags := (y.fpflags &&& ~~~(v.setWidth 6)) ||| now }
      else if csr = 0x048 then s.modCore x.tm.core fun c =>
        let kept := ((c.limitOld.filter fun p => p.1 == s.time / 2).map (·.2)).getD c.limit
        { c with limit := v.setWidth 12, limitOld := some (s.time / 2, kept) }
      else if csr = 0x049 then s.onTeam x fun m => { m with lrbase := (v.extractLsb' 9 47).setWidth 64 <<< 9, csrOld := old m }
      else if x.front then s
      else if csr = 0x041 then
        s.onGrp x fun y => { y with stklim := BitVec.ofNat 24 (min (v.setWidth 24).toNat (x.tm.id.priv * 4)) }
      else if csr = 0x04C then s.onTeam x fun m => { m with uhvec := (v.extractLsb' 3 53).setWidth 64 <<< 3, csrOld := old m }
      else if csr = 0x04D then s.onTeam x fun m => { m with uhdeleg := (v.extractLsb' 0 6).setWidth 32, csrOld := old m }
      else s) ∧
    Effect (.xacq h) (fun _ x => x.gp.xblk ≠ none) (fun s _ => s) ∧
    EffectTo (.xacq h) (fun _ x => x.gp.xblk = none)
      (fun s x => s.modCore x.tm.core fun c =>
        { c with xwait := if ∃ w ∈ c.xwait, w.team = x.run.team ∧ w.grp = x.run.grp then c.xwait
            else sortBy (fun w => w.cycle * 512 + w.slot) (c.xwait ++ [⟨x.run.team, x.run.grp, s.time / 2, x.gp.slot⟩]) })
      (fun x => activeOf x (.xacq h))
      (fun x l z => if (activeOf x (.xacq h)).contains l then parked x .xacq z else passed x (.xacq h) z) ∧
    Effect (.xrel h) (fun _ x => x.gp.xblk = none) (fun s _ => s) ∧
    (∀ r, Effect (.xrel h) (fun _ x => x.gp.xblk = some r ∧ x.gp.xPending = false) (fun s x =>
      let s1 := s.modCore x.tm.core fun c => Core.keepExtent x.tm.id.asid x.gp.slot x.gp.lanes c (2, 128, 64)
      (s1.onGrp x fun y =>
        { y with xblk := none, lanes := y.lanes.map fun l => { l with regs := l.regs.filter fun p => p.1 < 128 } }).onTeam x
          fun m => { m with reserveHeld := m.reserveHeld && !r })) ∧
    ∀ n, EffectTo (.tlbinv h a b)
      (fun s x =>
        let z := x.lane (low (activeOf x (.tlbinv h a b)))
        let c := z.get x.front b.toNat
        s.nextId = n ∧ c < 2 ^ 14 ∧ c / 2 ^ 12 ≠ 3 ∧ (c / 2 ^ 12 = 1 → z.get64 x.front a.toNat < 2 ^ 56))
      (fun s x =>
        let z := x.lane (low (activeOf x (.tlbinv h a b)))
        let c := z.get x.front b.toNat
        let mine := fun (n : Nat) => c / 2 ^ 12 == 2 || n == c % 2 ^ 12
        let keep := fun (e : TlbE) => !(mine e.asid &&
          (c / 2 ^ 12 != 1 || z.get64 x.front a.toNat / 2 ^ 16 * 2 ^ 16 / 2 ^ e.lg == e.va / 2 ^ e.lg))
        { s with
          asidCache := s.asidCache.filter fun p => !mine p.1
          walkCache := s.walkCache.filter fun e => !mine e.asid
          lu := { s.lu with walked := s.lu.walked.filter fun w => !mine w.asid }
          cores := s.cores.map fun p =>
            (p.1, { p.2 with tlb := p.2.tlb.filter keep, lrc := p.2.lrc.filter fun q => !mine (q.1 / 2 ^ 56) })
          dies := s.dies.map fun p => (p.1, { p.2 with l2tlb := p.2.l2tlb.filter keep }) })
      (fun x => activeOf x (.tlbinv h a b))
      (fun x l z =>
        let c := (x.lane (low (activeOf x (.tlbinv h a b)))).get x.front b.toNat
        if (activeOf x (.tlbinv h a b)).contains l then parked x (.tlbinv (if c / 2 ^ 12 = 2 then 4096 else c % 2 ^ 12) n) z
        else passed x (.tlbinv h a b) z)

/-! ### Device steps: runs, blocks of registers -/

/-- RUN_START, RUN_FORCED_END, JOIN_RELEASE and ASYNC_WRITEBACK (R32, R57, R60, R72, R73, R75, R86): a free pipe, once its groups'
satisfied JOINs have let go, takes the pack of the group at the head of its ready list (the scalar port the next front thread in
turn), a draining core starts none, a run ends by force from its 256th core cycle on, a JOIN releases its lanes
when every lane that their masks name has arrived or exited, and a ready writeback lands in its registers and drops kept copies. The
model's choices: the cycle of the first issue is the first of the 256, so that a run begun in cycle n ends from n + 255 on, and a run
that has issued nothing ends by force only where its core drains (log entry 13); the lists are formed at the ends of core cycles, and
the order of front threads keeps the one served longest ago first (log entry 14). -/
def Claims.RunSteps : Prop :=
  (∀ c k p x y lanes ages, Steps (.runStart c k)
    (fun s0 =>
      let s := s0.pipeJoins c k
      let list := (s.core c).readyList (s.readyOf c) k
      (∀ r ∈ s0.runs, ¬ (r.core = c ∧ r.pipe = k)) ∧ (s0.core c).pre = 0 ∧
      (k ≠ 8 → list.head? = some p) ∧
      (k = 8 → nextFront (s.core c).scalarQ list = some p) ∧
      s.team? p.1 = some x ∧ x.grp? p.2 = some y ∧ s.packOf p.1 p.2 x y = some (lanes, ages))
    (fun s0 =>
      let s := s0.pipeJoins c k
      let list := (s.core c).readyList (s.readyOf c) k
      let s1 := s.modGrp p.1 p.2 fun z =>
        { z with
          ages
          lanes := (List.range z.lanes.length).map fun l => if lanes.contains l then (z.lane l).taken else z.lane l }
      let s2 := s1.modCore c fun z =>
        { z with
          ready := z.ready.set k ((z.ready.getD k []).filter fun q => q != p && list.contains q)
          running := p :: z.running.filter (· != p)
          scalarQ := if k = 8 then s.frontServed c z.scalarQ list p.1 else z.scalarQ }
      { s2 with runs := s2.runs ++ [⟨c, k, p.1, p.2, lanes, none, 0, [], none⟩] })) ∧
  (∀ (q : List Nat) (list : List (Nat × Nat)) (p : Nat × Nat), nextFront q list = some p → p ∈ list ∧
    ((∃ before after, q = before ++ p.1 :: after ∧ ∀ r ∈ list, r.1 ∉ before) ∨
      ((∀ r ∈ list, r.1 ∉ q) ∧ ∀ r ∈ list, p.1 ≤ r.1))) ∧
  (∀ (s : State) c (q : List Nat) (list : List (Nat × Nat)) n, ∃ l, s.frontServed c q list n = l ++ [n] ∧ n ∉ l ∧
    ∀ k ∈ q, k ≠ n → (∃ r ∈ s.residents c, r.1 = k) → k ∈ l) ∧
  (∀ c k, Idles (.runStart c k) fun s => (s.core c).pre ≠ 0) ∧
  (∀ c k, Steps (.runForcedEnd c k) (fun _ => True) fun s =>
    { s with runs := s.runs.filter fun r => !(r.core == c && r.pipe == k &&
        (match r.start with | some n => decide (n + 255 ≤ s.time / 2) | none => (s.core c).pre != 0)) }) ∧
  (∀ t g p y, Steps (.joinRelease t g p)
    (fun s => s.grp? t g = some y ∧ (∃ l < y.lanes.length, (y.lane l).st = .held ∧ (y.lane l).pc = p) ∧
      ∀ l < y.lanes.length, (y.lane l).st = .held → (y.lane l).pc = p → ∀ k < 32, (y.lane l).jmask.getLsbD k = true →
        (y.lane k).st = .exited ∨ (k < y.lanes.length ∧ (y.lane k).st = .held ∧ (y.lane k).pc = p))
    (fun s => s.modGrp t g fun z =>
      { z with
        lanes := z.lanes.map fun l => if l.st = .held ∧ l.pc = p then { l with stamp := 0, pc := p + 8, st := .eligible } else l })) ∧
  (∀ t g p y l k, l < y.lanes.length → (y.lane l).st = .held → (y.lane l).pc = p → k < 32 → (y.lane l).jmask.getLsbD k = true →
    (y.lane k).st ≠ .exited → ¬ ((y.lane k).st = .held ∧ (y.lane k).pc = p) →
    Idles (.joinRelease t g p) fun s => s.grp? t g = some y) ∧
  (∀ t g l k y p, Steps (.asyncWriteback t g l k)
    (fun s => s.grp? t g = some y ∧ (y.lane l).pend[k]? = some p ∧ p.ready = true)
    (fun s => ((State.modLane { s with runs := s.runs.map fun r => r.unkeep t g p.regs } t g l fun x =>
      { (p.regs.foldl Lane.land x) with pend := x.pend.filter fun q => q.id != p.id }).decTok? t g p.tok).groupLeaves t g)) ∧
  (∀ (s : State) t g x y, s.team? t = some x → x.grp? g = some y →
    ((y.finished = false ∨ ∃ l ∈ y.lanes, l.pend ≠ []) → s.groupLeaves t g = s) ∧
    (y.finished = true → (∀ l ∈ y.lanes, l.pend = []) → ∃ x' y', (s.groupLeaves t g).team? t = some x' ∧ x'.grp? g = some y' ∧
      y' = { y with xblk := none } ∧ x'.reserveHeld = (x.reserveHeld && y.xblk != some true)))

/-- EXTENDED_BLOCK_GRANT and REGISTER_DEADLOCK (R51, R52, R53): 64 free rows serve the oldest waiting group of the core; with fewer,
the oldest whose team's reserve is not held is served from it; the packs that waited in XACQ go on, with the rows' kept contents in
g128 to g191 (R56). A team in register deadlock traps its packs in XACQ in ascending group slot; a team with an eligible lane, or one
whose core has a block to grant, does not. That a granted group's extent keeps the contents of its rows is the model's choice (log
entry 133). -/
def Claims.RegisterBlocks : Prop :=
  (∀ c t g, Steps (.extendedBlockGrant c)
    (fun s => 64 ≤ s.freeRows c ∧ ∃ w, (s.core c).xwait.head? = some w ∧ w.team = t ∧ w.grp = g)
    (fun s => s.grant c t g false)) ∧
  (∀ c t g x before rest, Steps (.extendedBlockGrant c)
    (fun s => s.freeRows c < 64 ∧ (∃ w, (s.core c).xwait = before ++ w :: rest ∧ w.team = t ∧ w.grp = g) ∧ s.team? t = some x ∧
      x.reserveHeld = false ∧ ∀ p ∈ before, ∃ z, s.team? p.team = some z ∧ z.reserveHeld = true)
    (fun s => s.grant c t g true)) ∧
  (∀ c, Idles (.extendedBlockGrant c) fun s => s.freeRows c < 64 ∧
    ∀ p ∈ (s.core c).xwait, ∃ z, s.team? p.team = some z ∧ z.reserveHeld = true) ∧
  (∀ (s : State) c t g r x y, s.team? t = some x → x.grp? g = some y →
    ∃ x', (s.grant c t g r).team? t = some x' ∧ x'.reserveHeld = (x.reserveHeld || r) ∧
      x'.grp? g = some { y with
        xblk := some r
        lanes := (List.range y.lanes.length).map fun l =>
          { (y.lane l) with
            regs := ((y.lane l).regs.filter fun p => p.1 < 128) ++ (s.core c).keptRows y.slot 2 x.id.asid 128 64 l
            st := if (y.lane l).st = .parked .xacq then .eligible else (y.lane l).st } } ∧
      ∀ w ∈ ((s.grant c t g r).core c).xwait, ¬(w.team = t ∧ w.grp = g)) ∧
  (∀ t x, Steps (.registerDeadlock t)
    (fun s => s.team? t = some x ∧ (∃ p ∈ x.grps, ∃ l ∈ p.2.lanes, l.st = .parked .xacq) ∧
      (∀ p ∈ x.grps, ∀ l ∈ p.2.lanes,
        l.st = .exited ∨ (∃ n, l.st = .parked (.barrier n)) ∨
          (p.2.front = false ∧ (l.st = .parked .xacq ∨ l.st = .parked .clbar ∨ l.st = .held))) ∧
      (∀ p ∈ x.bars, p.2.upds = []) ∧ s.freeRows x.core < 64 ∧ (∀ w ∈ (s.core x.core).xwait, ∃ z, s.team? w.team = some z ∧ z.reserveHeld = true) ∧
      (∀ z ∈ (s.core x.core).copies, z.team ≠ t) ∧ x.ilist = [] ∧ (∀ p ∈ s.packets, ∀ q, p.wtok = some q → q.1 ≠ t) ∧
      ∀ o ∈ s.ops, ¬ (o.kind = .xst ∧ o.team = t))
    (fun s => ((sortBy (fun (p : Nat × Group) => p.2.slot) x.grps).map (·.1)).foldl (State.deadlockTrap t) s)) ∧
  (∀ t x, Idles (.registerDeadlock t) fun s =>
    s.team? t = some x ∧ ((∃ p ∈ x.grps, ∃ l ∈ p.2.lanes, l.st = .eligible) ∨
      (64 ≤ s.freeRows x.core ∧ (s.core x.core).xwait ≠ [])))

/-- `Claims.RunSteps` and `Claims.RegisterBlocks` together.
The model's choices: the forced end at the first issue cycle and 255 more (log entry 13), the order of candidates (log entry 14), and
the rows that a grant keeps (log entry 133). -/
def Obligations.RunsAndBlocks : Prop := Claims.RunSteps ∧ Claims.RegisterBlocks

/-! ### Device steps: registers that the driver, supervisor code and Dehenan write -/

/-- REGISTER_WRITE (R5, R71, R93, R106, R107, R112, R118, R229, R246, R250): a host write of the aligned word of a register takes its
writable fields and keeps the others, a locked or occupied register keeps its value, and a read-only word ignores the write. -/
def Obligations.RegisterWrites : Prop :=
  ∀ (v : BitVec 64),
    let put := fun (old mask : BitVec 64) => (old &&& ~~~mask) ||| (v &&& mask)
    Steps (.registerWrite (Config.devBase + 0x20) v) (fun s => s.regs.featlock = false)
      (fun s => { s with regs := { s.regs with
        featacc := (v &&& 0x1FF) &&& (if v.getLsbD 0 then -1 else ~~~(2 : BitVec 64)) } }) ∧
    Idles (.registerWrite (Config.devBase + 0x20) v) (fun s => s.regs.featlock = true) ∧
    Idles (.registerWrite (Config.devBase + 0x48) v) (fun _ => True) ∧
    Steps (.registerWrite (Config.devBase + 0x1000) v) (fun _ => True) (fun s => { s with regs := { s.regs with enweight := v } }) ∧
    Steps (.registerWrite (Config.devBase + 0x6000) v) (fun _ => True)
      (fun s => { s with regs := { s.regs with
        l1lease := max 16 (v.extractLsb' 0 16).toNat, l2lease := max 16 (v.extractLsb' 16 16).toNat } }) ∧
    Steps (.registerWrite (Config.devBase + 0x8000) v) (fun _ => True)
      (fun s => { s with regs := { s.regs with shvec := put s.regs.shvec 0x00FF_FFFF_FFFF_FFF8 } }) ∧
    Steps (.registerWrite (Config.devBase + 0x4008) v) (fun _ => True)
      (fun s => { s with fq := { s.fq with base := put s.fq.base 0xFFFF_FFFF_FFE0 } }) ∧
    Steps (.registerWrite (Config.devBase + 0x4010) v) (fun s => s.fq.size ≤ 8)
      (fun s => { s with fq := { s.fq with size := min 8 (v.extractLsb' 0 4).toNat } }) ∧
    Steps (.registerWrite (Config.devBase + 0x4018) v) (fun _ => True)
      (fun s => { s with fq := { s.fq with head := v.setWidth 32 } }) ∧
    Idles (.registerWrite (Config.devBase + 0x4020) v) (fun _ => True) ∧
    (∀ c < 256, Steps (.registerWrite (Config.devBase + 0x10000 + 0x100 * c) v) (fun _ => True)
      (fun s => s.modCore c fun z => { z with limit := v.setWidth 12 })) ∧
    (∀ c < 256, Steps (.registerWrite (Config.devBase + 0x10008 + 0x100 * c) v) (fun s => s.residents c = [])
      (fun s => s.modCore c fun z => { z with privsz := v.setWidth 32 })) ∧
    (∀ c < 256, Idles (.registerWrite (Config.devBase + 0x10008 + 0x100 * c) v) (fun s => s.residents c ≠ [])) ∧
    (∀ c < 256, Steps (.registerWrite (Config.devBase + 0x10018 + 0x100 * c) v) (fun s => s.residents c = [])
      (fun s => s.modCore c fun z => { z with privbase := put z.privbase 0x00FF_FFFF_FFFF_0000 })) ∧
    (∀ c < 256, Idles (.registerWrite (Config.devBase + 0x10018 + 0x100 * c) v) (fun s => s.residents c ≠ [])) ∧
    (∀ a < 4096, Steps (.registerWrite (Config.devBase + 0x200000 + 16 * a) v) (fun _ => True)
      (fun s => { s with asidTab := s.asidTab.set a (put (s.asidTab.getD a 0) 0xFFFF_FFFF_F001) })) ∧
    (∀ t < 345, ∀ m < 529, ∀ w < 4, ∀ i < 2,
      Steps (.registerWrite (Config.devBase + 0x1000000 + 0x10000 * t + 0x40 * m + 0x10 * w + 8 * i) v) (fun _ => True)
        (fun s => { s with
          acc := s.acc.set ((t * 529 + m) * 8 + 2 * w + i)
            (put (s.accWord t m w i) (if i = 0 then 0xFFFF_FFFF_001F else 0xFFFF_FFFF_0000)) }))

/-- BUDGET_WRITE, BUDGET_PERIOD_END, RBCMD_WRITE, FAULT_QUEUE_HEAD, FEATCTL_LOCK, COCOONCFG_WRITE, DRAM_RETRAIN, DRAM_RETRAIN_DONE,
ECCSTAT_CLEAR, ENBUDGET_LIMIT_LOWER and ROUTE_TABLE_WRITE (R70, R82, R84, R98, R99, R216, R241, R246, R250, R252, R256, R258). Which
counts fit their targets is the part's (R84); a budget period ends once its 4,096 ticks are over; a route entry alone changes where no
packet to the destination was lost with a port, and with V set the lost ones leave again by the new port. -/
def Claims.DriverControls : Prop :=
  ∀ (v : BitVec 64),
    (∀ a < 7, Steps (.budgetWrite a v) (fun _ => True) (fun s =>
      let next := s.regs.budgetNext.set a (v.toNat % 65536)
      { s with regs := if Config.budgetFits next = true then { s.regs with budgetNext := next }
        else { s.regs with budgetErr := s.regs.budgetErr ||| 1 } })) ∧
    Idles .budgetPeriodEnd (fun s => s.time < 4096 * (s.periods + 1)) ∧
    (∀ s, 4096 * (s.periods + 1) ≤ s.time → ∃ t, exec .budgetPeriodEnd s = .next t ∧
      t.regs = { s.regs with budget := s.regs.budgetNext } ∧ t.periods = s.periods + 1 ∧ t.spent = [] ∧ t.mem = s.mem ∧
      t.teams = s.teams ∧ t.cores = s.cores ∧ t.ops = s.ops ∧
      ∀ d < 4, (t.die d).counts = [] ∧ (t.die d).slicemap = (s.die d).slicemap ∧
        ((s.die d).rbEn = false ∨ (s.regs.featlock = true ∧ s.regs.featacc.getLsbD 4 = false) ∨ (s.die d).move ≠ none ∨ (∀ k < 64, (s.die d).served k ≤ (s.die d).rbThresh.toNat) →
          (t.die d).move = (s.die d).move) ∧
        ∀ m, (s.die d).move = none → (t.die d).move = some m →
          m.src = (s.die d).sliceOfBucket m.bucket ∧ (s.die d).rbThresh.toNat < (s.die d).served m.src ∧
          (∀ k < 64, (s.die d).served k ≤ (s.die d).served m.src) ∧
          (∀ b < 4096, (s.die d).sliceOfBucket b = m.src →
            (s.die d).counts.getD (4096 * m.src + b) 0 ≤ (s.die d).counts.getD (4096 * m.src + m.bucket) 0) ∧
          m.dst ≠ m.src ∧ m.dst < 64 ∧ m.dst ∉ (s.die d).sliceRetire ∧
          ∀ k < 64, k ∉ (s.die d).sliceRetire → (s.die d).served m.dst < (s.die d).served k ∨
            ((s.die d).served m.dst = (s.die d).served k ∧ m.dst ≤ k)) ∧
    (∀ d < 4, Steps (.rbcmdWrite d v)
      (fun s => (s.regs.featlock = false ∨ s.regs.featacc.getLsbD 4 = true) ∧ (s.die d).move = none ∧
        (v.extractLsb' 12 6).toNat ∉ (s.die d).sliceRetire ∧
        (s.die d).slicemap.getD (v.extractLsb' 0 12).toNat ((v.extractLsb' 0 12).toNat % 64) ≠ (v.extractLsb' 12 6).toNat)
      (fun s =>
        let b := (v.extractLsb' 0 12).toNat
        State.modDie { s with nextId := s.nextId + 1 } d fun z =>
          { z with move := some ⟨b, (s.die d).slicemap.getD b (b % 64), (v.extractLsb' 12 6).toNat, s.nextId, 0⟩ })) ∧
    (∀ d < 4, Steps (.rbcmdWrite d v) (fun s => (s.regs.featlock = false ∨ s.regs.featacc.getLsbD 4 = true) ∧ (s.die d).move ≠ none)
      (fun s => { s with regs := { s.regs with budgetErr := s.regs.budgetErr ||| 2 } })) ∧
    (∀ d < 4, Idles (.rbcmdWrite d v) (fun s => s.regs.featlock = true ∧ s.regs.featacc.getLsbD 4 = false)) ∧
    (∀ n, Steps (.faultQueueHead n) (fun _ => True) (fun s => { s with fq := { s.fq with head := n } })) ∧
    Steps .featctlLock (fun s => s.regs.featlock = false ∧ s.regs.featacc.getLsbD 7 = true)
      (fun s => { s with regs := { s.regs with featlock := true } }) ∧
    Steps .featctlLock (fun s => s.regs.featlock = false ∧ s.regs.featacc.getLsbD 7 = false)
      (fun s => { s with
        regs := { s.regs with featlock := true }
        dies := s.dies.map fun p => (p.1, { p.2 with cocoon := 0 })
        routers := s.routers.map fun p => (p.1, { p.2 with cocoon := [] }) }) ∧
    Idles .featctlLock (fun s => s.regs.featlock = true) ∧
    (∀ d < 4, Steps (.cocooncfgWrite d v) (fun s => (s.regs.featlock = false ∨ s.regs.featacc.getLsbD 7 = true))
      (fun s =>
        let s1 := (s.modDie d fun z => { z with cocoon := min 16 (v.extractLsb' 0 5).toNat }).l2TrimAll d
        { s1 with routers := s1.routers.map fun p => if p.1 / 64 = d then (p.1, { p.2 with cocoon := [] }) else p })) ∧
    (∀ (s : State) d sl, sl < 64 →
      (((s.l2TrimAll d).die d).l2.filter fun y => s.sliceOf d (y.line * 128) == sl).length ≤ 32768 - 512 * (s.die d).cocoon ∧
      (s.l2TrimAll d).routers = s.routers ∧ ∀ y ∈ ((s.l2TrimAll d).die d).l2, y ∈ (s.die d).l2) ∧
    (∀ d < 4, Idles (.cocooncfgWrite d v) (fun s => s.regs.featlock = true ∧ s.regs.featacc.getLsbD 7 = false)) ∧
    (∀ c < 8, Steps (.dramRetrain c v) (fun s => c ∉ s.regs.dramBusy ∧ v.getLsbD 4 = true)
      (fun s => { s with regs := { s.regs with
        dramChan := s.regs.dramChan.set c (v.extractLsb' 0 4).toNat, dramBusy := c :: s.regs.dramBusy } })) ∧
    (∀ c < 8, Idles (.dramRetrain c v) (fun s => c ∈ s.regs.dramBusy)) ∧
    (∀ c, Steps (.dramRetrainDone c) (fun _ => True)
      (fun s => { s with regs := { s.regs with dramBusy := s.regs.dramBusy.filter fun n => n != c } })) ∧
    (∀ c, Steps (.eccstatClear c) (fun _ => True) (fun s => s.modCore c fun z => { z with eccCorr := 0, eccUncorr := 0 })) ∧
    (∀ c n, Steps (.enbudgetLimitLower c n) (fun s => s.deh.restarting = false ∧ n ≤ (s.core c).limit)
      (fun s => s.modCore c fun z => { z with limit := n })) ∧
    (∀ c n, Idles (.enbudgetLimitLower c n) (fun s => s.deh.restarting = true ∨ (s.core c).limit < n)) ∧
    (∀ d (r : BitVec 16), Steps (.routeTableWrite d r)
      (fun s => r.getLsbD 4 = false ∨ ∀ p < 16, ∀ k ∈ (s.port p).lost, k.dst ≠ d)
      (fun s => { s with links := { s.links with routes := s.links.routes.set d (r &&& 0x1F) } })) ∧
    (∀ s d (r : BitVec 16), r.getLsbD 4 = true → (s.port (r.toNat % 16)).down = false →
      ∃ t, exec (.routeTableWrite d r) s = .next t ∧ t.links.routes = s.links.routes.set d (r &&& 0x1F) ∧
        ∀ p < 16, (∀ k ∈ (t.port p).lost, k.dst ≠ d) ∧
          ∀ k ∈ (s.port p).lost, if k.dst = d then k ∈ (t.port (r.toNat % 16)).unacked else k ∈ (t.port p).lost)

/-- BUCKET_MOVE_COMPLETE and SLICE_RETIRE (R82, R98, R100, R258): once no access of the bucket that entered before the move is in flight
and each flush of a line and each of the 128 table writes has its grant, the new slice serves the bucket, what the old slice had to forward has been forwarded, none of the bucket's lines is in the die's L2, and the
latest lease granted on them bounds later write completion times; until then the move goes on and keeps the grants it has taken. A retired slice serves no new bucket,
discards its Cocoon copies, and each of its buckets moves or waits to move to a slice in service. -/
def Claims.BucketMoves : Prop :=
  let held := fun (s : State) (d : Nat) (m : Move) => ∃ o ∈ s.ops, o.id < m.cut ∧ o.core / 64 = d ∧ 2 ≤ o.alloc ∧
    bucketOf o.pa = m.bucket ∧ regionOf o.pa = .dram ∧ o.kind ≠ .evwait ∧ o.kind ≠ .xst ∧ o.kind ≠ .nrtw ∧ o.kind ≠ .sts ∧
    s.mayPerform o = true
  let work := fun (s : State) (d : Nat) (m : Move) => ((s.die d).l2.filter fun l => bucketOf (l.line * 128) == m.bucket).length + 128
  (∀ s d m, (s.die d).move = some m → ¬ held s d m → (s.payMove d m).1 < work s d m → exec (.bucketMoveComplete d) s =
    .next ((s.payMove d m).2.modDie d fun z => { z with move := some { m with paid := (s.payMove d m).1 } })) ∧
  (∀ s d m, m.paid ≤ (s.payMove d m).1 ∧ (s.payMove d m).1 ≤ max m.paid (work s d m) ∧
    { (s.payMove d m).2 with spent := s.spent, claimed := s.claimed } = s) ∧
  (∀ s d m, (s.die d).move = some m → ¬ held s d m → work s d m ≤ (s.payMove d m).1 → ∃ t, exec (.bucketMoveComplete d) s = .next t ∧
    (t.die d).slicemap = (s.die d).slicemap.set m.bucket m.dst ∧ (t.die d).move ≠ some m ∧
    (∀ f ∈ (t.die d).fwd, s.sliceOf d (f.line * 128) ≠ m.src) ∧ (∀ l ∈ (t.die d).l2, bucketOf (l.line * 128) ≠ m.bucket) ∧
    (∀ p ∈ (s.die d).granted, bucketOf (p.1 * 128) = m.bucket → p.2 ≤ (t.die d).floors.getD m.bucket 0) ∧
    t.ops = s.ops ∧ t.cores = s.cores) ∧
  (∀ d m, Idles (.bucketMoveComplete d) fun s => (s.die d).move = some m ∧ held s d m) ∧
  (∀ d, Idles (.bucketMoveComplete d) fun s => (s.die d).move = none) ∧
  (∀ s k n, s.regs.featacc.getLsbD 4 = true → k % 64 ∉ (s.die (k / 64)).sliceRetire →
    n < 64 → n ≠ k % 64 → n ∉ (s.die (k / 64)).sliceRetire →
    ∃ t, exec (.sliceRetire k) s = .next t ∧ (t.die (k / 64)).sliceRetire = k % 64 :: (s.die (k / 64)).sliceRetire ∧
      (t.router k).cocoon = [] ∧ (t.die (k / 64)).slicemap = (s.die (k / 64)).slicemap ∧
      (∀ m, (t.die (k / 64)).move = some m → (s.die (k / 64)).move = some m ∨ m.dst ∉ (t.die (k / 64)).sliceRetire) ∧
      (∀ b < 4096, (s.die (k / 64)).sliceOfBucket b = k % 64 →
        (∃ m ∈ (t.die (k / 64)).pendingMoves, m.bucket = b) ∨ ∃ m, (t.die (k / 64)).move = some m ∧ m.bucket = b) ∧
      t.mem = s.mem ∧ t.ops = s.ops ∧ t.cores = s.cores) ∧
  (∀ k, Idles (.sliceRetire k) fun s => s.regs.featacc.getLsbD 4 = false) ∧
  ∀ k, Idles (.sliceRetire k) fun s => k % 64 ∈ (s.die (k / 64)).sliceRetire

/-- LAUNCH_QUEUE_DOORBELL, LAUNCH_QUEUE_ENABLE and DEVICE_QUEUE_ENABLE (R247 to R249): a TAIL within the ring is taken, one beyond it is
ignored, sets ERR, clears EN and signals MSI-X vector 2; EN := 1 sets HEAD to TAIL and makes a parked record read again; the device
queue starts with no record. -/
def Claims.LaunchQueueControls : Prop :=
  (∀ q tail, Steps (.launchQueueDoorbell q tail)
    (fun s => (tail - (s.lu.hq.getD q HQ.reset).head).toNat ≤ 64 * 2 ^ (s.lu.hq.getD q HQ.reset).size)
    (fun s => { s with lu := { s.lu with hq := s.lu.hq.set q { s.lu.hq.getD q HQ.reset with tail } } })) ∧
  (∀ q tail, Steps (.launchQueueDoorbell q tail)
    (fun s => 64 * 2 ^ (s.lu.hq.getD q HQ.reset).size < (tail - (s.lu.hq.getD q HQ.reset).head).toNat)
    (fun s => { s.dropFarOf 0 (64 + 2 * q) with
      lu := { s.lu with hq := s.lu.hq.set q { s.lu.hq.getD q HQ.reset with err := true, en := false } }
      out := { s.out with msix := s.out.msix ++ [2] } })) ∧
  (∀ q, Steps (.launchQueueEnable q) (fun _ => True)
    (fun s => { s with lu := { s.lu with
      hq := s.lu.hq.set q { s.lu.hq.getD q HQ.reset with en := true, head := (s.lu.hq.getD q HQ.reset).tail, parked := none } } })) ∧
  ∀ s, ∃ t, exec .deviceQueueEnable s = .next t ∧ t.lu.dlqEn = true ∧ t.lu.dlqAppended = 0 ∧ t.dlqCount = 0 ∧
    { t with lu := { t.lu with dlqEn := s.lu.dlqEn, dlqAppended := s.lu.dlqAppended, launches := s.lu.launches } } = s ∧
    ∀ l ∈ s.lu.launches, l ∈ t.lu.launches ∨ (l.queue = none ∧ (l.st = .waiting ∨ l.st = .satisfied))

/-- `Claims.DriverControls`, `Claims.BucketMoves` and `Claims.LaunchQueueControls` together. -/
def Obligations.DriverWrites : Prop := Claims.DriverControls ∧ Claims.BucketMoves ∧ Claims.LaunchQueueControls

/-! ### Device steps: pre-emption -/

/-- PRECTL_REQ, PRECTL_RESUME, CORE_RETIRE, THERMAL_TRIP and PREEMPT_DRAIN (R18, R85, R86, R258): a request reaches the core and every
core of the clusters it shares, a core that drains or has halted ignores it, RESUME returns a halted core to admission, and a
request on its way makes STATE 1 and keeps a run that has issued nothing from beginning. That the thermal trip signals MSI-X vector 1,
where R18 names no vector, is the model's choice (log entry 111). -/
def Obligations.PreemptionRequests : Prop :=
  let ask := fun (s : State) (z : Core) => if z.pre = 0 ∧ z.preT0 = 0 then { z with preT0 := s.time + 1 } else z
  (∀ s c, (s.core c).pre = 0 → c < 256 → (∀ p ∈ s.teams, p.2.core < 256) → ∃ t, exec (.prectlReq c) s = .next t ∧
    c ∈ s.reach 256 [c] ∧
    (∀ p ∈ s.teams, ∀ q ∈ s.teams, p.2.core ∈ s.reach 256 [c] → p.2.id.gridid = q.2.id.gridid →
      p.2.id.clusterid = q.2.id.clusterid → q.2.core ∈ s.reach 256 [c]) ∧
    (∀ k, t.core k = if k ∈ s.reach 256 [c] then ask s (s.core k) else s.core k) ∧ { t with cores := s.cores } = s) ∧
  (∀ c, Idles (.prectlReq c) fun s => (s.core c).pre ≠ 0) ∧
  (∀ c, Steps (.prectlResume c) (fun s => (s.core c).pre = 2) fun s =>
    s.modCore c fun z => { z with pre := 0, preT0 := 0, quiet := false }) ∧
  (∀ c, Idles (.prectlResume c) fun s => (s.core c).pre ≠ 2) ∧
  (∀ s c, ∃ t, exec (.coreRetire c) s = .next t ∧ (t.core c).retire = true ∧ { t with cores := s.cores } = s ∧
    ((s.core c).pre = 0 → (s.core c).preT0 = 0 → (t.core c).preT0 = s.time + 1) ∧ (t.core c).pre = (s.core c).pre) ∧
  (∀ s, ∃ t, exec .thermalTrip s = .next t ∧ t.regs = { s.regs with tripped := true } ∧
    t.out = { s.out with msix := s.out.msix ++ [1] } ∧ (∀ k < 256, t.core k = ask s (s.core k)) ∧
    { t with cores := s.cores, regs := s.regs, out := s.out } = s) ∧
  (∀ c, Steps (.preemptDrain c) (fun s => (s.core c).pre = 0 ∧ (s.core c).preT0 ≠ 0) fun s =>
    State.modCore { s with runs := s.runs.filter fun r => r.core != c || r.start.isSome } c fun z => { z with pre := 1 }) ∧
  ∀ c, Idles (.preemptDrain c) fun s => (s.core c).preT0 = 0

/-- PREEMPT_BLOCK_DEADLINE, PREEMPT_SQUASH_DEADLINE, PREEMPT_HALT and PREEMPT_QUIET (R79, R86, R87): the deadlines, counted from the
request, abandon copy blocks in flight and squash every task; a core without runs, blocks or tasks halts, the packs of its rendezvous
latches to issue again; and it is quiet once nothing of its teams is in flight. The model's choices: QUIET leaves out the COPIES that
are suspended and the parts of LOADS and STORES that lanes hold which stay parked, where R85 says 0 (log entry 105); and lanes in
EVWAIT stay parked through the halt (log entry 106). -/
def Obligations.PreemptionHalts : Prop :=
  let settled := fun (s : State) (c : Nat) => ∀ p ∈ s.teams, p.2.core = c →
    (∀ o ∈ s.ops, o.team = p.1 → o.kind = .evwait ∨ o.got = true) ∧
    ∀ q ∈ p.2.grps, (∀ l ∈ q.2.lanes, l.pend = []) ∧ ∀ k ∈ q.2.toks,
      (k.2.ctr ≤ 1 → k.2.left ≤ s.keptParts p.1 q.1 q.2 k.1) ∧ (k.2.ctr = 2 → k.1 ∈ s.suspended p.1 p.2)
  (∀ c, Steps (.preemptBlockDeadline c)
    (fun s => (s.core c).pre = 1 ∧ (s.core c).preT0 - 1 + 4160 ≤ s.time ∧ 0 < (s.core c).preT0 ∧
      ∀ z ∈ (s.core c).copies, z.abandoned = false)
    (fun s => s.modCore c fun z => { z with copies := z.copies.map fun y => { y with inflight := [] } })) ∧
  (∀ c, Idles (.preemptBlockDeadline c) fun s => s.time < (s.core c).preT0 - 1 + 4160 ∧ 0 < (s.core c).preT0) ∧
  (∀ s c, (s.core c).pre = 1 → 0 < (s.core c).preT0 → (s.core c).preT0 - 1 + 4224 ≤ s.time →
    ∃ t, exec (.preemptSquashDeadline c) s = .next t ∧ t.mem = s.mem ∧
      ∀ k x g y, t.team? k = some x → x.core = c → x.grp? g = some y → y.task = none) ∧
  (∀ c, Idles (.preemptSquashDeadline c) fun s => s.time < (s.core c).preT0 - 1 + 4224 ∧ 0 < (s.core c).preT0) ∧
  (∀ s c, (s.core c).pre = 1 → (∀ r ∈ s.runs, r.core ≠ c) → (∀ z ∈ (s.core c).copies, z.inflight = []) →
    (∀ p ∈ s.teams, p.2.core = c → ∀ q ∈ p.2.grps, q.2.task = none ∧
      (q.2.es.entry = none ∨ (s.core c).preT0 + 4287 ≤ s.time)) →
    ∃ t, exec (.preemptHalt c) s = .next t ∧ (t.core c).pre = 2 ∧ (t.core c).quiet = false ∧
      (∀ k ∈ (t.core c).crews, k.latch = []) ∧ t.ops = s.ops ∧ t.mem = s.mem ∧
      ∀ k x g y, s.team? k = some x → x.core = c → x.grp? g = some y → ∃ x' y', t.team? k = some x' ∧ x'.grp? g = some y' ∧
        y'.lanes.length = y.lanes.length ∧ ∀ l < y.lanes.length, y'.lane l = match (y.lane l).st with
          | .parked .latch =>
            if ∃ q ∈ (s.core c).crews, q.team = k ∧ ∃ r ∈ q.latch, r.grp = g ∧ l ∈ r.lanes then { (y.lane l) with st := .eligible }
            else y.lane l
          | _ => y.lane l) ∧
  (∀ c, Idles (.preemptHalt c) fun s => ∃ r ∈ s.runs, r.core = c) ∧
  (∀ c, Steps (.preemptQuiet c)
    (fun s => (s.core c).pre = 2 ∧ (s.core c).quiet = false ∧ settled s c)
    (fun s => s.modCore c fun z => { z with quiet := true })) ∧
  ∀ c, Idles (.preemptQuiet c) fun s => (s.core c).pre ≠ 2 ∨ ¬ settled s c

/-- CONTEXT_SAVE and CORE_SET_RESTORE (R66, R67, R88, R89): the teams of a quiet core leave as one core set that keeps their lanes'
PCs, stamps and registers, barrier registers, decision queues, the carve, the store pool and the crew instructions past their
rendezvous; a set of no cluster that is next in the order of R65 is restored on the first core that admits it, with the same contents
and, where they fit, the same private areas: the model's choice (log entry 107). A bucket that moves keeps a core that shares its die
waiting with both (R100). -/
def Obligations.ContextSteps : Prop :=
  let same := fun (x x' : Team) => { x'.id with area := x.id.area } = x.id ∧ x'.bars = x.bars ∧ x'.dq = x.dq ∧ x'.rm = x.rm ∧ x'.uhvec = x.uhvec ∧
    ∀ g y, x.grp? g = some y → ∃ y', x'.grp? g = some y' ∧ y'.xblk = y.xblk ∧ y'.crew = y.crew ∧
      y'.lanes.map (fun l => (l.pc, l.stamp, l.regs, l.sregs, l.curs)) = y.lanes.map fun l => (l.pc, l.stamp, l.regs, l.sregs, l.curs)
  (∀ s c, (s.core c).pre = 2 → (s.core c).quiet = true → s.allOpen c = true → s.residents c ≠ [] →
    ∃ t z, exec (.contextSave c) s = .next t ∧ t.saved = s.saved ++ [z] ∧ t.residents c = [] ∧
      z.carve = (s.core c).carve ∧ z.wst = (s.core c).wst ∧ z.xst = (s.core c).xst ∧ z.yst = (s.core c).yst ∧
      ∀ k x, s.team? k = some x → x.core = c → ∃ x', (k, x') ∈ z.teams ∧ x'.id = x.id ∧ same x x') ∧
  (∀ c, Idles (.contextSave c) fun s => (s.core c).quiet = false ∨ s.allOpen c = false) ∧
  (∀ s k z c, s.saved[k]? = some z → z.exchId = none → (z.teams.map (·.1)).Nodup → s.setUnblocked z = true → s.setFirst z = true → c < 256 →
    s.setFits z c = true → (∀ b < c, s.setFits z b = false) → s.allOpen c = true →
    ∃ t, exec (.coreSetRestore k) s = .next t ∧ t.saved = s.saved.filter (fun y => y.id != z.id) ∧
      (t.core c).carve = z.carve ∧ (t.core c).wst = z.wst ∧ (t.core c).xst = z.xst ∧ (t.core c).yst = z.yst ∧
      ∀ p ∈ z.teams, ∃ x', t.team? p.1 = some x' ∧ x'.core = c ∧ x'.wins = p.2.wins ∧ same p.2 x' ∧
        ((∀ q ∈ z.teams, q.2.id.area + q.2.id.privBytes ≤ (s.core c).privsz.toNat) → x'.id = p.2.id)) ∧
  ∀ k z, Idles (.coreSetRestore k) fun s =>
    s.saved[k]? = some z ∧ z.exchId = none ∧ ∀ c < 256, s.setFits z c = false

/-- FAULTRESP_REPLAY and FAULTRESP_KILL (R105, R419): replay makes the accesses parked on the page again and forgets the
fault, with the record that waits to be written for it; kill
ends every team of the ASID with an access parked on the page, reports it, and keeps every other team. -/
def Obligations.FaultResponses : Prop :=
  (∀ a g, Steps (.faultrespReplay a g)
    (fun s => ∀ p ∈ s.teams, ∀ q ∈ p.2.grps, q.2.es.entry = none)
    (fun s => { s with
      outst := s.outst.filter fun o => !(o.asid == a && o.page == g)
      fq := { s.fq with late := s.fq.late.filter fun p => !(p.2 && p.1.asid == a && pageOf p.1.va == g) }
      lu := { s.lu with
        launches := s.lu.launches.map (Launch.unpark a g)
        hq := s.lu.hq.map fun p => (p.1, p.2.unpark a g) }
      cores := s.cores.map fun p => (p.1, { p.2 with
        engine := p.2.engine.map fun j =>
          if (match s.team? j.team with | some x => x.id.asid == a | none => false) = true then j.unpark g else j }) })) ∧
  ∀ s a g, (s.teams.map (·.1)).Nodup → ∃ t, exec (.faultrespKill a g) s = .next t ∧
    (∀ o ∈ t.outst, ¬ (o.asid = a ∧ o.page = g)) ∧
    (∀ l ∈ t.lu.launches, ¬ (l.asid = a ∧ l.parked.map Prod.fst = some g)) ∧
    ∀ k x, s.team? k = some x →
      if x.id.asid = a ∧ s.parkedOn k x g = true then
        t.team? k = none ∧ ∃ r, (r ∈ t.fq.wait ∨ (r, false) ∈ t.fq.late) ∧ r.asid = a ∧ r.master = x.core ∧ r.kind = 3
      else t.team? k ≠ none

/-! ### Device steps: caches, markers, translation, copies -/

/-- L2_FORWARD, LEASE_EXPIRY, L1_EVICTION and FENCE_MARKER (R95, R96, R100, R112, R113, R116): the forwarded bytes stand in memory and
the groups that stored them keep the L3's write completion time; expired clean copies go, from a die's L2 once what it has not
forwarded of the line is; the least recently used line of the lowest
priority leaves the L1, the bytes that stores left in it written at the L2 home, where that answers (R100), for the groups that
stored them, which take its write completion time and the slice into their path sets (the model's choice: log entry 34); a marker at .pkg or
wider is acknowledged when the slice, and the one that a bucket moves to from it, has forwarded everything, with the L3's write
completion times. The memory of a page that is not compressible changes in the forwarded bytes alone; a line that has left the L2
counts as its block is known at the L3 (log entry 145). -/
def Obligations.CacheSteps : Prop :=
  (∀ s d f pre post, s.Inv → (s.die d).fwd = pre ++ f :: post →
    (∀ e ∈ pre, s.sliceOf d (e.line * 128) ≠ s.sliceOf d (f.line * 128)) → (∀ e ∈ post, e.line ≠ f.line) →
    let packed := (∃ x, (s.die d).l2Find f.line = some x ∧ x.cmp = true) ∨
      ((s.die d).l2Find f.line = none ∧ s.cmpAt (f.line * 128) = true)
    (packed → (s.codePlace (f.line * 128)).1 / 128 ≠ f.line) →
    ∃ t, exec (.l2Forward d f.line) s = .next t ∧ (t.die d).fwd = pre ++ post ∧ t.cores = s.cores ∧ t.ops = s.ops ∧
      (∀ a, a / 128 = f.line → f.mask.getLsbD (a % 128) = true → t.mem.read a = f.data.extractLsb' (8 * (a % 128)) 8) ∧
      (¬ packed → ∀ a, ¬ (a / 128 = f.line ∧ f.mask.getLsbD (a % 128) = true) → t.mem.read a = s.mem.read a) ∧
      ∀ k g y, s.grp? k g = some y → t.grp? k g =
        some (if (k, g) ∈ f.owners then { y with wct3 := max y.wct3 (max s.time (s.l3Granted.getD f.line 0)) } else y)) ∧
  (∀ d line, Idles (.l2Forward d line) fun s => ∀ f ∈ (s.die d).fwd, f.line ≠ line) ∧
  (∀ c line, c < 256 → Steps (.leaseExpiry c line) (fun _ => True) fun s => s.modCore c fun z =>
    { z with
      l1 := z.l1.filter fun x => !(x.line == line && x.dirty == 0 && decide (x.lease ≤ s.time))
      mdc := z.mdc.filter fun x => !(x.line == line && decide (x.lease ≤ s.time))
      ipath := z.ipath.filter fun x => !(x.line == line && decide (x.lease ≤ s.time)) }) ∧
  (∀ d line x, Steps (.leaseExpiry (256 + d) line)
    (fun s => (s.die d).l2Find line = some x ∧ x.lease ≤ s.time ∧ ∀ f ∈ (s.die d).fwd, f.line ≠ line)
    (fun s => s.modDie d fun z => { z with l2 := z.l2.filter fun y => y.line != line })) ∧
  (∀ s d line x, (s.die d).l2Find line = some x → x.lease ≤ s.time → ∃ t, exec (.l2Forward d line) s = .next t ∧
    exec (.leaseExpiry (256 + d) line) s = .next (t.modDie d fun z => { z with l2 := z.l2.filter fun y => y.line != line })) ∧
  (∀ d line x, Idles (.leaseExpiry (256 + d) line) fun s => (s.die d).l2Find line = some x ∧ s.time < x.lease) ∧
  (∀ c line x pre post, Steps (.l1Eviction c line)
    (fun s => (s.core c).l1 = pre ++ x :: post ∧ x.line = line ∧ x.dirty = 0 ∧ (∀ y ∈ pre, y.line ≠ line ∧ x.evp ≤ y.evp) ∧
      ∀ y ∈ post, x.evp < y.evp)
    (fun s => s.modCore c fun z => { z with l1 := z.l1.filter fun y => y.line != line })) ∧
  (∀ c line x pre post, Idles (.l1Eviction c line) fun s => (s.core c).l1 = pre ++ x :: post ∧ x.line = line ∧
    (∀ y ∈ pre ++ post, y.line ≠ line) ∧ ((∃ y ∈ pre, y.evp < x.evp) ∨ ∃ y ∈ post, y.evp ≤ x.evp)) ∧
  (∀ c line x, Idles (.l1Eviction c line) fun s => (s.core c).l1Find line = some x ∧ x.dirty ≠ 0 ∧
    s.homeOpen (c / 64) (line * 128) 3 = false) ∧
  (∀ s c line x pre post, (s.core c).l1 = pre ++ x :: post → x.line = line → x.dirty ≠ 0 → s.homeOpen (c / 64) (line * 128) 3 = true →
    (∀ y ∈ pre, y.line ≠ line ∧ x.evp ≤ y.evp) → (∀ y ∈ post, x.evp < y.evp) →
    ∃ t f, exec (.l1Eviction c line) s = .next t ∧ (t.core c).l1Find line = none ∧ f ∈ (t.die (c / 64)).fwd ∧ f.line = line ∧
      f.mask = x.dirty ∧ f.owners = x.owners ∧
      (∀ i < 128, x.dirty.getLsbD i = true → f.data.extractLsb' (8 * i) 8 = x.data.extractLsb' (8 * i) 8) ∧
      ∀ p ∈ x.owners, ∀ y, s.grp? p.1 p.2 = some y → ∃ y', t.grp? p.1 p.2 = some y' ∧ s.time ≤ y'.kwct ∧
        s.sliceOf (c / 64) (line * 128) ∈ y'.pathDie ∧ s.sliceOf (c / 64) (line * 128) ∈ y'.pathPkg) ∧
  (∀ k g slice x y, Steps (.fenceMarker k g slice)
    (fun s => s.team? k = some x ∧ s.grp? k g = some y ∧ ∀ f ∈ y.fences, f.stage = 1 → slice ∈ f.markers → f.scope < 4)
    (fun s => s.modGrp k g fun z =>
      { z with
        fences := z.fences.map fun f => if f.stage = 1 then { f with markers := f.markers.filter fun n => n != slice } else f })) ∧
  (∀ s k g slice x y, s.team? k = some x → s.grp? k g = some y → (∃ f ∈ y.fences, f.stage = 1 ∧ slice ∈ f.markers ∧ 4 ≤ f.scope) →
    ∃ t z, exec (.fenceMarker k g slice) s = .next t ∧ t.grp? k g = some z ∧ z.kwct = max y.kwct z.wct3 ∧ y.wct3 ≤ z.wct3 ∧
      (∀ f ∈ (t.die (x.core / 64)).fwd, s.sliceOf (x.core / 64) (f.line * 128) ≠ slice ∧
        ∀ m, (s.die (x.core / 64)).move = some m → m.src = slice → s.sliceOf (x.core / 64) (f.line * 128) ≠ m.dst) ∧
      ∀ f ∈ z.fences, f.stage = 1 → slice ∉ f.markers)

/-- PAGE_WALK, FAULT_RECORD_WRITE, TLB_INVALIDATION_DONE, NRT_ENTRY_WRITTEN and EVWAIT_REPOLL (R82, R104 to R106, R206, R250, R326, R327,
R367, R396): one of the 64 walks held, with a grant, fills the TLBs of every core that missed on its page, or each miss's fault is
reported; a walk beyond the 64 waits, and the walk of the scheduler's miss keeps what it found for the scheduler. No trap entry waits
in the page-walk clauses; a waiting one is tried again besides. The model's choices: the oldest entry leaves a full TLB (log entry 35); a
TLBINV does not wait for an EVWAIT, whose every read is translated anew, and waits for buffered stores (log entry 37); a prefetch's
fault is dropped (log entry 144); the scheduler's walk takes no die's grant (log entry 146); and a write that comes with no page takes
its block as the L3 knows it (log entry 145). -/
def Obligations.TranslationSteps : Prop :=
  let mine := fun (s : State) (m : Miss) => s.misses.filter fun n => n.asid == m.asid && n.page == m.page
  let walks := fun (s : State) (k : Nat) (m : Miss) (s1 : State) => s.misses[k]? = some m ∧ (m.asid, m.page) ∈ s.walks.take 64 ∧
    s.spend 6 (if m.core = 529 then 8 else m.core % 256 / 64) walkTarget 1 1 = some s1 ∧ ∀ p ∈ s.teams, ∀ q ∈ p.2.grps, q.2.es.entry = none
  let walked := fun (s : State) (m : Miss) =>
    State.walk { s with misses := s.misses.filter fun n => !(n.asid == m.asid && n.page == m.page) } m.asid m.va
  (∀ s k m s1 e, walks s k m s1 → (walked s1 m).1 = .ok e →
    exec (.pageWalk k) s = .next ((mine s m).foldl (fun u n =>
      if n.core = 529 then { u with lu := { u.lu with walked := u.lu.walked ++ [⟨n.asid, n.page, some e, 0⟩] } }
      else (u.modCore (n.core % 256) fun z => { z with tlb := (e :: z.tlb).take 256 }).modDie (n.core % 256 / 64) fun z =>
        { z with l2tlb := (e :: z.l2tlb).take 8192 }) (walked s1 m).2)) ∧
  (∀ s k m s1 c, walks s k m s1 → (walked s1 m).1 = .error c →
    exec (.pageWalk k) s = .next ((mine s m).foldl (fun u n =>
      if n.core = 529 then { u with lu := { u.lu with walked := u.lu.walked ++ [⟨n.asid, n.page, none, c⟩] } }
      else if n.kind = 5 then u else u.reportXlate n.va c n.asid n.kind n.core n.spec) (walked s1 m).2)) ∧
  (∀ k m, Idles (.pageWalk k) fun s => s.misses[k]? = some m ∧
    ((m.asid, m.page) ∉ s.walks.take 64 ∨
      s.spend 6 (if m.core = 529 then 8 else m.core % 256 / 64) walkTarget 1 1 = none)) ∧
  (∀ s m, (walked s m).2.mem = s.mem ∧ (walked s m).2.teams = s.teams ∧ (walked s m).2.ops = s.ops ∧
    ∀ n ∈ (walked s m).2.misses, n ∈ s.misses ∧ ¬ (n.asid = m.asid ∧ n.page = m.page)) ∧
  (∀ (s : State) pa bs, bs ≠ [] → (∀ a, pa ≤ a → a < pa + bs.length → s.cmpAt a = false) →
    s.barePut pa bs = { s with
      mem := s.mem.writeN pa bs, poison := s.poison.filter fun w => !(pa ≤ 8 * w && 8 * w + 8 ≤ pa + bs.length) }) ∧
  (∀ r rest, Steps .faultRecordWrite
    (fun s => s.fq.wait = r :: rest ∧ (s.fq.tail - s.fq.head).toNat < 256 * 2 ^ s.fq.size ∧
      s.fq.base.toNat + 32 * (s.fq.tail.toNat % (256 * 2 ^ s.fq.size)) < Config.dramTop ∧
      s.pinned (s.fq.base.toNat + 32 * (s.fq.tail.toNat % (256 * 2 ^ s.fq.size))) = false)
    (fun s =>
      let s1 := s.barePut (s.fq.base.toNat + 32 * (s.fq.tail.toNat % (256 * 2 ^ s.fq.size))) r.bytes
      State.payOwed { s1 with
        fq := { s.fq with tail := s.fq.tail + 1, wait := rest }
        out := if s.fq.tail + 1 - s.fq.head = 2 then { s.out with msix := s.out.msix ++ [0] } else s.out })) ∧
  Idles .faultRecordWrite (fun s => 256 * 2 ^ s.fq.size ≤ (s.fq.tail - s.fq.head).toNat) ∧
  Idles .faultRecordWrite (fun s => s.fq.base.toNat < Config.dramTop ∧
    s.pinned (s.fq.base.toNat + 32 * (s.fq.tail.toNat % (256 * 2 ^ s.fq.size))) = true) ∧
  (∀ (f : FaultQ) (r : FRec) h, f.push r h = if 256 ≤ f.wait.length ∨ f.late ≠ [] then { f with late := f.late ++ [(r, h)] }
    else { f with wait := f.wait ++ [r] }) ∧
  (∀ (s : State) r h rest, s.fq.late = (r, h) :: rest → s.fq.wait.length < 256 →
    s.payOwed.fq = { s.fq with wait := s.fq.wait ++ [r], late := rest }) ∧
  (∀ r : FRec, r.va < 2 ^ 56 → r.cause < 256 → r.asid < 4096 → r.kind < 4 → r.master < 1024 → r.tick < 2 ^ 64 →
    r.bytes.length = 32 ∧ leNat (r.bytes.take 8) = r.va + 2 ^ 56 * r.cause ∧
    leNat ((r.bytes.drop 8).take 8) = r.asid + 2 ^ 12 * r.kind + 2 ^ 14 * r.master ∧
    leNat ((r.bytes.drop 16).take 8) = r.tick ∧ leNat (r.bytes.drop 24) = 0) ∧
  (∀ t g y a b, Steps (.tlbInvalidationDone t g)
    (fun s => s.grp? t g = some y ∧ (∀ l ∈ y.lanes, ∀ p q, l.st = .parked (.tlbinv p q) → p = a ∧ q = b) ∧
      (∀ o ∈ s.ops, o.kind.mem = true → o.kind ≠ .evwait → o.id < b → a ≠ 4096 ∧ o.asid ≠ a) ∧
      (∀ p ∈ s.teams, a = 4096 ∨ p.2.id.asid = a → ∀ q ∈ p.2.grps, ∀ k, q.2.task = some k → ∀ e ∈ k.buf, b ≤ e.id) ∧
      ∀ p ∈ s.cores, ∀ j ∈ p.2.engine, j.started = false ∨ b ≤ j.id)
    (fun s => s.modGrp t g fun y =>
      { y with
        lanes := y.lanes.map fun l =>
          if l.st = .parked (.tlbinv a b) then
            (match l.rep with
             | some i => { l with st := .eligible, rep := some (i + 1) }
             | none => { l with st := .eligible, pc := l.pc + 8 })
          else l })) ∧
  (∀ t g y a b, Idles (.tlbInvalidationDone t g) fun s =>
    s.grp? t g = some y ∧ (∀ l ∈ y.lanes, ∀ p q, l.st = .parked (.tlbinv p q) → p = a ∧ q = b) ∧
      ((∃ o ∈ s.ops, o.kind.mem = true ∧ o.kind ≠ .evwait ∧ o.id < b ∧ (a = 4096 ∨ o.asid = a)) ∨
        ∃ p ∈ s.teams, (a = 4096 ∨ p.2.id.asid = a) ∧ ∃ q ∈ p.2.grps, ∃ k, q.2.task = some k ∧ ∃ e ∈ k.buf, e.id < b)) ∧
  (∀ n o, Steps (.nrtEntryWritten n)
    (fun s => (s.ops.find? fun q => q.id == n && q.kind == .nrtw) = some o ∧
      ∀ q ∈ s.ops, q.kind = .nrtw → q.id < o.id →
        ¬ (q.team = o.team ∧ q.grp = o.grp ∧ nrtRouter q.va = nrtRouter o.va ∧ q.va % 64 = o.va % 64))
    (fun s => (s.modRouter (nrtRouter o.va) fun r =>
      { r with
        nrt := r.nrt.set (o.va % 64) ⟨(o.data.extractLsb' 0 20).toNat, (o.data.extractLsb' 20 5).toNat,
          (o.data.extractLsb' 25 3).toNat, o.data.getLsbD 28⟩ }).ackOp o)) ∧
  (∀ n o, Idles (.nrtEntryWritten n) fun s => (s.ops.find? fun q => q.id == n && q.kind == .nrtw) = some o ∧
    ∃ q ∈ s.ops, q.kind = .nrtw ∧ q.id < o.id ∧ q.team = o.team ∧ q.grp = o.grp ∧ nrtRouter q.va = nrtRouter o.va ∧
      q.va % 64 = o.va % 64) ∧
  (∀ (s : State) y o t g l, s.grp? t g = some y → (y.lane l).st = .parked (.event o.id) →
    (s.ops.find? fun q => q.id == o.id) = some o → o.team = t → o.grp = g → o.lane = l → s.mayPoll o = true → o.sent = false →
    s.xlate o.core o.asid o.va 0 y.sup = .miss → exec (.evwaitRepoll t g l) s = .next (s.addMiss o.core o.asid o.va 0 y.spec)) ∧
  (∀ (s : State) y o t g l e, s.grp? t g = some y → (y.lane l).st = .parked (.event o.id) →
    (s.ops.find? fun q => q.id == o.id) = some o → o.team = t → o.grp = g → o.lane = l → s.mayPoll o = true → o.sent = false →
    s.xlate o.core o.asid o.va 0 y.sup = .ok e → s.physCheck o.core 0 (e.phys o.va) 8 y.sup = none →
    s.mayPoll { o with pa := e.phys o.va, attr := e.attr } = true →
    regionOf (e.phys o.va) = .dram → s.poisoned (e.phys o.va) 8 = false →
    let r := s.homeBytes o.core (e.phys o.va) 8 e.attr o.scope
    if leNat r.1 < o.data.toNat then
      exec (.evwaitRepoll t g l) s = .next { r.2 with
        ops := r.2.ops.map fun q => if q.id = o.id then { q with sent := false } else q }
    else ∃ u z p, exec (.evwaitRepoll t g l) s = .next u ∧ (∀ q ∈ u.ops, q.id ≠ o.id) ∧ u.grp? t g = some z ∧
      (z.lane l).st = .eligible ∧
      (z.lane l).pc = (if (y.lane l).rep = none then (y.lane l).pc + 8 else (y.lane l).pc) ∧
      (z.lane l).pend = (y.lane l).pend ++ [p] ∧ p.ready = true ∧
      p.regs = (if y.front then [(.s (o.cmp.toNat % 256), leNat r.1)]
        else [(.g (o.cmp.toNat % 256), leNat r.1 % 2 ^ 32), (.g (o.cmp.toNat % 256 + 1), leNat r.1 / 2 ^ 32)]))

/-- COPY_BLOCK_START, COPY_BLOCK_COMPLETE, ROUTINE_TIMEOUT and XST_RECEIVE (R123, R125, R132, R133, R136, R405): blocks start in order,
at most 8 in flight; a block's bytes are written, its presence bits set and its bytes counted, with the last block also one
arrival, and the window becomes full; an installed routine that runs too long fails its copy; an exchange store is written to the
receiver's shadow bank and acknowledged. That a block's source is read in the step that completes it, at any time after its start, is the
model's choice (log entry 57). -/
def Obligations.CopySteps : Prop :=
  let cut := fun (z : Copy) (b : Nat) =>
    { z with done := b :: z.done, inflight := z.inflight.filter fun p => p.1 != b }
  let pad := fun (z : Copy) (b : Nat) (o : List (BitVec 8)) =>
    let n := min (descCblk z.d0) (z.bytes - b * descCblk z.d0)
    (o ++ List.replicate (n - o.length) 0).take n
  let put := fun (s : State) (c : Nat) (z : Copy) (b : Nat) (o : BlockR) =>
    let s1 := s.poolWrite c (descStore z.d0) (descOff z.d1 + b * descCblk z.d0) (pad z b o.out)
    let s2 := s1.setWin z.team z.win fun w =>
      { w with
        pres := w.pres ||| (List.range ((pad z b o.out).length / 128)).foldl (fun m i => m + 2 ^ (b * descCblk z.d0 / 128 + i)) 0 }
    (s2.modCopy c z.id fun _ => cut { z with seen := o.seen } b).dropFar z.team (64 + z.id) [b]
  (∀ c z b t, Steps (.copyBlockStart c)
    (fun s0 =>
      let s := s0.lockCopies c
      s0.lockRoom c (s0.newRanges c) = true ∧ ((s.core c).copies.find? fun q => q.nextBlock.isSome) = some z ∧ z.nextBlock = some b ∧
      (z.locked = true ∨ s.copyAsk c z = none) ∧ z.hold = some t ∧ t < s.time ∧ s.copyWaits z = false ∧ (s.core c).pre = 0 ∧
      ((s.core c).copies.map fun q => q.inflight.length).foldl (· + ·) 0 < 8)
    (fun s => (s.lockCopies c).modCopy c z.id fun y => { y with inflight := y.inflight ++ [(b, s.time, none)] })) ∧
  (∀ c z, Steps (.copyBlockStart c)
    (fun s0 =>
      let s := s0.lockCopies c
      s0.lockRoom c (s0.newRanges c) = true ∧ ((s.core c).copies.find? fun q => q.nextBlock.isSome) = some z ∧
      (z.locked = true ∨ s.copyAsk c z = none) ∧ z.hold = none ∧ s.copyWaits z = false ∧ (s.core c).pre = 0 ∧
      ((s.core c).copies.map fun q => q.inflight.length).foldl (· + ·) 0 < 8)
    (fun s0 =>
      let s := s0.lockCopies c
      let u := s.writeBackAll c z.team z.grp
      if s.pubOpen c = true then
        u.modCopy c z.id fun y => { y with hold := some (match u.grp? z.team z.grp with | some g => g.kwct | none => 0) }
      else s)) ∧
  (∀ c, Idles (.copyBlockStart c) fun s => s.lockRoom c (s.newRanges c) = false) ∧
  (∀ c, Idles (.copyBlockStart c) fun s => (∀ z ∈ (s.core c).copies, z.locked = true ∨ z.kind ≠ 0) ∧
    8 ≤ ((s.core c).copies.map fun q => q.inflight.length).foldl (· + ·) 0) ∧
  (∀ (s : State) c k z b st m o s1, (s.core c).blocksInFlight[k]? = some (z, (b, st, none)) → s.team? z.team = some m →
    z.abandoned = false → descDst z.d0 ≠ 9 → b < z.blocks → z.done.length + 1 ≠ z.blocks →
    blockOut s (engineCtx z.team m z.id b) z b false s = .ok (some o, s1) → o.cols = [] →
    exec (.copyBlockComplete c k) s =
      .next ((put s1 c z b o).barUpdate z.team (z.d0.extractLsb' 15 4).toNat (.count 0 (pad z b o.out).length))) ∧
  (∀ (s : State) c k z b st m o s1, (s.core c).blocksInFlight[k]? = some (z, (b, st, none)) → s.team? z.team = some m →
    z.abandoned = false → descDst z.d0 ≠ 9 → b < z.blocks → z.done.length + 1 = z.blocks →
    blockOut s (engineCtx z.team m z.id b) z b true s = .ok (some o, s1) → o.cols = [] →
    exec (.copyBlockComplete c k) s =
      .next ((((put s1 c z b o).setWin z.team z.win fun w => if w.st == .filling then { w with st := .full } else w).barUpdate
        z.team (z.d0.extractLsb' 15 4).toNat (.count 1 (pad z b o.out).length)).endCopy c
          (cut { z with seen := o.seen } b))) ∧
  (∀ c k z b st, Steps (.routineTimeout c k)
    (fun s => (s.core c).blocksInFlight[k]? = some (z, (b, st, none)) ∧ s.copyStd z = false ∧ st + 131072 < s.time)
    (fun s =>
      let z1 := { z with inflight := z.inflight.filter fun q => q.1 != b }
      (s.modCopy c z.id fun _ => z1).failCopy c z1 4 0)) ∧
  (∀ c k z b st, Idles (.routineTimeout c k) fun s =>
    (s.core c).blocksInFlight[k]? = some (z, (b, st, none)) ∧ s.time ≤ st + 131072) ∧
  (∀ n o x r, Steps (.xstReceive n)
    (fun s => (s.ops.find? fun q => q.id == n && q.kind == .xst) = some o ∧ s.team? o.team = some x ∧ o.hold = false ∧
      (∀ q ∈ s.ops, q.kind = .xst → q.id < o.id → q.team = o.team → q.grp = o.grp → q.lane = o.lane → q.va ≠ o.va) ∧
      ((s.cluster x).find? fun p => p.2.id.pos == o.va) = some r)
    (fun s =>
      let s1 := s.poolWrite r.2.core 1 (0x8000 + o.pa) (leBytes o.width o.data.toNat)
      State.decTok? { s1 with ops := s1.ops.filter fun q => q.id != n } o.team o.grp o.tok)) ∧
  ∀ n o, Idles (.xstReceive n) fun s => (s.ops.find? fun q => q.id == n && q.kind == .xst) = some o ∧ o.hold = true

/-! ### Device steps: named tiles -/

/-- INTEREST_ARRIVAL, REFRESH_ARRIVAL, CANCEL_ARRIVAL and PIT_SLOT_EXPIRY (R206, R207, R210 to R212, R415), for packets no counter
waits for: a new name gets an entry and goes on by its route, a known name merges into its entry and goes on only where it
lengthens or widens what was asked, a name without a route is answered so, a whole copy answers once its payload has grants (R82), and
a lapsed interest goes; a
cancel frees its port's slot and, with the last one, the entry, and goes on; lapsed slots leave. -/
def Claims.InterestSteps : Prop :=
  let arrives := fun (s : State) (p : Nat) (y : PktType) (k : Packet) (r q : Nat) =>
    s.pkt? p = some k ∧ k.ty = y ∧ k.taken = none ∧ k.wtok = none ∧ s.pktFirst k = true ∧ k.at_.at? = some (r, q)
  let merged := fun (e : PitE) (q : Nat) (k : Packet) =>
    { e with
      slots := e.slots.upd q ⟨0, false, none⟩ fun z => { z with expiry := max z.expiry k.expiry, specok := z.specok || k.specok }
      fwd := max e.fwd k.expiry }
  let onward := fun (e : PitE) (k : Packet) =>
    e.up ≠ 5 ∧ (e.fwd < k.expiry ∨ (k.specok = true ∧ ∀ p ∈ e.slots, p.2.specok = false))
  let joins := fun (i : Instr) (y : PktType) (p : Nat) (k : Packet) (r q : Nat) (e : PitE) =>
    (Steps i
      (fun s => arrives s p y k r q ∧ s.time < k.expiry ∧ ((s.router r).prune s.time).copy k = none ∧
        ((s.router r).prune s.time).entry k = some e ∧ onward e k)
      (fun s => ((s.dropPkt k).modRouter r fun z => (z.prune s.time).modEntry k fun _ => some (merged e q k)).sendOn r e.up
        { Packet.mk0 .refresh k.t k.i k.n with
          expiry := max e.fwd k.expiry
          specok := (merged e q k).slots.any fun v => v.2.specok })) ∧
    Steps i
      (fun s => arrives s p y k r q ∧ s.time < k.expiry ∧ ((s.router r).prune s.time).copy k = none ∧
        ((s.router r).prune s.time).entry k = some e ∧ ¬ onward e k)
      (fun s => (s.dropPkt k).modRouter r fun z => (z.prune s.time).modEntry k fun _ => some (merged e q k))
  (∀ p k r q u, Steps (.interestArrival p)
    (fun s => arrives s p .interest k r q ∧ s.time < k.expiry ∧ ((s.router r).prune s.time).copy k = none ∧
      ((s.router r).prune s.time).entry k = none ∧ ((s.router r).prune s.time).route k.t = some u ∧
      ((s.router r).prune s.time).pit.length < 256)
    (fun s =>
      let e : PitE := ⟨k.t, k.i, k.n, k.expiry, u, [(q, ⟨k.expiry, k.specok, none⟩)]⟩
      let s1 := (s.dropPkt k).modRouter r fun y => { y.prune s.time with pit := (y.prune s.time).pit ++ [e] }
      if u = 5 then s1 else s1.sendOn r u { k with warm := false })) ∧
  (∀ p k r q, Idles (.interestArrival p) fun s =>
    arrives s p .interest k r q ∧ s.time < k.expiry ∧ ((s.router r).prune s.time).copy k = none ∧
      ((s.router r).prune s.time).entry k = none ∧ ((s.router r).prune s.time).route k.t ≠ none ∧
      256 ≤ ((s.router r).prune s.time).pit.length) ∧
  (∀ p k r q, Steps (.interestArrival p)
    (fun s => arrives s p .interest k r q ∧ s.time < k.expiry ∧ ((s.router r).prune s.time).copy k = none ∧
      ((s.router r).prune s.time).entry k = none ∧ ((s.router r).prune s.time).route k.t = none)
    (fun s => (s.dropPkt k).sendOn r q (Packet.mk0 .noRoute k.t k.i k.n))) ∧
  (∀ s p k r q e u, arrives s p .interest k r q → s.time < k.expiry → ((s.router r).prune s.time).copy k = some e → e.busy = false →
    s.payload r e.data.length [q] = some u → exec (.interestArrival p) s = .next
      (((u.dropPkt k).modRouter r fun x =>
        { x with cocoon := e :: x.cocoon.filter fun z => !(z.t == e.t && z.i == e.i && z.n == e.n) }).sendOn r q
          { Packet.mk0 .data k.t k.i k.n with f := e.f, data := e.data })) ∧
  (∀ p k r q e, Idles (.interestArrival p) fun s => arrives s p .interest k r q ∧ s.time < k.expiry ∧
    ((s.router r).prune s.time).copy k = some e ∧ (e.busy = true ∨ s.payload r e.data.length [q] = none)) ∧
  (∀ p k r q, Steps (.interestArrival p) (fun s => arrives s p .interest k r q ∧ k.expiry ≤ s.time) (fun s => s.dropPkt k)) ∧
  (∀ p k r q e, joins (.interestArrival p) .interest p k r q e ∧ joins (.refreshArrival p) .refresh p k r q e) ∧
  (∀ p k r q, Steps (.refreshArrival p) (fun s => arrives s p .refresh k r q ∧ k.expiry ≤ s.time) (fun s => s.dropPkt k)) ∧
  (∀ p k r q e z, Steps (.cancelArrival p)
    (fun s => arrives s p .cancel k r q ∧ ((s.router r).prune s.time).entry k = some e ∧ e.slots = [(q, z)] ∧ e.up ≠ 5)
    (fun s => ((s.dropPkt k).modRouter r fun y => (y.prune s.time).modEntry k fun v =>
      if (v.slots.filter fun w => w.1 != q).isEmpty then none else some { v with slots := v.slots.filter fun w => w.1 != q }).sendOn
        r e.up (Packet.mk0 .cancel k.t k.i k.n))) ∧
  (∀ p k r q, Steps (.cancelArrival p)
    (fun s => arrives s p .cancel k r q ∧ ((s.router r).prune s.time).entry k = none) (fun s => (s.dropPkt k).modRouter r fun y =>
      (y.prune s.time).modEntry k fun v =>
        if (v.slots.filter fun w => w.1 != q).isEmpty then none else some { v with slots := v.slots.filter fun w => w.1 != q })) ∧
  (∀ r k e, Steps (.pitSlotExpiry r k)
    (fun s => (∀ p ∈ s.packets, p.wtok = none) ∧ (s.router r).pit[k]? = some e ∧ ∃ p ∈ e.slots, s.time < p.2.expiry)
    (fun s => s.modRouter r fun x =>
      { x with pit := listUpd x.pit k fun z => { z with slots := e.slots.filter fun p => decide (s.time < p.2.expiry) } })) ∧
  ∀ r k e, Steps (.pitSlotExpiry r k)
    (fun s => (∀ p ∈ s.packets, p.wtok = none) ∧ (s.router r).pit[k]? = some e ∧ ∀ p ∈ e.slots, p.2.expiry ≤ s.time)
    (fun s => s.modRouter r fun x => { x with pit := x.pit.eraseIdx k })

/-- INTEREST_EXPIRY and NO_ROUTE_ARRIVAL (R210, R211, R222): an entry of a core that lapses, or that no route serves, sets NPROD on its
barrier, makes its window absent and leaves the list (stated where no lane waits at the barrier and the window holds no
prediction), and the readers of a predicted window are squashed besides; at a router the entry is freed and every port that asked is
told. An answer that no route serves ends every entry of the core for the name, one whose header has come too. -/
def Claims.NeverProduced : Prop :=
  let lapses := fun (s : State) (t : Nat) (x : Team) (e : IEnt) (u : State) =>
    s.team? t = some x ∧ x.entryOf e.win = some e ∧ (∃ w, x.win? e.win = some w ∧ w.st ≠ .predicted) ∧
      (∀ p ∈ x.grps, ∀ l ∈ p.2.lanes, l.st ≠ .parked (.barrier e.bar)) →
    ∃ x' w', u.team? t = some x' ∧ (∀ z ∈ x'.ilist, z.tok ≠ e.tok) ∧ (x'.bar e.bar) = { x.bar e.bar with upds := (x.bar e.bar).upds ++ [.never] } ∧
      x'.win? e.win = some w' ∧ w'.st = .absent ∧ w'.pres = 0
  (∀ s t k x e, s.team? t = some x → x.ilist[k]? = some e → e.expiry ≤ s.time → e.header = false → e.stag = none →
    ∃ u, exec (.interestExpiry t k) s = .next u ∧ lapses s t x e u) ∧
  (∀ s t k x e w, s.team? t = some x → x.ilist[k]? = some e → e.expiry ≤ s.time → e.header = false → x.win? e.win = some w →
    w.st = .predicted → ∃ u x' w', exec (.interestExpiry t k) s = .next u ∧ u.team? t = some x' ∧ (∀ z ∈ x'.ilist, z.tok ≠ e.tok) ∧
      BarUpd.never ∈ (x'.bar e.bar).upds ∧ x'.win? e.win = some w' ∧ w'.st = .absent ∧
      ∀ g y v, x.grp? g = some y → y.task = some v → e.win ∈ v.inputs → ∃ y', x'.grp? g = some y' ∧ y'.task = none) ∧
  (∀ t k x e, Idles (.interestExpiry t k) fun s => s.team? t = some x ∧ x.ilist[k]? = some e ∧ (s.time < e.expiry ∨ e.header = true)) ∧
  (∀ s p k c t x e, s.pkt? p = some k → k.ty = .noRoute → k.at_ = .core c → s.entriesFor c k = [(t, e)] →
    ∃ u, exec (.noRouteArrival p) s = .next u ∧ lapses s t x e u) ∧
  ∀ p k r q e, Steps (.noRouteArrival p)
    (fun s => s.pkt? p = some k ∧ k.ty = .noRoute ∧ k.at_ = .router r q ∧ ((s.router r).prune s.time).entry k = some e)
    (fun s => e.slots.foldl (fun u v => u.sendOn r v.1 k)
      ((s.dropPkt k).modRouter r fun y => { y.prune s.time with
        pit := (y.prune s.time).pit.filter fun z => !(z.t == k.t && z.i == k.i && z.n == k.n) }))

/-- `Claims.InterestSteps` and `Claims.NeverProduced` together. -/
def Obligations.PendingInterests : Prop := Claims.InterestSteps ∧ Claims.NeverProduced

/-- DATA_HEADER_ARRIVAL, TILE_DELIVERY, COCOON_COPY_COMPLETE and PUBLISH_SENT (R209, R213 to R216, R415): a router's entry is freed and
the tile, once its payload has grants (R82), goes to every port that asked; a core's entry takes the header and its window then receives
the tile whole, zeros beyond it; a window becomes full with one arrival and its bytes counted; a speculative tile goes to the slots and
the entries that take one and have none, and its window is predicted one level above the tile's; a tile longer than its window ends the
entry with CFAIL; a copy is whole; the last flit of a publish empties the window and leaves the counter. That the entry of a team that
has ended is cancelled once its speculative tile is whole is the model's reading of R36 (log entry 84). -/
def Obligations.TileSteps : Prop :=
  (∀ s p k r q e u, s.pkt? p = some k → k.ty = .data → k.taken = none → k.spec = false → k.at_ = .router r q →
    ((s.router r).prune s.time).entry k = some e → ((s.router r).prune s.time).route k.t ≠ some 5 →
    e.slots.length < 2 → e.slots.get? 0 = none → s.payload r k.data.length (e.slots.map (·.1)) = some u →
    exec (.dataHeaderArrival p) s = .next (e.slots.foldl (fun u v => u.sendOn r v.1 k)
      (((u.dropPkt k).modRouter r fun y => y.prune s.time).modRouter r fun y =>
        { y with pit := y.pit.filter fun z => !(z.t == k.t && z.i == k.i && z.n == k.n) }))) ∧
  (∀ p k r q e, Idles (.dataHeaderArrival p) fun s => s.pkt? p = some k ∧ k.ty = .data ∧ k.taken = none ∧ k.spec = false ∧
    k.at_ = .router r q ∧ ((s.router r).prune s.time).entry k = some e ∧ s.payload r k.data.length (e.slots.map (·.1)) = none) ∧
  (∀ (s : State) p k c t e w, s.pkt? p = some k → k.ty = .data → k.taken = none → k.spec = false → k.at_ = .core c →
    s.entriesFor c k = [(t, e)] → s.time < e.expiry → e.header = false → e.stag = none → s.winOf t e = some w →
    w.st ≠ .predicted → k.data.length ≤ w.bytes →
    ∃ u, exec (.dataHeaderArrival p) s = .next u ∧
      u.packets = s.packets.map (fun q => if q.id = k.id then { q with taken := some [(t, e.win)] } else q) ∧
      ∀ x', u.team? t = some x' → ∀ z ∈ x'.ilist, z.tok = e.tok → z.header = true) ∧
  (∀ s p k r q e u, s.pkt? p = some k → k.ty = .data → k.taken = none → k.spec = true → k.at_ = .router r q →
    ((s.router r).prune s.time).entry k = some e →
    let go := e.slots.filter fun v => v.2.specok && v.2.served.isNone
    s.payload r k.data.length (go.map (·.1)) = some u →
    exec (.dataHeaderArrival p) s = .next (go.foldl (fun u v => u.sendOn r v.1 k)
      (((u.dropPkt k).modRouter r fun y => y.prune s.time).modRouter r fun y => y.modEntry k fun z => some { z with
        slots := z.slots.map fun v => if v.2.specok && v.2.served.isNone then (v.1, { v.2 with served := some k.stag }) else v }))) ∧
  (∀ (s : State) p k c t e w, s.pkt? p = some k → k.ty = .data → k.taken = none → k.spec = true → k.at_ = .core c →
    s.entriesFor c k = [(t, e)] → s.time < e.expiry → e.header = false → e.stag = none → e.spec ≠ none → s.winOf t e = some w →
    w.st = .filling → k.data.length ≤ w.bytes →
    ∃ u, exec (.dataHeaderArrival p) s = .next u ∧
      u.packets = s.packets.map (fun q => if q.id = k.id then { q with taken := some [(t, e.win)] } else q) ∧
      ∀ x', u.team? t = some x' → ∀ z ∈ x'.ilist, z.tok = e.tok → z.stag = some k.stag) ∧
  (∀ (s : State) p k c t e, s.pkt? p = some k → k.ty = .data → k.taken = none → k.spec = true → k.at_ = .core c →
    s.entriesFor c k = [(t, e)] → (s.time < e.expiry → e.header = true ∨ e.spec = none ∨ e.stag ≠ none) →
    exec (.dataHeaderArrival p) s = .next (s.dropPkt k)) ∧
  (∀ (s : State) p k c t x e w, s.pkt? p = some k → k.ty = .data → k.taken = none → k.spec = false → k.at_ = .core c →
    s.entriesFor c k = [(t, e)] → s.time < e.expiry → e.header = false → e.stag = none → s.team? t = some x → x.entryOf e.win = some e →
    x.win? e.win = some w → w.st ≠ .predicted → w.bytes < k.data.length →
    ∃ u x' w', exec (.dataHeaderArrival p) s = .next u ∧ u.team? t = some x' ∧ (∀ z ∈ x'.ilist, z.tok ≠ e.tok) ∧
      (x'.bar e.bar) = { x.bar e.bar with upds := (x.bar e.bar).upds ++ [.fail e.win 6 0] } ∧
      x'.win? e.win = some w' ∧ w'.st = .absent ∧ w'.pres = 0 ∧ ∀ q ∈ u.packets, q.id ≠ k.id) ∧
  (∀ p k c t x e (w : Nat × Win), Steps (.tileDelivery p)
    (fun s => s.pkt? p = some k ∧ k.ty = .data ∧ k.spec = true ∧ k.at_ = .core c ∧ k.taken = some [(t, w.1)] ∧ s.team? t = some x ∧
      x.entryOf w.1 = some e ∧ e.win = w.1 ∧ e.t = k.t ∧ e.i = k.i ∧ e.n = k.n ∧ e.stag = some k.stag ∧ e.ncan = [] ∧
      x.win? w.1 = some w.2)
    (fun s =>
      let s1 := ((s.dropPkt k).poolWrite c w.2.store w.2.off
        ((k.data ++ List.replicate (w.2.bytes - k.data.length) 0).take w.2.bytes)).setWin t w.1 fun z => { z with pres := z.allPres }
      let s2 := s1.setWin t w.1 fun z => { z with st := .predicted, level := min 3 (k.level + 1), stag := some k.stag, f := k.f }
      (s2.modTeam t fun m =>
        { m with ilist := m.ilist.map fun q => if q.tok = e.tok then { q with ncan := [] } else q }).cancelEnded t e)) ∧
  (∀ (s : State) t e x, s.team? t = some x →
    ((∃ p ∈ x.grps, p.2.finished = false) → s.cancelEnded t e = s) ∧
    ((∀ p ∈ x.grps, p.2.finished = true) → (∃ z ∈ x.ilist, z.tok = e.tok) →
      ∀ x', (s.cancelEnded t e).team? t = some x' → ∀ z ∈ x'.ilist, z.tok ≠ e.tok)) ∧
  (∀ p k c t x e (w : Nat × Win), Steps (.tileDelivery p)
    (fun s => s.pkt? p = some k ∧ k.ty = .data ∧ k.spec = false ∧ k.at_ = .core c ∧ k.taken = some [(t, w.1)] ∧ s.team? t = some x ∧
      x.entryOf w.1 = some e ∧ e.win = w.1 ∧ e.t = k.t ∧ e.i = k.i ∧ e.n = k.n ∧ e.header = true ∧ x.win? w.1 = some w.2)
    (fun s =>
      let s1 := ((s.dropPkt k).poolWrite c w.2.store w.2.off
        ((k.data ++ List.replicate (w.2.bytes - k.data.length) 0).take w.2.bytes)).setWin t w.1 fun z => { z with pres := z.allPres }
      let s2 := s1.setWin t w.1 fun z => { z with st := .full, f := k.f, level := 0, stag := none }
      (s2.freeEntry t e).barUpdate t e.bar (.count 1 w.2.bytes))) ∧
  (∀ r k e, Steps (.cocoonCopyComplete r k)
    (fun s => (s.router r).cocoon[k]? = some e ∧ e.busy = true ∧ ∀ q ∈ s.packets, q.wtok = none)
    (fun s => s.modRouter r fun x => { x with cocoon := listUpd x.cocoon k fun z => { z with busy := false } })) ∧
  (∀ p k t g w tok x, Steps (.publishSent p)
    (fun s => (s.packets.find? fun q => q.id == p) = some k ∧ k.src = some (t, g, w, tok) ∧ k.rel = none ∧ s.team? t = some x ∧
      (s.core x.core).pre ≠ 2)
    (fun s => State.decTok (((s.dropPkt k).setWin t w fun z =>
      { z with
        unsent := z.unsent - 1
        st := if k.spec = false ∧ z.st = .full then .empty else z.st }).unlock x.core p) t g tok)) ∧
  ∀ p k t g w tok x, Idles (.publishSent p) fun s =>
    (s.packets.find? fun q => q.id == p) = some k ∧ k.src = some (t, g, w, tok) ∧ s.team? t = some x ∧ (s.core x.core).pre = 2

/-! ### Device steps: speculation -/

/-- PREDICTION_PATIENCE, PREDICTION_WRITTEN and VERDICT (R220 to R222): after its patience an entry whose window still fills queues a
prediction from histories that serve, or none; the written prediction makes the window predicted at level 1 with every presence
bit; a verdict keeps the prediction, or squashes the readers and writes the real tile, and either way the window is full. The model's
choices: the histories are read when the prediction is written, and the formula's operations have their standard meaning (log entry 90);
and predictions are made before LOCK too (log entry 125). -/
def Obligations.PredictionSteps : Prop :=
  let serves := fun (x : Team) (w : Win) (h : Nat) => ∃ v, x.win? h = some v ∧ v.st = .full ∧ v.f = false ∧ v.lines = w.lines
  let may := fun (s : State) (x : Team) (e : IEnt) (q : SpecInfo) (w : Win) =>
    (s.regs.featlock = false ∨ s.regs.featacc.getLsbD 1 = true) ∧ e.header = false ∧ e.stag = none ∧ w.st = .filling ∧ q.policy ≠ 0 ∧ serves x w q.h1 ∧
      (q.policy = 2 → serves x w q.h2)
  let due := fun (s : State) (t k : Nat) (x : Team) (e : IEnt) (q : SpecInfo) (w : Win) =>
    s.team? t = some x ∧ x.ilist[k]? = some e ∧ x.win? e.win = some w ∧ e.pred = 0 ∧ e.spec = some q ∧ e.issued + q.patience ≤ s.time
  let mark := fun (x : Team) (e : IEnt) (n : Nat) =>
    { x with ilist := x.ilist.map fun z => if z.tok = e.tok then { z with pred := n } else z }
  (∀ s t k x e q w, due s t k x e q w → may s x e q w → (s.core x.core).pre = 0 →
    ∃ u cp, exec (.predictionPatience t k) s = .next u ∧ (u.core x.core).copies = (s.core x.core).copies ++ [cp] ∧ cp.kind = 1 ∧
      cp.team = t ∧ cp.win = e.win ∧ u.team? t = some (mark x e 1) ∧ u.mem = s.mem) ∧
  (∀ t k x e q w, Steps (.predictionPatience t k) (fun s => due s t k x e q w ∧ ¬ may s x e q w)
    (fun s => s.modTeam t fun z => mark z e 2)) ∧
  (∀ t k x e q w, Idles (.predictionPatience t k) fun s =>
    s.team? t = some x ∧ x.ilist[k]? = some e ∧ x.win? e.win = some w ∧ e.spec = some q ∧ s.time < e.issued + q.patience) ∧
  (∀ t k x e q w a b, Steps (.predictionWritten t k)
    (fun s => s.team? t = some x ∧ x.ilist[k]? = some e ∧ e.spec = some q ∧ e.pred = 1 ∧ x.win? e.win = some w ∧ w.st = .filling ∧
      (s.core x.core).pre ≠ 2 ∧ x.win? q.h1 = some a ∧ x.win? q.h2 = some b)
    (fun s =>
      let bs := predictBytes (specFF q.fmt) (q.policy == 2) (s.poolRead x.core a.store a.off a.bytes)
        (s.poolRead x.core b.store b.off b.bytes)
      (((s.dropPrediction t e.win).poolWrite x.core w.store w.off ((bs ++ List.replicate (w.bytes - bs.length) 0).take w.bytes)).setWin
        t e.win fun z => { z with pres := z.allPres }).setWin t e.win fun z =>
          { z with st := .predicted, level := 1, stag := none })) ∧
  (∀ s c v x e q w, (s.core c).verdict = some v → s.team? v.team = some x → x.entryOf v.win = some e → x.win? v.win = some w →
    e.spec = some q →
    let real := v.data ++ List.replicate (w.bytes - v.data.length) 0
    exec (.verdict c) s = .next (((if verdictPasses q v.f real (s.poolRead c w.store w.off w.bytes) = true then s
      else (s.squashReaders v.team v.win).tileWrite c v.team e v.data).tileFull v.team e v.f).modCore c fun z =>
        { z with verdict := none })) ∧
  (∀ q real pred, verdictPasses q true real pred = false) ∧
  ∀ q f real pred, (∃ p ∈ List.zip (elemsOf (specFF q.fmt) real) (elemsOf (specFF q.fmt) pred),
      ((specFF q.fmt).decode p.1).isNan = true ∨ ((specFF q.fmt).decode p.2).isNan = true) →
    verdictPasses q f real pred = false

/-- TASK_COMMIT and TASK_SQUASH (R121, R183, R223 to R225): a task whose inputs are all full commits: its buffered stores are issued, its
owned windows become empty and SPEC is cleared in its cursors, pending ones included; one with an input that is not full does not; a
squash by pre-emption discards the buffer, empties the owned windows, ends what the task's lanes wait for, sets them eligible at its
DQPOP and puts the item back at the head of the queue. The model's choices: TASK_SQUASH is the squash by pre-emption alone, acts at the
deadline and does nothing where pre-emption is off (log entry 109); and what ends a task (log entry 91). -/
def Obligations.TaskSteps : Prop :=
  (∀ t g x y k, Steps (.taskCommit t g)
    (fun s => s.team? t = some x ∧ x.grp? g = some y ∧ y.task = some k ∧
      (∀ w ∈ k.inputs, ∃ v, x.win? w = some v ∧ v.st = .full) ∧ k.buf = [] ∧ k.pubs = [] ∧ y.heldTraps = [])
    (fun s => k.owned.foldl (fun u w => u.setWin t w fun z => { z with st := .empty, owner := none })
      (s.modGrp t g fun z =>
        { z.countAll with
          task := none
          heldTraps := []
          lanes := z.lanes.map fun l =>
            { l with
              curs := l.curs.map fun p => (p.1, p.2 &&& ~~~(0x1000 : BitVec 128))
              pend := l.pend.map fun p => { p with regs := p.regs.map fun q => match q.1 with
                | .c _ => (q.1, (BitVec.ofNat 128 q.2 &&& ~~~(0x1000 : BitVec 128)).toNat + q.2 / 2 ^ 128 * 2 ^ 128)
                | _ => q } } }))) ∧
  (∀ s t g x y k, s.team? t = some x → x.grp? g = some y → y.task = some k →
    (∀ w ∈ k.inputs, ∃ v, x.win? w = some v ∧ v.st = .full) → y.heldTraps = [] →
    ∃ u z, exec (.taskCommit t g) s = .next u ∧ u.grp? t g = some z ∧ z.task = none ∧ u.mem = s.mem ∧
      u.ops.take s.ops.length = s.ops ∧
      (u.ops.drop s.ops.length).map (fun o => (o.kind, o.lane, o.va, o.pa, o.width, o.data)) =
        k.buf.map fun b => (.store, b.lane, b.va, b.pa, b.width, b.data)) ∧
  (∀ t g x y k, Idles (.taskCommit t g) fun s => s.team? t = some x ∧ x.grp? g = some y ∧ y.task = some k ∧
    ∃ w ∈ k.inputs, ∀ v, x.win? w = some v → v.st ≠ .full) ∧
  (∀ s t g x y k, s.team? t = some x → x.grp? g = some y → y.task = some k → (s.core x.core).pre = 1 → 0 < (s.core x.core).preT0 →
    (s.core x.core).preT0 - 1 + 4224 ≤ s.time →
    ∃ u x' y', exec (.taskSquash t g) s = .next u ∧ u.team? t = some x' ∧ x'.grp? g = some y' ∧ y'.task = none ∧ u.mem = s.mem ∧
      x'.dq = dqReturn k.item x.dq ∧
      (∀ l ∈ k.lanes, l < y.lanes.length → ∃ z, y'.lanes[l]? = some z ∧ z.pc = k.pc ∧ z.stamp = 0 ∧ z.st = .eligible ∧ z.pend = []) ∧
      (∀ w ∈ k.owned, ∀ v, x'.win? w = some v → v.st = .empty ∧ v.owner = none) ∧
      (∀ o ∈ u.ops, o.team = t → o.grp = g → o.kind ≠ .load ∧ (o.kind = .evwait → o.lane ∉ k.lanes)) ∧
      ∀ q ∈ (u.core x.core).crews, q.team = t → ∀ r ∈ q.latch, r.grp = g → ∀ l ∈ r.lanes, l ∉ k.lanes) ∧
  (∀ t g x, Idles (.taskSquash t g) fun s => s.team? t = some x ∧ (s.core x.core).pre = 0) ∧
  ∀ (e : DqEntry) a b, (∀ y ∈ a, y.sq = true ∧ y.order < e.order) → (∀ y, b.head? = some y → ¬ (y.sq = true ∧ y.order < e.order)) →
    dqReturn e (a ++ b) = a ++ { e with sq := true } :: b

/-- COMMIT_PACKET and SQUASH_PACKET (R222, R224, R225): at a router a commit frees the slots it names, a squash makes them wait again,
and either goes on through them; at a core a commit makes the window full and a squash makes it wait again with its readers
squashed, or ends its entry where an NCAN waited for the delivery (the model's choice: log entry 84). That neither overtakes its tile is
the model's choice (log entry 89). -/
def Obligations.OutcomePackets : Prop :=
  let here := fun (s : State) (p : Nat) (y : PktType) (k : Packet) (a : Place) =>
    s.pkt? p = some k ∧ k.ty = y ∧ k.taken = none ∧ s.verdictWaits k = false ∧ k.at_ = a ∧ k.behind = none
  let onward := fun (u : State) (r : Nat) (k : Packet) (e : PitE) =>
    (e.slots.filter fun p => p.2.served == some k.stag).foldl (fun u p => u.sendOn r p.1 k) u
  (∀ p k r q e, Steps (.commitPacket p)
    (fun s => here s p .commit k (.router r q) ∧ ((s.router r).prune s.time).entry k = some e)
    (fun s => onward ((s.dropPkt k).modRouter r fun y => (y.prune s.time).modEntry k fun z =>
      if (z.slots.filter fun v => v.2.served != some k.stag).isEmpty then none
      else some { z with slots := z.slots.filter fun v => v.2.served != some k.stag }) r k e)) ∧
  (∀ p k r q e, Steps (.squashPacket p)
    (fun s => here s p .squash k (.router r q) ∧ ((s.router r).prune s.time).entry k = some e)
    (fun s => onward ((s.dropPkt k).modRouter r fun y => (y.prune s.time).modEntry k fun z =>
      some { z with slots := z.slots.map fun v =>
        if v.2.served = some k.stag then (v.1, { v.2 with served := none }) else v }) r k e)) ∧
  (∀ p k c t e w, Steps (.commitPacket p)
    (fun s => here s p .commit k (.core c) ∧ ((s.entriesFor c k).filter fun v => v.2.stag == some k.stag) = [(t, e)] ∧
      s.winOf t e = some w)
    (fun s => (((s.dropPkt k).setWin t e.win fun z => { z with st := .full, f := w.f, level := 0, stag := none }).freeEntry t e).barUpdate
      t e.bar (.count 1 w.bytes))) ∧
  (∀ p k c t e, Steps (.squashPacket p)
    (fun s => here s p .squash k (.core c) ∧ ((s.entriesFor c k).filter fun v => v.2.stag == some k.stag) = [(t, e)] ∧ e.ncan = [] ∧
      (∀ q ∈ s.packets, ¬ (q.ty = .data ∧ q.spec = true ∧ q.stag = k.stag)))
    (fun s => ((((s.dropPkt k).squashReaders t e.win).setWin t e.win fun w =>
      { w with st := .filling, pres := 0, level := 0, stag := none }).modTeam t fun x =>
        { x with ilist := x.ilist.map fun q => if q.tok = e.tok then { q with stag := none } else q }).cancelEnded t e)) ∧
  (∀ s p k c t e, here s p .squash k (.core c) → ((s.entriesFor c k).filter fun v => v.2.stag == some k.stag) = [(t, e)] →
    e.ncan ≠ [] → ∃ u, exec (.squashPacket p) s = .next u ∧ ∀ x', u.team? t = some x' → ∀ z ∈ x'.ilist, z.tok ≠ e.tok) ∧
  (∀ p k, Idles (.commitPacket p) fun s => s.pkt? p = some k ∧ k.ty = .commit ∧ s.verdictWaits k = true) ∧
  ∀ p k, Idles (.squashPacket p) fun s => s.pkt? p = some k ∧ k.ty = .squash ∧ s.verdictWaits k = true

/-! ### Device steps: launches, teams and grids -/

/-- LAUNCH_RECORD_READ, LAUNCH_WAITEV_READ, LAUNCH_START and LAUNCH_BLOCKING (R40 to R43, R66, R248, R419): the record at HEAD of a ready
queue is numbered and joins the launches, a malformed one is reported, a fault parks the queue; a wait word at its threshold
satisfies the launch; a satisfied launch starts, and one with no team completes and signals at that moment (R46); a cluster that has
not fitted for 65,536 ticks on end blocks. The model's choices: a refused ring read parks the queue as a fault does (log entry 97); a
malformed record takes no launch number (log entry 98); the scheduler's walks take no die's grant, and their result serves the work
until it ends (log entry 146); and the add of a signal takes a poisoned word's bytes as they stand (log entry 147). -/
def Obligations.LaunchSteps : Prop :=
  let ready := fun (s : State) (q : Nat) (z : HQ) =>
    s.lu.hq.getD q HQ.reset = z ∧ z.en = true ∧ s.regs.featlock = true ∧ z.head ≠ z.tail ∧ z.parked = none ∧
      ∀ l ∈ s.lu.launches, l.queue = some q → l.st ≠ .waiting ∧ l.st ≠ .satisfied
  let slot := fun (z : HQ) => (z.base.toNat % 2 ^ 56 + 64 * (z.head.toNat % (64 * 2 ^ z.size))) % 2 ^ 56
  let at_ := fun (s : State) (k : Nat) (l : Launch) => s.lu.launches[k]? = some l
  let setL := fun (s : State) (k : Nat) (f : Launch → Launch) => { s with lu := { s.lu with launches := listUpd s.lu.launches k f } }
  let next := fun (s : State) (k : Nat) (l : Launch) => at_ s k l ∧ l.st = .satisfied ∧
    (l.queue = none → ∀ z ∈ s.lu.launches.take k, ¬ (z.queue = none ∧ z.st = .satisfied))
  let begun := fun (s : State) (k : Nat) =>
    { setL s k (fun z => { z with st := .started, order := s.nextId, since := s.time }) with nextId := s.nextId + 1 }
  (∀ (s : State) asid va kind sup, (∀ w ∈ s.lu.walked, ¬ (w.asid = asid ∧ w.page = va / 65536)) →
    s.schedXlate asid va kind sup = (.walk, s.addMiss 529 asid va kind false)) ∧
  (∀ (s : State) asid va kind sup w e, (s.lu.walked.find? fun w => w.asid == asid && w.page == va / 65536) = some w → w.leaf = some e →
    e.permits kind sup = true → s.schedCheck (e.phys va) sup = none → s.schedXlate asid va kind sup = (.ok (e.phys va) e.attr, s)) ∧
  (∀ (s : State) work asid va, s.schedDrop work asid va = { s with
    ops := s.ops.filter fun o => !(o.kind == .far && o.team == 0 && o.grp == 64 + work)
    paid := s.paid.filter fun p => !(p.1 == 0 && p.2.1 == 64 + work)
    lu := { s.lu with walked := s.lu.walked.filter fun w => !(w.asid == asid && w.page == va / 65536) } }) ∧
  (∀ (s : State) pa n a, { (s.homeGet pa n a).2 with l3 := s.l3, mem := s.mem } = s ∧
    (a.cmp = false → (s.homeGet pa n a).1 = s.mem.readN pa n ∧ (s.homeGet pa n a).2.mem = s.mem) ∧
    (a.cmp = true → 0 < n → pa % 128 + n ≤ 128 → s.sizeCode (pa / 128 * 128) = 0 → s.l3Has (pa / 128) = false →
      (s.homeGet pa n a).1 = List.replicate n 0)) ∧
  (∀ s q z s1, ready s q z → s.schedXlate z.asid (slot z) 0 true = (.walk, s1) → exec (.launchRecordRead q) s = .next s1) ∧
  (∀ s q z pa a s1, ready s q z → s.schedXlate z.asid (slot z) 0 true = (.ok pa a, s1) → regionOf pa = .dram → s1.pinned pa = true →
    exec (.launchRecordRead q) s = .next s1) ∧
  (∀ s q z pa a s1, ready s q z → s.schedXlate z.asid (slot z) 0 true = (.ok pa a, s1) → regionOf pa = .dram → s1.pinned pa = false →
    let r := s1.homeGet pa 64 a
    exec (.launchRecordRead q) s = .next (
      if lrecBad (recWord r.1) = true then { r.2 with
        lu := { s.lu with
          hq := s.lu.hq.set q { z with head := z.head + 1 }
          walked := s.lu.walked.filter fun w => !(w.asid == z.asid && w.page == slot z / 65536) }
        fq := s.fq.push ⟨slot z, 0x10, z.asid, 0, 528, s.time⟩ false }
      else { r.2 with lu := { s.lu with
        hq := s.lu.hq.set q { z with head := z.head + 1 }
        walked := s.lu.walked.filter fun w => !(w.asid == z.asid && w.page == slot z / 65536)
        nextGrid := s.lu.nextGrid + 1
        launches := s.lu.launches ++
          [Launch.new s.lu.nextGrid.toNat (lrecOf (recWord r.1)) z.asid z.prio (some q) 0] } })) ∧
  (∀ s q z c s1, ready s q z → s.schedXlate z.asid (slot z) 0 true = (.xlate c, s1) →
    ∃ u, exec (.launchRecordRead q) s = .next u ∧ u.lu.launches = s.lu.launches ∧
      u.lu.hq.getD q HQ.reset = { z with parked := some (z.asid, slot z / 65536) }) ∧
  (∀ s q z c s1, ready s q z → s.schedXlate z.asid (slot z) 0 true = (.refused c, s1) →
    let u := s1.schedDrop (2 * q) z.asid (slot z)
    exec (.launchRecordRead q) s = .next { u with
      lu := { u.lu with hq := s.lu.hq.set q { z with parked := some (z.asid, slot z / 65536) } }
      fq := s.fq.push ⟨slot z, c, z.asid, 0, 528, s.time⟩ false }) ∧
  (∀ q, Idles (.launchRecordRead q) fun s => s.regs.featlock = false) ∧
  (∀ q l, Idles (.launchRecordRead q) fun s => l ∈ s.lu.launches ∧ l.queue = some q ∧ l.st = .waiting) ∧
  (∀ s k l pa a s1, at_ s k l → l.st = .waiting → l.parked = none → s.schedXlate l.asid l.lr.waitev 0 false = (.ok pa a, s1) →
    regionOf pa = .dram → s1.pinned pa = false →
    let r := s1.homeGet pa 8 a
    exec (.launchWaitevRead k) s =
      .next (if l.lr.waitn ≤ leNat r.1 then setL (r.2.schedDone l.asid l.lr.waitev) k fun z => { z with st := .satisfied } else r.2)) ∧
  (∀ s k l s1, at_ s k l → l.st = .waiting → l.parked = none → s.schedXlate l.asid l.lr.waitev 0 false = (.walk, s1) →
    exec (.launchWaitevRead k) s = .next s1) ∧
  (∀ s k l c s1, at_ s k l → l.st = .waiting → l.parked = none → s.schedXlate l.asid l.lr.waitev 0 false = (.xlate c, s1) →
    ∃ u z, exec (.launchWaitevRead k) s = .next u ∧ u.lu.launches[k]? = some z ∧
      z = { l with parked := some (l.lr.waitev / 65536, 0) }) ∧
  (∀ s k l c s1, at_ s k l → l.st = .waiting → l.parked = none → s.schedXlate l.asid l.lr.waitev 0 false = (.refused c, s1) →
    let u := s1.schedDrop (2 * l.gridid + 1) l.asid l.lr.waitev
    exec (.launchWaitevRead k) s = .next { u with
      lu := { u.lu with launches := s.lu.launches.eraseIdx k }
      fq := s.fq.push ⟨l.lr.waitev, c, l.asid, 0, 529, s.time⟩ false }) ∧
  (∀ k l, Steps (.launchStart k)
    (fun s => next s k l ∧ l.lr.teams ≠ 0) fun s => begun s k) ∧
  (∀ k l, Steps (.launchStart k)
    (fun s => next s k l ∧ l.lr.teams = 0 ∧ l.lr.sigev = 0)
    (fun s => { s with lu := { s.lu with launches := s.lu.launches.eraseIdx k }, nextId := s.nextId + 1 })) ∧
  (∀ s k l pa a s1, next s k l → l.lr.teams = 0 → l.lr.sigev ≠ 0 →
    (begun s k).schedXlate l.asid l.lr.sigev 2 false = (.ok pa a, s1) → regionOf pa = .dram → s1.pinned pa = false → s.Inv →
    (a.cmp = false ∨ (s.codePlace pa).1 < pa ∨ pa + 8 ≤ (s.codePlace pa).1) →
    ∃ u, exec (.launchStart k) s = .next u ∧ u.lu.launches = s.lu.launches.eraseIdx k ∧
      leNat (u.mem.readN pa 8) = (leNat (s1.homeGet pa 8 a).1 + 1) % 2 ^ 64) ∧
  (∀ s k l s1, next s k l → l.lr.teams = 0 → l.lr.sigev ≠ 0 → (begun s k).schedXlate l.asid l.lr.sigev 2 false = (.walk, s1) →
    exec (.launchStart k) s = .next (setL s1 k fun z => { z with st := .signalling })) ∧
  (∀ k l, Idles (.launchStart k) fun s => at_ s k l ∧ l.st = .waiting) ∧
  (∀ k l, Steps (.launchBlocking k)
    (fun s => at_ s k l ∧ l.pending = true ∧ l.blocking = false ∧ l.since + 65536 ≤ s.time ∧ s.rectFor l = none)
    (fun s => setL s k fun z => { z with blocking := true })) ∧
  (∀ k l, Steps (.launchBlocking k)
    (fun s => at_ s k l ∧ l.pending = true ∧ l.blocking = false ∧ s.rectFor l ≠ none)
    (fun s => setL s k fun z => { z with since := s.time })) ∧
  ∀ k l, Idles (.launchBlocking k) fun s => at_ s k l ∧ s.rectFor l = none ∧ s.time < l.since + 65536

/-- CLUSTER_ADMIT (R26 to R28, R35, R44, R48, R65 to R67): the first launch in order of priority and start whose next cluster fits, and
that no blocking launch or core set keeps out, gets a team on each core of the first rectangle that fits: numbered, every lane eligible at
ENTRY with stamp 0, ARGS in g0:1 and s0, cursors zero. The model's choices: of two blocking launches of one priority the earlier goes
first (log entry 101); and no cluster is admitted while lines that may have to leave an L1 for its carve are of a moving bucket. -/
def Obligations.ClusterAdmission : Prop :=
  (∀ s l cores p c, s.admitNext = some (l, cores) → (∀ k ∈ cores, s.allOpen k = true) → cores[p]? = some c →
    ∃ u x, exec .clusterAdmit s = .next u ∧ u.team? (s.nextId + p) = some x ∧ x.core = c ∧
      x.id.teamid = l.next * l.lr.cores + p ∧ x.id.clusterid = l.next ∧ x.id.pos = p ∧ x.id.gridid = l.gridid ∧ x.id.asid = l.asid ∧
      x.bars = [] ∧ x.wins = [] ∧ x.dq = [] ∧ x.nantrap = false ∧ x.uhvec = 0 ∧
      (∀ g < l.lr.groups, g ≠ 32 → ∃ y, x.grp? g = some y ∧ y.front = false ∧ y.lanes.length = 32 ∧ y.bsize = 8 * cdiv l.lr.regs 8 ∧
        y.xblk = none ∧ ∀ z ∈ y.lanes, z.pc = BitVec.ofNat 56 l.lr.entry ∧ z.stamp = 0 ∧ z.st = .eligible ∧ z.curs = [] ∧ z.pend = [] ∧
          z.get false 0 = l.lr.args % 2 ^ 32 ∧ z.get false 1 = l.lr.args / 2 ^ 32 % 2 ^ 32) ∧
      (l.lr.groups ≤ 32 → l.lr.front ≠ 0 → ∃ y z, x.grp? 32 = some y ∧ y.front = true ∧ y.lanes = [z] ∧
        z.pc = BitVec.ofNat 56 l.lr.front ∧ z.st = .eligible ∧ z.get true 0 = l.lr.args % 2 ^ 64 ∧ z.get true 1 = 0)) ∧
  Idles .clusterAdmit (fun s => s.admitNext = none) ∧
  (∀ l cores k, Idles .clusterAdmit (fun s => s.admitNext = some (l, cores) ∧ k ∈ cores ∧ s.allOpen k = false)) ∧
  (∀ (s : State) (l : Launch) (cores : List Nat), s.admitNext = some (l, cores) →
    l ∈ s.lu.launches ∧ l.st = .started ∧ l.next * l.lr.cores < l.lr.teams ∧
      (∀ b ∈ s.lu.launches, b.pending = true → b.blocking = true → b.gridid ≠ l.gridid → b.prio ≤ l.prio ∧
        (b.prio = l.prio → l.blocking = true ∧ l.order ≤ b.order)) ∧ s.unblockedBySets l = true ∧
      (∀ c ∈ cores, s.coreFits l c = true) ∧ cores.length = l.lr.clw * l.lr.clh ∧
      ∀ b ∈ s.lu.launches, b.pending = true → s.unblocked b = true → s.unblockedBySets b = true → s.rectFor b ≠ none →
        b.prio ≤ 3 → l.prio ≤ 3 → b.prio < l.prio ∨ (b.prio = l.prio ∧ l.order ≤ b.order)) ∧
  ∀ (s : State) (l : Launch) (c : Nat), s.coreFits l c = true →
    (s.core c).pre = 0 ∧ (s.core c).retire = false ∧ s.regs.tripped = false ∧ (s.residents c).length < 16 ∧
      (∀ p ∈ s.residents c, p.2.id.asid = l.asid ∧ (2 ≤ l.lr.cores → p.2.id.exch = false)) ∧
      (s.residents c ≠ [] → (s.core c).carve = l.lr.carve)

/-- TEAM_FINISH, GRID_COMPLETE and LAUNCH_SIGNAL (R36, R43, R46, R237): a team with nothing left to wait for leaves and counts for its
launch; a launch whose teams have all finished and whose write completion times have passed signals, or leaves; the signal adds
1 to its event word. The model's choices: where the word is not in DRAM the signal is an atomic of master 529 in flight, and the launch
leaves when it is sent (log entry 99); and a poisoned word is added to as it stands (log entry 147). -/
def Obligations.TeamEnds : Prop :=
  (∀ t x, Idles (.teamFinish t) fun s => s.team? t = some x ∧ s.pubOpen x.core = false) ∧
  (∀ s t x, s.team? t = some x → s.teamDone t x = true → s.pubOpen x.core = true → ∃ u, exec (.teamFinish t) s = .next u ∧ u.team? t = none ∧
    u.lu.launches.map (fun l => (l.gridid, l.finished)) =
      s.lu.launches.map fun l => (l.gridid, if l.gridid = x.id.gridid then l.finished + 1 else l.finished)) ∧
  (∀ t x, Idles (.teamFinish t) fun s => s.team? t = some x ∧ ∃ p ∈ x.grps, p.2.finished = false) ∧
  (∀ k l, Steps (.gridComplete k)
    (fun s => s.lu.launches[k]? = some l ∧ l.st = .started ∧ l.finished = l.lr.teams ∧ (l.finished ≠ 0 → l.wct < s.time) ∧
      (l.lr.sigev = 0 ∨ l.killed = true))
    (fun s => { s with lu := { s.lu with launches := s.lu.launches.eraseIdx k } })) ∧
  (∀ k l, Steps (.gridComplete k)
    (fun s => s.lu.launches[k]? = some l ∧ l.st = .started ∧ l.finished = l.lr.teams ∧ (l.finished ≠ 0 → l.wct < s.time) ∧
      l.lr.sigev ≠ 0 ∧ l.killed = false)
    (fun s => { s with lu := { s.lu with launches := listUpd s.lu.launches k fun z => { z with st := .signalling } } })) ∧
  (∀ k l, Idles (.gridComplete k) fun s => s.lu.launches[k]? = some l ∧ (l.finished ≠ l.lr.teams ∨ (l.finished ≠ 0 ∧ s.time ≤ l.wct))) ∧
  (∀ s k l pa a, s.lu.launches[k]? = some l → l.st = .signalling → l.parked = none →
    (s.schedXlate l.asid l.lr.sigev 2 false).1 = .ok pa a → regionOf pa = .dram → s.pinned pa = false → s.Inv →
    (a.cmp = false ∨ (s.codePlace pa).1 < pa ∨ pa + 8 ≤ (s.codePlace pa).1) →
    ∃ u, exec (.launchSignal k) s = .next u ∧ u.lu.launches = s.lu.launches.eraseIdx k ∧
      leNat (u.mem.readN pa 8) = (leNat (s.homeGet pa 8 a).1 + 1) % 2 ^ 64 ∧
      (a.cmp = false → ∀ b, b < pa ∨ pa + 8 ≤ b → u.mem.read b = s.mem.read b) ∧ u.teams = s.teams ∧ u.cores = s.cores) ∧
  (∀ s k l s1, s.lu.launches[k]? = some l → l.st = .signalling → l.parked = none →
    s.schedXlate l.asid l.lr.sigev 2 false = (.walk, s1) → exec (.launchSignal k) s = .next { s1 with
      lu := { s1.lu with launches := listUpd s1.lu.launches k fun z => { z with st := .signalling } } }) ∧
  (∀ s k l pa a, s.lu.launches[k]? = some l → l.st = .signalling → l.parked = none →
    (s.schedXlate l.asid l.lr.sigev 2 false).1 = .ok pa a → regionOf pa ≠ .dram →
    ∃ u o, exec (.launchSignal k) s = .next u ∧ u.lu.launches = s.lu.launches.eraseIdx k ∧ u.mem = s.mem ∧
      u.ops = s.ops ++ [o] ∧ o.kind = .atomic ∧ o.opc = 0 ∧ o.pa = pa ∧ o.data = 1 ∧ o.core = 529) ∧
  ∀ k l, Idles (.launchSignal k) fun s => s.lu.launches[k]? = some l ∧ l.st = .started

/-! ### Device steps: resets, links, service -/

/-- PACKAGE_RESET and FUNCTION_RESET (R244, R245): a package reset returns everything to its reset value but DRAM, whose contents are
free, and Dehenan's images, which are kept and whose marked one starts; a function reset ends every team, stops the queues,
clears every PIT and the fault queue and returns the features to 0, and keeps time, memory, the tables, links and routines. The
model's choices: each package reset is a boot of Dehenan, which takes the next leaf counter (log entries 5, 110); and a function reset
drops the launches with teams left, the walks, what the scheduler and the host had asked for, and the parking of queues, and keeps
launches whose teams have all finished (log entry 112). -/
def Obligations.ResetSteps : Prop :=
  (∀ s, ∃ t, exec .packageReset s = .next t ∧ t.Inv ∧
    { t with
      mem := []
      deh := State.reset.deh
      out := State.reset.out
      schedule := State.reset.schedule
      nextId := State.reset.nextId
      freeCtr := State.reset.freeCtr } = State.reset ∧
    t.deh.imgA = s.deh.imgA ∧ t.deh.imgB = s.deh.imgB ∧ t.deh.marked = s.deh.marked ∧ t.deh.active = s.deh.marked ∧
    t.deh.leafCtr = s.deh.leafCtr + 1 ∧ t.deh.busy = false) ∧
  ∀ s, ∃ t, exec .functionReset s = .next t ∧ t.teams = [] ∧ (∀ p ∈ t.routers, p.2.pit = []) ∧ (∀ p ∈ t.lu.hq, p.2.en = false ∧ p.2.parked = none) ∧
    t.lu.dlqEn = false ∧ t.fq = FaultQ.reset ∧ t.outst = [] ∧ t.misses = [] ∧ t.lu.walked = [] ∧ t.lu.seqs = [] ∧ t.hostq = [] ∧
    t.paid = [] ∧ t.regs = { s.regs with featacc := 0, featlock := false } ∧
    (∀ l ∈ t.lu.launches, l.st = .signalling ∨ (l.st = .started ∧ l.finished = l.lr.teams)) ∧
    t.deh.busy = false ∧ t.deh.imgA = s.deh.imgA ∧ t.deh.imgB = s.deh.imgB ∧
    t.time = s.time ∧ t.mem = s.mem ∧ t.asidTab = s.asidTab ∧ t.acc = s.acc ∧ t.links = s.links ∧ t.routines = s.routines

/-- LINK_PORT_BLOCKED and DIE_QUEUE_BLOCKED (R255, R257): a port or die queue that is full and has had no credit for 256 ticks spills
into its region; while spilled requests of a die remain, every later one follows them there; a region that has filled says so once.
That a receive buffer holds 4,096 packets, one flit each, and what a die's queue and region hold are the model's choices (log entry
113). -/
def Claims.Spills : Prop :=
  (∀ p, Steps (.linkPortBlocked p)
    (fun s => (s.regs.featlock = false ∨ s.regs.featacc.getLsbD 6 = true) ∧ (s.port p).ovSize ≠ 0 ∧
      4096 ≤ (s.port p).rx.length ∧ (s.port p).credits = 0 ∧ (s.port p).creditT + 256 ≤ s.time)
    (fun s => s.modPort p fun z => { z with blocked := true })) ∧
  (∀ p, Idles (.linkPortBlocked p) fun s => (s.regs.featlock = true ∧ s.regs.featacc.getLsbD 6 = false) ∨ (s.port p).ovSize = 0 ∨
    (s.port p).rx.length < 4096 ∨ (s.port p).credits ≠ 0 ∨ s.time < (s.port p).creditT + 256) ∧
  (∀ s d, s.dieArrivals d ≠ [] →
    let late := s.dieArrivals d
    let room := Config.dieSpillRoom (s.die d).qSize.toNat - (s.spilled d).length
    ∃ t, exec (.dieQueueBlocked d) s = .next t ∧ t.teams = s.teams ∧ t.ops = s.ops ∧ t.cores = s.cores ∧
      (t.die d).qSpilled = s.spilled d ++ late.take room ∧
      (if room < late.length ∧ (s.die d).qFull = false then
        (t.die d).qFull = true ∧ t.out = { s.out with msix := s.out.msix ++ [3] }
      else (t.die d).qFull = (s.die d).qFull ∧ t.out = s.out)) ∧
  (∀ d, Idles (.dieQueueBlocked d) fun s => s.dieArrivals d = []) ∧
  ∀ (s : State) d,
    (s.spilled d = [] → (s.die d).qSize ≠ 0 → (s.die d).qCredit + 256 ≤ s.time →
      s.dieArrivals d = (s.dieQueue d).drop Config.dieQueueRoom) ∧
    (s.spilled d = [] → ((s.die d).qSize = 0 ∨ s.time < (s.die d).qCredit + 256 ∨ (s.dieQueue d).length < Config.dieQueueRoom) →
      s.dieArrivals d = []) ∧
    (s.spilled d ≠ [] → ∀ k, k ∈ s.dieArrivals d ↔ k ∈ s.dieQueue d ∧ ∃ j ∈ s.spilled d, j < k)

/-- LINK_FLIT_RECEIVE (R251, R255): a good flit in sequence is taken, into the receive buffer or, while the port spills, into its
region, where its credit goes back at once; a bad one counts, the ninth in a row takes the port down and keeps what was not
acknowledged. The model's choices: a flit is a packet, a credit goes back in a packet of its own to the package that
Config.linkPeer names, and a flit that finds neither room nor a grant for its spill write is not taken (log entries 113, 114). -/
def Claims.Flits : Prop :=
  let up := fun (s : State) (p : Nat) => (s.regs.featlock = false ∨ s.regs.featacc.getLsbD 6 = true) ∧ (s.port p).down = false
  let spills := fun (s : State) (p : Nat) => (s.port p).blocked = true ∨ (s.port p).spilled ≠ [] ∨
    ((s.port p).ovSize ≠ 0 ∧ 4096 ≤ (s.port p).rx.length ∧ (s.port p).credits = 0 ∧ (s.port p).creditT + 256 ≤ s.time)
  (∀ p n k, Steps (.linkFlitReceive p n true k)
    (fun s => up s p ∧ n = (s.port p).nextSeq ∧ ¬ spills s p ∧ (s.port p).rx.length < 4096)
    (fun s => s.modPort p fun y => { y with nextSeq := (y.nextSeq + 1) % 4096, fails := 0, rx := y.rx ++ [k] })) ∧
  (∀ p n k, Idles (.linkFlitReceive p n true k) fun s => n = (s.port p).nextSeq ∧ ¬ spills s p ∧ 4096 ≤ (s.port p).rx.length) ∧
  (∀ (s : State) u p n k, up s p → n = (s.port p).nextSeq → spills s p →
    (s.port p).spilled.length < (s.port p).ovSize.toNat * 16384 → s.spillReady p = some u →
    exec (.linkFlitReceive p n true k) s = .next
      (((u.spillInto (s.port p).ovBase.toNat (s.port p).ovSize.toNat).modPort p fun y =>
        { y with nextSeq := (y.nextSeq + 1) % 4096, fails := 0, spilled := y.spilled ++ [k] }).credit p k)) ∧
  (∀ p n k, Idles (.linkFlitReceive p n true k) fun s => spills s p ∧
    (((s.port p).spilled.length < (s.port p).ovSize.toNat * 16384 ∧ s.spillReady p = none) ∨
     ((s.port p).ovSize.toNat * 16384 ≤ (s.port p).spilled.length ∧ (s.port p).ovfull = true))) ∧
  (∀ p n k, Steps (.linkFlitReceive p n true k)
    (fun s => up s p ∧ n = (s.port p).nextSeq ∧ spills s p ∧ (s.port p).ovSize.toNat * 16384 ≤ (s.port p).spilled.length ∧
      (s.port p).ovfull = false)
    (fun s => { s.modPort p (fun y => { y with ovfull := true }) with out := { s.out with msix := s.out.msix ++ [3] } })) ∧
  (∀ p n k, Idles (.linkFlitReceive p n true k) fun s => n ≠ (s.port p).nextSeq) ∧
  (∀ p n k, Steps (.linkFlitReceive p n false k) (fun s => up s p ∧ (s.port p).fails < 8)
    (fun s => s.modPort p fun y => { y with fails := y.fails + 1 })) ∧
  (∀ p n k, Steps (.linkFlitReceive p n false k) (fun s => up s p ∧ 8 ≤ (s.port p).fails)
    (fun s => { s.modPort p (fun y =>
        { y with down := true, fails := 0, lost := y.lost ++ y.unacked, unacked := [], txq := [] }) with
      out := { s.out with msix := s.out.msix ++ [3] } })) ∧
  (∀ p n c k, Idles (.linkFlitReceive p n c k) fun s => (s.regs.featlock = true ∧ s.regs.featacc.getLsbD 6 = false) ∨ (s.port p).down = true) ∧
  (∀ (s : State) q k, (s.flitOut q k).out = { s.out with linkOut := s.out.linkOut ++ [(q, (s.port q).txSeq, k)] } ∧
    (s.flitOut q k).port q = { s.port q with txSeq := ((s.port q).txSeq + 1) % 4096 }) ∧
  (∀ (s : State) k, (s.stamp k).1 = { k with seq := s.links.e2eNext.getD k.dst 0 } ∧
    (s.stamp k).2.links.e2eNext.getD k.dst 0 = s.links.e2eNext.getD k.dst 0 + 1 ∧
    ∀ d, d ≠ k.dst → (s.stamp k).2.links.e2eNext.getD d 0 = s.links.e2eNext.getD d 0) ∧
  ∀ (s : State) p u, s.spillReady p = some u → s.pinned (s.port p).ovBase.toNat = false ∧
    { u with spent := s.spent, claimed := s.claimed } = s

/-- LINK_PACKET_RECEIVE (R251 to R256): the buffer's first packet leaves it with a credit for the peer; one for another package
leaves by its route, on a credit of the peer, and without one waits; a credit lets the packet that waits longest leave; a permitted
write performs at its home once, and is acknowledged; a packet taken already does nothing more. The model's choices: where credits
go, and that packets queue for them in order (log entry 114); that the acknowledgement leaves once the L3's write completion time has
passed (log entry 115); and that a write of a link takes its block as the L3 knows it (log entry 145). -/
def Claims.Packets : Prop :=
  let blank : LinkPkt :=
    { kind := .credit, src := 0, dst := 0, seq := 0, pa := 0, width := 0, val := 0, cmp := 0, opc := 0, tag := 0 }
  let head := fun (s : State) (p : Nat) (k : LinkPkt) (r : List LinkPkt) =>
    (s.port p).rx = k :: r ∧ (s.port p).blocked = false ∧ ∀ a ∈ (s.port p).acks, s.time ≤ a.1
  let local_ := fun (s : State) (p : Nat) (k : LinkPkt) =>
    k.dst = s.regs.pkgid.toNat ∧ k.kind = .write ∧ 0 < k.width ∧ (k.src, k.seq) ∉ s.links.e2eSeen ∧ regionOf k.pa = .dram ∧
      s.physCheck (512 + p) 1 k.pa k.width false = none
  let back := fun (s : State) (p : Nat) =>
    let r := s.stamp { blank with src := s.regs.pkgid.toNat, dst := Config.linkPeer p }
    r.2.flitOut p r.1
  let seen := fun (s : State) (k : LinkPkt) => { s with links := { s.links with e2eSeen := (k.src, k.seq) :: s.links.e2eSeen } }
  let plain := fun (s : State) (k : LinkPkt) => ∀ a, k.pa ≤ a → a < k.pa + k.width → s.cmpAt a = false
  let inLine := fun (s : State) (k : LinkPkt) => k.pa % 128 + k.width ≤ 128 ∧
    ((s.codePlace k.pa).1 < k.pa ∨ k.pa + k.width ≤ (s.codePlace k.pa).1)
  (∀ p k r q, Steps (.linkPacketReceive p)
    (fun s => head s p k r ∧ k.kind ≠ .credit ∧ k.dst ≠ s.regs.pkgid.toNat ∧ s.routeOf k.dst = some q ∧ q ≠ p ∧
      (s.port q).txq = [] ∧ 0 < (s.port q).credits)
    (fun s => ((back (s.modPort p fun y => { y with rx := r }) p).flitOut q k).modPort q fun y =>
      { y with credits := y.credits - 1, creditT := s.time })) ∧
  (∀ p k r q, Steps (.linkPacketReceive p)
    (fun s => head s p k r ∧ k.kind ≠ .credit ∧ k.dst ≠ s.regs.pkgid.toNat ∧ s.routeOf k.dst = some q ∧ q ≠ p ∧
      ((s.port q).txq ≠ [] ∨ (s.port q).credits = 0))
    (fun s => (back (s.modPort p fun y => { y with rx := r }) p).modPort q fun y => { y with txq := y.txq ++ [k] })) ∧
  (∀ p k r, Steps (.linkPacketReceive p)
    (fun s => head s p k r ∧ k.kind = .credit ∧ (k.src, k.seq) ∉ s.links.e2eSeen ∧ (s.port p).txq = [])
    (fun s => (seen (s.modPort p fun y => { y with rx := r }) k).modPort p fun y =>
      { y with credits := y.credits + 1, creditT := s.time, blocked := false })) ∧
  (∀ p k r h q, Steps (.linkPacketReceive p)
    (fun s => head s p k r ∧ k.kind = .credit ∧ (k.src, k.seq) ∉ s.links.e2eSeen ∧ (s.port p).txq = h :: q)
    (fun s => ((seen (s.modPort p fun y => { y with rx := r }) k).flitOut p h).modPort p fun y =>
      { y with txq := q, creditT := s.time, blocked := false })) ∧
  (∀ p k r, Steps (.linkPacketReceive p) (fun s => head s p k r ∧ k.kind = .credit ∧ (k.src, k.seq) ∈ s.links.e2eSeen)
    (fun s => s.modPort p fun y => { y with rx := r })) ∧
  (∀ s p k r u, head s p k r → local_ s p k → s.linkReady p k = some u → s.Inv →
    ∃ t, exec (.linkPacketReceive p) s = .next t ∧ (k.src, k.seq) ∈ t.links.e2eSeen ∧ (t.port p).rx = r ∧
      (plain s k ∨ inLine s k → leNat (t.mem.readN k.pa k.width) = k.val % 2 ^ (8 * k.width)) ∧
      (plain s k → ∀ a, a < k.pa ∨ k.pa + k.width ≤ a → t.mem.read a = s.mem.read a) ∧
      ∃ a, (t.port p).acks = (s.port p).acks ++ [a] ∧ a.2.kind = .writeAck ∧ a.2.dst = k.src ∧ a.2.tag = k.tag ∧
        a.1 = max s.time (s.l3Granted.getD (k.pa / 128) 0)) ∧
  (∀ p k r, Idles (.linkPacketReceive p) fun s => head s p k r ∧ s.linkReady p k = none) ∧
  (∀ s p k r u, head s p k r → k.dst = s.regs.pkgid.toNat → k.kind = .write → (k.src, k.seq) ∈ s.links.e2eSeen →
    s.linkReady p k = some u →
    ∃ t, exec (.linkPacketReceive p) s = .next t ∧ t.mem = s.mem ∧ t.links.e2eSeen = s.links.e2eSeen ∧ (t.port p).rx = r) ∧
  (∀ p, Idles (.linkPacketReceive p) fun s => (s.port p).rx = [] ∧ (s.port p).spilled = [] ∧ (s.port p).acks = []) ∧
  ∀ (s : State) p k u, s.linkReady p k = some u → { u with spent := s.spent, claimed := s.claimed } = s

/-- HOST_BAR_WRITE and HOST_BAR_READ (R15, R82, R83, R107, R108, R242, R258): the host reaches the registers, and the bytes of DRAM that
its windows permit at the home slice and at the DRAM controller; a refused request is reported.
Requests are made in order, and one that waits makes the later ones wait (log entry 129, the model's choice); a write takes its block as the L3 knows it (log entry 145, the model's choice). -/
def Claims.HostAccesses : Prop :=
  (∀ (s : State) pa bs, s.hostq = [] → pa + bs.length ≤ Config.dramTop → s.hostOk 2 pa bs.length = true →
    let r := s.dmaPay 0 pa bs.length
    (r.1 = true → exec (.hostBarWrite pa bs) s = .next { (r.2.barePut pa bs).dmaDone 0 with hostq := [] }) ∧
    (r.1 = false → exec (.hostBarWrite pa bs) s = .next { r.2 with hostq := [.write pa bs] })) ∧
  (∀ s pa bs, regionOf pa = .dev → pa % 8 = 0 → bs.length = 8 → s.hostq = [] →
    ∃ u, exec (.registerWrite pa (BitVec.ofNat 64 (leNat bs))) s = .next u ∧
      exec (.hostBarWrite pa bs) s = .next { u with hostq := [] }) ∧
  (∀ pa bs, Idles (.hostBarWrite pa bs) fun s => s.hostq = [] ∧ regionOf pa ≠ .dev ∧ Config.dramTop < pa + bs.length) ∧
  (∀ pa bs, Steps (.hostBarWrite pa bs) (fun s => s.hostq = [] ∧ pa + bs.length ≤ Config.dramTop ∧ s.hostOk 2 pa bs.length = false)
    (fun s => { s with fq := s.fq.push ⟨pa, 0x0A, 0, 1, 528, s.time⟩ false })) ∧
  (∀ (s : State) pa n, s.hostq = [] → pa + n ≤ Config.dramTop → s.hostOk 1 pa n = true →
    let r := s.dmaPay 0 pa n
    let b := r.2.bareGet pa n
    (r.1 = true → exec (.hostBarRead pa n) s = .next { (State.dmaDone b.2 0) with
      hostq := [], out := { b.2.out with reads := b.2.out.reads ++ [(pa, .data b.1)] } }) ∧
    (r.1 = false → exec (.hostBarRead pa n) s = .next { r.2 with hostq := [.read pa n] })) ∧
  (∀ pa, Steps (.hostBarRead pa 8) (fun s => s.hostq = [] ∧ regionOf pa = .dev ∧ pa % 8 = 0)
    (fun s => { s with out := { s.out with reads := s.out.reads ++ [(pa, .data (leBytes 8 (s.regRead pa 8)))] } })) ∧
  (∀ pa n, Steps (.hostBarRead pa n) (fun s => s.hostq = [] ∧ regionOf pa ≠ .dev ∧ Config.dramTop < pa + n)
    (fun s => { s with out := { s.out with reads := s.out.reads ++ [(pa, .unsupported)] } })) ∧
  (∀ pa n, Steps (.hostBarRead pa n) (fun s => s.hostq = [] ∧ pa + n ≤ Config.dramTop ∧ s.hostOk 1 pa n = false)
    (fun s => { s with
      fq := s.fq.push ⟨pa, 0x0A, 0, 0, 528, s.time⟩ false
      out := { s.out with reads := s.out.reads ++ [(pa, .abort)] } })) ∧
  (∀ (s : State) r q new, s.hostq = r :: q → (s.hostDo r).1 = false →
    (∀ pa bs, new = .write pa bs → exec (.hostBarWrite pa bs) s = .next { (s.hostDo r).2 with hostq := r :: q ++ [new] }) ∧
    (∀ pa n, new = .read pa n → exec (.hostBarRead pa n) s = .next { (s.hostDo r).2 with hostq := r :: q ++ [new] })) ∧
  (∀ (s : State) k pa n, { (s.dmaPay k pa n).2 with paid := s.paid, spent := s.spent, claimed := s.claimed } = s ∧
    (regionOf pa = .dram → 0 < n → s.pinnedIn pa n = true → s.dmaPay k pa n = (false, s)) ∧
    ((s.dmaDone k).paid = s.paid.filter fun p => (p.1, p.2.1, p.2.2.1) != (0, 0, 64 + k)) ∧ { s.dmaDone k with paid := s.paid } = s) ∧
  (∀ (s : State) right pa n, 0 < n → pa % 128 + n ≤ 128 →
    s.hostOk right pa n = (s.accOk (l3Slice pa) 528 right pa n && s.accOk (64 + dramCtl pa) 528 right pa n)) ∧
  ∀ (s : State) pa n, (∀ a, pa ≤ a → a < pa + n → s.cmpAt a = false) → s.bareGet pa n = (s.mem.readN pa n, s)

/-- `Claims.Spills`, `Claims.Flits`, `Claims.Packets` and `Claims.HostAccesses` together.
The model's choices: log entries 113 to 116, 129 and 145, as each part says. -/
def Obligations.LinkSteps : Prop := Claims.Spills ∧ Claims.Flits ∧ Claims.Packets ∧ Claims.HostAccesses

/-- ROUTINE_INSTALL, ECC_CORRECTED and ECC_UNCORRECTED (R82, R107, R108, R241, R259, R263): a routine image that verifies takes the
inactive bank and the banks swap, one that fails or that cannot be read installs nothing; errors count, saturating, and act where they
lie. The model's choices: an installation waits while a copy that is queued or saved runs the bank, and reads the image as host DMA does,
with its grants (log entry 64); the length of the code is a free value of the image's first 18,156 bytes, and the signature follows the
code (log entry 65); poison stands for aligned 8-byte words (log entry 43); and the record of a team that an error of its own kills
carries VA 0 (log entry 148). -/
def Obligations.ErrorsAndRoutines : Prop :=
  let up := fun {n : Nat} (x : BitVec n) => if x = -1 then x else x + 1
  let bad := fun (s : State) (c : Nat) => s.modCore c fun z => { z with eccUncorr := up z.eccUncorr }
  let owner := fun (r : Nat) => if r = 256 then 0 else r / 64 * 64
  let failed := fun (s : State) => { s with regs := { s.regs with rtBusy := false, rtOk := false, rtSigfail := true } }
  (∀ (s : State) (img : List (BitVec 8)) (s0 : State), s.regs.rtBusy = true → s.bankBusy s.regs.rtSlot = false →
    let pa := s.regs.rtPa.toNat
    pa + 18156 ≤ Config.dramTop → s.bareGet pa 18156 = (img, s0) →
    let code := img.take (min 16384 (Config.routineLen img))
    let sig := (img.drop code.length).take 1772
    let n := code.length + 1772
    let u := s.dmaPay 3 pa n
    let t := State.dmaDone (u.2.bareGet pa n).2 3
    let z := t.routines.getD t.regs.rtSlot Routine.empty
    (s.hostOk 1 pa n = false → exec .routineInstall s = .next (failed { s with fq := s.fq.push ⟨pa, 0x0A, 0, 0, 528, s.time⟩ false })) ∧
    (s.hostOk 1 pa n = true → u.1 = false → exec .routineInstall s = .next u.2) ∧
    (s.hostOk 1 pa n = true → u.1 = true → (lmsOk prisal code sig = true ∨ ∃ k ∈ s.deh.ownerKey, lmsOk k code sig = true) →
      exec .routineInstall s = .next { t with
        routines := t.routines.set t.regs.rtSlot
          (if z.active = 0 then { z with bank1 := code, active := 1 } else { z with bank0 := code, active := 0, standard := false })
        regs := { t.regs with rtBusy := false, rtOk := true, rtSigfail := false } }) ∧
    (s.hostOk 1 pa n = true → u.1 = true → lmsOk prisal code sig = false → (∀ k ∈ s.deh.ownerKey, lmsOk k code sig = false) →
      exec .routineInstall s = .next (failed t))) ∧
  Steps .routineInstall (fun s => s.regs.rtBusy = true ∧ s.bankBusy s.regs.rtSlot = false ∧
    regionOf s.regs.rtPa.toNat = .unmapped) failed ∧
  Idles .routineInstall (fun s => s.regs.rtBusy = false ∨ s.bankBusy s.regs.rtSlot = true) ∧
  (∀ c, Steps (.eccCorrected c) (fun _ => True) fun s => s.modCore c fun z => { z with eccCorr := up z.eccCorr }) ∧
  (∀ s t x, s.team? t = some x → ∃ u, exec (.eccUncorrected (.owned t)) s = .next u ∧ u.team? t = none ∧
    ∃ r, (r ∈ u.fq.wait ∨ (r, false) ∈ u.fq.late) ∧ r.va = 0 ∧ r.cause = 0x32 ∧ r.asid = x.id.asid ∧ r.kind = 3 ∧ r.master = x.core) ∧
  (∀ c line, c < 256 → Steps (.eccUncorrected (.clean c line)) (fun _ => True) fun s => s.modCore c fun z =>
    { z with
      eccCorr := up z.eccCorr
      l1 := z.l1.filter fun x => !(x.line == line && x.dirty == 0)
      mdc := z.mdc.filter fun x => x.line != line
      ipath := z.ipath.filter fun x => x.line != line }) ∧
  (∀ d line, d < 4 → Steps (.eccUncorrected (.clean (256 + d) line)) (fun s => ∀ f ∈ (s.die d).fwd, f.line ≠ line)
    (fun s => (s.modCore (64 * d) fun z => { z with eccCorr := up z.eccCorr }).modDie d fun z =>
      { z with l2 := z.l2.filter fun x => x.line != line })) ∧
  (∀ line, Steps (.eccUncorrected (.clean 260 line)) (fun _ => True)
    (fun s => let t := s.modCore 0 fun z => { z with eccCorr := up z.eccCorr }; { t with l3 := s.l3.filter fun x => x.line != line })) ∧
  (∀ c k, c < 256 → Steps (.eccUncorrected (.tlb c k)) (fun _ => True) fun s => s.modCore c fun z =>
    { z with eccCorr := up z.eccCorr, tlb := z.tlb.eraseIdx k }) ∧
  (∀ s c line x, c < 256 → (s.core c).l1Find line = some x → x.dirty ≠ 0 → ∃ u, exec (.eccUncorrected (.dirty c line)) s = .next u ∧
    (u.core c).eccUncorr = up (s.core c).eccUncorr ∧ (∀ w ∈ s.poison, w ∈ u.poison) ∧
    (∀ i < 128, x.dirty.getLsbD i = true → line * 16 + i / 8 ∈ u.poison)) ∧
  (∀ s d line f i, d < 4 → f ∈ (s.die d).fwd → f.line = line → i < 128 → f.mask.getLsbD i = true →
    ∃ u, exec (.eccUncorrected (.dirty (256 + d) line)) s = .next u ∧ line * 16 + i / 8 ∈ u.poison ∧
      (u.core (64 * d)).eccUncorr = up (s.core (64 * d)).eccUncorr) ∧
  (∀ pa, Steps (.eccUncorrected (.dram pa)) (fun s => pa / 8 ∉ s.poison) fun s => { bad s 0 with poison := s.poison ++ [pa / 8] }) ∧
  (∀ r k, Steps (.eccUncorrected (.pit r k)) (fun _ => True) fun s =>
    (bad s (owner r)).modRouter r fun x => { x with pit := x.pit.eraseIdx k }) ∧
  (∀ r k, Steps (.eccUncorrected (.nrt r k)) (fun _ => True) fun s =>
    (bad s (owner r)).modRouter r fun x => { x with nrt := x.nrt.filter fun p => p.1 != k }) ∧
  ∀ r k, Steps (.eccUncorrected (.cocoon r k)) (fun _ => True) fun s =>
    (bad s (owner r)).modRouter r fun x => { x with cocoon := x.cocoon.eraseIdx k }

/-- The mailbox (R260 to R265): each command that runs reads its request and writes its reply as host DMA, within the windows of
master 528 and with its grants, and ends with its effect, its reply and its result code, and MSI-X vector 1; a wrong length or a buffer
that is not reachable ends it with ERR 2, an unknown opcode with ERR 1; a restart runs the marked image, and the third failure of an
image marks the other. The model's choices: INFO, SENSORS and ATTEST steps that the mailbox does not run are requests of the sideband
(R24), whose nonce is free and whose reports count (log entry 141); a firmware image ends in its signature, and its version is a free
value (log entry 65); the fused key, the boot key, its certificate, the signatures made with it and the sensors are free values (log
entry 66). -/
def Obligations.MailboxCommands : Prop :=
  let given := fun (s : State) (opc len : Nat) =>
    s.deh.busy = true ∧ s.deh.restarting = false ∧ s.deh.cmd.1 = opc ∧ s.deh.cmd.2.1 = len
  let grant := fun (s : State) (len reply : Nat) =>
    let a := s.dmaPay 1 s.deh.buf len
    let b := a.2.dmaPay 2 s.deh.buf reply
    (a.1 && b.1, b.2)
  let runs := fun (s : State) (opc len reply : Nat) => given s opc len ∧ s.dmaOk 1 s.deh.buf len = true ∧
    s.dmaOk 2 s.deh.buf reply = true ∧ (grant s len reply).1 = true ∧ (len = 0 ∨ regionOf s.deh.buf = .dram)
  let req := fun (s : State) (len reply : Nat) =>
    let u := ((grant s len reply).2.dmaDone 1).dmaDone 2
    if len = 0 then ([], u) else u.bareGet s.deh.buf len
  let count := fun (s : State) => { s with freeCtr := s.freeCtr + 1 }
  let turned := fun (i : Instr) (g : State → State) (opc len reply : Nat) =>
    Steps i (fun s => given s opc len ∧ s.dmaOk 1 s.deh.buf len = true ∧ s.dmaOk 2 s.deh.buf reply = true ∧
      (grant (g s) len reply).1 = false) (fun s => (grant (g s) len reply).2) ∧
    Steps i (fun s => given s opc len ∧ 0 < len ∧ s.deh.buf + len ≤ Config.dramTop ∧ s.hostOk 1 s.deh.buf len = false)
      (fun s => State.mbEnd { g s with fq := s.fq.push ⟨s.deh.buf, 0x0A, 0, 0, 528, s.time⟩ false } 2 []) ∧
    Steps i (fun s => given s opc len ∧ s.dmaOk 1 s.deh.buf len = true ∧ 0 < reply ∧ s.deh.buf + reply ≤ Config.dramTop ∧
        s.hostOk 2 s.deh.buf reply = false)
      (fun s => State.mbEnd { g s with fq := s.fq.push ⟨s.deh.buf, 0x0A, 0, 1, 528, s.time⟩ false } 2 []) ∧
    Steps i (fun s => given s opc len ∧ 0 < len + reply ∧ regionOf s.deh.buf = .unmapped) (fun s => (g s).mbEnd 2 [])
  let short := fun (i : Instr) (opc len : Nat) => Steps i
    (fun s => s.deh.busy = true ∧ s.deh.restarting = false ∧ s.deh.cmd.1 = opc ∧ s.deh.cmd.2.1 ≠ len) (fun s => s.mbEnd 2 [])
  let off := fun (i : Instr) (opc : Nat) => Idles i fun s => s.deh.busy = false ∨ s.deh.cmd.1 ≠ opc
  let aside := fun (s : State) (opc : Nat) => (s.deh.busy = false ∨ s.deh.cmd.1 ≠ opc) ∧ s.deh.restarting = false
  let sideReply := fun (s : State) (opc : Nat) (b : List (BitVec 8)) =>
    { s with out := { s.out with side := s.out.side ++ [leBytes 1 opc ++ b] } }
  let info := fun (s : State) =>
    leBytes 8 (Config.imageVersion s.deh.imgA).toNat ++ leBytes 8 (Config.imageVersion s.deh.imgB).toNat ++ leBytes 1 s.deh.active ++
      leBytes 1 0 ++ leBytes 2 (32768 - s.deh.leafCtr) ++ leBytes 2 (1024 - s.deh.reports) ++
      leBytes 1 (if s.deh.ownerKey = none then 0 else 1) ++ List.replicate 41 0
  let report := fun (s : State) (nonce : List (BitVec 8)) =>
    s.reportBody nonce ++ fit 1452 (Config.bootSign s.deh.leafCtr s.deh.reports (s.reportBody nonce)) ++
      fit 56 (Config.bootKey s.deh.leafCtr) ++ fit 1612 (Config.bootCert s.deh.leafCtr)
  let reported := fun (s : State) => { s with deh := { s.deh with reports := s.deh.reports + 1 } }
  let sensors := fun (s : State) =>
    (List.range 5).flatMap (fun k => leBytes 2 (Config.sensor s.time k).toNat) ++ leBytes 2 0 ++
      leBytes 2 (Config.sensor s.time 5).toNat ++ leBytes 2 (Config.sensor s.time 6).toNat ++ leBytes 2 s.regs.trip ++
      List.replicate 14 0
  (∀ (s : State) e r, (s.mbEnd e r).deh = { s.deh with busy := false, done := true, err := e, rlen := r.length } ∧
    (s.mbEnd e []).out.msix = s.out.msix ++ [1] ∧
    (regionOf s.deh.buf = .dram → (s.mbEnd e r).out.msix = s.out.msix ++ [1] ∧
      ((∀ a, s.deh.buf ≤ a → a < s.deh.buf + r.length → s.cmpAt a = false) → (s.mbEnd e r).mem = s.mem.writeN s.deh.buf r))) ∧
  (∀ (s : State) nonce, nonce.length = 32 → (report s nonce).length = 4304 ∧ (s.reportBody nonce).length = 1184) ∧
  Steps .mbInfo (fun s => runs s 1 0 64) (fun s => (req s 0 64).2.mbEnd 0 (info s)) ∧
  Steps .mbInfo (fun s => aside s 1) (fun s => sideReply s 1 (info s)) ∧
  Idles .mbInfo (fun s => s.deh.restarting = true) ∧
  (∀ n, Steps .mbFwload (fun s => runs s 2 n 0 ∧ n ≤ 8388608 ∧ n % 8 = 0 ∧ s.deh.active = 0)
    (fun s => let r := req s n 0; State.mbEnd { r.2 with deh := { r.2.deh with imgB := r.1, marked := 0 } } 0 [])) ∧
  (∀ n, Steps .mbFwload (fun s => runs s 2 n 0 ∧ n ≤ 8388608 ∧ n % 8 = 0 ∧ s.deh.active = 1)
    (fun s => let r := req s n 0; State.mbEnd { r.2 with deh := { r.2.deh with imgA := r.1, marked := 1 } } 0 [])) ∧
  (∀ n, Steps .mbFwload (fun s => given s 2 n ∧ (8388608 < n ∨ n % 8 ≠ 0)) (fun s => s.mbEnd 2 [])) ∧
  Steps .mbFwmark (fun s => runs s 3 0 0 ∧ s.deh.active ≤ 1)
    (fun s =>
      let img := if s.deh.active = 1 then s.deh.imgA else s.deh.imgB
      let u := (req s 0 0).2
      if 1772 ≤ img.length ∧ lmsOk prisal (img.take (img.length - 1772)) (img.drop (img.length - 1772)) = true then
        State.mbEnd { u with deh := { u.deh with marked := 1 - u.deh.active } } 0 []
      else u.mbEnd 3 []) ∧
  Steps .mbRestart (fun s => runs s 4 0 0) (fun s => let u := (req s 0 0).2; { u with deh := { u.deh with restarting := true } }) ∧
  Steps (.dehenanRestartDone true) (fun s => s.deh.restarting = true ∧ s.deh.busy = true ∧ s.deh.cmd.1 = 4)
    (fun s => State.mbEnd { s with deh := { s.deh with active := s.deh.marked, fails := 0, restarting := false } } 0 []) ∧
  Steps (.dehenanRestartDone true) (fun s => s.deh.restarting = true ∧ (s.deh.busy = false ∨ s.deh.cmd.1 ≠ 4))
    (fun s => { s with deh := { s.deh with active := s.deh.marked, fails := 0, restarting := false } }) ∧
  Steps (.dehenanRestartDone false) (fun s => s.deh.restarting = true ∧ s.deh.fails < 2)
    (fun s => { s with deh := { s.deh with fails := s.deh.fails + 1 } }) ∧
  Steps (.dehenanRestartDone false) (fun s => s.deh.restarting = true ∧ 2 ≤ s.deh.fails)
    (fun s => { s with deh := { s.deh with fails := 0, marked := 1 - s.deh.marked } }) ∧
  (∀ b, Idles (.dehenanRestartDone b) fun s => s.deh.restarting = false) ∧
  Steps .mbOwnerkey (fun s => runs s 5 56 0 ∧ s.regs.featlock = false ∧ s.deh.ownerKey = none)
    (fun s => let r := req s 56 0; State.mbEnd { r.2 with deh := { r.2.deh with ownerKey := some r.1 } } 0 []) ∧
  Steps .mbOwnerkey (fun s => runs s 5 56 0 ∧ (s.regs.featlock = true ∨ s.deh.ownerKey ≠ none)) (fun s => (req s 56 0).2.mbEnd 4 []) ∧
  Steps .mbAttest (fun s => runs (count s) 6 32 4304 ∧ s.deh.reports < 1024)
    (fun s => let r := req (count s) 32 4304; (reported r.2).mbEnd 0 (report r.2 r.1)) ∧
  Steps .mbAttest (fun s => runs (count s) 6 32 4304 ∧ 1024 ≤ s.deh.reports) (fun s => (req (count s) 32 4304).2.mbEnd 5 []) ∧
  Steps .mbAttest (fun s => aside s 6 ∧ s.deh.reports < 1024)
    (fun s => sideReply (reported (count s)) 6 (report s (leBytes 32 (Config.sideNonce s.freeCtr).toNat))) ∧
  Steps .mbAttest (fun s => aside s 6 ∧ 1024 ≤ s.deh.reports) (fun s => sideReply (count s) 6 []) ∧
  Steps .mbAttest (fun s => s.deh.busy = true ∧ s.deh.restarting = false ∧ s.deh.cmd.1 = 6 ∧ s.deh.cmd.2.1 ≠ 32)
    (fun s => (count s).mbEnd 2 []) ∧
  Steps .mbSensors (fun s => runs s 7 0 32) (fun s => (req s 0 32).2.mbEnd 0 (sensors s)) ∧
  Steps .mbSensors (fun s => aside s 7) (fun s => sideReply s 7 (sensors s)) ∧
  Idles .mbSensors (fun s => s.deh.restarting = true) ∧
  Steps .mbUnknownCommand (fun s => s.deh.busy = true ∧ s.deh.restarting = false ∧ (s.deh.cmd.1 = 0 ∨ 7 < s.deh.cmd.1))
    (fun s => s.mbEnd 1 []) ∧
  Idles .mbUnknownCommand (fun s => s.deh.busy = false ∨ (1 ≤ s.deh.cmd.1 ∧ s.deh.cmd.1 ≤ 7)) ∧
  turned .mbInfo id 1 0 64 ∧ (∀ n, n ≤ 8388608 → n % 8 = 0 → turned .mbFwload id 2 n 0) ∧ turned .mbOwnerkey id 5 56 0 ∧
  turned .mbAttest count 6 32 4304 ∧ turned .mbSensors id 7 0 32 ∧
  short .mbInfo 1 0 ∧ short .mbFwmark 3 0 ∧ short .mbRestart 4 0 ∧ short .mbOwnerkey 5 56 ∧ short .mbSensors 7 0 ∧
  off .mbFwload 2 ∧ off .mbFwmark 3 ∧ off .mbRestart 4 ∧ off .mbOwnerkey 5

/-! ### Decoding, fetching and the checks at issue -/

/-- A word's fields are found where the spec puts them (R267 to R271 and the entries' encodings): a few words written out from the
spec, in the form of a lane or of the front thread, with the instruction each stands for; words that are none are refused. -/
def Obligations.DecodeWords : Prop :=
  let h : Hdr := ⟨false, 0, false, 0, 0, false⟩
  decodeWords false 0x0000001050607100 0 = .ok (.and h 5 6 7 true) ∧
  decodeWords false 0x10710440A0B00FFD 0 = .ok (.iaddImm ⟨false, 0, true, 7, 2, false⟩ 10 11 0xFFD .i32) ∧
  decodeWords false 0x000008314283C250 0 = .ok (.ffma h 20 40 60 80 .f32) ∧
  decodeWords false 0x000001E050000000 0x12345678 = .ok (.movi h 5 0x12345678) ∧
  decodeWords false 0x0000100050607015 0 = .ok (.shfl h 5 6 7 .xor 5) ∧
  decodeWords false 0x8000180000000000 0xFFFFFFE8 = .ok (.bra ⟨true, 0, false, 0, 0, false⟩ 0xFFFFFFE8) ∧
  decodeWords false 0x0000187010100103 0 = .ok (.rep 3 1 1 0 1) ∧
  decodeWords false 0x0000202054903010 0 = .ok (.ld h .b32 false (some 4) 5 1 3 16) ∧
  decodeWords false 0x000001F050607100 0 = .error .unassigned ∧
  decodeWords false 0x80002860C0102000 0 = .ok (.ccoit ⟨true, 0, false, 0, 0, false⟩ false 12 1 2) ∧
  decodeWords false 0x000031002000100C 0 = .ok (.mma h 2 0 1 12) ∧
  decodeWords false 0x0000381040A0D002 0x201 = .ok (.nsubSpec h 4 10 13 2 1 2) ∧
  decodeWords true 0x00003C0000405000 0 = .ok (.dqpush h 4 5) ∧ decodeWords false 0x00003C0000405000 0 = .error .notWellFormed ∧
  decodeWords false 0 0 = .error .unassigned ∧ decodeWords false 0x0000001050607200 0 = .error .reservedField

/-- Decoding and encoding agree: the words of every instruction that the encodings admit, in the form of a lane or of the front
thread, decode to it, with every operand at every value (R267 to R271, R273 and each entry's encoding). -/
def Obligations.DecodeOfEncode : Prop :=
  ∀ (front : Bool) (i : Instr), i.wf front = true →
    ∃ w rest, encode i = w :: rest ∧ decodeWords front w (rest.headD 0) = .ok i ∧
      rest.length = (if twoWords (Fields.ofWord w).op then 1 else 0) ∧ decodeBytes front (encodeBytes i) = .ok (i, [])

/-- A step runs the decoded instruction: where the schedule's next choice is to issue on a pipe whose open run is neither at its
forced end nor inside a REP nor behind an acquire of its pack, nothing of its group or pipe has issued in this core cycle, and the
bytes at the run's PC, on a page that the fetch reads at its L3 home, decode to `i` and fit in the run's 24 words (R267, R271, R274),
the step is `exec i` of that state with the choice taken, the run first among the open runs, its words and its first cycle counted,
and its issue noted for the cycle. Where the fetched word is already at hand in the instruction path, the same holds of that word;
where the run would pass 24 words or is at its forced end, it ends and nothing issues (R73, R274). The model's choices: the forced end
is 255 core cycles after the cycle in which the run first issues (log entry 13); where its group or pipe, or one that comes after it,
has issued in this cycle, the next core cycle begins first (log entry 142, for R72 and R149); and the pack whose acquire has not its
value fetches nothing (log entry 128, for R418). -/
def Obligations.StepRunsDecoded : Prop :=
  ∀ (s : State) (c p : Nat) (t : List Choice) (x : Ctx),
    let u := State.rotate { s with schedule := t } c p
    let pc := x.pc
    let go := fun (v : State) (n : Nat) =>
      (v.setRun (Run.begun { x.run with rep := none, words := x.run.words + n } s.time)).noteIssue x.run.core (x.gp.place x.run.team)
    s.schedule = .issue c p :: t → s.pipeBusy c p = true → u.issuer? = some x →
      (u.mustWait x.run = true →
        let v := State.ticks (2 - s.time % 2) { s with schedule := t }
        step s = if v.pipeBusy c p then (v.rotate c p).issueHead else .next v) ∧
      (u.mustWait x.run = false → u.forcedDue x.run = true → step s = .next (u.forceEnd x.run.core x.run.pipe)) ∧
      (u.mustWait x.run = false → u.forcedDue x.run = false → (∃ l ∈ x.run.lanes, u.acqPending x l = true) →
        step s = .next (u.fetchStop x pc (.wait (.laneOps u.nextId)))) ∧
      (u.mustWait x.run = false → u.forcedDue x.run = false → (∀ l ∈ x.run.lanes, u.acqPending x l = false) →
        (x.lane (low x.run.lanes)).rep = none →
        (∀ (e : TlbE) (i : Instr) (rest : List Byte),
          let n := (16 - rest.length) / 8 + (match i with | .rep .. => 1 | _ => 0)
          (∀ a ∈ [pc.toNat, (pc + 8).toNat], u.xlate x.tm.core x.tm.id.asid a 3 x.gp.sup = .ok e ∧
            u.physCheck x.tm.core 3 (e.phys a) 8 x.gp.sup = none ∧ regionOf (e.phys a) = .dram ∧ u.poisoned (e.phys a) 8 = false ∧
            u.homeOpen (dieOf x.tm.core) (e.phys a) e.alloc = true) →
          e.alloc < 2 → e.phys (pc + 8).toNat = e.phys pc.toNat + 8 →
          decodeBytes x.gp.front (u.mem.readN (e.phys pc.toNat) 16) = .ok (i, rest) → x.run.words + n ≤ 24 →
            step s = exec i (go u n)) ∧
        (∀ w s1, u.fetchWord x.tm x.gp pc = .ok w s1 →
          let op := (Fields.ofWord w).op
          (twoWords op = false → ∀ i, decodeWords x.gp.front w 0 = .ok i →
            let n := if op = 0x187 then 2 else 1
            (x.run.words + n ≤ 24 → step s = exec i (go s1 n)) ∧
            (24 < x.run.words + n → step s = .next (s1.endRun x))) ∧
          (twoWords op = true → ∀ w2 s2 i, s1.fetchWord x.tm x.gp (pc + 8) = .ok w2 s2 → decodeWords x.gp.front w w2 = .ok i →
            (x.run.words + 2 ≤ 24 → step s = exec i (go s2 2)) ∧
            (24 < x.run.words + 2 → step s = .next (s1.endRun x))) ∧
          (twoWords op = false → op ≠ 0x187 → ∀ e, decodeWords x.gp.front w 0 = .error e → x.run.words + 1 ≤ 24 →
            step s = .next (s1.illegalPack { x.run with rep := none, words := x.run.words + 1 } pc))))

/-- The checks at issue in their order (R272, R273, R50, R57, R61): an illegal word traps the whole pack before its guard is
looked at; so does a guard register outside the block; an instruction whose guard passes in no lane sends every lane on and does
nothing else; a register of the active lanes outside the block traps the active lanes; one with a write pending stalls the pack
where it is; a crew instruction of a speculative group parks the whole pack, its guarded-off lanes too, until the verdict (R61, R223). Instructions for the supervisor alone are illegal at user level, and those of R235 in a handler. -/
def Obligations.IssueChecks : Prop :=
  (∀ (i : Instr) (s : State) (x : Ctx), deviceStep i = false → s.issuer? = some x → x.run.lanes ≠ [] → x.run.lanes.Nodup →
    (∀ l ∈ x.run.lanes, l < x.gp.lanes.length) →
    let rep := x.run.rep.map (·.ix)
    let trap := fun (lanes : List Nat) (cause : Nat) =>
      ((s.settle x [] (fun l z => if lanes.contains l then { z with st := .eligible, rep } else passed x i z) x.gp.fences
        (s.runs.filter fun r => !(r.team == x.run.team && r.grp == x.run.grp))).takeTrap x.run.team x.run.grp
          (lanes.map fun l => (l, cause)) x.run.lanes (x.run.rep.map fun c => (x.pc, c.ix)))
    let legal := illegalNow s x i = false
    let inside := guardOut x i = false ∧ guardLock x i = false
    let regs := (i.roles x.front).rd ++ (i.roles x.front).wr
    (illegalNow s x i = true → exec i s = .next (trap x.run.lanes 0x01)) ∧
    (legal → guardOut x i = true → exec i s = .next (trap x.run.lanes 0x02)) ∧
    (legal → inside → activeOf x i = [] → (i.roles x.front).crewI = false →
      ∃ fs rs, RunsLeft s rs ∧ (∀ q ∈ fs, q ∈ x.gp.fences) ∧ exec i s = .next (s.settle x [] (fun _ z => passed x i z) fs rs)) ∧
    (legal → inside → activeOf x i ≠ [] → (∃ r ∈ regs, x.gp.useOk r = false) → exec i s = .next (trap (activeOf x i) 0x02)) ∧
    (legal → (guardOut x i = false ∧ guardLock x i = true ∨
        inside ∧ activeOf x i ≠ [] ∧ (∀ r ∈ regs, x.gp.useOk r = true) ∧ interlock x i (activeOf x i) = true) →
      exec i s = .next (s.settle x x.run.lanes (fun _ z => { z with st := .eligible, rep }) x.gp.fences
        (s.runs.filter fun r => !(r.team == x.run.team && r.grp == x.run.grp)))) ∧
    (legal → inside → (i.roles x.front).crewI = true → (i.roles x.front).specWait = true → x.gp.crew.valid = true → x.gp.spec = true →
      (activeOf x i = [] ∨ ∀ r ∈ regs, x.gp.useOk r = true) → interlock x i (activeOf x i) = false →
      exec i s = .next (s.settle x x.run.lanes (fun _ z => parked x .verdict z) x.gp.fences
        (s.runs.filter fun r => !(r.team == x.run.team && r.grp == x.run.grp))))) ∧
  (∀ (s : State) (x : Ctx) (h : Hdr) (d a b : BitVec 8), x.gp.sup = false →
    ∀ i ∈ [Instr.tlbinv h a b, .nrtw h a b, .csrr h d 0x048, .csrw h a 0x048], illegalNow s x i = true) ∧
  ∀ (s : State) (x : Ctx) (h : Hdr) (d a b : BitVec 8) (m n n' : BitVec 4) (k k' w : BitVec 5) (o o' cur sc : BitVec 3) (imm : BitVec 12)
    (f : Bool),
    x.gp.es.inh = true →
    ∀ i ∈ [Instr.barv h m, .bwait h m, .clbar h, .dqpop h d b k, .dqpush h a b, .xacq h, .evsig h d cur sc b imm,
        .evwait h d cur sc b imm, .exit h, .nsub h w a b n, .nsubWarm h a b, .nsubSpec h w a b n k k', .npub h f w a,
        .launch h d cur b imm, .crewEnd h, .obres h o a b, .obrel h o, .ufcfg h a b, .mma h m o o' d, .mmal h m n n',
        .madd h m n n', .mscl h m n b, .mdense h m n, .mrcmp h m n b, .mzero h m, .mrank h d m, .mld h m cur b imm, .mst h m cur b imm],
      illegalNow s x i = true

/-! ### Reset, and what every step keeps -/

/-- The values that the spec gives for reset (R244 with R17, R69, R70, R71, R82, R99, R106, R107, R112, R134, R137, R205, R216,
R229, R246, R247, R249, R250, R255, R257, R258): time 0, default weights, budgets, limits and leases, no feature accepted, no
queue enabled, no translation, access for the host window alone, empty caches and tables, the standard routines, no team. That the
entries of the ASID table are 0 is the model's choice (log entry 4): the spec gives them no value. -/
def Obligations.ResetValues : Prop :=
  let r := State.reset
  r.time = 0 ∧ r.periods = 0 ∧ r.l3 = [] ∧ r.l3Granted = [] ∧ r.poison = [] ∧ r.teams = [] ∧ r.runs = [] ∧ r.packets = [] ∧
  r.hostq = [] ∧ r.paid = [] ∧ r.lu.walked = [] ∧ r.lu.seqs = [] ∧ r.fq.late = [] ∧
  r.ops = [] ∧ r.misses = [] ∧ r.outst = [] ∧ r.saved = [] ∧ r.asidCache = [] ∧ r.walkCache = [] ∧ r.spent = [] ∧ r.claimed = [] ∧
  (∀ k < 8, (r.regs.enweight.extractLsb' (8 * k) 8).toNat = 8 * (k + 1)) ∧
  r.regs.budget = [128, 64, 256, 512, 1024, 512, 256] ∧ r.regs.budgetNext = r.regs.budget ∧ r.regs.budgetErr = 0 ∧
  r.regs.l1lease = 512 ∧ r.regs.l2lease = 2048 ∧ r.regs.shvec = 0 ∧ r.regs.featacc = 0 ∧ r.regs.featlock = false ∧
  r.regs.dramBusy = [] ∧
  (∀ a, r.asidTab.getD a 0 = 0) ∧
  (∀ t m w, ¬ (m = 528 ∧ w = 0) → m < 529 → w < 4 → r.accWord t m w 0 = 0 ∧ r.accWord t m w 1 = 0) ∧
  (∀ t, r.accWord t 528 0 0 = 0x1F ∧ r.accWord t 528 0 1 = 0xFFFF_FFFF_0000) ∧
  (∀ q, let z := r.lu.hq.getD q HQ.reset
    z.base = 0 ∧ z.asid = 0 ∧ z.size = 0 ∧ z.prio = 0 ∧ z.en = false ∧ z.err = false ∧ z.head = 0 ∧ z.tail = 0) ∧
  r.lu.dlqEn = false ∧ r.lu.dlqBase = 0 ∧ r.lu.dlqAppended = 0 ∧ r.lu.launches = [] ∧
  r.fq.base = 0 ∧ r.fq.size = 0 ∧ r.fq.head = 0 ∧ r.fq.tail = 0 ∧ r.fq.wait = [] ∧
  (∀ k < 7, (r.routines.getD k Routine.empty).standard = true) ∧
  (∀ k, 7 ≤ k → (r.routines.getD k Routine.empty).standard = false) ∧
  (∀ c, (r.core c).limit = 400 ∧ (r.core c).privsz = 0x0080_0000 ∧ (r.core c).pre = 0 ∧ (r.core c).quiet = false ∧
    (r.core c).retire = false ∧ (r.core c).eccCorr = 0 ∧ (r.core c).eccUncorr = 0 ∧ (r.core c).l1 = [] ∧ (r.core c).mdc = [] ∧
    (r.core c).ipath = [] ∧ (r.core c).lrc = [] ∧ (r.core c).tlb = [] ∧
    (r.core c).locks = [] ∧ (r.core c).crews = [] ∧ (r.core c).copies = [] ∧ (r.core c).engine = [] ∧ (r.core c).kept = [] ∧ (r.core c).scalarQ = []) ∧
  (∀ d, (r.die d).rbEn = true ∧ (r.die d).rbThresh = 0x10000 ∧ (r.die d).move = none ∧ (r.die d).cocoon = 0 ∧
    (∀ b < 4096, (r.die d).sliceOfBucket b = b % 64) ∧ (r.die d).l2 = [] ∧ (r.die d).l2tlb = [] ∧ (r.die d).granted = [] ∧
    (r.die d).qBase = 0 ∧ (r.die d).qSize = 32 ∧ (r.die d).qFull = false) ∧
  (∀ n, (r.router n).pit = [] ∧ (r.router n).nrt = [] ∧ (r.router n).cocoon = []) ∧
  (∀ p, (r.port p).ovBase = 0 ∧ (r.port p).ovSize = 32 ∧ (r.port p).down = false ∧ (r.port p).ovfull = false) ∧
  (∀ k, r.links.apertures.getD k 0 = 0)

/-- The memory after reset is in its canonical form and lists nothing: DRAM reads as zero there, which is the model's own choice
(log entry 1), since R244 leaves DRAM's contents open. -/
def Obligations.ResetInvariant : Prop := State.reset.Inv ∧ State.reset.mem = [] ∧ ∀ a, State.reset.mem.read a = 0

/-- Every step keeps the memory in its canonical form: equal memories are equal data (log entry 1). -/
def Obligations.StepKeepsMemory : Prop := ∀ s s' : State, s.Inv → step s = .next s' → s'.Inv
end

