-- ==== Sys2Proof/Laws/Decode.lean ====
section
/-! SUPPORT. Laws/Decode.lean: reading the fields of a word undoes writing them. -/
namespace Sys2Proof

/-- The fields of a word made of fields are those fields (R267). -/
theorem Fields.ofWord_toWord (f : Fields) : Fields.ofWord f.toWord = f := by
  obtain ⟨⟨e, h, ge, gr, gb, gn⟩, op, d, a, b, c⟩ := f
  simp only [Fields.ofWord, Fields.toWord, Fields.mk.injEq, Hdr.mk.injEq]
  refine ⟨⟨?_, ?_, ?_, ?_, ?_, ?_⟩, ?_, ?_, ?_, ?_, ?_⟩
  case refine_1 | refine_3 | refine_6 =>
    simp only [BitVec.getLsbD_append]
    repeat first | rw [if_pos (by omega)] | rw [if_neg (by omega)]
    simp
  all_goals
    apply BitVec.eq_of_getLsbD_eq
    intro i hi
    simp only [BitVec.getLsbD_extractLsb', BitVec.getLsbD_append, hi, decide_true, Bool.true_and]
    repeat first | rw [if_pos (by omega)] | rw [if_neg (by omega)]
    congr 1
    omega

end Sys2Proof
end

