-- ==== Sys2Proof/Laws/Tab.lean ====
section
/-! SUPPORT. Laws/Tab.lean: lookups after updates of tables and lists, and the canonical form of byte memory. -/
namespace Sys2Proof

/-! ### Tables -/

@[simp] theorem Tab.get?_set_self {α : Type} (t : Tab α) (k : Nat) (v : α) : Tab.get? (Tab.set t k v) k = some v := by
  induction t with
  | nil => simp [Tab.set, Tab.get?]
  | cons p t ih => obtain ⟨j, w⟩ := p; by_cases h : j = k <;> simp [Tab.set, Tab.get?, h, ih]

theorem Tab.get?_set_ne {α : Type} (t : Tab α) {k j : Nat} (v : α) (h : j ≠ k) :
    Tab.get? (Tab.set t k v) j = Tab.get? t j := by
  induction t with
  | nil => simp [Tab.set, Tab.get?, Ne.symm h]
  | cons p t ih =>
    obtain ⟨i, w⟩ := p
    by_cases h1 : i = k <;> simp [Tab.set, Tab.get?, h1, ih, Ne.symm h]

/-- Values changed place by place: a lookup gives the changed value. -/
theorem Tab.get?_map {α β : Type} (f : Nat → α → β) (t : Tab α) (k : Nat) :
    Tab.get? (t.map fun p => (p.1, f p.1 p.2)) k = (Tab.get? t k).map (f k) := by
  induction t with
  | nil => rfl
  | cons p t ih => simp only [List.map_cons, Tab.get?]; split <;> simp_all

@[simp] theorem Tab.set_set {α : Type} (t : Tab α) (k : Nat) (v w : α) : Tab.set (Tab.set t k v) k w = Tab.set t k w := by
  induction t with
  | nil => simp [Tab.set]
  | cons p t ih => obtain ⟨j, u⟩ := p; by_cases h : j = k <;> simp [Tab.set, h, ih]

theorem Tab.set_get? {α : Type} (t : Tab α) (k : Nat) (v : α) (h : Tab.get? t k = some v) : Tab.set t k v = t := by
  induction t with
  | nil => simp [Tab.get?] at h
  | cons p t ih =>
    obtain ⟨j, u⟩ := p
    by_cases h1 : j = k
    · subst h1; simp_all [Tab.get?, Tab.set]
    · simp_all [Tab.get?, Tab.set]

@[simp] theorem Tab.getD_set_self {α : Type} (t : Tab α) (k : Nat) (v d : α) : Tab.getD (Tab.set t k v) k d = v := by
  simp [Tab.getD]

theorem Tab.getD_set_ne {α : Type} (t : Tab α) {k j : Nat} (v d : α) (h : j ≠ k) :
    Tab.getD (Tab.set t k v) j d = Tab.getD t j d := by simp [Tab.getD, Tab.get?_set_ne t v h]

/-! ### Lists updated at an index -/

@[simp] theorem listUpd_length {α : Type} (l : List α) (n : Nat) (f : α → α) : (listUpd l n f).length = l.length := by
  induction l generalizing n with
  | nil => rfl
  | cons a t ih => cases n <;> simp [listUpd, ih]

theorem listUpd_get {α : Type} (l : List α) (n k : Nat) (f : α → α) :
    (listUpd l n f)[k]? = if k = n then (l[k]?).map f else l[k]? := by
  induction l generalizing n k with
  | nil => simp [listUpd]
  | cons a t ih =>
    cases n <;> cases k <;> simp [listUpd, ih]

/-! ### Byte memory -/

/-- A byte below the first listed address reads as unlisted. -/
theorem Mem.read_below : ∀ (m : Mem) (lo a : Nat), Mem.wfFrom lo m = true → a < lo → Mem.read m a = 0
  | [], _, _, _, _ => rfl
  | (j, b) :: t, lo, a, h, hl => by
    simp [Mem.wfFrom] at h
    have h1 : a ≠ j := by omega
    have h2 : a < j := by omega
    simp [Mem.read, h1, h2]

theorem Mem.wfFrom_mono : ∀ (m : Mem) (lo lo' : Nat), lo' ≤ lo → Mem.wfFrom lo m = true → Mem.wfFrom lo' m = true
  | [], _, _, _, _ => rfl
  | (j, b) :: t, lo, lo', hl, h => by simp [Mem.wfFrom] at h ⊢; exact ⟨⟨by omega, h.1.2⟩, h.2⟩

theorem Mem.write_wfFrom : ∀ (m : Mem) (lo a : Nat) (v : BitVec 8), lo ≤ a → Mem.wfFrom lo m = true →
    Mem.wfFrom lo (Mem.write m a v) = true
  | [], lo, a, v, hl, _ => by
    by_cases h : v = 0#8 <;> simp [Mem.write, Mem.wfFrom, h, hl]
  | (j, b) :: t, lo, a, v, hl, h => by
    simp [Mem.wfFrom] at h
    obtain ⟨⟨h1, h2⟩, h3⟩ := h
    unfold Mem.write
    split
    · next e =>
      split
      · exact Mem.wfFrom_mono t (j + 1) lo (by omega) h3
      · next hv => subst e; simp [Mem.wfFrom, hl, h3]; exact hv
    · split
      · split
        · simp [Mem.wfFrom, h1, h2, h3]
        · next hv => simp [Mem.wfFrom, hl, h2, h3]; exact ⟨hv, by omega⟩
      · have := Mem.write_wfFrom t (j + 1) a v (by omega) h3
        simp [Mem.wfFrom, h1, h2, this]

/-- A byte written keeps the canonical form. -/
theorem Mem.write_wf (m : Mem) (a : Nat) (v : BitVec 8) (h : m.wf = true) : (m.write a v).wf = true :=
  Mem.write_wfFrom m 0 a v (Nat.zero_le _) h

/-- Bytes written keep the canonical form. -/
theorem Mem.writeN_wf (m : Mem) (a : Nat) (bs : List (BitVec 8)) (h : m.wf = true) : (m.writeN a bs).wf = true := by
  induction bs generalizing m a with
  | nil => exact h
  | cons b t ih => exact ih _ _ (Mem.write_wf m a b h)

/-- A byte reads as it was written, and every other byte as before. -/
theorem Mem.read_write (m : Mem) (a k : Nat) (v : BitVec 8) (h : m.wf = true) :
    (m.write a v).read k = if k = a then v else m.read k := by
  suffices ∀ (m : Mem) (lo : Nat), Mem.wfFrom lo m = true → (Mem.write m a v).read k = if k = a then v else Mem.read m k
    from this m 0 h
  intro m
  induction m with
  | nil =>
    intro lo _
    by_cases hv : v = 0#8 <;> by_cases hk : k = a <;> simp [Mem.write, Mem.read, hv, hk]
  | cons p t ih =>
    obtain ⟨j, b⟩ := p
    intro lo hw
    simp [Mem.wfFrom] at hw
    obtain ⟨⟨_, _⟩, h3⟩ := hw
    unfold Mem.write
    split
    · next e =>
      subst e
      split
      · next hv =>
        by_cases hk : k = a
        · subst hk; simp [hv, Mem.read_below t (k + 1) k h3 (by omega)]
        · simp only [hk, if_false, Mem.read]
          split
          · next hlt => exact Mem.read_below t (a + 1) k h3 (by omega)
          · rfl
      · by_cases hk : k = a <;> simp [Mem.read, hk]
    · next hne =>
      split
      · next hlt =>
        split
        · next hv =>
          by_cases hk : k = a
          · subst hk; simp [Mem.read, hne, hlt, hv]
          · simp [hk]
        · by_cases hk : k = a
          · simp [Mem.read, hk]
          · by_cases hk2 : k < a
            · have h1 : k ≠ j := by omega
              have h2 : k < j := by omega
              simp [Mem.read, hk, hk2, h1, h2]
            · simp [Mem.read, hk, hk2]
      · next hge =>
        by_cases hk : k = j
        · have hka : k ≠ a := by omega
          simp [Mem.read, hk]; intro e; omega
        · by_cases hkl : k < j
          · have hka : k ≠ a := by omega
            simp [Mem.read, hk, hkl, hka]
          · simp [Mem.read, hk, hkl, ih (j + 1) h3]

/-- Two pieces in the canonical form, the second beginning above the first. -/
theorem Mem.wfFrom_append (m k : Mem) (lo b : Nat) (h1 : Mem.wfFrom lo m = true) (h2 : ∀ p ∈ m, p.1 < b)
    (h3 : Mem.wfFrom b k = true) (hl : lo ≤ b) : Mem.wfFrom lo (m ++ k) = true := by
  induction m generalizing lo with
  | nil => exact Mem.wfFrom_mono k b lo hl h3
  | cons p t ih =>
    simp [Mem.wfFrom] at h1 ⊢
    have hb := h2 p (by simp)
    exact ⟨h1.1, ih (p.1 + 1) h1.2 (fun q hq => h2 q (by simp [hq])) (by omega)⟩

theorem Mem.wfFrom_lower (m : Mem) (lo : Nat) (h : Mem.wfFrom lo m = true) : ∀ p ∈ m, lo ≤ p.1 := by
  induction m generalizing lo with
  | nil => simp
  | cons p t ih =>
    simp [Mem.wfFrom] at h
    intro q hq
    rcases List.mem_cons.mp hq with rfl | hq
    · exact h.1.1
    · have := ih _ h.2 q hq; omega

theorem Mem.wfFrom_filter (m : Mem) (lo : Nat) (f : Nat × BitVec 8 → Bool) (h : Mem.wfFrom lo m = true) :
    Mem.wfFrom lo (m.filter f) = true := by
  induction m generalizing lo with
  | nil => rfl
  | cons p t ih =>
    simp [Mem.wfFrom] at h
    have := ih _ h.2
    rw [List.filter_cons]
    split
    · simp [Mem.wfFrom, h.1, this]
    · exact Mem.wfFrom_mono _ _ _ (by omega) this

theorem Mem.wfFrom_above (m : Mem) (lo b : Nat) (h : Mem.wfFrom lo m = true) :
    Mem.wfFrom b (m.filter fun p => b ≤ p.1) = true := by
  induction m generalizing lo with
  | nil => rfl
  | cons p t ih =>
    simp [Mem.wfFrom] at h
    rw [List.filter_cons]
    split
    · next hb =>
      simp at hb
      have : Mem.wfFrom (p.1 + 1) (t.filter fun p => b ≤ p.1) = true := Mem.wfFrom_filter t _ _ h.2
      simp [Mem.wfFrom, hb, h.1.2, this]
    · exact ih _ h.2

/-- An interval removed keeps the canonical form. -/
theorem Mem.clear_wf (m : Mem) (a n : Nat) (h : m.wf = true) : (m.clear a n).wf = true := Mem.wfFrom_filter m 0 _ h

/-- An interval filled keeps the canonical form. -/
theorem Mem.fill_wf (m : Mem) (a n : Nat) (f : Nat → BitVec 8) (h : m.wf = true) : (m.fill a n f).wf = true := by
  have hlow : ∀ p ∈ m.filter (fun p => decide (p.1 < a)), p.1 < a := by simp
  have hmid : ∀ k, Mem.wfFrom a ((List.range k).filterMap fun i => if f i = 0 then none else some (a + i, f i)) = true := by
    intro k
    induction k with
    | zero => rfl
    | succ k ih =>
      rw [List.range_succ, List.filterMap_append]
      refine Mem.wfFrom_append _ _ a (a + k) ih ?_ ?_ (by omega)
      · intro p hp
        obtain ⟨i, hi, e⟩ := List.mem_filterMap.mp hp
        split at e
        · cases e
        · cases e; have := List.mem_range.mp hi; simp; omega
      · by_cases hk : f k = 0#8 <;> simp [Mem.wfFrom, hk]
  have hup : ∀ p ∈ (List.range n).filterMap (fun i => if f i = 0 then none else some (a + i, f i)), p.1 < a + n := by
    intro p hp
    obtain ⟨i, hi, e⟩ := List.mem_filterMap.mp hp
    split at e
    · cases e
    · cases e; have := List.mem_range.mp hi; simp; omega
  unfold Mem.fill Mem.wf
  refine Mem.wfFrom_append _ _ 0 (a + n) (Mem.wfFrom_append _ _ 0 a (Mem.wfFrom_filter m 0 _ h) hlow (hmid n) (by omega)) ?_
    (Mem.wfFrom_above m 0 (a + n) h) (by omega)
  intro p hp
  rcases List.mem_append.mp hp with hp | hp
  · have := hlow p hp; omega
  · exact hup p hp

end Sys2Proof
end

