-- ==== Sys2Proof/Laws/State.lean ====
section
/-! SUPPORT. Laws/State.lean: what each named update of the state leaves alone, one lemma per update and field, so that no
proof unfolds a record update; and what the updates of a group do to it. -/
namespace Sys2Proof.Machine
open Sys2Proof

/-! ### State.modCore -/

@[simp] theorem State.modCore_time (s : State) (c : Nat) (f : Core → Core) : (s.modCore c f).time = s.time := rfl
@[simp] theorem State.modCore_mem (s : State) (c : Nat) (f : Core → Core) : (s.modCore c f).mem = s.mem := rfl
@[simp] theorem State.modCore_l3 (s : State) (c : Nat) (f : Core → Core) : (s.modCore c f).l3 = s.l3 := rfl
@[simp] theorem State.modCore_l3Granted (s : State) (c : Nat) (f : Core → Core) : (s.modCore c f).l3Granted = s.l3Granted := rfl
@[simp] theorem State.modCore_poison (s : State) (c : Nat) (f : Core → Core) : (s.modCore c f).poison = s.poison := rfl
@[simp] theorem State.modCore_regs (s : State) (c : Nat) (f : Core → Core) : (s.modCore c f).regs = s.regs := rfl
@[simp] theorem State.modCore_asidTab (s : State) (c : Nat) (f : Core → Core) : (s.modCore c f).asidTab = s.asidTab := rfl
@[simp] theorem State.modCore_asidCache (s : State) (c : Nat) (f : Core → Core) : (s.modCore c f).asidCache = s.asidCache := rfl
@[simp] theorem State.modCore_walkCache (s : State) (c : Nat) (f : Core → Core) : (s.modCore c f).walkCache = s.walkCache := rfl
@[simp] theorem State.modCore_spent (s : State) (c : Nat) (f : Core → Core) : (s.modCore c f).spent = s.spent := rfl
@[simp] theorem State.modCore_paid (s : State) (c : Nat) (f : Core → Core) : (s.modCore c f).paid = s.paid := rfl
@[simp] theorem State.modCore_claimed (s : State) (c : Nat) (f : Core → Core) : (s.modCore c f).claimed = s.claimed := rfl
@[simp] theorem State.modCore_acc (s : State) (c : Nat) (f : Core → Core) : (s.modCore c f).acc = s.acc := rfl
@[simp] theorem State.modCore_lu (s : State) (c : Nat) (f : Core → Core) : (s.modCore c f).lu = s.lu := rfl
@[simp] theorem State.modCore_fq (s : State) (c : Nat) (f : Core → Core) : (s.modCore c f).fq = s.fq := rfl
@[simp] theorem State.modCore_routines (s : State) (c : Nat) (f : Core → Core) : (s.modCore c f).routines = s.routines := rfl
@[simp] theorem State.modCore_deh (s : State) (c : Nat) (f : Core → Core) : (s.modCore c f).deh = s.deh := rfl
@[simp] theorem State.modCore_links (s : State) (c : Nat) (f : Core → Core) : (s.modCore c f).links = s.links := rfl
@[simp] theorem State.modCore_dies (s : State) (c : Nat) (f : Core → Core) : (s.modCore c f).dies = s.dies := rfl
@[simp] theorem State.modCore_teams (s : State) (c : Nat) (f : Core → Core) : (s.modCore c f).teams = s.teams := rfl
@[simp] theorem State.modCore_routers (s : State) (c : Nat) (f : Core → Core) : (s.modCore c f).routers = s.routers := rfl
@[simp] theorem State.modCore_packets (s : State) (c : Nat) (f : Core → Core) : (s.modCore c f).packets = s.packets := rfl
@[simp] theorem State.modCore_ops (s : State) (c : Nat) (f : Core → Core) : (s.modCore c f).ops = s.ops := rfl
@[simp] theorem State.modCore_misses (s : State) (c : Nat) (f : Core → Core) : (s.modCore c f).misses = s.misses := rfl
@[simp] theorem State.modCore_outst (s : State) (c : Nat) (f : Core → Core) : (s.modCore c f).outst = s.outst := rfl
@[simp] theorem State.modCore_saved (s : State) (c : Nat) (f : Core → Core) : (s.modCore c f).saved = s.saved := rfl
@[simp] theorem State.modCore_hostq (s : State) (c : Nat) (f : Core → Core) : (s.modCore c f).hostq = s.hostq := rfl
@[simp] theorem State.modCore_out (s : State) (c : Nat) (f : Core → Core) : (s.modCore c f).out = s.out := rfl
@[simp] theorem State.modCore_runs (s : State) (c : Nat) (f : Core → Core) : (s.modCore c f).runs = s.runs := rfl
@[simp] theorem State.modCore_schedule (s : State) (c : Nat) (f : Core → Core) : (s.modCore c f).schedule = s.schedule := rfl
@[simp] theorem State.modCore_nextId (s : State) (c : Nat) (f : Core → Core) : (s.modCore c f).nextId = s.nextId := rfl
@[simp] theorem State.modCore_freeCtr (s : State) (c : Nat) (f : Core → Core) : (s.modCore c f).freeCtr = s.freeCtr := rfl
@[simp] theorem State.modCore_periods (s : State) (c : Nat) (f : Core → Core) : (s.modCore c f).periods = s.periods := rfl

/-! ### State.modDie -/

@[simp] theorem State.modDie_time (s : State) (d : Nat) (f : Die → Die) : (s.modDie d f).time = s.time := rfl
@[simp] theorem State.modDie_mem (s : State) (d : Nat) (f : Die → Die) : (s.modDie d f).mem = s.mem := rfl
@[simp] theorem State.modDie_l3 (s : State) (d : Nat) (f : Die → Die) : (s.modDie d f).l3 = s.l3 := rfl
@[simp] theorem State.modDie_l3Granted (s : State) (d : Nat) (f : Die → Die) : (s.modDie d f).l3Granted = s.l3Granted := rfl
@[simp] theorem State.modDie_poison (s : State) (d : Nat) (f : Die → Die) : (s.modDie d f).poison = s.poison := rfl
@[simp] theorem State.modDie_regs (s : State) (d : Nat) (f : Die → Die) : (s.modDie d f).regs = s.regs := rfl
@[simp] theorem State.modDie_asidTab (s : State) (d : Nat) (f : Die → Die) : (s.modDie d f).asidTab = s.asidTab := rfl
@[simp] theorem State.modDie_asidCache (s : State) (d : Nat) (f : Die → Die) : (s.modDie d f).asidCache = s.asidCache := rfl
@[simp] theorem State.modDie_walkCache (s : State) (d : Nat) (f : Die → Die) : (s.modDie d f).walkCache = s.walkCache := rfl
@[simp] theorem State.modDie_spent (s : State) (d : Nat) (f : Die → Die) : (s.modDie d f).spent = s.spent := rfl
@[simp] theorem State.modDie_paid (s : State) (d : Nat) (f : Die → Die) : (s.modDie d f).paid = s.paid := rfl
@[simp] theorem State.modDie_claimed (s : State) (d : Nat) (f : Die → Die) : (s.modDie d f).claimed = s.claimed := rfl
@[simp] theorem State.modDie_acc (s : State) (d : Nat) (f : Die → Die) : (s.modDie d f).acc = s.acc := rfl
@[simp] theorem State.modDie_lu (s : State) (d : Nat) (f : Die → Die) : (s.modDie d f).lu = s.lu := rfl
@[simp] theorem State.modDie_fq (s : State) (d : Nat) (f : Die → Die) : (s.modDie d f).fq = s.fq := rfl
@[simp] theorem State.modDie_routines (s : State) (d : Nat) (f : Die → Die) : (s.modDie d f).routines = s.routines := rfl
@[simp] theorem State.modDie_deh (s : State) (d : Nat) (f : Die → Die) : (s.modDie d f).deh = s.deh := rfl
@[simp] theorem State.modDie_links (s : State) (d : Nat) (f : Die → Die) : (s.modDie d f).links = s.links := rfl
@[simp] theorem State.modDie_cores (s : State) (d : Nat) (f : Die → Die) : (s.modDie d f).cores = s.cores := rfl
@[simp] theorem State.modDie_teams (s : State) (d : Nat) (f : Die → Die) : (s.modDie d f).teams = s.teams := rfl
@[simp] theorem State.modDie_routers (s : State) (d : Nat) (f : Die → Die) : (s.modDie d f).routers = s.routers := rfl
@[simp] theorem State.modDie_packets (s : State) (d : Nat) (f : Die → Die) : (s.modDie d f).packets = s.packets := rfl
@[simp] theorem State.modDie_ops (s : State) (d : Nat) (f : Die → Die) : (s.modDie d f).ops = s.ops := rfl
@[simp] theorem State.modDie_misses (s : State) (d : Nat) (f : Die → Die) : (s.modDie d f).misses = s.misses := rfl
@[simp] theorem State.modDie_outst (s : State) (d : Nat) (f : Die → Die) : (s.modDie d f).outst = s.outst := rfl
@[simp] theorem State.modDie_saved (s : State) (d : Nat) (f : Die → Die) : (s.modDie d f).saved = s.saved := rfl
@[simp] theorem State.modDie_hostq (s : State) (d : Nat) (f : Die → Die) : (s.modDie d f).hostq = s.hostq := rfl
@[simp] theorem State.modDie_out (s : State) (d : Nat) (f : Die → Die) : (s.modDie d f).out = s.out := rfl
@[simp] theorem State.modDie_runs (s : State) (d : Nat) (f : Die → Die) : (s.modDie d f).runs = s.runs := rfl
@[simp] theorem State.modDie_schedule (s : State) (d : Nat) (f : Die → Die) : (s.modDie d f).schedule = s.schedule := rfl
@[simp] theorem State.modDie_nextId (s : State) (d : Nat) (f : Die → Die) : (s.modDie d f).nextId = s.nextId := rfl
@[simp] theorem State.modDie_freeCtr (s : State) (d : Nat) (f : Die → Die) : (s.modDie d f).freeCtr = s.freeCtr := rfl
@[simp] theorem State.modDie_periods (s : State) (d : Nat) (f : Die → Die) : (s.modDie d f).periods = s.periods := rfl

/-! ### State.modRouter -/

@[simp] theorem State.modRouter_time (s : State) (r : Nat) (f : Router → Router) : (s.modRouter r f).time = s.time := rfl
@[simp] theorem State.modRouter_mem (s : State) (r : Nat) (f : Router → Router) : (s.modRouter r f).mem = s.mem := rfl
@[simp] theorem State.modRouter_l3 (s : State) (r : Nat) (f : Router → Router) : (s.modRouter r f).l3 = s.l3 := rfl
@[simp] theorem State.modRouter_l3Granted (s : State) (r : Nat) (f : Router → Router) : (s.modRouter r f).l3Granted = s.l3Granted := rfl
@[simp] theorem State.modRouter_poison (s : State) (r : Nat) (f : Router → Router) : (s.modRouter r f).poison = s.poison := rfl
@[simp] theorem State.modRouter_regs (s : State) (r : Nat) (f : Router → Router) : (s.modRouter r f).regs = s.regs := rfl
@[simp] theorem State.modRouter_asidTab (s : State) (r : Nat) (f : Router → Router) : (s.modRouter r f).asidTab = s.asidTab := rfl
@[simp] theorem State.modRouter_asidCache (s : State) (r : Nat) (f : Router → Router) : (s.modRouter r f).asidCache = s.asidCache := rfl
@[simp] theorem State.modRouter_walkCache (s : State) (r : Nat) (f : Router → Router) : (s.modRouter r f).walkCache = s.walkCache := rfl
@[simp] theorem State.modRouter_spent (s : State) (r : Nat) (f : Router → Router) : (s.modRouter r f).spent = s.spent := rfl
@[simp] theorem State.modRouter_paid (s : State) (r : Nat) (f : Router → Router) : (s.modRouter r f).paid = s.paid := rfl
@[simp] theorem State.modRouter_claimed (s : State) (r : Nat) (f : Router → Router) : (s.modRouter r f).claimed = s.claimed := rfl
@[simp] theorem State.modRouter_acc (s : State) (r : Nat) (f : Router → Router) : (s.modRouter r f).acc = s.acc := rfl
@[simp] theorem State.modRouter_lu (s : State) (r : Nat) (f : Router → Router) : (s.modRouter r f).lu = s.lu := rfl
@[simp] theorem State.modRouter_fq (s : State) (r : Nat) (f : Router → Router) : (s.modRouter r f).fq = s.fq := rfl
@[simp] theorem State.modRouter_routines (s : State) (r : Nat) (f : Router → Router) : (s.modRouter r f).routines = s.routines := rfl
@[simp] theorem State.modRouter_deh (s : State) (r : Nat) (f : Router → Router) : (s.modRouter r f).deh = s.deh := rfl
@[simp] theorem State.modRouter_links (s : State) (r : Nat) (f : Router → Router) : (s.modRouter r f).links = s.links := rfl
@[simp] theorem State.modRouter_dies (s : State) (r : Nat) (f : Router → Router) : (s.modRouter r f).dies = s.dies := rfl
@[simp] theorem State.modRouter_cores (s : State) (r : Nat) (f : Router → Router) : (s.modRouter r f).cores = s.cores := rfl
@[simp] theorem State.modRouter_teams (s : State) (r : Nat) (f : Router → Router) : (s.modRouter r f).teams = s.teams := rfl
@[simp] theorem State.modRouter_packets (s : State) (r : Nat) (f : Router → Router) : (s.modRouter r f).packets = s.packets := rfl
@[simp] theorem State.modRouter_ops (s : State) (r : Nat) (f : Router → Router) : (s.modRouter r f).ops = s.ops := rfl
@[simp] theorem State.modRouter_misses (s : State) (r : Nat) (f : Router → Router) : (s.modRouter r f).misses = s.misses := rfl
@[simp] theorem State.modRouter_outst (s : State) (r : Nat) (f : Router → Router) : (s.modRouter r f).outst = s.outst := rfl
@[simp] theorem State.modRouter_saved (s : State) (r : Nat) (f : Router → Router) : (s.modRouter r f).saved = s.saved := rfl
@[simp] theorem State.modRouter_hostq (s : State) (r : Nat) (f : Router → Router) : (s.modRouter r f).hostq = s.hostq := rfl
@[simp] theorem State.modRouter_out (s : State) (r : Nat) (f : Router → Router) : (s.modRouter r f).out = s.out := rfl
@[simp] theorem State.modRouter_runs (s : State) (r : Nat) (f : Router → Router) : (s.modRouter r f).runs = s.runs := rfl
@[simp] theorem State.modRouter_schedule (s : State) (r : Nat) (f : Router → Router) : (s.modRouter r f).schedule = s.schedule := rfl
@[simp] theorem State.modRouter_nextId (s : State) (r : Nat) (f : Router → Router) : (s.modRouter r f).nextId = s.nextId := rfl
@[simp] theorem State.modRouter_freeCtr (s : State) (r : Nat) (f : Router → Router) : (s.modRouter r f).freeCtr = s.freeCtr := rfl
@[simp] theorem State.modRouter_periods (s : State) (r : Nat) (f : Router → Router) : (s.modRouter r f).periods = s.periods := rfl

/-! ### State.modPort -/

@[simp] theorem State.modPort_time (s : State) (p : Nat) (f : Port → Port) : (s.modPort p f).time = s.time := rfl
@[simp] theorem State.modPort_mem (s : State) (p : Nat) (f : Port → Port) : (s.modPort p f).mem = s.mem := rfl
@[simp] theorem State.modPort_l3 (s : State) (p : Nat) (f : Port → Port) : (s.modPort p f).l3 = s.l3 := rfl
@[simp] theorem State.modPort_l3Granted (s : State) (p : Nat) (f : Port → Port) : (s.modPort p f).l3Granted = s.l3Granted := rfl
@[simp] theorem State.modPort_poison (s : State) (p : Nat) (f : Port → Port) : (s.modPort p f).poison = s.poison := rfl
@[simp] theorem State.modPort_regs (s : State) (p : Nat) (f : Port → Port) : (s.modPort p f).regs = s.regs := rfl
@[simp] theorem State.modPort_asidTab (s : State) (p : Nat) (f : Port → Port) : (s.modPort p f).asidTab = s.asidTab := rfl
@[simp] theorem State.modPort_asidCache (s : State) (p : Nat) (f : Port → Port) : (s.modPort p f).asidCache = s.asidCache := rfl
@[simp] theorem State.modPort_walkCache (s : State) (p : Nat) (f : Port → Port) : (s.modPort p f).walkCache = s.walkCache := rfl
@[simp] theorem State.modPort_spent (s : State) (p : Nat) (f : Port → Port) : (s.modPort p f).spent = s.spent := rfl
@[simp] theorem State.modPort_paid (s : State) (p : Nat) (f : Port → Port) : (s.modPort p f).paid = s.paid := rfl
@[simp] theorem State.modPort_claimed (s : State) (p : Nat) (f : Port → Port) : (s.modPort p f).claimed = s.claimed := rfl
@[simp] theorem State.modPort_acc (s : State) (p : Nat) (f : Port → Port) : (s.modPort p f).acc = s.acc := rfl
@[simp] theorem State.modPort_lu (s : State) (p : Nat) (f : Port → Port) : (s.modPort p f).lu = s.lu := rfl
@[simp] theorem State.modPort_fq (s : State) (p : Nat) (f : Port → Port) : (s.modPort p f).fq = s.fq := rfl
@[simp] theorem State.modPort_routines (s : State) (p : Nat) (f : Port → Port) : (s.modPort p f).routines = s.routines := rfl
@[simp] theorem State.modPort_deh (s : State) (p : Nat) (f : Port → Port) : (s.modPort p f).deh = s.deh := rfl
@[simp] theorem State.modPort_dies (s : State) (p : Nat) (f : Port → Port) : (s.modPort p f).dies = s.dies := rfl
@[simp] theorem State.modPort_cores (s : State) (p : Nat) (f : Port → Port) : (s.modPort p f).cores = s.cores := rfl
@[simp] theorem State.modPort_teams (s : State) (p : Nat) (f : Port → Port) : (s.modPort p f).teams = s.teams := rfl
@[simp] theorem State.modPort_routers (s : State) (p : Nat) (f : Port → Port) : (s.modPort p f).routers = s.routers := rfl
@[simp] theorem State.modPort_packets (s : State) (p : Nat) (f : Port → Port) : (s.modPort p f).packets = s.packets := rfl
@[simp] theorem State.modPort_ops (s : State) (p : Nat) (f : Port → Port) : (s.modPort p f).ops = s.ops := rfl
@[simp] theorem State.modPort_misses (s : State) (p : Nat) (f : Port → Port) : (s.modPort p f).misses = s.misses := rfl
@[simp] theorem State.modPort_outst (s : State) (p : Nat) (f : Port → Port) : (s.modPort p f).outst = s.outst := rfl
@[simp] theorem State.modPort_saved (s : State) (p : Nat) (f : Port → Port) : (s.modPort p f).saved = s.saved := rfl
@[simp] theorem State.modPort_hostq (s : State) (p : Nat) (f : Port → Port) : (s.modPort p f).hostq = s.hostq := rfl
@[simp] theorem State.modPort_out (s : State) (p : Nat) (f : Port → Port) : (s.modPort p f).out = s.out := rfl
@[simp] theorem State.modPort_runs (s : State) (p : Nat) (f : Port → Port) : (s.modPort p f).runs = s.runs := rfl
@[simp] theorem State.modPort_schedule (s : State) (p : Nat) (f : Port → Port) : (s.modPort p f).schedule = s.schedule := rfl
@[simp] theorem State.modPort_nextId (s : State) (p : Nat) (f : Port → Port) : (s.modPort p f).nextId = s.nextId := rfl
@[simp] theorem State.modPort_freeCtr (s : State) (p : Nat) (f : Port → Port) : (s.modPort p f).freeCtr = s.freeCtr := rfl
@[simp] theorem State.modPort_periods (s : State) (p : Nat) (f : Port → Port) : (s.modPort p f).periods = s.periods := rfl

/-! ### State.modCrew -/

@[simp] theorem State.modCrew_time (s : State) (c n : Nat) (f : Crew → Crew) : (s.modCrew c n f).time = s.time := rfl
@[simp] theorem State.modCrew_mem (s : State) (c n : Nat) (f : Crew → Crew) : (s.modCrew c n f).mem = s.mem := rfl
@[simp] theorem State.modCrew_l3 (s : State) (c n : Nat) (f : Crew → Crew) : (s.modCrew c n f).l3 = s.l3 := rfl
@[simp] theorem State.modCrew_l3Granted (s : State) (c n : Nat) (f : Crew → Crew) : (s.modCrew c n f).l3Granted = s.l3Granted := rfl
@[simp] theorem State.modCrew_poison (s : State) (c n : Nat) (f : Crew → Crew) : (s.modCrew c n f).poison = s.poison := rfl
@[simp] theorem State.modCrew_regs (s : State) (c n : Nat) (f : Crew → Crew) : (s.modCrew c n f).regs = s.regs := rfl
@[simp] theorem State.modCrew_asidTab (s : State) (c n : Nat) (f : Crew → Crew) : (s.modCrew c n f).asidTab = s.asidTab := rfl
@[simp] theorem State.modCrew_asidCache (s : State) (c n : Nat) (f : Crew → Crew) : (s.modCrew c n f).asidCache = s.asidCache := rfl
@[simp] theorem State.modCrew_walkCache (s : State) (c n : Nat) (f : Crew → Crew) : (s.modCrew c n f).walkCache = s.walkCache := rfl
@[simp] theorem State.modCrew_spent (s : State) (c n : Nat) (f : Crew → Crew) : (s.modCrew c n f).spent = s.spent := rfl
@[simp] theorem State.modCrew_paid (s : State) (c n : Nat) (f : Crew → Crew) : (s.modCrew c n f).paid = s.paid := rfl
@[simp] theorem State.modCrew_claimed (s : State) (c n : Nat) (f : Crew → Crew) : (s.modCrew c n f).claimed = s.claimed := rfl
@[simp] theorem State.modCrew_acc (s : State) (c n : Nat) (f : Crew → Crew) : (s.modCrew c n f).acc = s.acc := rfl
@[simp] theorem State.modCrew_lu (s : State) (c n : Nat) (f : Crew → Crew) : (s.modCrew c n f).lu = s.lu := rfl
@[simp] theorem State.modCrew_fq (s : State) (c n : Nat) (f : Crew → Crew) : (s.modCrew c n f).fq = s.fq := rfl
@[simp] theorem State.modCrew_routines (s : State) (c n : Nat) (f : Crew → Crew) : (s.modCrew c n f).routines = s.routines := rfl
@[simp] theorem State.modCrew_deh (s : State) (c n : Nat) (f : Crew → Crew) : (s.modCrew c n f).deh = s.deh := rfl
@[simp] theorem State.modCrew_links (s : State) (c n : Nat) (f : Crew → Crew) : (s.modCrew c n f).links = s.links := rfl
@[simp] theorem State.modCrew_dies (s : State) (c n : Nat) (f : Crew → Crew) : (s.modCrew c n f).dies = s.dies := rfl
@[simp] theorem State.modCrew_teams (s : State) (c n : Nat) (f : Crew → Crew) : (s.modCrew c n f).teams = s.teams := rfl
@[simp] theorem State.modCrew_routers (s : State) (c n : Nat) (f : Crew → Crew) : (s.modCrew c n f).routers = s.routers := rfl
@[simp] theorem State.modCrew_packets (s : State) (c n : Nat) (f : Crew → Crew) : (s.modCrew c n f).packets = s.packets := rfl
@[simp] theorem State.modCrew_ops (s : State) (c n : Nat) (f : Crew → Crew) : (s.modCrew c n f).ops = s.ops := rfl
@[simp] theorem State.modCrew_misses (s : State) (c n : Nat) (f : Crew → Crew) : (s.modCrew c n f).misses = s.misses := rfl
@[simp] theorem State.modCrew_outst (s : State) (c n : Nat) (f : Crew → Crew) : (s.modCrew c n f).outst = s.outst := rfl
@[simp] theorem State.modCrew_saved (s : State) (c n : Nat) (f : Crew → Crew) : (s.modCrew c n f).saved = s.saved := rfl
@[simp] theorem State.modCrew_hostq (s : State) (c n : Nat) (f : Crew → Crew) : (s.modCrew c n f).hostq = s.hostq := rfl
@[simp] theorem State.modCrew_out (s : State) (c n : Nat) (f : Crew → Crew) : (s.modCrew c n f).out = s.out := rfl
@[simp] theorem State.modCrew_runs (s : State) (c n : Nat) (f : Crew → Crew) : (s.modCrew c n f).runs = s.runs := rfl
@[simp] theorem State.modCrew_schedule (s : State) (c n : Nat) (f : Crew → Crew) : (s.modCrew c n f).schedule = s.schedule := rfl
@[simp] theorem State.modCrew_nextId (s : State) (c n : Nat) (f : Crew → Crew) : (s.modCrew c n f).nextId = s.nextId := rfl
@[simp] theorem State.modCrew_freeCtr (s : State) (c n : Nat) (f : Crew → Crew) : (s.modCrew c n f).freeCtr = s.freeCtr := rfl
@[simp] theorem State.modCrew_periods (s : State) (c n : Nat) (f : Crew → Crew) : (s.modCrew c n f).periods = s.periods := rfl

/-! ### State.memPut -/

@[simp] theorem State.memPut_time (s : State) (a : Nat) (b : List (BitVec 8)) : (s.memPut a b).time = s.time := rfl
@[simp] theorem State.memPut_l3 (s : State) (a : Nat) (b : List (BitVec 8)) : (s.memPut a b).l3 = s.l3 := rfl
@[simp] theorem State.memPut_l3Granted (s : State) (a : Nat) (b : List (BitVec 8)) : (s.memPut a b).l3Granted = s.l3Granted := rfl
@[simp] theorem State.memPut_poison (s : State) (a : Nat) (b : List (BitVec 8)) : (s.memPut a b).poison = s.poison := rfl
@[simp] theorem State.memPut_regs (s : State) (a : Nat) (b : List (BitVec 8)) : (s.memPut a b).regs = s.regs := rfl
@[simp] theorem State.memPut_asidTab (s : State) (a : Nat) (b : List (BitVec 8)) : (s.memPut a b).asidTab = s.asidTab := rfl
@[simp] theorem State.memPut_asidCache (s : State) (a : Nat) (b : List (BitVec 8)) : (s.memPut a b).asidCache = s.asidCache := rfl
@[simp] theorem State.memPut_walkCache (s : State) (a : Nat) (b : List (BitVec 8)) : (s.memPut a b).walkCache = s.walkCache := rfl
@[simp] theorem State.memPut_spent (s : State) (a : Nat) (b : List (BitVec 8)) : (s.memPut a b).spent = s.spent := rfl
@[simp] theorem State.memPut_paid (s : State) (a : Nat) (b : List (BitVec 8)) : (s.memPut a b).paid = s.paid := rfl
@[simp] theorem State.memPut_claimed (s : State) (a : Nat) (b : List (BitVec 8)) : (s.memPut a b).claimed = s.claimed := rfl
@[simp] theorem State.memPut_acc (s : State) (a : Nat) (b : List (BitVec 8)) : (s.memPut a b).acc = s.acc := rfl
@[simp] theorem State.memPut_lu (s : State) (a : Nat) (b : List (BitVec 8)) : (s.memPut a b).lu = s.lu := rfl
@[simp] theorem State.memPut_fq (s : State) (a : Nat) (b : List (BitVec 8)) : (s.memPut a b).fq = s.fq := rfl
@[simp] theorem State.memPut_routines (s : State) (a : Nat) (b : List (BitVec 8)) : (s.memPut a b).routines = s.routines := rfl
@[simp] theorem State.memPut_deh (s : State) (a : Nat) (b : List (BitVec 8)) : (s.memPut a b).deh = s.deh := rfl
@[simp] theorem State.memPut_links (s : State) (a : Nat) (b : List (BitVec 8)) : (s.memPut a b).links = s.links := rfl
@[simp] theorem State.memPut_dies (s : State) (a : Nat) (b : List (BitVec 8)) : (s.memPut a b).dies = s.dies := rfl
@[simp] theorem State.memPut_cores (s : State) (a : Nat) (b : List (BitVec 8)) : (s.memPut a b).cores = s.cores := rfl
@[simp] theorem State.memPut_teams (s : State) (a : Nat) (b : List (BitVec 8)) : (s.memPut a b).teams = s.teams := rfl
@[simp] theorem State.memPut_routers (s : State) (a : Nat) (b : List (BitVec 8)) : (s.memPut a b).routers = s.routers := rfl
@[simp] theorem State.memPut_packets (s : State) (a : Nat) (b : List (BitVec 8)) : (s.memPut a b).packets = s.packets := rfl
@[simp] theorem State.memPut_ops (s : State) (a : Nat) (b : List (BitVec 8)) : (s.memPut a b).ops = s.ops := rfl
@[simp] theorem State.memPut_misses (s : State) (a : Nat) (b : List (BitVec 8)) : (s.memPut a b).misses = s.misses := rfl
@[simp] theorem State.memPut_outst (s : State) (a : Nat) (b : List (BitVec 8)) : (s.memPut a b).outst = s.outst := rfl
@[simp] theorem State.memPut_saved (s : State) (a : Nat) (b : List (BitVec 8)) : (s.memPut a b).saved = s.saved := rfl
@[simp] theorem State.memPut_hostq (s : State) (a : Nat) (b : List (BitVec 8)) : (s.memPut a b).hostq = s.hostq := rfl
@[simp] theorem State.memPut_out (s : State) (a : Nat) (b : List (BitVec 8)) : (s.memPut a b).out = s.out := rfl
@[simp] theorem State.memPut_runs (s : State) (a : Nat) (b : List (BitVec 8)) : (s.memPut a b).runs = s.runs := rfl
@[simp] theorem State.memPut_schedule (s : State) (a : Nat) (b : List (BitVec 8)) : (s.memPut a b).schedule = s.schedule := rfl
@[simp] theorem State.memPut_nextId (s : State) (a : Nat) (b : List (BitVec 8)) : (s.memPut a b).nextId = s.nextId := rfl
@[simp] theorem State.memPut_freeCtr (s : State) (a : Nat) (b : List (BitVec 8)) : (s.memPut a b).freeCtr = s.freeCtr := rfl
@[simp] theorem State.memPut_periods (s : State) (a : Nat) (b : List (BitVec 8)) : (s.memPut a b).periods = s.periods := rfl

/-! ### State.dropRun -/

@[simp] theorem State.dropRun_time (s : State) (t g : Nat) : (s.dropRun t g).time = s.time := rfl
@[simp] theorem State.dropRun_mem (s : State) (t g : Nat) : (s.dropRun t g).mem = s.mem := rfl
@[simp] theorem State.dropRun_l3 (s : State) (t g : Nat) : (s.dropRun t g).l3 = s.l3 := rfl
@[simp] theorem State.dropRun_l3Granted (s : State) (t g : Nat) : (s.dropRun t g).l3Granted = s.l3Granted := rfl
@[simp] theorem State.dropRun_poison (s : State) (t g : Nat) : (s.dropRun t g).poison = s.poison := rfl
@[simp] theorem State.dropRun_regs (s : State) (t g : Nat) : (s.dropRun t g).regs = s.regs := rfl
@[simp] theorem State.dropRun_asidTab (s : State) (t g : Nat) : (s.dropRun t g).asidTab = s.asidTab := rfl
@[simp] theorem State.dropRun_asidCache (s : State) (t g : Nat) : (s.dropRun t g).asidCache = s.asidCache := rfl
@[simp] theorem State.dropRun_walkCache (s : State) (t g : Nat) : (s.dropRun t g).walkCache = s.walkCache := rfl
@[simp] theorem State.dropRun_spent (s : State) (t g : Nat) : (s.dropRun t g).spent = s.spent := rfl
@[simp] theorem State.dropRun_paid (s : State) (t g : Nat) : (s.dropRun t g).paid = s.paid := rfl
@[simp] theorem State.dropRun_claimed (s : State) (t g : Nat) : (s.dropRun t g).claimed = s.claimed := rfl
@[simp] theorem State.dropRun_acc (s : State) (t g : Nat) : (s.dropRun t g).acc = s.acc := rfl
@[simp] theorem State.dropRun_lu (s : State) (t g : Nat) : (s.dropRun t g).lu = s.lu := rfl
@[simp] theorem State.dropRun_fq (s : State) (t g : Nat) : (s.dropRun t g).fq = s.fq := rfl
@[simp] theorem State.dropRun_routines (s : State) (t g : Nat) : (s.dropRun t g).routines = s.routines := rfl
@[simp] theorem State.dropRun_deh (s : State) (t g : Nat) : (s.dropRun t g).deh = s.deh := rfl
@[simp] theorem State.dropRun_links (s : State) (t g : Nat) : (s.dropRun t g).links = s.links := rfl
@[simp] theorem State.dropRun_dies (s : State) (t g : Nat) : (s.dropRun t g).dies = s.dies := rfl
@[simp] theorem State.dropRun_cores (s : State) (t g : Nat) : (s.dropRun t g).cores = s.cores := rfl
@[simp] theorem State.dropRun_teams (s : State) (t g : Nat) : (s.dropRun t g).teams = s.teams := rfl
@[simp] theorem State.dropRun_routers (s : State) (t g : Nat) : (s.dropRun t g).routers = s.routers := rfl
@[simp] theorem State.dropRun_packets (s : State) (t g : Nat) : (s.dropRun t g).packets = s.packets := rfl
@[simp] theorem State.dropRun_ops (s : State) (t g : Nat) : (s.dropRun t g).ops = s.ops := rfl
@[simp] theorem State.dropRun_misses (s : State) (t g : Nat) : (s.dropRun t g).misses = s.misses := rfl
@[simp] theorem State.dropRun_outst (s : State) (t g : Nat) : (s.dropRun t g).outst = s.outst := rfl
@[simp] theorem State.dropRun_saved (s : State) (t g : Nat) : (s.dropRun t g).saved = s.saved := rfl
@[simp] theorem State.dropRun_hostq (s : State) (t g : Nat) : (s.dropRun t g).hostq = s.hostq := rfl
@[simp] theorem State.dropRun_out (s : State) (t g : Nat) : (s.dropRun t g).out = s.out := rfl
@[simp] theorem State.dropRun_schedule (s : State) (t g : Nat) : (s.dropRun t g).schedule = s.schedule := rfl
@[simp] theorem State.dropRun_nextId (s : State) (t g : Nat) : (s.dropRun t g).nextId = s.nextId := rfl
@[simp] theorem State.dropRun_freeCtr (s : State) (t g : Nat) : (s.dropRun t g).freeCtr = s.freeCtr := rfl
@[simp] theorem State.dropRun_periods (s : State) (t g : Nat) : (s.dropRun t g).periods = s.periods := rfl

/-! ### State.addOp -/

@[simp] theorem State.addOp_time (s : State) (o : Op) : (s.addOp o).time = s.time := rfl
@[simp] theorem State.addOp_mem (s : State) (o : Op) : (s.addOp o).mem = s.mem := rfl
@[simp] theorem State.addOp_l3 (s : State) (o : Op) : (s.addOp o).l3 = s.l3 := rfl
@[simp] theorem State.addOp_l3Granted (s : State) (o : Op) : (s.addOp o).l3Granted = s.l3Granted := rfl
@[simp] theorem State.addOp_poison (s : State) (o : Op) : (s.addOp o).poison = s.poison := rfl
@[simp] theorem State.addOp_regs (s : State) (o : Op) : (s.addOp o).regs = s.regs := rfl
@[simp] theorem State.addOp_asidTab (s : State) (o : Op) : (s.addOp o).asidTab = s.asidTab := rfl
@[simp] theorem State.addOp_asidCache (s : State) (o : Op) : (s.addOp o).asidCache = s.asidCache := rfl
@[simp] theorem State.addOp_walkCache (s : State) (o : Op) : (s.addOp o).walkCache = s.walkCache := rfl
@[simp] theorem State.addOp_spent (s : State) (o : Op) : (s.addOp o).spent = s.spent := rfl
@[simp] theorem State.addOp_paid (s : State) (o : Op) : (s.addOp o).paid = s.paid := rfl
@[simp] theorem State.addOp_claimed (s : State) (o : Op) : (s.addOp o).claimed = s.claimed := rfl
@[simp] theorem State.addOp_acc (s : State) (o : Op) : (s.addOp o).acc = s.acc := rfl
@[simp] theorem State.addOp_lu (s : State) (o : Op) : (s.addOp o).lu = s.lu := rfl
@[simp] theorem State.addOp_fq (s : State) (o : Op) : (s.addOp o).fq = s.fq := rfl
@[simp] theorem State.addOp_routines (s : State) (o : Op) : (s.addOp o).routines = s.routines := rfl
@[simp] theorem State.addOp_deh (s : State) (o : Op) : (s.addOp o).deh = s.deh := rfl
@[simp] theorem State.addOp_links (s : State) (o : Op) : (s.addOp o).links = s.links := rfl
@[simp] theorem State.addOp_dies (s : State) (o : Op) : (s.addOp o).dies = s.dies := rfl
@[simp] theorem State.addOp_cores (s : State) (o : Op) : (s.addOp o).cores = s.cores := rfl
@[simp] theorem State.addOp_teams (s : State) (o : Op) : (s.addOp o).teams = s.teams := rfl
@[simp] theorem State.addOp_routers (s : State) (o : Op) : (s.addOp o).routers = s.routers := rfl
@[simp] theorem State.addOp_packets (s : State) (o : Op) : (s.addOp o).packets = s.packets := rfl
@[simp] theorem State.addOp_misses (s : State) (o : Op) : (s.addOp o).misses = s.misses := rfl
@[simp] theorem State.addOp_outst (s : State) (o : Op) : (s.addOp o).outst = s.outst := rfl
@[simp] theorem State.addOp_saved (s : State) (o : Op) : (s.addOp o).saved = s.saved := rfl
@[simp] theorem State.addOp_hostq (s : State) (o : Op) : (s.addOp o).hostq = s.hostq := rfl
@[simp] theorem State.addOp_out (s : State) (o : Op) : (s.addOp o).out = s.out := rfl
@[simp] theorem State.addOp_runs (s : State) (o : Op) : (s.addOp o).runs = s.runs := rfl
@[simp] theorem State.addOp_schedule (s : State) (o : Op) : (s.addOp o).schedule = s.schedule := rfl
@[simp] theorem State.addOp_freeCtr (s : State) (o : Op) : (s.addOp o).freeCtr = s.freeCtr := rfl
@[simp] theorem State.addOp_periods (s : State) (o : Op) : (s.addOp o).periods = s.periods := rfl

/-! ### State.dropOp -/

@[simp] theorem State.dropOp_time (s : State) (o : Op) : (s.dropOp o).time = s.time := rfl
@[simp] theorem State.dropOp_mem (s : State) (o : Op) : (s.dropOp o).mem = s.mem := rfl
@[simp] theorem State.dropOp_l3 (s : State) (o : Op) : (s.dropOp o).l3 = s.l3 := rfl
@[simp] theorem State.dropOp_l3Granted (s : State) (o : Op) : (s.dropOp o).l3Granted = s.l3Granted := rfl
@[simp] theorem State.dropOp_poison (s : State) (o : Op) : (s.dropOp o).poison = s.poison := rfl
@[simp] theorem State.dropOp_regs (s : State) (o : Op) : (s.dropOp o).regs = s.regs := rfl
@[simp] theorem State.dropOp_asidTab (s : State) (o : Op) : (s.dropOp o).asidTab = s.asidTab := rfl
@[simp] theorem State.dropOp_asidCache (s : State) (o : Op) : (s.dropOp o).asidCache = s.asidCache := rfl
@[simp] theorem State.dropOp_walkCache (s : State) (o : Op) : (s.dropOp o).walkCache = s.walkCache := rfl
@[simp] theorem State.dropOp_spent (s : State) (o : Op) : (s.dropOp o).spent = s.spent := rfl
@[simp] theorem State.dropOp_paid (s : State) (o : Op) : (s.dropOp o).paid = s.paid := rfl
@[simp] theorem State.dropOp_claimed (s : State) (o : Op) : (s.dropOp o).claimed = s.claimed := rfl
@[simp] theorem State.dropOp_acc (s : State) (o : Op) : (s.dropOp o).acc = s.acc := rfl
@[simp] theorem State.dropOp_lu (s : State) (o : Op) : (s.dropOp o).lu = s.lu := rfl
@[simp] theorem State.dropOp_fq (s : State) (o : Op) : (s.dropOp o).fq = s.fq := rfl
@[simp] theorem State.dropOp_routines (s : State) (o : Op) : (s.dropOp o).routines = s.routines := rfl
@[simp] theorem State.dropOp_deh (s : State) (o : Op) : (s.dropOp o).deh = s.deh := rfl
@[simp] theorem State.dropOp_links (s : State) (o : Op) : (s.dropOp o).links = s.links := rfl
@[simp] theorem State.dropOp_dies (s : State) (o : Op) : (s.dropOp o).dies = s.dies := rfl
@[simp] theorem State.dropOp_cores (s : State) (o : Op) : (s.dropOp o).cores = s.cores := rfl
@[simp] theorem State.dropOp_teams (s : State) (o : Op) : (s.dropOp o).teams = s.teams := rfl
@[simp] theorem State.dropOp_routers (s : State) (o : Op) : (s.dropOp o).routers = s.routers := rfl
@[simp] theorem State.dropOp_packets (s : State) (o : Op) : (s.dropOp o).packets = s.packets := rfl
@[simp] theorem State.dropOp_misses (s : State) (o : Op) : (s.dropOp o).misses = s.misses := rfl
@[simp] theorem State.dropOp_outst (s : State) (o : Op) : (s.dropOp o).outst = s.outst := rfl
@[simp] theorem State.dropOp_saved (s : State) (o : Op) : (s.dropOp o).saved = s.saved := rfl
@[simp] theorem State.dropOp_hostq (s : State) (o : Op) : (s.dropOp o).hostq = s.hostq := rfl
@[simp] theorem State.dropOp_out (s : State) (o : Op) : (s.dropOp o).out = s.out := rfl
@[simp] theorem State.dropOp_runs (s : State) (o : Op) : (s.dropOp o).runs = s.runs := rfl
@[simp] theorem State.dropOp_schedule (s : State) (o : Op) : (s.dropOp o).schedule = s.schedule := rfl
@[simp] theorem State.dropOp_nextId (s : State) (o : Op) : (s.dropOp o).nextId = s.nextId := rfl
@[simp] theorem State.dropOp_freeCtr (s : State) (o : Op) : (s.dropOp o).freeCtr = s.freeCtr := rfl
@[simp] theorem State.dropOp_periods (s : State) (o : Op) : (s.dropOp o).periods = s.periods := rfl

/-! ### State.send -/

@[simp] theorem State.send_time (s : State) (p : Packet) : (s.send p).time = s.time := rfl
@[simp] theorem State.send_mem (s : State) (p : Packet) : (s.send p).mem = s.mem := rfl
@[simp] theorem State.send_l3 (s : State) (p : Packet) : (s.send p).l3 = s.l3 := rfl
@[simp] theorem State.send_l3Granted (s : State) (p : Packet) : (s.send p).l3Granted = s.l3Granted := rfl
@[simp] theorem State.send_poison (s : State) (p : Packet) : (s.send p).poison = s.poison := rfl
@[simp] theorem State.send_regs (s : State) (p : Packet) : (s.send p).regs = s.regs := rfl
@[simp] theorem State.send_asidTab (s : State) (p : Packet) : (s.send p).asidTab = s.asidTab := rfl
@[simp] theorem State.send_asidCache (s : State) (p : Packet) : (s.send p).asidCache = s.asidCache := rfl
@[simp] theorem State.send_walkCache (s : State) (p : Packet) : (s.send p).walkCache = s.walkCache := rfl
@[simp] theorem State.send_spent (s : State) (p : Packet) : (s.send p).spent = s.spent := rfl
@[simp] theorem State.send_paid (s : State) (p : Packet) : (s.send p).paid = s.paid := rfl
@[simp] theorem State.send_claimed (s : State) (p : Packet) : (s.send p).claimed = s.claimed := rfl
@[simp] theorem State.send_acc (s : State) (p : Packet) : (s.send p).acc = s.acc := rfl
@[simp] theorem State.send_lu (s : State) (p : Packet) : (s.send p).lu = s.lu := rfl
@[simp] theorem State.send_fq (s : State) (p : Packet) : (s.send p).fq = s.fq := rfl
@[simp] theorem State.send_routines (s : State) (p : Packet) : (s.send p).routines = s.routines := rfl
@[simp] theorem State.send_deh (s : State) (p : Packet) : (s.send p).deh = s.deh := rfl
@[simp] theorem State.send_links (s : State) (p : Packet) : (s.send p).links = s.links := rfl
@[simp] theorem State.send_dies (s : State) (p : Packet) : (s.send p).dies = s.dies := rfl
@[simp] theorem State.send_cores (s : State) (p : Packet) : (s.send p).cores = s.cores := rfl
@[simp] theorem State.send_teams (s : State) (p : Packet) : (s.send p).teams = s.teams := rfl
@[simp] theorem State.send_routers (s : State) (p : Packet) : (s.send p).routers = s.routers := rfl
@[simp] theorem State.send_ops (s : State) (p : Packet) : (s.send p).ops = s.ops := rfl
@[simp] theorem State.send_misses (s : State) (p : Packet) : (s.send p).misses = s.misses := rfl
@[simp] theorem State.send_outst (s : State) (p : Packet) : (s.send p).outst = s.outst := rfl
@[simp] theorem State.send_saved (s : State) (p : Packet) : (s.send p).saved = s.saved := rfl
@[simp] theorem State.send_hostq (s : State) (p : Packet) : (s.send p).hostq = s.hostq := rfl
@[simp] theorem State.send_out (s : State) (p : Packet) : (s.send p).out = s.out := rfl
@[simp] theorem State.send_runs (s : State) (p : Packet) : (s.send p).runs = s.runs := rfl
@[simp] theorem State.send_schedule (s : State) (p : Packet) : (s.send p).schedule = s.schedule := rfl
@[simp] theorem State.send_freeCtr (s : State) (p : Packet) : (s.send p).freeCtr = s.freeCtr := rfl
@[simp] theorem State.send_periods (s : State) (p : Packet) : (s.send p).periods = s.periods := rfl

/-! ### State.modTeam -/

@[simp] theorem State.modTeam_time (s : State) (t : Nat) (f : Team → Team) : (s.modTeam t f).time = s.time := by unfold State.modTeam; split <;> rfl
@[simp] theorem State.modTeam_mem (s : State) (t : Nat) (f : Team → Team) : (s.modTeam t f).mem = s.mem := by unfold State.modTeam; split <;> rfl
@[simp] theorem State.modTeam_l3 (s : State) (t : Nat) (f : Team → Team) : (s.modTeam t f).l3 = s.l3 := by unfold State.modTeam; split <;> rfl
@[simp] theorem State.modTeam_l3Granted (s : State) (t : Nat) (f : Team → Team) : (s.modTeam t f).l3Granted = s.l3Granted := by unfold State.modTeam; split <;> rfl
@[simp] theorem State.modTeam_poison (s : State) (t : Nat) (f : Team → Team) : (s.modTeam t f).poison = s.poison := by unfold State.modTeam; split <;> rfl
@[simp] theorem State.modTeam_regs (s : State) (t : Nat) (f : Team → Team) : (s.modTeam t f).regs = s.regs := by unfold State.modTeam; split <;> rfl
@[simp] theorem State.modTeam_asidTab (s : State) (t : Nat) (f : Team → Team) : (s.modTeam t f).asidTab = s.asidTab := by unfold State.modTeam; split <;> rfl
@[simp] theorem State.modTeam_asidCache (s : State) (t : Nat) (f : Team → Team) : (s.modTeam t f).asidCache = s.asidCache := by unfold State.modTeam; split <;> rfl
@[simp] theorem State.modTeam_walkCache (s : State) (t : Nat) (f : Team → Team) : (s.modTeam t f).walkCache = s.walkCache := by unfold State.modTeam; split <;> rfl
@[simp] theorem State.modTeam_spent (s : State) (t : Nat) (f : Team → Team) : (s.modTeam t f).spent = s.spent := by unfold State.modTeam; split <;> rfl
@[simp] theorem State.modTeam_paid (s : State) (t : Nat) (f : Team → Team) : (s.modTeam t f).paid = s.paid := by unfold State.modTeam; split <;> rfl
@[simp] theorem State.modTeam_claimed (s : State) (t : Nat) (f : Team → Team) : (s.modTeam t f).claimed = s.claimed := by unfold State.modTeam; split <;> rfl
@[simp] theorem State.modTeam_acc (s : State) (t : Nat) (f : Team → Team) : (s.modTeam t f).acc = s.acc := by unfold State.modTeam; split <;> rfl
@[simp] theorem State.modTeam_lu (s : State) (t : Nat) (f : Team → Team) : (s.modTeam t f).lu = s.lu := by unfold State.modTeam; split <;> rfl
@[simp] theorem State.modTeam_fq (s : State) (t : Nat) (f : Team → Team) : (s.modTeam t f).fq = s.fq := by unfold State.modTeam; split <;> rfl
@[simp] theorem State.modTeam_routines (s : State) (t : Nat) (f : Team → Team) : (s.modTeam t f).routines = s.routines := by unfold State.modTeam; split <;> rfl
@[simp] theorem State.modTeam_deh (s : State) (t : Nat) (f : Team → Team) : (s.modTeam t f).deh = s.deh := by unfold State.modTeam; split <;> rfl
@[simp] theorem State.modTeam_links (s : State) (t : Nat) (f : Team → Team) : (s.modTeam t f).links = s.links := by unfold State.modTeam; split <;> rfl
@[simp] theorem State.modTeam_dies (s : State) (t : Nat) (f : Team → Team) : (s.modTeam t f).dies = s.dies := by unfold State.modTeam; split <;> rfl
@[simp] theorem State.modTeam_cores (s : State) (t : Nat) (f : Team → Team) : (s.modTeam t f).cores = s.cores := by unfold State.modTeam; split <;> rfl
@[simp] theorem State.modTeam_routers (s : State) (t : Nat) (f : Team → Team) : (s.modTeam t f).routers = s.routers := by unfold State.modTeam; split <;> rfl
@[simp] theorem State.modTeam_packets (s : State) (t : Nat) (f : Team → Team) : (s.modTeam t f).packets = s.packets := by unfold State.modTeam; split <;> rfl
@[simp] theorem State.modTeam_ops (s : State) (t : Nat) (f : Team → Team) : (s.modTeam t f).ops = s.ops := by unfold State.modTeam; split <;> rfl
@[simp] theorem State.modTeam_misses (s : State) (t : Nat) (f : Team → Team) : (s.modTeam t f).misses = s.misses := by unfold State.modTeam; split <;> rfl
@[simp] theorem State.modTeam_outst (s : State) (t : Nat) (f : Team → Team) : (s.modTeam t f).outst = s.outst := by unfold State.modTeam; split <;> rfl
@[simp] theorem State.modTeam_saved (s : State) (t : Nat) (f : Team → Team) : (s.modTeam t f).saved = s.saved := by unfold State.modTeam; split <;> rfl
@[simp] theorem State.modTeam_hostq (s : State) (t : Nat) (f : Team → Team) : (s.modTeam t f).hostq = s.hostq := by unfold State.modTeam; split <;> rfl
@[simp] theorem State.modTeam_out (s : State) (t : Nat) (f : Team → Team) : (s.modTeam t f).out = s.out := by unfold State.modTeam; split <;> rfl
@[simp] theorem State.modTeam_runs (s : State) (t : Nat) (f : Team → Team) : (s.modTeam t f).runs = s.runs := by unfold State.modTeam; split <;> rfl
@[simp] theorem State.modTeam_schedule (s : State) (t : Nat) (f : Team → Team) : (s.modTeam t f).schedule = s.schedule := by unfold State.modTeam; split <;> rfl
@[simp] theorem State.modTeam_nextId (s : State) (t : Nat) (f : Team → Team) : (s.modTeam t f).nextId = s.nextId := by unfold State.modTeam; split <;> rfl
@[simp] theorem State.modTeam_freeCtr (s : State) (t : Nat) (f : Team → Team) : (s.modTeam t f).freeCtr = s.freeCtr := by unfold State.modTeam; split <;> rfl
@[simp] theorem State.modTeam_periods (s : State) (t : Nat) (f : Team → Team) : (s.modTeam t f).periods = s.periods := by unfold State.modTeam; split <;> rfl

/-! ### State.modGrp -/

@[simp] theorem State.modGrp_time (s : State) (t g : Nat) (f : Group → Group) : (s.modGrp t g f).time = s.time := by simp [State.modGrp]
@[simp] theorem State.modGrp_mem (s : State) (t g : Nat) (f : Group → Group) : (s.modGrp t g f).mem = s.mem := by simp [State.modGrp]
@[simp] theorem State.modGrp_l3 (s : State) (t g : Nat) (f : Group → Group) : (s.modGrp t g f).l3 = s.l3 := by simp [State.modGrp]
@[simp] theorem State.modGrp_l3Granted (s : State) (t g : Nat) (f : Group → Group) : (s.modGrp t g f).l3Granted = s.l3Granted := by simp [State.modGrp]
@[simp] theorem State.modGrp_poison (s : State) (t g : Nat) (f : Group → Group) : (s.modGrp t g f).poison = s.poison := by simp [State.modGrp]
@[simp] theorem State.modGrp_regs (s : State) (t g : Nat) (f : Group → Group) : (s.modGrp t g f).regs = s.regs := by simp [State.modGrp]
@[simp] theorem State.modGrp_asidTab (s : State) (t g : Nat) (f : Group → Group) : (s.modGrp t g f).asidTab = s.asidTab := by simp [State.modGrp]
@[simp] theorem State.modGrp_asidCache (s : State) (t g : Nat) (f : Group → Group) : (s.modGrp t g f).asidCache = s.asidCache := by simp [State.modGrp]
@[simp] theorem State.modGrp_walkCache (s : State) (t g : Nat) (f : Group → Group) : (s.modGrp t g f).walkCache = s.walkCache := by simp [State.modGrp]
@[simp] theorem State.modGrp_spent (s : State) (t g : Nat) (f : Group → Group) : (s.modGrp t g f).spent = s.spent := by simp [State.modGrp]
@[simp] theorem State.modGrp_paid (s : State) (t g : Nat) (f : Group → Group) : (s.modGrp t g f).paid = s.paid := by simp [State.modGrp]
@[simp] theorem State.modGrp_claimed (s : State) (t g : Nat) (f : Group → Group) : (s.modGrp t g f).claimed = s.claimed := by simp [State.modGrp]
@[simp] theorem State.modGrp_acc (s : State) (t g : Nat) (f : Group → Group) : (s.modGrp t g f).acc = s.acc := by simp [State.modGrp]
@[simp] theorem State.modGrp_lu (s : State) (t g : Nat) (f : Group → Group) : (s.modGrp t g f).lu = s.lu := by simp [State.modGrp]
@[simp] theorem State.modGrp_fq (s : State) (t g : Nat) (f : Group → Group) : (s.modGrp t g f).fq = s.fq := by simp [State.modGrp]
@[simp] theorem State.modGrp_routines (s : State) (t g : Nat) (f : Group → Group) : (s.modGrp t g f).routines = s.routines := by simp [State.modGrp]
@[simp] theorem State.modGrp_deh (s : State) (t g : Nat) (f : Group → Group) : (s.modGrp t g f).deh = s.deh := by simp [State.modGrp]
@[simp] theorem State.modGrp_links (s : State) (t g : Nat) (f : Group → Group) : (s.modGrp t g f).links = s.links := by simp [State.modGrp]
@[simp] theorem State.modGrp_dies (s : State) (t g : Nat) (f : Group → Group) : (s.modGrp t g f).dies = s.dies := by simp [State.modGrp]
@[simp] theorem State.modGrp_cores (s : State) (t g : Nat) (f : Group → Group) : (s.modGrp t g f).cores = s.cores := by simp [State.modGrp]
@[simp] theorem State.modGrp_routers (s : State) (t g : Nat) (f : Group → Group) : (s.modGrp t g f).routers = s.routers := by simp [State.modGrp]
@[simp] theorem State.modGrp_packets (s : State) (t g : Nat) (f : Group → Group) : (s.modGrp t g f).packets = s.packets := by simp [State.modGrp]
@[simp] theorem State.modGrp_ops (s : State) (t g : Nat) (f : Group → Group) : (s.modGrp t g f).ops = s.ops := by simp [State.modGrp]
@[simp] theorem State.modGrp_misses (s : State) (t g : Nat) (f : Group → Group) : (s.modGrp t g f).misses = s.misses := by simp [State.modGrp]
@[simp] theorem State.modGrp_outst (s : State) (t g : Nat) (f : Group → Group) : (s.modGrp t g f).outst = s.outst := by simp [State.modGrp]
@[simp] theorem State.modGrp_saved (s : State) (t g : Nat) (f : Group → Group) : (s.modGrp t g f).saved = s.saved := by simp [State.modGrp]
@[simp] theorem State.modGrp_hostq (s : State) (t g : Nat) (f : Group → Group) : (s.modGrp t g f).hostq = s.hostq := by simp [State.modGrp]
@[simp] theorem State.modGrp_out (s : State) (t g : Nat) (f : Group → Group) : (s.modGrp t g f).out = s.out := by simp [State.modGrp]
@[simp] theorem State.modGrp_runs (s : State) (t g : Nat) (f : Group → Group) : (s.modGrp t g f).runs = s.runs := by simp [State.modGrp]
@[simp] theorem State.modGrp_schedule (s : State) (t g : Nat) (f : Group → Group) : (s.modGrp t g f).schedule = s.schedule := by simp [State.modGrp]
@[simp] theorem State.modGrp_nextId (s : State) (t g : Nat) (f : Group → Group) : (s.modGrp t g f).nextId = s.nextId := by simp [State.modGrp]
@[simp] theorem State.modGrp_freeCtr (s : State) (t g : Nat) (f : Group → Group) : (s.modGrp t g f).freeCtr = s.freeCtr := by simp [State.modGrp]
@[simp] theorem State.modGrp_periods (s : State) (t g : Nat) (f : Group → Group) : (s.modGrp t g f).periods = s.periods := by simp [State.modGrp]

/-! ### State.modLane -/

@[simp] theorem State.modLane_time (s : State) (t g l : Nat) (f : Lane → Lane) : (s.modLane t g l f).time = s.time := by simp [State.modLane]
@[simp] theorem State.modLane_mem (s : State) (t g l : Nat) (f : Lane → Lane) : (s.modLane t g l f).mem = s.mem := by simp [State.modLane]
@[simp] theorem State.modLane_l3 (s : State) (t g l : Nat) (f : Lane → Lane) : (s.modLane t g l f).l3 = s.l3 := by simp [State.modLane]
@[simp] theorem State.modLane_l3Granted (s : State) (t g l : Nat) (f : Lane → Lane) : (s.modLane t g l f).l3Granted = s.l3Granted := by simp [State.modLane]
@[simp] theorem State.modLane_poison (s : State) (t g l : Nat) (f : Lane → Lane) : (s.modLane t g l f).poison = s.poison := by simp [State.modLane]
@[simp] theorem State.modLane_regs (s : State) (t g l : Nat) (f : Lane → Lane) : (s.modLane t g l f).regs = s.regs := by simp [State.modLane]
@[simp] theorem State.modLane_asidTab (s : State) (t g l : Nat) (f : Lane → Lane) : (s.modLane t g l f).asidTab = s.asidTab := by simp [State.modLane]
@[simp] theorem State.modLane_asidCache (s : State) (t g l : Nat) (f : Lane → Lane) : (s.modLane t g l f).asidCache = s.asidCache := by simp [State.modLane]
@[simp] theorem State.modLane_walkCache (s : State) (t g l : Nat) (f : Lane → Lane) : (s.modLane t g l f).walkCache = s.walkCache := by simp [State.modLane]
@[simp] theorem State.modLane_spent (s : State) (t g l : Nat) (f : Lane → Lane) : (s.modLane t g l f).spent = s.spent := by simp [State.modLane]
@[simp] theorem State.modLane_paid (s : State) (t g l : Nat) (f : Lane → Lane) : (s.modLane t g l f).paid = s.paid := by simp [State.modLane]
@[simp] theorem State.modLane_claimed (s : State) (t g l : Nat) (f : Lane → Lane) : (s.modLane t g l f).claimed = s.claimed := by simp [State.modLane]
@[simp] theorem State.modLane_acc (s : State) (t g l : Nat) (f : Lane → Lane) : (s.modLane t g l f).acc = s.acc := by simp [State.modLane]
@[simp] theorem State.modLane_lu (s : State) (t g l : Nat) (f : Lane → Lane) : (s.modLane t g l f).lu = s.lu := by simp [State.modLane]
@[simp] theorem State.modLane_fq (s : State) (t g l : Nat) (f : Lane → Lane) : (s.modLane t g l f).fq = s.fq := by simp [State.modLane]
@[simp] theorem State.modLane_routines (s : State) (t g l : Nat) (f : Lane → Lane) : (s.modLane t g l f).routines = s.routines := by simp [State.modLane]
@[simp] theorem State.modLane_deh (s : State) (t g l : Nat) (f : Lane → Lane) : (s.modLane t g l f).deh = s.deh := by simp [State.modLane]
@[simp] theorem State.modLane_links (s : State) (t g l : Nat) (f : Lane → Lane) : (s.modLane t g l f).links = s.links := by simp [State.modLane]
@[simp] theorem State.modLane_dies (s : State) (t g l : Nat) (f : Lane → Lane) : (s.modLane t g l f).dies = s.dies := by simp [State.modLane]
@[simp] theorem State.modLane_cores (s : State) (t g l : Nat) (f : Lane → Lane) : (s.modLane t g l f).cores = s.cores := by simp [State.modLane]
@[simp] theorem State.modLane_routers (s : State) (t g l : Nat) (f : Lane → Lane) : (s.modLane t g l f).routers = s.routers := by simp [State.modLane]
@[simp] theorem State.modLane_packets (s : State) (t g l : Nat) (f : Lane → Lane) : (s.modLane t g l f).packets = s.packets := by simp [State.modLane]
@[simp] theorem State.modLane_ops (s : State) (t g l : Nat) (f : Lane → Lane) : (s.modLane t g l f).ops = s.ops := by simp [State.modLane]
@[simp] theorem State.modLane_misses (s : State) (t g l : Nat) (f : Lane → Lane) : (s.modLane t g l f).misses = s.misses := by simp [State.modLane]
@[simp] theorem State.modLane_outst (s : State) (t g l : Nat) (f : Lane → Lane) : (s.modLane t g l f).outst = s.outst := by simp [State.modLane]
@[simp] theorem State.modLane_saved (s : State) (t g l : Nat) (f : Lane → Lane) : (s.modLane t g l f).saved = s.saved := by simp [State.modLane]
@[simp] theorem State.modLane_hostq (s : State) (t g l : Nat) (f : Lane → Lane) : (s.modLane t g l f).hostq = s.hostq := by simp [State.modLane]
@[simp] theorem State.modLane_out (s : State) (t g l : Nat) (f : Lane → Lane) : (s.modLane t g l f).out = s.out := by simp [State.modLane]
@[simp] theorem State.modLane_runs (s : State) (t g l : Nat) (f : Lane → Lane) : (s.modLane t g l f).runs = s.runs := by simp [State.modLane]
@[simp] theorem State.modLane_schedule (s : State) (t g l : Nat) (f : Lane → Lane) : (s.modLane t g l f).schedule = s.schedule := by simp [State.modLane]
@[simp] theorem State.modLane_nextId (s : State) (t g l : Nat) (f : Lane → Lane) : (s.modLane t g l f).nextId = s.nextId := by simp [State.modLane]
@[simp] theorem State.modLane_freeCtr (s : State) (t g l : Nat) (f : Lane → Lane) : (s.modLane t g l f).freeCtr = s.freeCtr := by simp [State.modLane]
@[simp] theorem State.modLane_periods (s : State) (t g l : Nat) (f : Lane → Lane) : (s.modLane t g l f).periods = s.periods := by simp [State.modLane]

/-! ### State.onLane -/

@[simp] theorem State.onLane_time (s : State) (x : Ctx) (l : Nat) (f : Lane → Lane) : (s.onLane x l f).time = s.time := by simp [State.onLane]
@[simp] theorem State.onLane_mem (s : State) (x : Ctx) (l : Nat) (f : Lane → Lane) : (s.onLane x l f).mem = s.mem := by simp [State.onLane]
@[simp] theorem State.onLane_l3 (s : State) (x : Ctx) (l : Nat) (f : Lane → Lane) : (s.onLane x l f).l3 = s.l3 := by simp [State.onLane]
@[simp] theorem State.onLane_l3Granted (s : State) (x : Ctx) (l : Nat) (f : Lane → Lane) : (s.onLane x l f).l3Granted = s.l3Granted := by simp [State.onLane]
@[simp] theorem State.onLane_poison (s : State) (x : Ctx) (l : Nat) (f : Lane → Lane) : (s.onLane x l f).poison = s.poison := by simp [State.onLane]
@[simp] theorem State.onLane_regs (s : State) (x : Ctx) (l : Nat) (f : Lane → Lane) : (s.onLane x l f).regs = s.regs := by simp [State.onLane]
@[simp] theorem State.onLane_asidTab (s : State) (x : Ctx) (l : Nat) (f : Lane → Lane) : (s.onLane x l f).asidTab = s.asidTab := by simp [State.onLane]
@[simp] theorem State.onLane_asidCache (s : State) (x : Ctx) (l : Nat) (f : Lane → Lane) : (s.onLane x l f).asidCache = s.asidCache := by simp [State.onLane]
@[simp] theorem State.onLane_walkCache (s : State) (x : Ctx) (l : Nat) (f : Lane → Lane) : (s.onLane x l f).walkCache = s.walkCache := by simp [State.onLane]
@[simp] theorem State.onLane_spent (s : State) (x : Ctx) (l : Nat) (f : Lane → Lane) : (s.onLane x l f).spent = s.spent := by simp [State.onLane]
@[simp] theorem State.onLane_paid (s : State) (x : Ctx) (l : Nat) (f : Lane → Lane) : (s.onLane x l f).paid = s.paid := by simp [State.onLane]
@[simp] theorem State.onLane_claimed (s : State) (x : Ctx) (l : Nat) (f : Lane → Lane) : (s.onLane x l f).claimed = s.claimed := by simp [State.onLane]
@[simp] theorem State.onLane_acc (s : State) (x : Ctx) (l : Nat) (f : Lane → Lane) : (s.onLane x l f).acc = s.acc := by simp [State.onLane]
@[simp] theorem State.onLane_lu (s : State) (x : Ctx) (l : Nat) (f : Lane → Lane) : (s.onLane x l f).lu = s.lu := by simp [State.onLane]
@[simp] theorem State.onLane_fq (s : State) (x : Ctx) (l : Nat) (f : Lane → Lane) : (s.onLane x l f).fq = s.fq := by simp [State.onLane]
@[simp] theorem State.onLane_routines (s : State) (x : Ctx) (l : Nat) (f : Lane → Lane) : (s.onLane x l f).routines = s.routines := by simp [State.onLane]
@[simp] theorem State.onLane_deh (s : State) (x : Ctx) (l : Nat) (f : Lane → Lane) : (s.onLane x l f).deh = s.deh := by simp [State.onLane]
@[simp] theorem State.onLane_links (s : State) (x : Ctx) (l : Nat) (f : Lane → Lane) : (s.onLane x l f).links = s.links := by simp [State.onLane]
@[simp] theorem State.onLane_dies (s : State) (x : Ctx) (l : Nat) (f : Lane → Lane) : (s.onLane x l f).dies = s.dies := by simp [State.onLane]
@[simp] theorem State.onLane_cores (s : State) (x : Ctx) (l : Nat) (f : Lane → Lane) : (s.onLane x l f).cores = s.cores := by simp [State.onLane]
@[simp] theorem State.onLane_routers (s : State) (x : Ctx) (l : Nat) (f : Lane → Lane) : (s.onLane x l f).routers = s.routers := by simp [State.onLane]
@[simp] theorem State.onLane_packets (s : State) (x : Ctx) (l : Nat) (f : Lane → Lane) : (s.onLane x l f).packets = s.packets := by simp [State.onLane]
@[simp] theorem State.onLane_ops (s : State) (x : Ctx) (l : Nat) (f : Lane → Lane) : (s.onLane x l f).ops = s.ops := by simp [State.onLane]
@[simp] theorem State.onLane_misses (s : State) (x : Ctx) (l : Nat) (f : Lane → Lane) : (s.onLane x l f).misses = s.misses := by simp [State.onLane]
@[simp] theorem State.onLane_outst (s : State) (x : Ctx) (l : Nat) (f : Lane → Lane) : (s.onLane x l f).outst = s.outst := by simp [State.onLane]
@[simp] theorem State.onLane_saved (s : State) (x : Ctx) (l : Nat) (f : Lane → Lane) : (s.onLane x l f).saved = s.saved := by simp [State.onLane]
@[simp] theorem State.onLane_hostq (s : State) (x : Ctx) (l : Nat) (f : Lane → Lane) : (s.onLane x l f).hostq = s.hostq := by simp [State.onLane]
@[simp] theorem State.onLane_out (s : State) (x : Ctx) (l : Nat) (f : Lane → Lane) : (s.onLane x l f).out = s.out := by simp [State.onLane]
@[simp] theorem State.onLane_runs (s : State) (x : Ctx) (l : Nat) (f : Lane → Lane) : (s.onLane x l f).runs = s.runs := by simp [State.onLane]
@[simp] theorem State.onLane_schedule (s : State) (x : Ctx) (l : Nat) (f : Lane → Lane) : (s.onLane x l f).schedule = s.schedule := by simp [State.onLane]
@[simp] theorem State.onLane_nextId (s : State) (x : Ctx) (l : Nat) (f : Lane → Lane) : (s.onLane x l f).nextId = s.nextId := by simp [State.onLane]
@[simp] theorem State.onLane_freeCtr (s : State) (x : Ctx) (l : Nat) (f : Lane → Lane) : (s.onLane x l f).freeCtr = s.freeCtr := by simp [State.onLane]
@[simp] theorem State.onLane_periods (s : State) (x : Ctx) (l : Nat) (f : Lane → Lane) : (s.onLane x l f).periods = s.periods := by simp [State.onLane]

/-! ### State.onGrp -/

@[simp] theorem State.onGrp_time (s : State) (x : Ctx) (f : Group → Group) : (s.onGrp x f).time = s.time := by simp [State.onGrp]
@[simp] theorem State.onGrp_mem (s : State) (x : Ctx) (f : Group → Group) : (s.onGrp x f).mem = s.mem := by simp [State.onGrp]
@[simp] theorem State.onGrp_l3 (s : State) (x : Ctx) (f : Group → Group) : (s.onGrp x f).l3 = s.l3 := by simp [State.onGrp]
@[simp] theorem State.onGrp_l3Granted (s : State) (x : Ctx) (f : Group → Group) : (s.onGrp x f).l3Granted = s.l3Granted := by simp [State.onGrp]
@[simp] theorem State.onGrp_poison (s : State) (x : Ctx) (f : Group → Group) : (s.onGrp x f).poison = s.poison := by simp [State.onGrp]
@[simp] theorem State.onGrp_regs (s : State) (x : Ctx) (f : Group → Group) : (s.onGrp x f).regs = s.regs := by simp [State.onGrp]
@[simp] theorem State.onGrp_asidTab (s : State) (x : Ctx) (f : Group → Group) : (s.onGrp x f).asidTab = s.asidTab := by simp [State.onGrp]
@[simp] theorem State.onGrp_asidCache (s : State) (x : Ctx) (f : Group → Group) : (s.onGrp x f).asidCache = s.asidCache := by simp [State.onGrp]
@[simp] theorem State.onGrp_walkCache (s : State) (x : Ctx) (f : Group → Group) : (s.onGrp x f).walkCache = s.walkCache := by simp [State.onGrp]
@[simp] theorem State.onGrp_spent (s : State) (x : Ctx) (f : Group → Group) : (s.onGrp x f).spent = s.spent := by simp [State.onGrp]
@[simp] theorem State.onGrp_paid (s : State) (x : Ctx) (f : Group → Group) : (s.onGrp x f).paid = s.paid := by simp [State.onGrp]
@[simp] theorem State.onGrp_claimed (s : State) (x : Ctx) (f : Group → Group) : (s.onGrp x f).claimed = s.claimed := by simp [State.onGrp]
@[simp] theorem State.onGrp_acc (s : State) (x : Ctx) (f : Group → Group) : (s.onGrp x f).acc = s.acc := by simp [State.onGrp]
@[simp] theorem State.onGrp_lu (s : State) (x : Ctx) (f : Group → Group) : (s.onGrp x f).lu = s.lu := by simp [State.onGrp]
@[simp] theorem State.onGrp_fq (s : State) (x : Ctx) (f : Group → Group) : (s.onGrp x f).fq = s.fq := by simp [State.onGrp]
@[simp] theorem State.onGrp_routines (s : State) (x : Ctx) (f : Group → Group) : (s.onGrp x f).routines = s.routines := by simp [State.onGrp]
@[simp] theorem State.onGrp_deh (s : State) (x : Ctx) (f : Group → Group) : (s.onGrp x f).deh = s.deh := by simp [State.onGrp]
@[simp] theorem State.onGrp_links (s : State) (x : Ctx) (f : Group → Group) : (s.onGrp x f).links = s.links := by simp [State.onGrp]
@[simp] theorem State.onGrp_dies (s : State) (x : Ctx) (f : Group → Group) : (s.onGrp x f).dies = s.dies := by simp [State.onGrp]
@[simp] theorem State.onGrp_cores (s : State) (x : Ctx) (f : Group → Group) : (s.onGrp x f).cores = s.cores := by simp [State.onGrp]
@[simp] theorem State.onGrp_routers (s : State) (x : Ctx) (f : Group → Group) : (s.onGrp x f).routers = s.routers := by simp [State.onGrp]
@[simp] theorem State.onGrp_packets (s : State) (x : Ctx) (f : Group → Group) : (s.onGrp x f).packets = s.packets := by simp [State.onGrp]
@[simp] theorem State.onGrp_ops (s : State) (x : Ctx) (f : Group → Group) : (s.onGrp x f).ops = s.ops := by simp [State.onGrp]
@[simp] theorem State.onGrp_misses (s : State) (x : Ctx) (f : Group → Group) : (s.onGrp x f).misses = s.misses := by simp [State.onGrp]
@[simp] theorem State.onGrp_outst (s : State) (x : Ctx) (f : Group → Group) : (s.onGrp x f).outst = s.outst := by simp [State.onGrp]
@[simp] theorem State.onGrp_saved (s : State) (x : Ctx) (f : Group → Group) : (s.onGrp x f).saved = s.saved := by simp [State.onGrp]
@[simp] theorem State.onGrp_hostq (s : State) (x : Ctx) (f : Group → Group) : (s.onGrp x f).hostq = s.hostq := by simp [State.onGrp]
@[simp] theorem State.onGrp_out (s : State) (x : Ctx) (f : Group → Group) : (s.onGrp x f).out = s.out := by simp [State.onGrp]
@[simp] theorem State.onGrp_runs (s : State) (x : Ctx) (f : Group → Group) : (s.onGrp x f).runs = s.runs := by simp [State.onGrp]
@[simp] theorem State.onGrp_schedule (s : State) (x : Ctx) (f : Group → Group) : (s.onGrp x f).schedule = s.schedule := by simp [State.onGrp]
@[simp] theorem State.onGrp_nextId (s : State) (x : Ctx) (f : Group → Group) : (s.onGrp x f).nextId = s.nextId := by simp [State.onGrp]
@[simp] theorem State.onGrp_freeCtr (s : State) (x : Ctx) (f : Group → Group) : (s.onGrp x f).freeCtr = s.freeCtr := by simp [State.onGrp]
@[simp] theorem State.onGrp_periods (s : State) (x : Ctx) (f : Group → Group) : (s.onGrp x f).periods = s.periods := by simp [State.onGrp]

/-! ### State.onTeam -/

@[simp] theorem State.onTeam_time (s : State) (x : Ctx) (f : Team → Team) : (s.onTeam x f).time = s.time := by simp [State.onTeam]
@[simp] theorem State.onTeam_mem (s : State) (x : Ctx) (f : Team → Team) : (s.onTeam x f).mem = s.mem := by simp [State.onTeam]
@[simp] theorem State.onTeam_l3 (s : State) (x : Ctx) (f : Team → Team) : (s.onTeam x f).l3 = s.l3 := by simp [State.onTeam]
@[simp] theorem State.onTeam_l3Granted (s : State) (x : Ctx) (f : Team → Team) : (s.onTeam x f).l3Granted = s.l3Granted := by simp [State.onTeam]
@[simp] theorem State.onTeam_poison (s : State) (x : Ctx) (f : Team → Team) : (s.onTeam x f).poison = s.poison := by simp [State.onTeam]
@[simp] theorem State.onTeam_regs (s : State) (x : Ctx) (f : Team → Team) : (s.onTeam x f).regs = s.regs := by simp [State.onTeam]
@[simp] theorem State.onTeam_asidTab (s : State) (x : Ctx) (f : Team → Team) : (s.onTeam x f).asidTab = s.asidTab := by simp [State.onTeam]
@[simp] theorem State.onTeam_asidCache (s : State) (x : Ctx) (f : Team → Team) : (s.onTeam x f).asidCache = s.asidCache := by simp [State.onTeam]
@[simp] theorem State.onTeam_walkCache (s : State) (x : Ctx) (f : Team → Team) : (s.onTeam x f).walkCache = s.walkCache := by simp [State.onTeam]
@[simp] theorem State.onTeam_spent (s : State) (x : Ctx) (f : Team → Team) : (s.onTeam x f).spent = s.spent := by simp [State.onTeam]
@[simp] theorem State.onTeam_paid (s : State) (x : Ctx) (f : Team → Team) : (s.onTeam x f).paid = s.paid := by simp [State.onTeam]
@[simp] theorem State.onTeam_claimed (s : State) (x : Ctx) (f : Team → Team) : (s.onTeam x f).claimed = s.claimed := by simp [State.onTeam]
@[simp] theorem State.onTeam_acc (s : State) (x : Ctx) (f : Team → Team) : (s.onTeam x f).acc = s.acc := by simp [State.onTeam]
@[simp] theorem State.onTeam_lu (s : State) (x : Ctx) (f : Team → Team) : (s.onTeam x f).lu = s.lu := by simp [State.onTeam]
@[simp] theorem State.onTeam_fq (s : State) (x : Ctx) (f : Team → Team) : (s.onTeam x f).fq = s.fq := by simp [State.onTeam]
@[simp] theorem State.onTeam_routines (s : State) (x : Ctx) (f : Team → Team) : (s.onTeam x f).routines = s.routines := by simp [State.onTeam]
@[simp] theorem State.onTeam_deh (s : State) (x : Ctx) (f : Team → Team) : (s.onTeam x f).deh = s.deh := by simp [State.onTeam]
@[simp] theorem State.onTeam_links (s : State) (x : Ctx) (f : Team → Team) : (s.onTeam x f).links = s.links := by simp [State.onTeam]
@[simp] theorem State.onTeam_dies (s : State) (x : Ctx) (f : Team → Team) : (s.onTeam x f).dies = s.dies := by simp [State.onTeam]
@[simp] theorem State.onTeam_cores (s : State) (x : Ctx) (f : Team → Team) : (s.onTeam x f).cores = s.cores := by simp [State.onTeam]
@[simp] theorem State.onTeam_routers (s : State) (x : Ctx) (f : Team → Team) : (s.onTeam x f).routers = s.routers := by simp [State.onTeam]
@[simp] theorem State.onTeam_packets (s : State) (x : Ctx) (f : Team → Team) : (s.onTeam x f).packets = s.packets := by simp [State.onTeam]
@[simp] theorem State.onTeam_ops (s : State) (x : Ctx) (f : Team → Team) : (s.onTeam x f).ops = s.ops := by simp [State.onTeam]
@[simp] theorem State.onTeam_misses (s : State) (x : Ctx) (f : Team → Team) : (s.onTeam x f).misses = s.misses := by simp [State.onTeam]
@[simp] theorem State.onTeam_outst (s : State) (x : Ctx) (f : Team → Team) : (s.onTeam x f).outst = s.outst := by simp [State.onTeam]
@[simp] theorem State.onTeam_saved (s : State) (x : Ctx) (f : Team → Team) : (s.onTeam x f).saved = s.saved := by simp [State.onTeam]
@[simp] theorem State.onTeam_hostq (s : State) (x : Ctx) (f : Team → Team) : (s.onTeam x f).hostq = s.hostq := by simp [State.onTeam]
@[simp] theorem State.onTeam_out (s : State) (x : Ctx) (f : Team → Team) : (s.onTeam x f).out = s.out := by simp [State.onTeam]
@[simp] theorem State.onTeam_runs (s : State) (x : Ctx) (f : Team → Team) : (s.onTeam x f).runs = s.runs := by simp [State.onTeam]
@[simp] theorem State.onTeam_schedule (s : State) (x : Ctx) (f : Team → Team) : (s.onTeam x f).schedule = s.schedule := by simp [State.onTeam]
@[simp] theorem State.onTeam_nextId (s : State) (x : Ctx) (f : Team → Team) : (s.onTeam x f).nextId = s.nextId := by simp [State.onTeam]
@[simp] theorem State.onTeam_freeCtr (s : State) (x : Ctx) (f : Team → Team) : (s.onTeam x f).freeCtr = s.freeCtr := by simp [State.onTeam]
@[simp] theorem State.onTeam_periods (s : State) (x : Ctx) (f : Team → Team) : (s.onTeam x f).periods = s.periods := by simp [State.onTeam]

/-! ### State.setWin -/

@[simp] theorem State.setWin_time (s : State) (t w : Nat) (f : Win → Win) : (s.setWin t w f).time = s.time := by simp [State.setWin]
@[simp] theorem State.setWin_mem (s : State) (t w : Nat) (f : Win → Win) : (s.setWin t w f).mem = s.mem := by simp [State.setWin]
@[simp] theorem State.setWin_l3 (s : State) (t w : Nat) (f : Win → Win) : (s.setWin t w f).l3 = s.l3 := by simp [State.setWin]
@[simp] theorem State.setWin_l3Granted (s : State) (t w : Nat) (f : Win → Win) : (s.setWin t w f).l3Granted = s.l3Granted := by simp [State.setWin]
@[simp] theorem State.setWin_poison (s : State) (t w : Nat) (f : Win → Win) : (s.setWin t w f).poison = s.poison := by simp [State.setWin]
@[simp] theorem State.setWin_regs (s : State) (t w : Nat) (f : Win → Win) : (s.setWin t w f).regs = s.regs := by simp [State.setWin]
@[simp] theorem State.setWin_asidTab (s : State) (t w : Nat) (f : Win → Win) : (s.setWin t w f).asidTab = s.asidTab := by simp [State.setWin]
@[simp] theorem State.setWin_asidCache (s : State) (t w : Nat) (f : Win → Win) : (s.setWin t w f).asidCache = s.asidCache := by simp [State.setWin]
@[simp] theorem State.setWin_walkCache (s : State) (t w : Nat) (f : Win → Win) : (s.setWin t w f).walkCache = s.walkCache := by simp [State.setWin]
@[simp] theorem State.setWin_spent (s : State) (t w : Nat) (f : Win → Win) : (s.setWin t w f).spent = s.spent := by simp [State.setWin]
@[simp] theorem State.setWin_paid (s : State) (t w : Nat) (f : Win → Win) : (s.setWin t w f).paid = s.paid := by simp [State.setWin]
@[simp] theorem State.setWin_claimed (s : State) (t w : Nat) (f : Win → Win) : (s.setWin t w f).claimed = s.claimed := by simp [State.setWin]
@[simp] theorem State.setWin_acc (s : State) (t w : Nat) (f : Win → Win) : (s.setWin t w f).acc = s.acc := by simp [State.setWin]
@[simp] theorem State.setWin_lu (s : State) (t w : Nat) (f : Win → Win) : (s.setWin t w f).lu = s.lu := by simp [State.setWin]
@[simp] theorem State.setWin_fq (s : State) (t w : Nat) (f : Win → Win) : (s.setWin t w f).fq = s.fq := by simp [State.setWin]
@[simp] theorem State.setWin_routines (s : State) (t w : Nat) (f : Win → Win) : (s.setWin t w f).routines = s.routines := by simp [State.setWin]
@[simp] theorem State.setWin_deh (s : State) (t w : Nat) (f : Win → Win) : (s.setWin t w f).deh = s.deh := by simp [State.setWin]
@[simp] theorem State.setWin_links (s : State) (t w : Nat) (f : Win → Win) : (s.setWin t w f).links = s.links := by simp [State.setWin]
@[simp] theorem State.setWin_dies (s : State) (t w : Nat) (f : Win → Win) : (s.setWin t w f).dies = s.dies := by simp [State.setWin]
@[simp] theorem State.setWin_cores (s : State) (t w : Nat) (f : Win → Win) : (s.setWin t w f).cores = s.cores := by simp [State.setWin]
@[simp] theorem State.setWin_routers (s : State) (t w : Nat) (f : Win → Win) : (s.setWin t w f).routers = s.routers := by simp [State.setWin]
@[simp] theorem State.setWin_packets (s : State) (t w : Nat) (f : Win → Win) : (s.setWin t w f).packets = s.packets := by simp [State.setWin]
@[simp] theorem State.setWin_ops (s : State) (t w : Nat) (f : Win → Win) : (s.setWin t w f).ops = s.ops := by simp [State.setWin]
@[simp] theorem State.setWin_misses (s : State) (t w : Nat) (f : Win → Win) : (s.setWin t w f).misses = s.misses := by simp [State.setWin]
@[simp] theorem State.setWin_outst (s : State) (t w : Nat) (f : Win → Win) : (s.setWin t w f).outst = s.outst := by simp [State.setWin]
@[simp] theorem State.setWin_saved (s : State) (t w : Nat) (f : Win → Win) : (s.setWin t w f).saved = s.saved := by simp [State.setWin]
@[simp] theorem State.setWin_hostq (s : State) (t w : Nat) (f : Win → Win) : (s.setWin t w f).hostq = s.hostq := by simp [State.setWin]
@[simp] theorem State.setWin_out (s : State) (t w : Nat) (f : Win → Win) : (s.setWin t w f).out = s.out := by simp [State.setWin]
@[simp] theorem State.setWin_runs (s : State) (t w : Nat) (f : Win → Win) : (s.setWin t w f).runs = s.runs := by simp [State.setWin]
@[simp] theorem State.setWin_schedule (s : State) (t w : Nat) (f : Win → Win) : (s.setWin t w f).schedule = s.schedule := by simp [State.setWin]
@[simp] theorem State.setWin_nextId (s : State) (t w : Nat) (f : Win → Win) : (s.setWin t w f).nextId = s.nextId := by simp [State.setWin]
@[simp] theorem State.setWin_freeCtr (s : State) (t w : Nat) (f : Win → Win) : (s.setWin t w f).freeCtr = s.freeCtr := by simp [State.setWin]
@[simp] theorem State.setWin_periods (s : State) (t w : Nat) (f : Win → Win) : (s.setWin t w f).periods = s.periods := by simp [State.setWin]

/-! ### State.kwct -/

@[simp] theorem State.kwct_time (s : State) (t g w : Nat) : (s.kwct t g w).time = s.time := by simp [State.kwct]
@[simp] theorem State.kwct_mem (s : State) (t g w : Nat) : (s.kwct t g w).mem = s.mem := by simp [State.kwct]
@[simp] theorem State.kwct_l3 (s : State) (t g w : Nat) : (s.kwct t g w).l3 = s.l3 := by simp [State.kwct]
@[simp] theorem State.kwct_l3Granted (s : State) (t g w : Nat) : (s.kwct t g w).l3Granted = s.l3Granted := by simp [State.kwct]
@[simp] theorem State.kwct_poison (s : State) (t g w : Nat) : (s.kwct t g w).poison = s.poison := by simp [State.kwct]
@[simp] theorem State.kwct_regs (s : State) (t g w : Nat) : (s.kwct t g w).regs = s.regs := by simp [State.kwct]
@[simp] theorem State.kwct_asidTab (s : State) (t g w : Nat) : (s.kwct t g w).asidTab = s.asidTab := by simp [State.kwct]
@[simp] theorem State.kwct_asidCache (s : State) (t g w : Nat) : (s.kwct t g w).asidCache = s.asidCache := by simp [State.kwct]
@[simp] theorem State.kwct_walkCache (s : State) (t g w : Nat) : (s.kwct t g w).walkCache = s.walkCache := by simp [State.kwct]
@[simp] theorem State.kwct_spent (s : State) (t g w : Nat) : (s.kwct t g w).spent = s.spent := by simp [State.kwct]
@[simp] theorem State.kwct_paid (s : State) (t g w : Nat) : (s.kwct t g w).paid = s.paid := by simp [State.kwct]
@[simp] theorem State.kwct_claimed (s : State) (t g w : Nat) : (s.kwct t g w).claimed = s.claimed := by simp [State.kwct]
@[simp] theorem State.kwct_acc (s : State) (t g w : Nat) : (s.kwct t g w).acc = s.acc := by simp [State.kwct]
@[simp] theorem State.kwct_lu (s : State) (t g w : Nat) : (s.kwct t g w).lu = s.lu := by simp [State.kwct]
@[simp] theorem State.kwct_fq (s : State) (t g w : Nat) : (s.kwct t g w).fq = s.fq := by simp [State.kwct]
@[simp] theorem State.kwct_routines (s : State) (t g w : Nat) : (s.kwct t g w).routines = s.routines := by simp [State.kwct]
@[simp] theorem State.kwct_deh (s : State) (t g w : Nat) : (s.kwct t g w).deh = s.deh := by simp [State.kwct]
@[simp] theorem State.kwct_links (s : State) (t g w : Nat) : (s.kwct t g w).links = s.links := by simp [State.kwct]
@[simp] theorem State.kwct_dies (s : State) (t g w : Nat) : (s.kwct t g w).dies = s.dies := by simp [State.kwct]
@[simp] theorem State.kwct_cores (s : State) (t g w : Nat) : (s.kwct t g w).cores = s.cores := by simp [State.kwct]
@[simp] theorem State.kwct_routers (s : State) (t g w : Nat) : (s.kwct t g w).routers = s.routers := by simp [State.kwct]
@[simp] theorem State.kwct_packets (s : State) (t g w : Nat) : (s.kwct t g w).packets = s.packets := by simp [State.kwct]
@[simp] theorem State.kwct_ops (s : State) (t g w : Nat) : (s.kwct t g w).ops = s.ops := by simp [State.kwct]
@[simp] theorem State.kwct_misses (s : State) (t g w : Nat) : (s.kwct t g w).misses = s.misses := by simp [State.kwct]
@[simp] theorem State.kwct_outst (s : State) (t g w : Nat) : (s.kwct t g w).outst = s.outst := by simp [State.kwct]
@[simp] theorem State.kwct_saved (s : State) (t g w : Nat) : (s.kwct t g w).saved = s.saved := by simp [State.kwct]
@[simp] theorem State.kwct_hostq (s : State) (t g w : Nat) : (s.kwct t g w).hostq = s.hostq := by simp [State.kwct]
@[simp] theorem State.kwct_out (s : State) (t g w : Nat) : (s.kwct t g w).out = s.out := by simp [State.kwct]
@[simp] theorem State.kwct_runs (s : State) (t g w : Nat) : (s.kwct t g w).runs = s.runs := by simp [State.kwct]
@[simp] theorem State.kwct_schedule (s : State) (t g w : Nat) : (s.kwct t g w).schedule = s.schedule := by simp [State.kwct]
@[simp] theorem State.kwct_nextId (s : State) (t g w : Nat) : (s.kwct t g w).nextId = s.nextId := by simp [State.kwct]
@[simp] theorem State.kwct_freeCtr (s : State) (t g w : Nat) : (s.kwct t g w).freeCtr = s.freeCtr := by simp [State.kwct]
@[simp] theorem State.kwct_periods (s : State) (t g w : Nat) : (s.kwct t g w).periods = s.periods := by simp [State.kwct]

/-! ### State.addPath -/

@[simp] theorem State.addPath_time (s : State) (t g n : Nat) : (s.addPath t g n).time = s.time := by simp [State.addPath]
@[simp] theorem State.addPath_mem (s : State) (t g n : Nat) : (s.addPath t g n).mem = s.mem := by simp [State.addPath]
@[simp] theorem State.addPath_l3 (s : State) (t g n : Nat) : (s.addPath t g n).l3 = s.l3 := by simp [State.addPath]
@[simp] theorem State.addPath_l3Granted (s : State) (t g n : Nat) : (s.addPath t g n).l3Granted = s.l3Granted := by simp [State.addPath]
@[simp] theorem State.addPath_poison (s : State) (t g n : Nat) : (s.addPath t g n).poison = s.poison := by simp [State.addPath]
@[simp] theorem State.addPath_regs (s : State) (t g n : Nat) : (s.addPath t g n).regs = s.regs := by simp [State.addPath]
@[simp] theorem State.addPath_asidTab (s : State) (t g n : Nat) : (s.addPath t g n).asidTab = s.asidTab := by simp [State.addPath]
@[simp] theorem State.addPath_asidCache (s : State) (t g n : Nat) : (s.addPath t g n).asidCache = s.asidCache := by simp [State.addPath]
@[simp] theorem State.addPath_walkCache (s : State) (t g n : Nat) : (s.addPath t g n).walkCache = s.walkCache := by simp [State.addPath]
@[simp] theorem State.addPath_spent (s : State) (t g n : Nat) : (s.addPath t g n).spent = s.spent := by simp [State.addPath]
@[simp] theorem State.addPath_paid (s : State) (t g n : Nat) : (s.addPath t g n).paid = s.paid := by simp [State.addPath]
@[simp] theorem State.addPath_claimed (s : State) (t g n : Nat) : (s.addPath t g n).claimed = s.claimed := by simp [State.addPath]
@[simp] theorem State.addPath_acc (s : State) (t g n : Nat) : (s.addPath t g n).acc = s.acc := by simp [State.addPath]
@[simp] theorem State.addPath_lu (s : State) (t g n : Nat) : (s.addPath t g n).lu = s.lu := by simp [State.addPath]
@[simp] theorem State.addPath_fq (s : State) (t g n : Nat) : (s.addPath t g n).fq = s.fq := by simp [State.addPath]
@[simp] theorem State.addPath_routines (s : State) (t g n : Nat) : (s.addPath t g n).routines = s.routines := by simp [State.addPath]
@[simp] theorem State.addPath_deh (s : State) (t g n : Nat) : (s.addPath t g n).deh = s.deh := by simp [State.addPath]
@[simp] theorem State.addPath_links (s : State) (t g n : Nat) : (s.addPath t g n).links = s.links := by simp [State.addPath]
@[simp] theorem State.addPath_dies (s : State) (t g n : Nat) : (s.addPath t g n).dies = s.dies := by simp [State.addPath]
@[simp] theorem State.addPath_cores (s : State) (t g n : Nat) : (s.addPath t g n).cores = s.cores := by simp [State.addPath]
@[simp] theorem State.addPath_routers (s : State) (t g n : Nat) : (s.addPath t g n).routers = s.routers := by simp [State.addPath]
@[simp] theorem State.addPath_packets (s : State) (t g n : Nat) : (s.addPath t g n).packets = s.packets := by simp [State.addPath]
@[simp] theorem State.addPath_ops (s : State) (t g n : Nat) : (s.addPath t g n).ops = s.ops := by simp [State.addPath]
@[simp] theorem State.addPath_misses (s : State) (t g n : Nat) : (s.addPath t g n).misses = s.misses := by simp [State.addPath]
@[simp] theorem State.addPath_outst (s : State) (t g n : Nat) : (s.addPath t g n).outst = s.outst := by simp [State.addPath]
@[simp] theorem State.addPath_saved (s : State) (t g n : Nat) : (s.addPath t g n).saved = s.saved := by simp [State.addPath]
@[simp] theorem State.addPath_hostq (s : State) (t g n : Nat) : (s.addPath t g n).hostq = s.hostq := by simp [State.addPath]
@[simp] theorem State.addPath_out (s : State) (t g n : Nat) : (s.addPath t g n).out = s.out := by simp [State.addPath]
@[simp] theorem State.addPath_runs (s : State) (t g n : Nat) : (s.addPath t g n).runs = s.runs := by simp [State.addPath]
@[simp] theorem State.addPath_schedule (s : State) (t g n : Nat) : (s.addPath t g n).schedule = s.schedule := by simp [State.addPath]
@[simp] theorem State.addPath_nextId (s : State) (t g n : Nat) : (s.addPath t g n).nextId = s.nextId := by simp [State.addPath]
@[simp] theorem State.addPath_freeCtr (s : State) (t g n : Nat) : (s.addPath t g n).freeCtr = s.freeCtr := by simp [State.addPath]
@[simp] theorem State.addPath_periods (s : State) (t g n : Nat) : (s.addPath t g n).periods = s.periods := by simp [State.addPath]

/-! ### State.decTok -/

@[simp] theorem State.decTok_time (s : State) (t g k : Nat) : (s.decTok t g k).time = s.time := by simp [State.decTok]
@[simp] theorem State.decTok_mem (s : State) (t g k : Nat) : (s.decTok t g k).mem = s.mem := by simp [State.decTok]
@[simp] theorem State.decTok_l3 (s : State) (t g k : Nat) : (s.decTok t g k).l3 = s.l3 := by simp [State.decTok]
@[simp] theorem State.decTok_l3Granted (s : State) (t g k : Nat) : (s.decTok t g k).l3Granted = s.l3Granted := by simp [State.decTok]
@[simp] theorem State.decTok_poison (s : State) (t g k : Nat) : (s.decTok t g k).poison = s.poison := by simp [State.decTok]
@[simp] theorem State.decTok_regs (s : State) (t g k : Nat) : (s.decTok t g k).regs = s.regs := by simp [State.decTok]
@[simp] theorem State.decTok_asidTab (s : State) (t g k : Nat) : (s.decTok t g k).asidTab = s.asidTab := by simp [State.decTok]
@[simp] theorem State.decTok_asidCache (s : State) (t g k : Nat) : (s.decTok t g k).asidCache = s.asidCache := by simp [State.decTok]
@[simp] theorem State.decTok_walkCache (s : State) (t g k : Nat) : (s.decTok t g k).walkCache = s.walkCache := by simp [State.decTok]
@[simp] theorem State.decTok_spent (s : State) (t g k : Nat) : (s.decTok t g k).spent = s.spent := by simp [State.decTok]
@[simp] theorem State.decTok_paid (s : State) (t g k : Nat) : (s.decTok t g k).paid = s.paid := by simp [State.decTok]
@[simp] theorem State.decTok_claimed (s : State) (t g k : Nat) : (s.decTok t g k).claimed = s.claimed := by simp [State.decTok]
@[simp] theorem State.decTok_acc (s : State) (t g k : Nat) : (s.decTok t g k).acc = s.acc := by simp [State.decTok]
@[simp] theorem State.decTok_lu (s : State) (t g k : Nat) : (s.decTok t g k).lu = s.lu := by simp [State.decTok]
@[simp] theorem State.decTok_fq (s : State) (t g k : Nat) : (s.decTok t g k).fq = s.fq := by simp [State.decTok]
@[simp] theorem State.decTok_routines (s : State) (t g k : Nat) : (s.decTok t g k).routines = s.routines := by simp [State.decTok]
@[simp] theorem State.decTok_deh (s : State) (t g k : Nat) : (s.decTok t g k).deh = s.deh := by simp [State.decTok]
@[simp] theorem State.decTok_links (s : State) (t g k : Nat) : (s.decTok t g k).links = s.links := by simp [State.decTok]
@[simp] theorem State.decTok_dies (s : State) (t g k : Nat) : (s.decTok t g k).dies = s.dies := by simp [State.decTok]
@[simp] theorem State.decTok_cores (s : State) (t g k : Nat) : (s.decTok t g k).cores = s.cores := by simp [State.decTok]
@[simp] theorem State.decTok_routers (s : State) (t g k : Nat) : (s.decTok t g k).routers = s.routers := by simp [State.decTok]
@[simp] theorem State.decTok_packets (s : State) (t g k : Nat) : (s.decTok t g k).packets = s.packets := by simp [State.decTok]
@[simp] theorem State.decTok_ops (s : State) (t g k : Nat) : (s.decTok t g k).ops = s.ops := by simp [State.decTok]
@[simp] theorem State.decTok_misses (s : State) (t g k : Nat) : (s.decTok t g k).misses = s.misses := by simp [State.decTok]
@[simp] theorem State.decTok_outst (s : State) (t g k : Nat) : (s.decTok t g k).outst = s.outst := by simp [State.decTok]
@[simp] theorem State.decTok_saved (s : State) (t g k : Nat) : (s.decTok t g k).saved = s.saved := by simp [State.decTok]
@[simp] theorem State.decTok_hostq (s : State) (t g k : Nat) : (s.decTok t g k).hostq = s.hostq := by simp [State.decTok]
@[simp] theorem State.decTok_out (s : State) (t g k : Nat) : (s.decTok t g k).out = s.out := by simp [State.decTok]
@[simp] theorem State.decTok_runs (s : State) (t g k : Nat) : (s.decTok t g k).runs = s.runs := by simp [State.decTok]
@[simp] theorem State.decTok_schedule (s : State) (t g k : Nat) : (s.decTok t g k).schedule = s.schedule := by simp [State.decTok]
@[simp] theorem State.decTok_nextId (s : State) (t g k : Nat) : (s.decTok t g k).nextId = s.nextId := by simp [State.decTok]
@[simp] theorem State.decTok_freeCtr (s : State) (t g k : Nat) : (s.decTok t g k).freeCtr = s.freeCtr := by simp [State.decTok]
@[simp] theorem State.decTok_periods (s : State) (t g k : Nat) : (s.decTok t g k).periods = s.periods := by simp [State.decTok]

/-! ### State.fillPend -/

@[simp] theorem State.fillPend_time (s : State) (t g l i v : Nat) : (s.fillPend t g l i v).time = s.time := by simp [State.fillPend]
@[simp] theorem State.fillPend_mem (s : State) (t g l i v : Nat) : (s.fillPend t g l i v).mem = s.mem := by simp [State.fillPend]
@[simp] theorem State.fillPend_l3 (s : State) (t g l i v : Nat) : (s.fillPend t g l i v).l3 = s.l3 := by simp [State.fillPend]
@[simp] theorem State.fillPend_l3Granted (s : State) (t g l i v : Nat) : (s.fillPend t g l i v).l3Granted = s.l3Granted := by simp [State.fillPend]
@[simp] theorem State.fillPend_poison (s : State) (t g l i v : Nat) : (s.fillPend t g l i v).poison = s.poison := by simp [State.fillPend]
@[simp] theorem State.fillPend_regs (s : State) (t g l i v : Nat) : (s.fillPend t g l i v).regs = s.regs := by simp [State.fillPend]
@[simp] theorem State.fillPend_asidTab (s : State) (t g l i v : Nat) : (s.fillPend t g l i v).asidTab = s.asidTab := by simp [State.fillPend]
@[simp] theorem State.fillPend_asidCache (s : State) (t g l i v : Nat) : (s.fillPend t g l i v).asidCache = s.asidCache := by simp [State.fillPend]
@[simp] theorem State.fillPend_walkCache (s : State) (t g l i v : Nat) : (s.fillPend t g l i v).walkCache = s.walkCache := by simp [State.fillPend]
@[simp] theorem State.fillPend_spent (s : State) (t g l i v : Nat) : (s.fillPend t g l i v).spent = s.spent := by simp [State.fillPend]
@[simp] theorem State.fillPend_paid (s : State) (t g l i v : Nat) : (s.fillPend t g l i v).paid = s.paid := by simp [State.fillPend]
@[simp] theorem State.fillPend_claimed (s : State) (t g l i v : Nat) : (s.fillPend t g l i v).claimed = s.claimed := by simp [State.fillPend]
@[simp] theorem State.fillPend_acc (s : State) (t g l i v : Nat) : (s.fillPend t g l i v).acc = s.acc := by simp [State.fillPend]
@[simp] theorem State.fillPend_lu (s : State) (t g l i v : Nat) : (s.fillPend t g l i v).lu = s.lu := by simp [State.fillPend]
@[simp] theorem State.fillPend_fq (s : State) (t g l i v : Nat) : (s.fillPend t g l i v).fq = s.fq := by simp [State.fillPend]
@[simp] theorem State.fillPend_routines (s : State) (t g l i v : Nat) : (s.fillPend t g l i v).routines = s.routines := by simp [State.fillPend]
@[simp] theorem State.fillPend_deh (s : State) (t g l i v : Nat) : (s.fillPend t g l i v).deh = s.deh := by simp [State.fillPend]
@[simp] theorem State.fillPend_links (s : State) (t g l i v : Nat) : (s.fillPend t g l i v).links = s.links := by simp [State.fillPend]
@[simp] theorem State.fillPend_dies (s : State) (t g l i v : Nat) : (s.fillPend t g l i v).dies = s.dies := by simp [State.fillPend]
@[simp] theorem State.fillPend_cores (s : State) (t g l i v : Nat) : (s.fillPend t g l i v).cores = s.cores := by simp [State.fillPend]
@[simp] theorem State.fillPend_routers (s : State) (t g l i v : Nat) : (s.fillPend t g l i v).routers = s.routers := by simp [State.fillPend]
@[simp] theorem State.fillPend_packets (s : State) (t g l i v : Nat) : (s.fillPend t g l i v).packets = s.packets := by simp [State.fillPend]
@[simp] theorem State.fillPend_ops (s : State) (t g l i v : Nat) : (s.fillPend t g l i v).ops = s.ops := by simp [State.fillPend]
@[simp] theorem State.fillPend_misses (s : State) (t g l i v : Nat) : (s.fillPend t g l i v).misses = s.misses := by simp [State.fillPend]
@[simp] theorem State.fillPend_outst (s : State) (t g l i v : Nat) : (s.fillPend t g l i v).outst = s.outst := by simp [State.fillPend]
@[simp] theorem State.fillPend_saved (s : State) (t g l i v : Nat) : (s.fillPend t g l i v).saved = s.saved := by simp [State.fillPend]
@[simp] theorem State.fillPend_hostq (s : State) (t g l i v : Nat) : (s.fillPend t g l i v).hostq = s.hostq := by simp [State.fillPend]
@[simp] theorem State.fillPend_out (s : State) (t g l i v : Nat) : (s.fillPend t g l i v).out = s.out := by simp [State.fillPend]
@[simp] theorem State.fillPend_runs (s : State) (t g l i v : Nat) : (s.fillPend t g l i v).runs = s.runs := by simp [State.fillPend]
@[simp] theorem State.fillPend_schedule (s : State) (t g l i v : Nat) : (s.fillPend t g l i v).schedule = s.schedule := by simp [State.fillPend]
@[simp] theorem State.fillPend_nextId (s : State) (t g l i v : Nat) : (s.fillPend t g l i v).nextId = s.nextId := by simp [State.fillPend]
@[simp] theorem State.fillPend_freeCtr (s : State) (t g l i v : Nat) : (s.fillPend t g l i v).freeCtr = s.freeCtr := by simp [State.fillPend]
@[simp] theorem State.fillPend_periods (s : State) (t g l i v : Nat) : (s.fillPend t g l i v).periods = s.periods := by simp [State.fillPend]

/-! ### State.decTok? -/

@[simp] theorem State.decTok?_time (s : State) (t g : Nat) (k : Option Nat) : (s.decTok? t g k).time = s.time := by unfold State.decTok?; split <;> simp
@[simp] theorem State.decTok?_mem (s : State) (t g : Nat) (k : Option Nat) : (s.decTok? t g k).mem = s.mem := by unfold State.decTok?; split <;> simp
@[simp] theorem State.decTok?_l3 (s : State) (t g : Nat) (k : Option Nat) : (s.decTok? t g k).l3 = s.l3 := by unfold State.decTok?; split <;> simp
@[simp] theorem State.decTok?_l3Granted (s : State) (t g : Nat) (k : Option Nat) : (s.decTok? t g k).l3Granted = s.l3Granted := by unfold State.decTok?; split <;> simp
@[simp] theorem State.decTok?_poison (s : State) (t g : Nat) (k : Option Nat) : (s.decTok? t g k).poison = s.poison := by unfold State.decTok?; split <;> simp
@[simp] theorem State.decTok?_regs (s : State) (t g : Nat) (k : Option Nat) : (s.decTok? t g k).regs = s.regs := by unfold State.decTok?; split <;> simp
@[simp] theorem State.decTok?_asidTab (s : State) (t g : Nat) (k : Option Nat) : (s.decTok? t g k).asidTab = s.asidTab := by unfold State.decTok?; split <;> simp
@[simp] theorem State.decTok?_asidCache (s : State) (t g : Nat) (k : Option Nat) : (s.decTok? t g k).asidCache = s.asidCache := by unfold State.decTok?; split <;> simp
@[simp] theorem State.decTok?_walkCache (s : State) (t g : Nat) (k : Option Nat) : (s.decTok? t g k).walkCache = s.walkCache := by unfold State.decTok?; split <;> simp
@[simp] theorem State.decTok?_spent (s : State) (t g : Nat) (k : Option Nat) : (s.decTok? t g k).spent = s.spent := by unfold State.decTok?; split <;> simp
@[simp] theorem State.decTok?_paid (s : State) (t g : Nat) (k : Option Nat) : (s.decTok? t g k).paid = s.paid := by unfold State.decTok?; split <;> simp
@[simp] theorem State.decTok?_claimed (s : State) (t g : Nat) (k : Option Nat) : (s.decTok? t g k).claimed = s.claimed := by unfold State.decTok?; split <;> simp
@[simp] theorem State.decTok?_acc (s : State) (t g : Nat) (k : Option Nat) : (s.decTok? t g k).acc = s.acc := by unfold State.decTok?; split <;> simp
@[simp] theorem State.decTok?_lu (s : State) (t g : Nat) (k : Option Nat) : (s.decTok? t g k).lu = s.lu := by unfold State.decTok?; split <;> simp
@[simp] theorem State.decTok?_fq (s : State) (t g : Nat) (k : Option Nat) : (s.decTok? t g k).fq = s.fq := by unfold State.decTok?; split <;> simp
@[simp] theorem State.decTok?_routines (s : State) (t g : Nat) (k : Option Nat) : (s.decTok? t g k).routines = s.routines := by unfold State.decTok?; split <;> simp
@[simp] theorem State.decTok?_deh (s : State) (t g : Nat) (k : Option Nat) : (s.decTok? t g k).deh = s.deh := by unfold State.decTok?; split <;> simp
@[simp] theorem State.decTok?_links (s : State) (t g : Nat) (k : Option Nat) : (s.decTok? t g k).links = s.links := by unfold State.decTok?; split <;> simp
@[simp] theorem State.decTok?_dies (s : State) (t g : Nat) (k : Option Nat) : (s.decTok? t g k).dies = s.dies := by unfold State.decTok?; split <;> simp
@[simp] theorem State.decTok?_cores (s : State) (t g : Nat) (k : Option Nat) : (s.decTok? t g k).cores = s.cores := by unfold State.decTok?; split <;> simp
@[simp] theorem State.decTok?_routers (s : State) (t g : Nat) (k : Option Nat) : (s.decTok? t g k).routers = s.routers := by unfold State.decTok?; split <;> simp
@[simp] theorem State.decTok?_packets (s : State) (t g : Nat) (k : Option Nat) : (s.decTok? t g k).packets = s.packets := by unfold State.decTok?; split <;> simp
@[simp] theorem State.decTok?_ops (s : State) (t g : Nat) (k : Option Nat) : (s.decTok? t g k).ops = s.ops := by unfold State.decTok?; split <;> simp
@[simp] theorem State.decTok?_misses (s : State) (t g : Nat) (k : Option Nat) : (s.decTok? t g k).misses = s.misses := by unfold State.decTok?; split <;> simp
@[simp] theorem State.decTok?_outst (s : State) (t g : Nat) (k : Option Nat) : (s.decTok? t g k).outst = s.outst := by unfold State.decTok?; split <;> simp
@[simp] theorem State.decTok?_saved (s : State) (t g : Nat) (k : Option Nat) : (s.decTok? t g k).saved = s.saved := by unfold State.decTok?; split <;> simp
@[simp] theorem State.decTok?_hostq (s : State) (t g : Nat) (k : Option Nat) : (s.decTok? t g k).hostq = s.hostq := by unfold State.decTok?; split <;> simp
@[simp] theorem State.decTok?_out (s : State) (t g : Nat) (k : Option Nat) : (s.decTok? t g k).out = s.out := by unfold State.decTok?; split <;> simp
@[simp] theorem State.decTok?_runs (s : State) (t g : Nat) (k : Option Nat) : (s.decTok? t g k).runs = s.runs := by unfold State.decTok?; split <;> simp
@[simp] theorem State.decTok?_schedule (s : State) (t g : Nat) (k : Option Nat) : (s.decTok? t g k).schedule = s.schedule := by unfold State.decTok?; split <;> simp
@[simp] theorem State.decTok?_nextId (s : State) (t g : Nat) (k : Option Nat) : (s.decTok? t g k).nextId = s.nextId := by unfold State.decTok?; split <;> simp
@[simp] theorem State.decTok?_freeCtr (s : State) (t g : Nat) (k : Option Nat) : (s.decTok? t g k).freeCtr = s.freeCtr := by unfold State.decTok?; split <;> simp
@[simp] theorem State.decTok?_periods (s : State) (t g : Nat) (k : Option Nat) : (s.decTok? t g k).periods = s.periods := by unfold State.decTok?; split <;> simp

/-! ### State.addPart -/

@[simp] theorem State.addPart_time (s : State) (t g k : Nat) : (s.addPart t g k).time = s.time := by simp [State.addPart]
@[simp] theorem State.addPart_mem (s : State) (t g k : Nat) : (s.addPart t g k).mem = s.mem := by simp [State.addPart]
@[simp] theorem State.addPart_l3 (s : State) (t g k : Nat) : (s.addPart t g k).l3 = s.l3 := by simp [State.addPart]
@[simp] theorem State.addPart_l3Granted (s : State) (t g k : Nat) : (s.addPart t g k).l3Granted = s.l3Granted := by simp [State.addPart]
@[simp] theorem State.addPart_poison (s : State) (t g k : Nat) : (s.addPart t g k).poison = s.poison := by simp [State.addPart]
@[simp] theorem State.addPart_regs (s : State) (t g k : Nat) : (s.addPart t g k).regs = s.regs := by simp [State.addPart]
@[simp] theorem State.addPart_asidTab (s : State) (t g k : Nat) : (s.addPart t g k).asidTab = s.asidTab := by simp [State.addPart]
@[simp] theorem State.addPart_asidCache (s : State) (t g k : Nat) : (s.addPart t g k).asidCache = s.asidCache := by simp [State.addPart]
@[simp] theorem State.addPart_walkCache (s : State) (t g k : Nat) : (s.addPart t g k).walkCache = s.walkCache := by simp [State.addPart]
@[simp] theorem State.addPart_spent (s : State) (t g k : Nat) : (s.addPart t g k).spent = s.spent := by simp [State.addPart]
@[simp] theorem State.addPart_paid (s : State) (t g k : Nat) : (s.addPart t g k).paid = s.paid := by simp [State.addPart]
@[simp] theorem State.addPart_claimed (s : State) (t g k : Nat) : (s.addPart t g k).claimed = s.claimed := by simp [State.addPart]
@[simp] theorem State.addPart_acc (s : State) (t g k : Nat) : (s.addPart t g k).acc = s.acc := by simp [State.addPart]
@[simp] theorem State.addPart_lu (s : State) (t g k : Nat) : (s.addPart t g k).lu = s.lu := by simp [State.addPart]
@[simp] theorem State.addPart_fq (s : State) (t g k : Nat) : (s.addPart t g k).fq = s.fq := by simp [State.addPart]
@[simp] theorem State.addPart_routines (s : State) (t g k : Nat) : (s.addPart t g k).routines = s.routines := by simp [State.addPart]
@[simp] theorem State.addPart_deh (s : State) (t g k : Nat) : (s.addPart t g k).deh = s.deh := by simp [State.addPart]
@[simp] theorem State.addPart_links (s : State) (t g k : Nat) : (s.addPart t g k).links = s.links := by simp [State.addPart]
@[simp] theorem State.addPart_dies (s : State) (t g k : Nat) : (s.addPart t g k).dies = s.dies := by simp [State.addPart]
@[simp] theorem State.addPart_cores (s : State) (t g k : Nat) : (s.addPart t g k).cores = s.cores := by simp [State.addPart]
@[simp] theorem State.addPart_routers (s : State) (t g k : Nat) : (s.addPart t g k).routers = s.routers := by simp [State.addPart]
@[simp] theorem State.addPart_packets (s : State) (t g k : Nat) : (s.addPart t g k).packets = s.packets := by simp [State.addPart]
@[simp] theorem State.addPart_ops (s : State) (t g k : Nat) : (s.addPart t g k).ops = s.ops := by simp [State.addPart]
@[simp] theorem State.addPart_misses (s : State) (t g k : Nat) : (s.addPart t g k).misses = s.misses := by simp [State.addPart]
@[simp] theorem State.addPart_outst (s : State) (t g k : Nat) : (s.addPart t g k).outst = s.outst := by simp [State.addPart]
@[simp] theorem State.addPart_saved (s : State) (t g k : Nat) : (s.addPart t g k).saved = s.saved := by simp [State.addPart]
@[simp] theorem State.addPart_hostq (s : State) (t g k : Nat) : (s.addPart t g k).hostq = s.hostq := by simp [State.addPart]
@[simp] theorem State.addPart_out (s : State) (t g k : Nat) : (s.addPart t g k).out = s.out := by simp [State.addPart]
@[simp] theorem State.addPart_runs (s : State) (t g k : Nat) : (s.addPart t g k).runs = s.runs := by simp [State.addPart]
@[simp] theorem State.addPart_schedule (s : State) (t g k : Nat) : (s.addPart t g k).schedule = s.schedule := by simp [State.addPart]
@[simp] theorem State.addPart_nextId (s : State) (t g k : Nat) : (s.addPart t g k).nextId = s.nextId := by simp [State.addPart]
@[simp] theorem State.addPart_freeCtr (s : State) (t g k : Nat) : (s.addPart t g k).freeCtr = s.freeCtr := by simp [State.addPart]
@[simp] theorem State.addPart_periods (s : State) (t g k : Nat) : (s.addPart t g k).periods = s.periods := by simp [State.addPart]

/-- What differs from a state in its teams alone still does when a team changes. -/
theorem State.modTeam_teams {s u : State} (h : ∃ m, u = { s with teams := m }) (t : Nat) (f : Team → Team) :
    ∃ m, u.modTeam t f = { s with teams := m } := by
  obtain ⟨m, rfl⟩ := h
  unfold State.modTeam; split
  · exact ⟨_, rfl⟩
  · exact ⟨m, rfl⟩

/-- Giving up parts of counted instructions changes teams alone (R81). -/
theorem State.releaseHeld_teams {s u : State} (h : ∃ m, u = { s with teams := m }) (t g l : Nat) :
    ∃ m, State.releaseHeld t g u l = { s with teams := m } := by
  unfold State.releaseHeld; split
  · exact h
  · unfold State.decTok State.modLane State.modGrp
    exact State.modTeam_teams (State.modTeam_teams h _ _) _ _

theorem State.releaseAll_teams (s : State) (t g : Nat) (l : List Nat) : ∃ m, s.releaseAll t g l = { s with teams := m } := by
  unfold State.releaseAll; split
  · exact ⟨s.teams, rfl⟩
  · generalize l.filter _ = k
    suffices ∀ u : State, (∃ m, u = { s with teams := m }) → ∃ m, k.foldl (State.releaseHeld t g) u = { s with teams := m } from
      this s ⟨s.teams, rfl⟩
    induction k with
    | nil => exact fun _ h => h
    | cons a k ih => exact fun u h => ih _ (State.releaseHeld_teams h t g a)

/-! ### State.releaseAll -/

@[simp] theorem State.releaseAll_time (s : State) (t g : Nat) (l : List Nat) : (s.releaseAll t g l).time = s.time := by obtain ⟨m, h⟩ := State.releaseAll_teams s t g l; rw [h]
@[simp] theorem State.releaseAll_mem (s : State) (t g : Nat) (l : List Nat) : (s.releaseAll t g l).mem = s.mem := by obtain ⟨m, h⟩ := State.releaseAll_teams s t g l; rw [h]
@[simp] theorem State.releaseAll_l3 (s : State) (t g : Nat) (l : List Nat) : (s.releaseAll t g l).l3 = s.l3 := by obtain ⟨m, h⟩ := State.releaseAll_teams s t g l; rw [h]
@[simp] theorem State.releaseAll_l3Granted (s : State) (t g : Nat) (l : List Nat) : (s.releaseAll t g l).l3Granted = s.l3Granted := by obtain ⟨m, h⟩ := State.releaseAll_teams s t g l; rw [h]
@[simp] theorem State.releaseAll_poison (s : State) (t g : Nat) (l : List Nat) : (s.releaseAll t g l).poison = s.poison := by obtain ⟨m, h⟩ := State.releaseAll_teams s t g l; rw [h]
@[simp] theorem State.releaseAll_regs (s : State) (t g : Nat) (l : List Nat) : (s.releaseAll t g l).regs = s.regs := by obtain ⟨m, h⟩ := State.releaseAll_teams s t g l; rw [h]
@[simp] theorem State.releaseAll_asidTab (s : State) (t g : Nat) (l : List Nat) : (s.releaseAll t g l).asidTab = s.asidTab := by obtain ⟨m, h⟩ := State.releaseAll_teams s t g l; rw [h]
@[simp] theorem State.releaseAll_asidCache (s : State) (t g : Nat) (l : List Nat) : (s.releaseAll t g l).asidCache = s.asidCache := by obtain ⟨m, h⟩ := State.releaseAll_teams s t g l; rw [h]
@[simp] theorem State.releaseAll_walkCache (s : State) (t g : Nat) (l : List Nat) : (s.releaseAll t g l).walkCache = s.walkCache := by obtain ⟨m, h⟩ := State.releaseAll_teams s t g l; rw [h]
@[simp] theorem State.releaseAll_spent (s : State) (t g : Nat) (l : List Nat) : (s.releaseAll t g l).spent = s.spent := by obtain ⟨m, h⟩ := State.releaseAll_teams s t g l; rw [h]
@[simp] theorem State.releaseAll_paid (s : State) (t g : Nat) (l : List Nat) : (s.releaseAll t g l).paid = s.paid := by obtain ⟨m, h⟩ := State.releaseAll_teams s t g l; rw [h]
@[simp] theorem State.releaseAll_claimed (s : State) (t g : Nat) (l : List Nat) : (s.releaseAll t g l).claimed = s.claimed := by obtain ⟨m, h⟩ := State.releaseAll_teams s t g l; rw [h]
@[simp] theorem State.releaseAll_acc (s : State) (t g : Nat) (l : List Nat) : (s.releaseAll t g l).acc = s.acc := by obtain ⟨m, h⟩ := State.releaseAll_teams s t g l; rw [h]
@[simp] theorem State.releaseAll_lu (s : State) (t g : Nat) (l : List Nat) : (s.releaseAll t g l).lu = s.lu := by obtain ⟨m, h⟩ := State.releaseAll_teams s t g l; rw [h]
@[simp] theorem State.releaseAll_fq (s : State) (t g : Nat) (l : List Nat) : (s.releaseAll t g l).fq = s.fq := by obtain ⟨m, h⟩ := State.releaseAll_teams s t g l; rw [h]
@[simp] theorem State.releaseAll_routines (s : State) (t g : Nat) (l : List Nat) : (s.releaseAll t g l).routines = s.routines := by obtain ⟨m, h⟩ := State.releaseAll_teams s t g l; rw [h]
@[simp] theorem State.releaseAll_deh (s : State) (t g : Nat) (l : List Nat) : (s.releaseAll t g l).deh = s.deh := by obtain ⟨m, h⟩ := State.releaseAll_teams s t g l; rw [h]
@[simp] theorem State.releaseAll_links (s : State) (t g : Nat) (l : List Nat) : (s.releaseAll t g l).links = s.links := by obtain ⟨m, h⟩ := State.releaseAll_teams s t g l; rw [h]
@[simp] theorem State.releaseAll_dies (s : State) (t g : Nat) (l : List Nat) : (s.releaseAll t g l).dies = s.dies := by obtain ⟨m, h⟩ := State.releaseAll_teams s t g l; rw [h]
@[simp] theorem State.releaseAll_cores (s : State) (t g : Nat) (l : List Nat) : (s.releaseAll t g l).cores = s.cores := by obtain ⟨m, h⟩ := State.releaseAll_teams s t g l; rw [h]
@[simp] theorem State.releaseAll_routers (s : State) (t g : Nat) (l : List Nat) : (s.releaseAll t g l).routers = s.routers := by obtain ⟨m, h⟩ := State.releaseAll_teams s t g l; rw [h]
@[simp] theorem State.releaseAll_packets (s : State) (t g : Nat) (l : List Nat) : (s.releaseAll t g l).packets = s.packets := by obtain ⟨m, h⟩ := State.releaseAll_teams s t g l; rw [h]
@[simp] theorem State.releaseAll_ops (s : State) (t g : Nat) (l : List Nat) : (s.releaseAll t g l).ops = s.ops := by obtain ⟨m, h⟩ := State.releaseAll_teams s t g l; rw [h]
@[simp] theorem State.releaseAll_misses (s : State) (t g : Nat) (l : List Nat) : (s.releaseAll t g l).misses = s.misses := by obtain ⟨m, h⟩ := State.releaseAll_teams s t g l; rw [h]
@[simp] theorem State.releaseAll_outst (s : State) (t g : Nat) (l : List Nat) : (s.releaseAll t g l).outst = s.outst := by obtain ⟨m, h⟩ := State.releaseAll_teams s t g l; rw [h]
@[simp] theorem State.releaseAll_saved (s : State) (t g : Nat) (l : List Nat) : (s.releaseAll t g l).saved = s.saved := by obtain ⟨m, h⟩ := State.releaseAll_teams s t g l; rw [h]
@[simp] theorem State.releaseAll_hostq (s : State) (t g : Nat) (l : List Nat) : (s.releaseAll t g l).hostq = s.hostq := by obtain ⟨m, h⟩ := State.releaseAll_teams s t g l; rw [h]
@[simp] theorem State.releaseAll_out (s : State) (t g : Nat) (l : List Nat) : (s.releaseAll t g l).out = s.out := by obtain ⟨m, h⟩ := State.releaseAll_teams s t g l; rw [h]
@[simp] theorem State.releaseAll_runs (s : State) (t g : Nat) (l : List Nat) : (s.releaseAll t g l).runs = s.runs := by obtain ⟨m, h⟩ := State.releaseAll_teams s t g l; rw [h]
@[simp] theorem State.releaseAll_schedule (s : State) (t g : Nat) (l : List Nat) : (s.releaseAll t g l).schedule = s.schedule := by obtain ⟨m, h⟩ := State.releaseAll_teams s t g l; rw [h]
@[simp] theorem State.releaseAll_nextId (s : State) (t g : Nat) (l : List Nat) : (s.releaseAll t g l).nextId = s.nextId := by obtain ⟨m, h⟩ := State.releaseAll_teams s t g l; rw [h]
@[simp] theorem State.releaseAll_freeCtr (s : State) (t g : Nat) (l : List Nat) : (s.releaseAll t g l).freeCtr = s.freeCtr := by obtain ⟨m, h⟩ := State.releaseAll_teams s t g l; rw [h]
@[simp] theorem State.releaseAll_periods (s : State) (t g : Nat) (l : List Nat) : (s.releaseAll t g l).periods = s.periods := by obtain ⟨m, h⟩ := State.releaseAll_teams s t g l; rw [h]

/-! ### State.dropFar -/

@[simp] theorem State.dropFar_time (s : State) (t g : Nat) (l : List Nat) : (s.dropFar t g l).time = s.time := rfl
@[simp] theorem State.dropFar_mem (s : State) (t g : Nat) (l : List Nat) : (s.dropFar t g l).mem = s.mem := rfl
@[simp] theorem State.dropFar_l3 (s : State) (t g : Nat) (l : List Nat) : (s.dropFar t g l).l3 = s.l3 := rfl
@[simp] theorem State.dropFar_l3Granted (s : State) (t g : Nat) (l : List Nat) : (s.dropFar t g l).l3Granted = s.l3Granted := rfl
@[simp] theorem State.dropFar_poison (s : State) (t g : Nat) (l : List Nat) : (s.dropFar t g l).poison = s.poison := rfl
@[simp] theorem State.dropFar_regs (s : State) (t g : Nat) (l : List Nat) : (s.dropFar t g l).regs = s.regs := rfl
@[simp] theorem State.dropFar_asidTab (s : State) (t g : Nat) (l : List Nat) : (s.dropFar t g l).asidTab = s.asidTab := rfl
@[simp] theorem State.dropFar_asidCache (s : State) (t g : Nat) (l : List Nat) : (s.dropFar t g l).asidCache = s.asidCache := rfl
@[simp] theorem State.dropFar_walkCache (s : State) (t g : Nat) (l : List Nat) : (s.dropFar t g l).walkCache = s.walkCache := rfl
@[simp] theorem State.dropFar_spent (s : State) (t g : Nat) (l : List Nat) : (s.dropFar t g l).spent = s.spent := rfl
@[simp] theorem State.dropFar_claimed (s : State) (t g : Nat) (l : List Nat) : (s.dropFar t g l).claimed = s.claimed := rfl
@[simp] theorem State.dropFar_acc (s : State) (t g : Nat) (l : List Nat) : (s.dropFar t g l).acc = s.acc := rfl
@[simp] theorem State.dropFar_lu (s : State) (t g : Nat) (l : List Nat) : (s.dropFar t g l).lu = s.lu := rfl
@[simp] theorem State.dropFar_fq (s : State) (t g : Nat) (l : List Nat) : (s.dropFar t g l).fq = s.fq := rfl
@[simp] theorem State.dropFar_routines (s : State) (t g : Nat) (l : List Nat) : (s.dropFar t g l).routines = s.routines := rfl
@[simp] theorem State.dropFar_deh (s : State) (t g : Nat) (l : List Nat) : (s.dropFar t g l).deh = s.deh := rfl
@[simp] theorem State.dropFar_links (s : State) (t g : Nat) (l : List Nat) : (s.dropFar t g l).links = s.links := rfl
@[simp] theorem State.dropFar_dies (s : State) (t g : Nat) (l : List Nat) : (s.dropFar t g l).dies = s.dies := rfl
@[simp] theorem State.dropFar_cores (s : State) (t g : Nat) (l : List Nat) : (s.dropFar t g l).cores = s.cores := rfl
@[simp] theorem State.dropFar_teams (s : State) (t g : Nat) (l : List Nat) : (s.dropFar t g l).teams = s.teams := rfl
@[simp] theorem State.dropFar_routers (s : State) (t g : Nat) (l : List Nat) : (s.dropFar t g l).routers = s.routers := rfl
@[simp] theorem State.dropFar_packets (s : State) (t g : Nat) (l : List Nat) : (s.dropFar t g l).packets = s.packets := rfl
@[simp] theorem State.dropFar_misses (s : State) (t g : Nat) (l : List Nat) : (s.dropFar t g l).misses = s.misses := rfl
@[simp] theorem State.dropFar_outst (s : State) (t g : Nat) (l : List Nat) : (s.dropFar t g l).outst = s.outst := rfl
@[simp] theorem State.dropFar_saved (s : State) (t g : Nat) (l : List Nat) : (s.dropFar t g l).saved = s.saved := rfl
@[simp] theorem State.dropFar_hostq (s : State) (t g : Nat) (l : List Nat) : (s.dropFar t g l).hostq = s.hostq := rfl
@[simp] theorem State.dropFar_out (s : State) (t g : Nat) (l : List Nat) : (s.dropFar t g l).out = s.out := rfl
@[simp] theorem State.dropFar_runs (s : State) (t g : Nat) (l : List Nat) : (s.dropFar t g l).runs = s.runs := rfl
@[simp] theorem State.dropFar_schedule (s : State) (t g : Nat) (l : List Nat) : (s.dropFar t g l).schedule = s.schedule := rfl
@[simp] theorem State.dropFar_nextId (s : State) (t g : Nat) (l : List Nat) : (s.dropFar t g l).nextId = s.nextId := rfl
@[simp] theorem State.dropFar_freeCtr (s : State) (t g : Nat) (l : List Nat) : (s.dropFar t g l).freeCtr = s.freeCtr := rfl
@[simp] theorem State.dropFar_periods (s : State) (t g : Nat) (l : List Nat) : (s.dropFar t g l).periods = s.periods := rfl

/-! ### State.onLanes -/

@[simp] theorem State.onLanes_time (s : State) (x : Ctx) (l : List Nat) (f : Nat → Lane → Lane) : (s.onLanes x l f).time = s.time := by simp [State.onLanes]
@[simp] theorem State.onLanes_mem (s : State) (x : Ctx) (l : List Nat) (f : Nat → Lane → Lane) : (s.onLanes x l f).mem = s.mem := by simp [State.onLanes]
@[simp] theorem State.onLanes_l3 (s : State) (x : Ctx) (l : List Nat) (f : Nat → Lane → Lane) : (s.onLanes x l f).l3 = s.l3 := by simp [State.onLanes]
@[simp] theorem State.onLanes_l3Granted (s : State) (x : Ctx) (l : List Nat) (f : Nat → Lane → Lane) : (s.onLanes x l f).l3Granted = s.l3Granted := by simp [State.onLanes]
@[simp] theorem State.onLanes_poison (s : State) (x : Ctx) (l : List Nat) (f : Nat → Lane → Lane) : (s.onLanes x l f).poison = s.poison := by simp [State.onLanes]
@[simp] theorem State.onLanes_regs (s : State) (x : Ctx) (l : List Nat) (f : Nat → Lane → Lane) : (s.onLanes x l f).regs = s.regs := by simp [State.onLanes]
@[simp] theorem State.onLanes_asidTab (s : State) (x : Ctx) (l : List Nat) (f : Nat → Lane → Lane) : (s.onLanes x l f).asidTab = s.asidTab := by simp [State.onLanes]
@[simp] theorem State.onLanes_asidCache (s : State) (x : Ctx) (l : List Nat) (f : Nat → Lane → Lane) : (s.onLanes x l f).asidCache = s.asidCache := by simp [State.onLanes]
@[simp] theorem State.onLanes_walkCache (s : State) (x : Ctx) (l : List Nat) (f : Nat → Lane → Lane) : (s.onLanes x l f).walkCache = s.walkCache := by simp [State.onLanes]
@[simp] theorem State.onLanes_spent (s : State) (x : Ctx) (l : List Nat) (f : Nat → Lane → Lane) : (s.onLanes x l f).spent = s.spent := by simp [State.onLanes]
@[simp] theorem State.onLanes_paid (s : State) (x : Ctx) (l : List Nat) (f : Nat → Lane → Lane) : (s.onLanes x l f).paid = s.paid := by simp [State.onLanes]
@[simp] theorem State.onLanes_claimed (s : State) (x : Ctx) (l : List Nat) (f : Nat → Lane → Lane) : (s.onLanes x l f).claimed = s.claimed := by simp [State.onLanes]
@[simp] theorem State.onLanes_acc (s : State) (x : Ctx) (l : List Nat) (f : Nat → Lane → Lane) : (s.onLanes x l f).acc = s.acc := by simp [State.onLanes]
@[simp] theorem State.onLanes_lu (s : State) (x : Ctx) (l : List Nat) (f : Nat → Lane → Lane) : (s.onLanes x l f).lu = s.lu := by simp [State.onLanes]
@[simp] theorem State.onLanes_fq (s : State) (x : Ctx) (l : List Nat) (f : Nat → Lane → Lane) : (s.onLanes x l f).fq = s.fq := by simp [State.onLanes]
@[simp] theorem State.onLanes_routines (s : State) (x : Ctx) (l : List Nat) (f : Nat → Lane → Lane) : (s.onLanes x l f).routines = s.routines := by simp [State.onLanes]
@[simp] theorem State.onLanes_deh (s : State) (x : Ctx) (l : List Nat) (f : Nat → Lane → Lane) : (s.onLanes x l f).deh = s.deh := by simp [State.onLanes]
@[simp] theorem State.onLanes_links (s : State) (x : Ctx) (l : List Nat) (f : Nat → Lane → Lane) : (s.onLanes x l f).links = s.links := by simp [State.onLanes]
@[simp] theorem State.onLanes_dies (s : State) (x : Ctx) (l : List Nat) (f : Nat → Lane → Lane) : (s.onLanes x l f).dies = s.dies := by simp [State.onLanes]
@[simp] theorem State.onLanes_cores (s : State) (x : Ctx) (l : List Nat) (f : Nat → Lane → Lane) : (s.onLanes x l f).cores = s.cores := by simp [State.onLanes]
@[simp] theorem State.onLanes_routers (s : State) (x : Ctx) (l : List Nat) (f : Nat → Lane → Lane) : (s.onLanes x l f).routers = s.routers := by simp [State.onLanes]
@[simp] theorem State.onLanes_packets (s : State) (x : Ctx) (l : List Nat) (f : Nat → Lane → Lane) : (s.onLanes x l f).packets = s.packets := by simp [State.onLanes]
@[simp] theorem State.onLanes_ops (s : State) (x : Ctx) (l : List Nat) (f : Nat → Lane → Lane) : (s.onLanes x l f).ops = s.ops := by simp [State.onLanes]
@[simp] theorem State.onLanes_misses (s : State) (x : Ctx) (l : List Nat) (f : Nat → Lane → Lane) : (s.onLanes x l f).misses = s.misses := by simp [State.onLanes]
@[simp] theorem State.onLanes_outst (s : State) (x : Ctx) (l : List Nat) (f : Nat → Lane → Lane) : (s.onLanes x l f).outst = s.outst := by simp [State.onLanes]
@[simp] theorem State.onLanes_saved (s : State) (x : Ctx) (l : List Nat) (f : Nat → Lane → Lane) : (s.onLanes x l f).saved = s.saved := by simp [State.onLanes]
@[simp] theorem State.onLanes_hostq (s : State) (x : Ctx) (l : List Nat) (f : Nat → Lane → Lane) : (s.onLanes x l f).hostq = s.hostq := by simp [State.onLanes]
@[simp] theorem State.onLanes_out (s : State) (x : Ctx) (l : List Nat) (f : Nat → Lane → Lane) : (s.onLanes x l f).out = s.out := by simp [State.onLanes]
@[simp] theorem State.onLanes_runs (s : State) (x : Ctx) (l : List Nat) (f : Nat → Lane → Lane) : (s.onLanes x l f).runs = s.runs := by simp [State.onLanes]
@[simp] theorem State.onLanes_schedule (s : State) (x : Ctx) (l : List Nat) (f : Nat → Lane → Lane) : (s.onLanes x l f).schedule = s.schedule := by simp [State.onLanes]
@[simp] theorem State.onLanes_nextId (s : State) (x : Ctx) (l : List Nat) (f : Nat → Lane → Lane) : (s.onLanes x l f).nextId = s.nextId := by simp [State.onLanes]
@[simp] theorem State.onLanes_freeCtr (s : State) (x : Ctx) (l : List Nat) (f : Nat → Lane → Lane) : (s.onLanes x l f).freeCtr = s.freeCtr := by simp [State.onLanes]
@[simp] theorem State.onLanes_periods (s : State) (x : Ctx) (l : List Nat) (f : Nat → Lane → Lane) : (s.onLanes x l f).periods = s.periods := by simp [State.onLanes]

/-! ### State.orFlags -/

@[simp] theorem State.orFlags_time (s : State) (x : Ctx) (f : Nat) : (s.orFlags x f).time = s.time := by unfold State.orFlags; split <;> simp
@[simp] theorem State.orFlags_mem (s : State) (x : Ctx) (f : Nat) : (s.orFlags x f).mem = s.mem := by unfold State.orFlags; split <;> simp
@[simp] theorem State.orFlags_l3 (s : State) (x : Ctx) (f : Nat) : (s.orFlags x f).l3 = s.l3 := by unfold State.orFlags; split <;> simp
@[simp] theorem State.orFlags_l3Granted (s : State) (x : Ctx) (f : Nat) : (s.orFlags x f).l3Granted = s.l3Granted := by unfold State.orFlags; split <;> simp
@[simp] theorem State.orFlags_poison (s : State) (x : Ctx) (f : Nat) : (s.orFlags x f).poison = s.poison := by unfold State.orFlags; split <;> simp
@[simp] theorem State.orFlags_regs (s : State) (x : Ctx) (f : Nat) : (s.orFlags x f).regs = s.regs := by unfold State.orFlags; split <;> simp
@[simp] theorem State.orFlags_asidTab (s : State) (x : Ctx) (f : Nat) : (s.orFlags x f).asidTab = s.asidTab := by unfold State.orFlags; split <;> simp
@[simp] theorem State.orFlags_asidCache (s : State) (x : Ctx) (f : Nat) : (s.orFlags x f).asidCache = s.asidCache := by unfold State.orFlags; split <;> simp
@[simp] theorem State.orFlags_walkCache (s : State) (x : Ctx) (f : Nat) : (s.orFlags x f).walkCache = s.walkCache := by unfold State.orFlags; split <;> simp
@[simp] theorem State.orFlags_spent (s : State) (x : Ctx) (f : Nat) : (s.orFlags x f).spent = s.spent := by unfold State.orFlags; split <;> simp
@[simp] theorem State.orFlags_paid (s : State) (x : Ctx) (f : Nat) : (s.orFlags x f).paid = s.paid := by unfold State.orFlags; split <;> simp
@[simp] theorem State.orFlags_claimed (s : State) (x : Ctx) (f : Nat) : (s.orFlags x f).claimed = s.claimed := by unfold State.orFlags; split <;> simp
@[simp] theorem State.orFlags_acc (s : State) (x : Ctx) (f : Nat) : (s.orFlags x f).acc = s.acc := by unfold State.orFlags; split <;> simp
@[simp] theorem State.orFlags_lu (s : State) (x : Ctx) (f : Nat) : (s.orFlags x f).lu = s.lu := by unfold State.orFlags; split <;> simp
@[simp] theorem State.orFlags_fq (s : State) (x : Ctx) (f : Nat) : (s.orFlags x f).fq = s.fq := by unfold State.orFlags; split <;> simp
@[simp] theorem State.orFlags_routines (s : State) (x : Ctx) (f : Nat) : (s.orFlags x f).routines = s.routines := by unfold State.orFlags; split <;> simp
@[simp] theorem State.orFlags_deh (s : State) (x : Ctx) (f : Nat) : (s.orFlags x f).deh = s.deh := by unfold State.orFlags; split <;> simp
@[simp] theorem State.orFlags_links (s : State) (x : Ctx) (f : Nat) : (s.orFlags x f).links = s.links := by unfold State.orFlags; split <;> simp
@[simp] theorem State.orFlags_dies (s : State) (x : Ctx) (f : Nat) : (s.orFlags x f).dies = s.dies := by unfold State.orFlags; split <;> simp
@[simp] theorem State.orFlags_cores (s : State) (x : Ctx) (f : Nat) : (s.orFlags x f).cores = s.cores := by unfold State.orFlags; split <;> simp
@[simp] theorem State.orFlags_routers (s : State) (x : Ctx) (f : Nat) : (s.orFlags x f).routers = s.routers := by unfold State.orFlags; split <;> simp
@[simp] theorem State.orFlags_packets (s : State) (x : Ctx) (f : Nat) : (s.orFlags x f).packets = s.packets := by unfold State.orFlags; split <;> simp
@[simp] theorem State.orFlags_ops (s : State) (x : Ctx) (f : Nat) : (s.orFlags x f).ops = s.ops := by unfold State.orFlags; split <;> simp
@[simp] theorem State.orFlags_misses (s : State) (x : Ctx) (f : Nat) : (s.orFlags x f).misses = s.misses := by unfold State.orFlags; split <;> simp
@[simp] theorem State.orFlags_outst (s : State) (x : Ctx) (f : Nat) : (s.orFlags x f).outst = s.outst := by unfold State.orFlags; split <;> simp
@[simp] theorem State.orFlags_saved (s : State) (x : Ctx) (f : Nat) : (s.orFlags x f).saved = s.saved := by unfold State.orFlags; split <;> simp
@[simp] theorem State.orFlags_hostq (s : State) (x : Ctx) (f : Nat) : (s.orFlags x f).hostq = s.hostq := by unfold State.orFlags; split <;> simp
@[simp] theorem State.orFlags_out (s : State) (x : Ctx) (f : Nat) : (s.orFlags x f).out = s.out := by unfold State.orFlags; split <;> simp
@[simp] theorem State.orFlags_runs (s : State) (x : Ctx) (f : Nat) : (s.orFlags x f).runs = s.runs := by unfold State.orFlags; split <;> simp
@[simp] theorem State.orFlags_schedule (s : State) (x : Ctx) (f : Nat) : (s.orFlags x f).schedule = s.schedule := by unfold State.orFlags; split <;> simp
@[simp] theorem State.orFlags_nextId (s : State) (x : Ctx) (f : Nat) : (s.orFlags x f).nextId = s.nextId := by unfold State.orFlags; split <;> simp
@[simp] theorem State.orFlags_freeCtr (s : State) (x : Ctx) (f : Nat) : (s.orFlags x f).freeCtr = s.freeCtr := by unfold State.orFlags; split <;> simp
@[simp] theorem State.orFlags_periods (s : State) (x : Ctx) (f : Nat) : (s.orFlags x f).periods = s.periods := by unfold State.orFlags; split <;> simp

/-! ### Teams, groups and lanes after an update -/

theorem State.modTeam_eq {s : State} {t : Nat} {x : Team} (h : s.team? t = some x) (f : Team → Team) :
    s.modTeam t f = { s with teams := s.teams.set t (f x) } := by
  have h' : Tab.get? s.teams t = some x := h
  simp [State.modTeam, h']

theorem Team.modGrp_eq {x : Team} {g : Nat} {y : Group} (h : x.grp? g = some y) (f : Group → Group) :
    x.modGrp g f = { x with grps := x.grps.set g (f y) } := by
  have h' : Tab.get? x.grps g = some y := h
  simp [Team.modGrp, h']

theorem State.modGrp_eq {s : State} {t g : Nat} {x : Team} {y : Group} (h : s.team? t = some x) (hy : x.grp? g = some y)
    (f : Group → Group) :
    s.modGrp t g f = { s with teams := s.teams.set t { x with grps := x.grps.set g (f y) } } := by
  simp [State.modGrp, State.modTeam_eq h, Team.modGrp_eq hy]

end Sys2Proof.Machine
end

