-- ==== Sys2Proof/Laws/Issue.lean ====
section
/-! SUPPORT. Laws/Issue.lean: what issuing an instruction does once R272's checks have passed, and what a body that writes
registers of its own lanes leaves. -/
namespace Sys2Proof.Machine
open Sys2Proof

/-! ### The issuer -/

@[simp] theorem Team.atIssue_grps (x : Team) (now : Nat) : (x.atIssue now).grps = x.grps := by
  unfold Team.atIssue; split <;> (try split) <;> rfl

/-- The issuer is the first open run, with its team as it stands at issue (R149) and its group. -/
theorem issuer_some {s : State} {x : Ctx} (h : s.issuer? = some x) :
    (∃ t, s.runs = x.run :: t) ∧ ∃ m, s.team? x.run.team = some m ∧ x.tm = m.atIssue s.time ∧ m.grp? x.run.grp = some x.gp := by
  unfold State.issuer? at h
  split at h
  · simp at h
  · next r t e =>
    split at h
    · simp at h
    · next m em =>
      split at h
      · simp at h
      · next y ey => cases h; exact ⟨⟨t, e⟩, m, em, rfl, ey⟩

/-- The issuing group. -/
theorem issuer_grp {s : State} {x : Ctx} (h : s.issuer? = some x) : s.grp? x.run.team x.run.grp = some x.gp := by
  obtain ⟨_, m, hm, _, hg⟩ := issuer_some h
  simp [State.grp?, hm, hg]

/-- An instruction that issues runs its body. -/
theorem issue_body {s : State} {x : Ctx} {i : Instr} (h : Issues s x i) (b : Body) :
    issue i b s = .next (finish x i (b x (activeOf x i) s)) := by
  have hr : ((i.roles x.front).rd ++ (i.roles x.front).wr).any (fun u => !x.gp.useOk u) = false := by
    rw [List.any_eq_false]; intro u hu; simp [h.regs u hu]
  have ha : (activeOf x i).isEmpty = false := by simpa using h.active
  have hc : ((i.roles x.front).crewI && !x.gp.crew.valid) = false := by
    cases hcr : (i.roles x.front).crewI
    · rfl
    · simp [h.crew hcr]
  have hs : (x.gp.spec && (i.roles x.front).specWait) = false := by
    cases hsp : x.gp.spec
    · rfl
    · simp [h.task hsp]
  simp only [issue, h.issuer, issueRes, h.legal, h.guard.1, h.guard.2, ha, hr, h.free, hc, hs]
  simp

/-! ### Changes of the issuing group -/

/-- A group after a change of it. -/
theorem State.grp?_modGrp_self {s : State} {t g : Nat} {y : Group} {f : Group → Group} (h : s.grp? t g = some y) :
    (s.modGrp t g f).grp? t g = some (f y) := by
  simp only [State.grp?, State.team?] at h
  simp only [State.modGrp, State.modTeam]
  split
  · next x hx =>
    rw [hx] at h
    have hg : Tab.get? x.grps g = some y := h
    simp [State.grp?, State.team?, Team.modGrp, hg, Team.grp?]
  · next hx => rw [hx] at h; simp at h

/-- Two changes of a group that agree on it change the machine alike. -/
theorem State.modGrp_congr {s : State} {t g : Nat} {y : Group} {f k : Group → Group} (h : s.grp? t g = some y) (e : f y = k y) :
    s.modGrp t g f = s.modGrp t g k := by
  simp only [State.grp?, State.team?] at h
  simp only [State.modGrp, State.modTeam]
  split
  · next x hx =>
    rw [hx] at h
    have hg : Tab.get? x.grps g = some y := h
    simp only [Team.modGrp, hg, e]
  · rfl

/-- Two changes of a team in turn are one. -/
theorem State.modTeam_modTeam (s : State) (t : Nat) (f k : Team → Team) :
    (s.modTeam t f).modTeam t k = s.modTeam t fun x => k (f x) := by
  unfold State.modTeam
  cases h : Tab.get? s.teams t <;> simp [h]

theorem Team.modGrp_modGrp (x : Team) (g : Nat) (f k : Group → Group) :
    (x.modGrp g f).modGrp g k = x.modGrp g fun y => k (f y) := by
  unfold Team.modGrp
  cases h : Tab.get? x.grps g <;> simp [h]

/-- Two changes of a group in turn are one. -/
@[simp] theorem State.modGrp_modGrp (s : State) (t g : Nat) (f k : Group → Group) :
    (s.modGrp t g f).modGrp t g k = s.modGrp t g fun y => k (f y) := by
  simp only [State.modGrp, State.modTeam_modTeam, Team.modGrp_modGrp]

@[simp] theorem State.onGrp_onGrp (s : State) (x : Ctx) (f k : Group → Group) :
    (s.onGrp x f).onGrp x k = s.onGrp x fun y => k (f y) := State.modGrp_modGrp ..

/-- A group that becomes itself leaves the machine as it was. -/
theorem State.modGrp_id (s : State) (t g : Nat) : s.modGrp t g (fun y => y) = s := by
  unfold State.modGrp State.modTeam
  cases h : Tab.get? s.teams t with
  | none => rfl
  | some x =>
    have : x.modGrp g (fun y => y) = x := by
      unfold Team.modGrp
      cases hg : Tab.get? x.grps g with
      | none => rfl
      | some y => simp [Tab.set_get? _ _ _ hg]
    simp [this, Tab.set_get? _ _ _ h]

/-! ### Lanes -/

/-- Lanes that change one after another, each by a function of its own. -/
def foldLanes (act : List Nat) (f : Nat → Lane → Lane) (l : List Lane) : List Lane :=
  act.foldl (fun u k => listUpd u k (f k)) l

@[simp] theorem foldLanes_length (act : List Nat) (f : Nat → Lane → Lane) (l : List Lane) :
    (foldLanes act f l).length = l.length := by
  induction act generalizing l with
  | nil => rfl
  | cons a t ih => simp [foldLanes] at ih ⊢; simp [ih]

/-- A lane after the changes: `f` of itself where it is listed, once. -/
theorem foldLanes_get (act : List Nat) (f : Nat → Lane → Lane) (hn : act.Nodup) (l : List Lane) (k : Nat) :
    (foldLanes act f l)[k]? = if act.contains k then (l[k]?).map (f k) else l[k]? := by
  induction act generalizing l with
  | nil => simp [foldLanes]
  | cons a t ih =>
    have h := ih (List.nodup_cons.mp hn).2 (listUpd l a (f a))
    simp only [foldLanes, List.foldl_cons] at h ⊢
    rw [h, listUpd_get]
    by_cases ha : k = a
    · subst ha
      have : k ∉ t := (List.nodup_cons.mp hn).1
      simp [this]
    · by_cases ht : k ∈ t <;> simp [ht, ha]

/-- The listed lanes of a group, each changed once. -/
theorem foldLanes_eq (act : List Nat) (f : Nat → Lane → Lane) (hn : act.Nodup) (y : Group) :
    foldLanes act f y.lanes = (List.range y.lanes.length).map fun l => if act.contains l then f l (y.lane l) else y.lane l := by
  apply List.ext_getElem?
  intro k
  rw [foldLanes_get act f hn]
  by_cases hk : k < y.lanes.length
  · rw [List.getElem?_map, List.getElem?_range hk]
    simp only [Group.lane, List.getD_eq_getElem?_getD, List.getElem?_eq_getElem hk, Option.map_some, Option.getD_some]
    split <;> rfl
  · have h1 : y.lanes[k]? = none := List.getElem?_eq_none (by omega)
    have h2 : ((List.range y.lanes.length).map fun l => if act.contains l then f l (y.lane l) else y.lane l)[k]? = none :=
      List.getElem?_eq_none (by simp; omega)
    rw [h1, h2]; simp

/-- The changes of lanes of a pack one after another as one change of the group. -/
theorem onLane_foldl_eq (s : State) (x : Ctx) (act : List Nat) (f : Nat → Lane → Lane) :
    act.foldl (fun u l => u.onLane x l (f l)) s = s.onGrp x fun y => { y with lanes := foldLanes act f y.lanes } := by
  induction act generalizing s with
  | nil => exact (State.modGrp_id ..).symm
  | cons a t ih =>
    rw [List.foldl_cons, ih]
    simp only [State.onLane, State.modLane, State.onGrp, State.modGrp_modGrp]
    rfl

/-- The changes of distinct lanes of the pack are `State.onLanes`. -/
theorem onLane_foldl (s : State) (x : Ctx) (act : List Nat) (hn : act.Nodup) (f : Nat → Lane → Lane) :
    act.foldl (fun u l => u.onLane x l (f l)) s = s.onLanes x act f := by
  simp only [onLane_foldl_eq, State.onLanes, foldLanes_eq act f hn]

/-- The active lanes of a pack are distinct. -/
theorem Issues.nodup {s : State} {x : Ctx} {i : Instr} (h : Issues s x i) : (activeOf x i).Nodup := h.pack.1.filter _

/-! ### A pack that goes past its instruction -/

/-- With no end listed, every lane of the pack is done. -/
theorem allEnds_nil (x : Ctx) (i : Instr) : allEnds x i [] = x.run.lanes.map fun l => (l, LEnd.done) := by
  simp [allEnds, offEnd]

/-- With completion listed for lanes, every lane of the pack is done. -/
theorem allEnds_done (x : Ctx) (i : Instr) (ls : List Nat) :
    allEnds x i (ls.map fun l => (l, LEnd.done)) = x.run.lanes.map fun l => (l, LEnd.done) := by
  have hoff : offEnd (ls.map fun l => (l, LEnd.done)) = .done := by
    have : (ls.map fun l => (l, LEnd.done)).findSome? (fun p => p.2.forOff) = none := by
      rw [List.findSome?_eq_none_iff]
      intro p hp
      obtain ⟨l, _, rfl⟩ := List.mem_map.mp hp
      rfl
    simp [offEnd, this]
  unfold allEnds
  apply List.map_congr_left
  intro l _
  split
  · next p h =>
    have := List.mem_of_find?_eq_some h
    obtain ⟨k, _, rfl⟩ := List.mem_map.mp this
    rfl
  · simp [hoff]

theorem endOf_done (ls : List Nat) (l : Nat) : endOf (ls.map fun l => (l, LEnd.done)) l = .done := by
  unfold endOf
  split
  · next p h =>
    have := List.mem_of_find?_eq_some h
    simp at this
    obtain ⟨_, _, e⟩ := this
    rw [← e]
  · rfl

theorem faultsOf_done (ls : List Nat) : faultsOf (ls.map fun l => (l, LEnd.done)) = [] := by
  simp [faultsOf]

theorem ite_pred {α : Type} {c : Prop} [Decidable c] {a b : α} {q : α → Prop} (ha : q a) (hb : q b) :
    q (if c then a else b) := by split <;> assumption

/-- A part given up by one lane leaves the group's fence records as they were. -/
theorem State.releaseHeld_grp {t g : Nat} {s : State} {y : Group} (h : s.grp? t g = some y) (l : Nat) :
    ∃ z, (State.releaseHeld t g s l).grp? t g = some z ∧ z.fences = y.fences := by
  unfold State.releaseHeld
  split
  · exact ⟨y, h, rfl⟩
  · simp only [State.decTok, State.modLane, State.modGrp_modGrp, State.grp?_modGrp_self h]
    refine ⟨_, rfl, ?_⟩
    split
    · rfl
    · next k _ =>
      split
      · split
        · simp only [Group.modCtr]; split <;> rfl
        · rfl
      · rfl

/-- Leaving an instruction leaves the group's fence records as they were. -/
theorem State.leave_grp {s : State} {x : Ctx} {y : Group} (h : s.grp? x.run.team x.run.grp = some y) (ls : List Nat) :
    ∃ z, (s.leave x ls).grp? x.run.team x.run.grp = some z ∧ z.fences = y.fences := by
  have hd : ∀ u : State, (u.dropFar x.run.team x.run.grp ls).grp? x.run.team x.run.grp = u.grp? x.run.team x.run.grp := fun _ => rfl
  unfold State.leave
  rw [hd]
  simp only [State.releaseAll, h]
  generalize List.filter _ ls = k
  clear hd
  induction k generalizing s y with
  | nil => exact ⟨y, h, rfl⟩
  | cons a k ih =>
    obtain ⟨z, hz, e⟩ := State.releaseHeld_grp h a
    obtain ⟨w, hw, e'⟩ := ih hz
    exact ⟨w, hw, e'.trans e⟩

@[simp] theorem State.leave_runs (s : State) (x : Ctx) (ls : List Nat) : (s.leave x ls).runs = s.runs := by
  simp [State.leave]

/-- What every instruction does after a body that completes for every lane of the pack: each lane goes past it and gives up what
it holds of it, fence records of the pack may go, and the run goes on or ends. -/
theorem finish_effect {u : State} {x : Ctx} {y : Group} (i : Instr) (ends : List (Nat × LEnd)) (stop : Bool)
    (he : allEnds x i ends = x.run.lanes.map fun l => (l, LEnd.done)) (hg : u.grp? x.run.team x.run.grp = some y) :
    ∃ fs rs, RunsLeft u rs ∧ (∀ q ∈ fs, q ∈ y.fences) ∧
      finish x i ⟨u, ends, stop⟩ = u.settle x [] (fun _ z => passed x i z) fs rs := by
  have hgone : ((x.run.lanes.map fun l => (l, LEnd.done)).filter fun p => p.2.leaves).map (·.1) = x.run.lanes := by
    rw [List.filter_eq_self.mpr]
    · simp [List.map_map, Function.comp_def]
    · intro p hp
      obtain ⟨l, _, rfl⟩ := List.mem_map.mp hp
      rfl
  have hstay : x.run.lanes.filter (fun l => !([] : List Nat).contains l) = x.run.lanes := by simp
  have hex : ∀ ls : List Nat, ((ls.map fun l => (l, LEnd.done)).any fun p => p.2 == LEnd.exit || p.2 == LEnd.keep) = false := by
    intro ls; simp
  have hjoin : ∀ ls : List Nat, ((ls.map fun l => (l, LEnd.done)).any fun p => p.2.joins) = false := by
    intro ls; simp [LEnd.joins]
  have hall : ∀ ls : List Nat, ((ls.map fun l => (l, LEnd.done)).all fun p => p.2.moves) = true := by
    intro ls; simp [LEnd.moves]
  obtain ⟨z, hz, hzf⟩ := State.leave_grp hg x.run.lanes
  have hleave : (u.releaseAll x.run.team x.run.grp x.run.lanes).dropFar x.run.team x.run.grp x.run.lanes = u.leave x x.run.lanes := rfl
  simp only [finish, he, hgone, hleave, faultsOf_done, endOf_done]
  simp only [State.grp?_modGrp_self hz, hex, hjoin, Bool.and_false, Bool.false_and, List.isEmpty_nil, if_true, Bool.false_eq_true, if_false]
  simp only [hall, if_true]
  let fs := (z.dropFences x.run.lanes x.pc (x.run.rep.map (·.ix))).fences
  have hm : (u.leave x x.run.lanes).modGrp x.run.team x.run.grp (fun y => Group.dropFences { y with
        lanes := (List.range y.lanes.length).map fun l =>
          if x.run.lanes.contains l then applyEnd x.run (i.roles x.front).words .done (y.lane l) else y.lane l }
        x.run.lanes x.pc (x.run.rep.map (·.ix))) =
      (((u.leave x x.run.lanes).onGrp x fun y => { y with fences := fs }).onLanes x x.run.lanes fun _ z => passed x i z) := by
    simp only [State.onLanes, State.onGrp, State.modGrp_modGrp]
    exact State.modGrp_congr hz rfl
  rw [hm]
  have hruns : ∀ (f : Nat → Lane → Lane), (((u.leave x x.run.lanes).onGrp x fun y => { y with fences := fs }).onLanes x x.run.lanes
      f).runs = u.runs := by
    intro f; rw [State.onLanes_runs, State.onGrp_runs, State.leave_runs]
  have hfs : ∀ q ∈ fs, q ∈ y.fences := fun q hq => hzf ▸ (List.mem_filter.mp hq).1
  refine ite_pred (q := fun t => ∃ fs rs, RunsLeft u rs ∧ (∀ q ∈ fs, q ∈ y.fences) ∧
    t = u.settle x [] (fun _ z => passed x i z) fs rs) ?_ ?_
  · refine ⟨fs, u.runs.filter fun r => !(r.team == x.run.team && r.grp == x.run.grp), ?_, hfs, ?_⟩
    · exact fun r hr => ⟨r, (List.mem_filter.mp hr).1, rfl⟩
    · simp only [State.settle, hstay, State.dropRun, hruns]
  · refine ⟨fs, u.runs.map fun q => if q.team == x.run.team && q.grp == x.run.grp then { q with latch := latchNext x i } else q,
      ?_, hfs, ?_⟩
    · intro r hr
      obtain ⟨q, hq, rfl⟩ := List.mem_map.mp hr
      refine ⟨q, hq, ?_⟩
      split <;> rfl
    · simp only [State.settle, hstay, hruns]

/-- An instruction whose body makes the machine `e` of itself and completes (`Effect` of Safety.lean). -/
theorem effect_of_body {i : Instr} {h : State → Ctx → Prop} {e : State → Ctx → State} (b : Body) (he : ∀ s, exec i s = issue i b s)
    (hb : ∀ s x, Issues s x i → h s x → ∃ stop, b x (activeOf x i) s = ⟨e s x, [], stop⟩)
    (hg : ∀ s x, Issues s x i → h s x → ∃ y, (e s x).grp? x.run.team x.run.grp = some y ∧ ∀ q ∈ y.fences, q ∈ x.gp.fences)
    (hr : ∀ s x, Issues s x i → h s x → (e s x).runs = s.runs) : Effect i h e := by
  intro s x hi hh
  obtain ⟨stop, hbb⟩ := hb s x hi hh
  obtain ⟨y, hy, hf⟩ := hg s x hi hh
  obtain ⟨fs, rs, h1, h2, h3⟩ := finish_effect i [] stop (allEnds_nil x i) hy
  refine ⟨fs, rs, ?_, fun q hq => hf q (h2 q hq), ?_⟩
  · simpa [RunsLeft, hr s x hi hh] using h1
  · rw [he, issue_body hi, hbb, h3]

/-- An instruction whose body changes each active lane, and other fields of its group but the fence records. -/
theorem completes_of_lanes {i : Instr} {h : State → Ctx → Prop} {g : State → Ctx → Group → Group} {f : State → Ctx → Nat → Lane → Lane}
    (b : Body) (he : ∀ s, exec i s = issue i b s)
    (hb : ∀ s x, Issues s x i → h s x → ∃ stop, b x (activeOf x i) s =
      ⟨(s.onLanes x (activeOf x i) (f s x)).onGrp x (g s x), [], stop⟩)
    (hg : ∀ s x y, (g s x y).fences = y.fences) : CompletesIn i h g f := by
  refine effect_of_body b he hb (fun s x hi _ => ?_) (fun s x _ _ => by simp)
  have := issuer_grp hi.issuer
  simp only [State.onLanes, State.onGrp, State.modGrp_modGrp, State.grp?_modGrp_self this]
  exact ⟨_, rfl, by simp [hg]⟩

/-- An instruction whose body writes one register of each active lane (R57). -/
theorem writes_of_regBody {i : Instr} {d : BitVec 8} {v w : State → Ctx → Nat → Lane → Nat}
    (b : Body) (he : ∀ s, exec i s = issue i b s)
    (hb : ∀ s x, Issues s x i → b x (activeOf x i) s = regBody d (fun x l z => v s x l z) x (activeOf x i) s)
    (hv : ∀ s x l z, x.front = x.gp.front → v s x l z = w s x l z) : Writes i d w := by
  refine effect_of_body b he (fun s x hi _ => ⟨false, ?_⟩) (fun s x hi _ => ?_) (fun s x _ _ => by simp)
  · rw [hb s x hi]
    simp only [regBody, laneBody, onLane_foldl s x _ hi.nodup, hv s x _ _ rfl]
  · simp only [State.onLanes, State.onGrp, State.grp?_modGrp_self (issuer_grp hi.issuer)]
    exact ⟨_, rfl, fun q hq => hq⟩

/-! ### Asynchronous results (R57) -/

/-- A finished writeback that joins a lane changes the lane and the identifiers given out. -/
theorem State.addPend_eq (s : State) (t g l : Nat) (regs : List (PReg × Nat)) (ready : Bool) (tok : Option Nat) :
    (s.addPend t g l regs ready tok).2 = State.modLane { s with nextId := s.nextId + 1 } t g l fun x =>
      { x with pend := x.pend ++ [Pend.mk s.nextId regs ready tok] } := rfl

@[simp] theorem State.addPend_runs (s : State) (t g l : Nat) (regs : List (PReg × Nat)) (ready : Bool) (tok : Option Nat) :
    (s.addPend t g l regs ready tok).2.runs = s.runs := by simp [State.addPend_eq]

theorem State.addPend_grp {s : State} {t g l : Nat} {regs : List (PReg × Nat)} {ready : Bool} {tok : Option Nat} {y : Group}
    (h : s.grp? t g = some y) : ∃ z, (s.addPend t g l regs ready tok).2.grp? t g = some z ∧ z.fences = y.fences := by
  rw [State.addPend_eq, State.modLane]
  exact ⟨_, State.grp?_modGrp_self (s := { s with nextId := s.nextId + 1 }) h, rfl⟩

/-- Writebacks that join lanes leave the open runs and the group's fence records. -/
theorem State.give_spec {s : State} {x : Ctx} {y : Group} (h : s.grp? x.run.team x.run.grp = some y)
    (l : List (Nat × List (PReg × Nat))) :
    (s.give x l).runs = s.runs ∧ ∃ z, (s.give x l).grp? x.run.team x.run.grp = some z ∧ z.fences = y.fences := by
  unfold State.give
  induction l generalizing s y with
  | nil => exact ⟨rfl, y, h, rfl⟩
  | cons p t ih =>
    rw [List.foldl_cons]
    by_cases hp : p.2.isEmpty
    · simpa [hp] using ih h
    · obtain ⟨z, hz, e⟩ := State.addPend_grp (l := p.1) (regs := p.2) (ready := true) (tok := none) h
      obtain ⟨r, w, hw, e'⟩ := ih hz
      simp only [hp, Bool.false_eq_true, if_false]
      exact ⟨by rw [r, State.addPend_runs], w, hw, e'.trans e⟩

/-- The body of asynchronous writebacks gives each active lane its own, where none is empty. -/
theorem asyncBody_give (f : Ctx → Nat → Lane → List (PReg × Nat)) (x : Ctx) (act : List Nat) (s : State)
    (hf : ∀ l ∈ act, f x l (x.lane l) ≠ []) :
    asyncBody f x act s = ⟨s.give x (act.map fun l => (l, f x l (x.lane l))), [], false⟩ := by
  unfold asyncBody State.give
  congr 1
  rw [List.foldl_map]
  induction act generalizing s with
  | nil => rfl
  | cons a t ih =>
    have ha : (f x a (x.lane a)).isEmpty = false := by simpa using hf a (by simp)
    simp only [List.foldl_cons, ha, Bool.false_eq_true, if_false]
    exact ih _ fun l hl => hf l (by simp [hl])

/-- An instruction whose body gives each active lane one finished writeback (`AsyncWritesIf` of Safety.lean). -/
theorem async_of_body {i : Instr} {h : State → Ctx → Prop} {w : State → Ctx → Nat → List (PReg × Nat)} (b : Body)
    (he : ∀ s, exec i s = issue i b s)
    (hb : ∀ s x, Issues s x i → h s x → ∃ stop, b x (activeOf x i) s =
      ⟨s.give x ((activeOf x i).map fun l => (l, w s x l)), [], stop⟩) : AsyncWritesIf i h w := by
  refine effect_of_body b he hb (fun s x hi _ => ?_) (fun s x hi _ => (State.give_spec (issuer_grp hi.issuer) _).1)
  obtain ⟨_, z, hz, e⟩ := State.give_spec (issuer_grp hi.issuer) ((activeOf x i).map fun l => (l, w s x l))
  exact ⟨z, hz, fun q hq => e ▸ hq⟩

/-! ### Parts of the lanes -/

/-- When every active lane's part succeeds, the body acts for all of them and completes. -/
theorem lanesBody_ok {α : Type} {part : Ctx → Nat → LM α} {fin : Ctx → List (Nat × α) → State → State} {s : State} {x : Ctx}
    {act : List Nat} {oks : List (Nat × α)} {s1 : State} (h : eachLane (part x) act s = (oks.map fun p => (p.1, .ok p.2), s1)) :
    lanesBody part fin x act s = ⟨fin x oks s1, (oks.map (·.1)).map fun l => (l, LEnd.done), false⟩ := by
  have hw : waitsOf x (oks.map fun p => (p.1, (Except.ok p.2 : Except LStop α))) = none := by
    unfold waitsOf
    rw [List.findSome?_eq_none_iff]
    intro p hp
    obtain ⟨q, _, rfl⟩ := List.mem_map.mp hp
    rfl
  have hp : poisonOf (oks.map fun p => (p.1, (Except.ok p.2 : Except LStop α))) = false := by
    unfold poisonOf
    rw [List.any_eq_false]
    intro p hp
    obtain ⟨q, _, rfl⟩ := List.mem_map.mp hp
    simp
  have hf : faultOf? x (oks.map fun p => (p.1, (Except.ok p.2 : Except LStop α))) = none := by
    unfold faultOf?
    rw [List.findSome?_eq_none_iff]
    intro p hp
    obtain ⟨q, _, rfl⟩ := List.mem_map.mp hp
    rfl
  have ho : okOf (oks.map fun p => (p.1, (Except.ok p.2 : Except LStop α))) = oks := by
    unfold okOf
    rw [List.filterMap_map]
    simp [Function.comp_def]
  have hr : ∀ (u : State) (sel : LStop → Bool) (qs : List (Nat × α)), (qs.map fun p => (p.1, (Except.ok p.2 : Except LStop α))).foldl
      (fun v p => match p.2 with | .error e => if sel e then v.reportStop x e else v | .ok _ => v) u = u := by
    intro u sel qs
    induction qs generalizing u with
    | nil => rfl
    | cons a t ih => simpa using ih u
  unfold lanesBody
  simp only [h, hw, hp, hf, ho, Bool.false_eq_true, if_false, List.map_map]
  exact congrArg (fun u => Res.mk u _ _) (hr _ (fun _ => true) oks)

/-- An access whose lanes nothing holds up takes its parts and runs its body (R81, R115, R118). -/
theorem accessOf_ok {s : State} {x : Ctx} {i : Instr} {k : Nat} {buf : Ctx → Bool} {sel : Ctx → Nat → Bool}
    (h : Unhindered s x i k (buf x) (sel x)) (b : Body) :
    accessOf k buf sel b x (activeOf x i) s = b x (activeOf x i) (s.counted x i k (buf x) (sel x)) := by
  have ha : (activeOf x i).any (s.acqPending x) = false := by
    rw [List.any_eq_false]; intro l hl; simp [h.acquire l hl]
  have hr : (!(newLanes x i (sel x)).isEmpty && !buf x && decide (ctrMax k ≤ x.gp.ctr k)) = false := by
    rcases h.room with hn | hb | hk
    · simp [hn]
    · simp [hb]
    · have : ¬ctrMax k ≤ x.gp.ctr k := by omega
      simp [this]
  unfold newLanes at hr
  unfold accessOf
  rw [h.fence]
  simp only [ha, hr, Bool.false_eq_true, if_false]
  rfl

end Sys2Proof.Machine
end

