-- ==== Sys2Proof/Laws/Memory.lean ====
section
/-! SUPPORT. Laws/Memory.lean: every shared operation keeps the memory in its canonical form, one lemma per operation; an
operation that writes no memory keeps it because its memory is the state's own. -/
namespace Sys2Proof.Machine
open Sys2Proof

/-- A fold of steps that keep the canonical form keeps it. -/
theorem foldl_wf {α : Type} (f : State → α → State) (hf : ∀ u a, u.mem.wf = true → (f u a).mem.wf = true)
    (l : List α) (s : State) (hw : s.mem.wf = true) :
    (l.foldl f s).mem.wf = true := by
  induction l generalizing s with
  | nil => exact hw
  | cons a t ih => exact ih _ (hf s a hw)

@[simp] theorem State.modCore_wf (s : State) (c : Nat) (f : Core → Core) (hw : s.mem.wf = true) : (State.modCore s c f).mem.wf =
    true := by
  unfold State.modCore
  repeat' (first | assumption | split | (dsimp only) | (simp [*]; done))
@[simp] theorem State.modDie_wf (s : State) (d : Nat) (f : Die → Die) (hw : s.mem.wf = true) : (State.modDie s d f).mem.wf =
    true := by
  unfold State.modDie
  repeat' (first | assumption | split | (dsimp only) | (simp [*]; done))
@[simp] theorem State.modRouter_wf (s : State) (r : Nat) (f : Router → Router) (hw : s.mem.wf = true) : (State.modRouter s r
    f).mem.wf = true := by
  unfold State.modRouter
  repeat' (first | assumption | split | (dsimp only) | (simp [*]; done))
@[simp] theorem State.modPort_wf (s : State) (p : Nat) (f : Port → Port) (hw : s.mem.wf = true) : (State.modPort s p f).mem.wf =
    true := by
  unfold State.modPort
  repeat' (first | assumption | split | (dsimp only) | (simp [*]; done))
@[simp] theorem State.modTeam_wf (s : State) (t : Nat) (f : Team → Team) (hw : s.mem.wf = true) : (State.modTeam s t f).mem.wf =
    true := by
  unfold State.modTeam
  repeat' (first | assumption | split | (dsimp only) | (simp [*]; done))
@[simp] theorem State.modGrp_wf (s : State) (t g : Nat) (f : Group → Group) (hw : s.mem.wf = true) : (State.modGrp s t g
    f).mem.wf = true := by
  unfold State.modGrp
  repeat' (first | assumption | (with_reducible apply State.modTeam_wf) | split | (dsimp only) | (simp [*]; done))
@[simp] theorem State.modLane_wf (s : State) (t g l : Nat) (f : Lane → Lane) (hw : s.mem.wf = true) : (State.modLane s t g l
    f).mem.wf = true := by
  unfold State.modLane
  repeat' (first | assumption | (with_reducible apply State.modGrp_wf) | split | (dsimp only) | (simp [*]; done))
@[simp] theorem State.fresh_wf (s : State) (hw : s.mem.wf = true) : (State.fresh s).2.mem.wf = true := by
  unfold State.fresh
  repeat' (first | assumption | split | (dsimp only) | (simp [*]; done))
@[simp] theorem State.free_wf (s : State) (hw : s.mem.wf = true) : (State.free s).2.mem.wf = true := by
  unfold State.free
  repeat' (first | assumption | split | (dsimp only) | (simp [*]; done))
@[simp] theorem State.onLane_wf (s : State) (x : Ctx) (l : Nat) (f : Lane → Lane) (hw : s.mem.wf = true) : (State.onLane s x l
    f).mem.wf = true := by
  unfold State.onLane
  repeat' (first | assumption | (with_reducible apply State.modLane_wf) | split | (dsimp only) | (simp [*]; done))
@[simp] theorem State.onGrp_wf (s : State) (x : Ctx) (f : Group → Group) (hw : s.mem.wf = true) : (State.onGrp s x f).mem.wf =
    true := by
  unfold State.onGrp
  repeat' (first | assumption | (with_reducible apply State.modGrp_wf) | split | (dsimp only) | (simp [*]; done))
@[simp] theorem State.onTeam_wf (s : State) (x : Ctx) (f : Team → Team) (hw : s.mem.wf = true) : (State.onTeam s x f).mem.wf =
    true := by
  unfold State.onTeam
  repeat' (first | assumption | (with_reducible apply State.modTeam_wf) | split | (dsimp only) | (simp [*]; done))
@[simp] theorem State.dropRun_wf (s : State) (t g : Nat) (hw : s.mem.wf = true) : (State.dropRun s t g).mem.wf = true := by
  unfold State.dropRun
  repeat' (first | assumption | split | (dsimp only) | (simp [*]; done))
@[simp] theorem State.endRun_wf (s : State) (x : Ctx) (hw : s.mem.wf = true) : (State.endRun s x).mem.wf = true := by
  unfold State.endRun
  repeat' (first | assumption | (with_reducible apply State.dropRun_wf) | split | (dsimp only) | (simp [*]; done))
@[simp] theorem State.unpoison_wf (s : State) (pa n : Nat) (hw : s.mem.wf = true) : (State.unpoison s pa n).mem.wf = true := by
  unfold State.unpoison
  repeat' (first | assumption | split | (dsimp only) | (simp [*]; done))
@[simp] theorem State.memPut_wf (s : State) (pa : Nat) (bs : List (BitVec 8)) (hw : s.mem.wf = true) : (State.memPut s pa
    bs).mem.wf = true := by
  unfold State.memPut
  repeat' (first | assumption | exact Mem.writeN_wf _ _ _ (by assumption) | split | (dsimp only) | (simp [*]; done))
@[simp] theorem State.memStore_wf (s : State) (pa : Nat) (bs : List (BitVec 8)) (hw : s.mem.wf = true) : (State.memStore s pa
    bs).mem.wf = true := by
  unfold State.memStore
  repeat' (first | assumption | (with_reducible apply State.unpoison_wf) | (with_reducible apply State.memPut_wf) | split |
                  (dsimp only) | (simp [*]; done))
@[simp] theorem State.memPutLine_wf (s : State) (line : Nat) (d : BitVec 1024) (mask : BitVec 128) (hw : s.mem.wf = true) :
    (State.memPutLine s line d mask).mem.wf = true := by
  unfold State.memPutLine
  repeat' (first | assumption | (with_reducible refine foldl_wf _ (fun u a hu => ?_) _ _ ?_) |
                  (with_reducible apply State.memPut_wf) | split | (dsimp only) | (simp [*]; done))
@[simp] theorem State.recode_wf (s : State) (pa : Nat) (hw : s.mem.wf = true) : (State.recode s pa).mem.wf = true := by
  unfold State.recode
  repeat' (first | assumption | exact Mem.write_wf _ _ _ (by assumption) | split | (dsimp only) | (simp [*]; done))
@[simp] theorem State.unpack_wf (s : State) (line : Nat) (a : Attr) (hw : s.mem.wf = true) : (State.unpack s line a).mem.wf =
    true := by
  unfold State.unpack
  repeat' (first | assumption | exact Mem.clear_wf _ _ _ (by assumption) |
                  (with_reducible refine foldl_wf _ (fun u a hu => ?_) _ _ ?_) | split | (dsimp only) | (simp [*]; done))
@[simp] theorem State.l3Keep_wf (s : State) (line : Nat) (a : Attr) (hw : s.mem.wf = true) : (State.l3Keep s line a).mem.wf =
    true := by
  unfold State.l3Keep
  repeat' (first | assumption | (with_reducible apply State.unpack_wf) | split | (dsimp only) | (simp [*]; done))
@[simp] theorem State.l3Serve_wf (s : State) (line : Nat) (a : Attr) (hw : s.mem.wf = true) : (State.l3Serve s line a).mem.wf =
    true := by
  unfold State.l3Serve
  repeat' (first | assumption | (with_reducible apply State.unpack_wf) | (with_reducible apply State.l3Keep_wf) | split |
                  (dsimp only) | (simp [*]; done))
@[simp] theorem State.homePut_wf (s : State) (pa : Nat) (bs : List (BitVec 8)) (a : Attr) (hw : s.mem.wf = true) :
    (State.homePut s pa bs a).mem.wf = true := by
  unfold State.homePut
  repeat' (first | assumption | (with_reducible apply State.memPut_wf) | (with_reducible apply State.recode_wf) |
                  (with_reducible apply State.l3Serve_wf) | split | (dsimp only) | (simp [*]; done))
@[simp] theorem State.homeGet_wf (s : State) (pa n : Nat) (a : Attr) (hw : s.mem.wf = true) : (State.homeGet s pa n a).2.mem.wf
    = true := by
  unfold State.homeGet
  repeat' (first | assumption | (with_reducible refine foldl_wf _ (fun u a hu => ?_) _ _ ?_) |
                  (with_reducible apply State.l3Serve_wf) | split | (dsimp only) | (simp [*]; done))
@[simp] theorem State.bareGet_wf (s : State) (pa n : Nat) (hw : s.mem.wf = true) : (State.bareGet s pa n).2.mem.wf = true := by
  unfold State.bareGet
  repeat' (first | assumption | (with_reducible refine foldl_wf _ (fun u a hu => ?_) _ _ ?_) |
                  (with_reducible apply State.l3Serve_wf) | split | (dsimp only) | (simp [*]; done))
@[simp] theorem State.barePut_wf (s : State) (pa : Nat) (bs : List (BitVec 8)) (hw : s.mem.wf = true) : (State.barePut s pa
    bs).mem.wf = true := by
  unfold State.barePut
  repeat' (first | assumption | (with_reducible refine foldl_wf _ (fun u a hu => ?_) _ _ ?_) |
                  (with_reducible apply State.unpoison_wf) | (with_reducible apply State.homePut_wf) | split | (dsimp only) |
                  (simp [*]; done))
@[simp] theorem State.kwct_wf (s : State) (t g w : Nat) (hw : s.mem.wf = true) : (State.kwct s t g w).mem.wf = true := by
  unfold State.kwct
  repeat' (first | assumption | (with_reducible apply State.modGrp_wf) | split | (dsimp only) | (simp [*]; done))
@[simp] theorem State.forwardOne_wf (s : State) (d : Nat) (f : Fwd) (hw : s.mem.wf = true) : (State.forwardOne s d f).mem.wf =
    true := by
  unfold State.forwardOne
  repeat' (first | assumption | (with_reducible refine foldl_wf _ (fun u a hu => ?_) _ _ ?_) |
                  (with_reducible apply State.modGrp_wf) | (with_reducible apply State.memPutLine_wf) |
                  (with_reducible apply State.recode_wf) | (with_reducible apply State.l3Keep_wf) | split | (dsimp only) |
                  (simp [*]; done))
theorem forwardList_wf (d : Nat) (keep : Fwd → Bool) (l : List Fwd) (s : State) (hw : s.mem.wf = true) :
    (forwardList d keep l s).1.mem.wf = true := by
  induction l generalizing s with
  | nil => exact hw
  | cons f t ih =>
    unfold forwardList
    split
    · exact ih s hw
    · exact ih _ (State.forwardOne_wf s d f hw)
@[simp] theorem State.forward_wf (s : State) (d : Nat) (sel : Fwd → Bool) (hw : s.mem.wf = true) : (State.forward s d
    sel).mem.wf = true := by
  unfold State.forward
  repeat' (first | assumption | (with_reducible apply State.modDie_wf) | (with_reducible apply forwardList_wf) | split |
                  (dsimp only) | (simp [*]; done))
@[simp] theorem State.forwardLine_wf (s : State) (d line : Nat) (hw : s.mem.wf = true) : (State.forwardLine s d line).mem.wf =
    true := by
  unfold State.forwardLine
  repeat' (first | assumption | (with_reducible refine foldl_wf _ (fun u a hu => ?_) _ _ ?_) |
                  (with_reducible apply State.modDie_wf) | (with_reducible apply State.forwardOne_wf) | split | (dsimp only) |
                  (simp [*]; done))
@[simp] theorem State.l2Evict_wf (s : State) (d line : Nat) (hw : s.mem.wf = true) : (State.l2Evict s d line).mem.wf = true := by
  unfold State.l2Evict
  repeat' (first | assumption | (with_reducible apply State.modDie_wf) | (with_reducible apply State.forwardLine_wf) | split |
                  (dsimp only) | (simp [*]; done))
@[simp] theorem State.l2Trim_wf (s : State) (d sl n : Nat) (hw : s.mem.wf = true) : (State.l2Trim s d sl n).mem.wf = true := by
  induction n generalizing s with
  | zero => exact hw
  | succ n ih =>
    unfold State.l2Trim
    dsimp only
    split
    · exact hw
    · split
      · exact ih _ (State.l2Evict_wf s d _ hw)
      · exact hw
@[simp] theorem State.l2TrimAll_wf (s : State) (d : Nat) (hw : s.mem.wf = true) : (State.l2TrimAll s d).mem.wf = true :=
  foldl_wf _ (fun u sl hu => State.l2Trim_wf u d sl _ hu) _ _ hw
@[simp] theorem State.l2Room_wf (s : State) (d line : Nat) (hw : s.mem.wf = true) : (State.l2Room s d line).mem.wf = true := by
  unfold State.l2Room
  repeat' (first | assumption | (with_reducible apply State.l2Evict_wf) | split | (dsimp only) | (simp [*]; done))
@[simp] theorem State.l3Grant_wf (s : State) (line : Nat) (a : Attr) (hw : s.mem.wf = true) : (State.l3Grant s line a).mem.wf =
    true := by
  unfold State.l3Grant
  repeat' (first | assumption | (with_reducible apply State.l3Keep_wf) | split | (dsimp only) | (simp [*]; done))
@[simp] theorem State.l2Fetch_wf (s : State) (d line : Nat) (a : Attr) (hw : s.mem.wf = true) : (State.l2Fetch s d line
    a).mem.wf = true := by
  unfold State.l2Fetch
  repeat' (first | assumption | (with_reducible apply State.modDie_wf) | (with_reducible apply State.forwardLine_wf) |
                  (with_reducible apply State.l2Room_wf) | (with_reducible apply State.l3Grant_wf) | split | (dsimp only) |
                  (simp [*]; done))
@[simp] theorem State.countAccess_wf (s : State) (d pa : Nat) (hw : s.mem.wf = true) : (State.countAccess s d pa).mem.wf = true
    := by
  unfold State.countAccess
  repeat' (first | assumption | (with_reducible apply State.modDie_wf) | split | (dsimp only) | (simp [*]; done))
@[simp] theorem State.l2Serve_wf (s : State) (d pa : Nat) (a : Attr) (hw : s.mem.wf = true) : (State.l2Serve s d pa a).mem.wf =
    true := by
  unfold State.l2Serve
  repeat' (first | assumption | (with_reducible apply State.l2Fetch_wf) | (with_reducible apply State.countAccess_wf) | split |
                  (dsimp only) | (simp [*]; done))
@[simp] theorem State.grantL1_wf (s : State) (d line : Nat) (hw : s.mem.wf = true) : (State.grantL1 s d line).2.mem.wf = true :=
    by
  unfold State.grantL1
  repeat' (first | assumption | (with_reducible apply State.modDie_wf) | split | (dsimp only) | (simp [*]; done))
@[simp] theorem State.addPath_wf (s : State) (t g sl : Nat) (hw : s.mem.wf = true) : (State.addPath s t g sl).mem.wf = true := by
  unfold State.addPath
  repeat' (first | assumption | (with_reducible apply State.modGrp_wf) | split | (dsimp only) | (simp [*]; done))
@[simp] theorem State.l2Take_wf (s : State) (d line : Nat) (a : Attr) (owners : List (Nat × Nat)) (mask : BitVec 128) (data :
    BitVec 1024) (upd : BitVec 1024 → BitVec 1024) (hw : s.mem.wf = true) : (State.l2Take s d line a owners mask data
    upd).mem.wf = true := by
  unfold State.l2Take
  repeat' (first | assumption | (with_reducible refine foldl_wf _ (fun u a hu => ?_) _ _ ?_) |
                  (with_reducible apply State.modDie_wf) | (with_reducible apply State.kwct_wf) |
                  (with_reducible apply State.l2Fetch_wf) | (with_reducible apply State.addPath_wf) | split | (dsimp only) |
                  (simp [*]; done))
@[simp] theorem State.l2Write_wf (s : State) (d t g pa : Nat) (a : Attr) (bs : List (BitVec 8)) (hw : s.mem.wf = true) :
    (State.l2Write s d t g pa a bs).mem.wf = true := by
  unfold State.l2Write
  repeat' (first | assumption | (with_reducible apply State.l2Take_wf) | split | (dsimp only) | (simp [*]; done))
@[simp] theorem State.l1Refresh_wf (s : State) (c pa : Nat) (bs : List (BitVec 8)) (hw : s.mem.wf = true) : (State.l1Refresh s c
    pa bs).mem.wf = true := by
  unfold State.l1Refresh
  repeat' (first | assumption | (with_reducible apply State.modCore_wf) | split | (dsimp only) | (simp [*]; done))
@[simp] theorem State.writeBack_wf (s : State) (c : Nat) (who : List (Nat × Nat)) (x : L1Line) (hw : s.mem.wf = true) :
    (State.writeBack s c who x).mem.wf = true := by
  unfold State.writeBack
  repeat' (first | assumption | (with_reducible apply State.modCore_wf) | (with_reducible apply State.countAccess_wf) |
                  (with_reducible apply State.l2Take_wf) | split | (dsimp only) | (simp [*]; done))
@[simp] theorem State.cleanLine_wf (s : State) (c line : Nat) (who : List (Nat × Nat)) (hw : s.mem.wf = true) : (State.cleanLine
    s c line who).mem.wf = true := by
  unfold State.cleanLine
  repeat' (first | assumption | (with_reducible apply State.writeBack_wf) | split | (dsimp only) | (simp [*]; done))
@[simp] theorem State.l1Evict_wf (s : State) (c line : Nat) (hw : s.mem.wf = true) : (State.l1Evict s c line).mem.wf = true := by
  unfold State.l1Evict
  repeat' (first | assumption | (with_reducible apply State.modCore_wf) | (with_reducible apply State.cleanLine_wf) | split |
                  (dsimp only) | (simp [*]; done))
@[simp] theorem State.l1Room_wf (s : State) (c : Nat) (hw : s.mem.wf = true) : (State.l1Room s c).mem.wf = true := by
  unfold State.l1Room
  repeat' (first | assumption | (with_reducible apply State.l1Evict_wf) | split | (dsimp only) | (simp [*]; done))
@[simp] theorem State.l1Fetch_wf (s : State) (c line : Nat) (a : Attr) (priv : Bool) (hw : s.mem.wf = true) : (State.l1Fetch s c
    line a priv).mem.wf = true := by
  unfold State.l1Fetch
  repeat' (first | assumption | (with_reducible apply State.modCore_wf) | (with_reducible apply State.l2Serve_wf) |
                  (with_reducible apply State.grantL1_wf) | (with_reducible apply State.l1Room_wf) | (dsimp only) | split |
                  (simp [*]; done))
@[simp] theorem State.loadBytes_wf (s : State) (c pa n : Nat) (a : Attr) (priv : Bool) (hw : s.mem.wf = true) : (State.loadBytes
    s c pa n a priv).2.mem.wf = true := by
  unfold State.loadBytes
  repeat' (first | assumption | (with_reducible apply State.l3Serve_wf) | (with_reducible apply State.l2Serve_wf) |
                  (with_reducible apply State.l1Fetch_wf) | split | (dsimp only) | (simp [*]; done))
@[simp] theorem State.storeBytes_wf (s : State) (c t g pa : Nat) (a : Attr) (rel priv : Bool) (bs : List (BitVec 8)) (hw :
    s.mem.wf = true) : (State.storeBytes s c t g pa a rel priv bs).mem.wf = true := by
  unfold State.storeBytes
  repeat' (first | assumption | (with_reducible apply State.modCore_wf) | (with_reducible apply State.unpoison_wf) |
                  (with_reducible apply State.homePut_wf) | (with_reducible apply State.kwct_wf) |
                  (with_reducible apply State.countAccess_wf) | (with_reducible apply State.l2Write_wf) |
                  (with_reducible apply State.l1Refresh_wf) | (with_reducible apply State.l1Fetch_wf) | split | (dsimp only) |
                  (simp [*]; done))
@[simp] theorem State.homeBytes_wf (s : State) (c pa n : Nat) (a : Attr) (scope : Nat) (hw : s.mem.wf = true) : (State.homeBytes
    s c pa n a scope).2.mem.wf = true := by
  unfold State.homeBytes
  repeat' (first | assumption | (with_reducible apply State.l3Serve_wf) | (with_reducible apply State.forwardLine_wf) |
                  (with_reducible apply State.l2Serve_wf) | (with_reducible apply State.cleanLine_wf) | split | (dsimp only) |
                  (simp [*]; done))
@[simp] theorem State.homeWrite_wf (s : State) (c t g pa : Nat) (a : Attr) (scope : Nat) (bs : List (BitVec 8)) (hw : s.mem.wf =
    true) : (State.homeWrite s c t g pa a scope bs).mem.wf = true := by
  unfold State.homeWrite
  repeat' (first | assumption | (with_reducible apply State.modDie_wf) | (with_reducible apply State.unpoison_wf) |
                  (with_reducible apply State.homePut_wf) | (with_reducible apply State.kwct_wf) |
                  (with_reducible apply State.l2Write_wf) | (with_reducible apply State.l1Refresh_wf) | split | (dsimp only) |
                  (simp [*]; done))
theorem walkFrom_wf (asid va : Nat) (l : List (Nat × Nat × Nat)) (table : Nat) (s : State) (hw : s.mem.wf = true) :
    (walkFrom asid va l table s).2.mem.wf = true := by
  induction l generalizing table s with
  | nil => exact hw
  | cons p t ih =>
    unfold walkFrom
    repeat' (first | assumption | (apply ih) | split | (dsimp only))
@[simp] theorem State.walk_wf (s : State) (asid va : Nat) (hw : s.mem.wf = true) : (State.walk s asid va).2.mem.wf = true := by
  unfold State.walk
  repeat' (first | assumption | (with_reducible apply walkFrom_wf) | split | (dsimp only) | (simp [*]; done))
@[simp] theorem State.tlbFill_wf (s : State) (c : Nat) (e : TlbE) (hw : s.mem.wf = true) : (State.tlbFill s c e).mem.wf = true
    := by
  unfold State.tlbFill
  repeat' (first | assumption | (with_reducible apply State.modCore_wf) | (with_reducible apply State.modDie_wf) | split |
                  (dsimp only) | (simp [*]; done))
@[simp] theorem State.pushFault_wf (s : State) (va cause asid kind master : Nat) (hw : s.mem.wf = true) : (State.pushFault s va
    cause asid kind master).mem.wf = true := by
  unfold State.pushFault
  repeat' (first | assumption | split | (dsimp only) | (simp [*]; done))
@[simp] theorem State.pushRefused_wf (s : State) (va cause asid kind master : Nat) (hw : s.mem.wf = true) : (State.pushRefused s
    va cause asid kind master).mem.wf = true := by
  unfold State.pushRefused
  repeat' (first | assumption | (with_reducible apply State.pushFault_wf) | split | (dsimp only) | (simp [*]; done))
@[simp] theorem State.reportXlate_wf (s : State) (va cause asid kind master : Nat) (spec : Bool) (hw : s.mem.wf = true) :
    (State.reportXlate s va cause asid kind master spec).mem.wf = true := by
  unfold State.reportXlate
  repeat' (first | assumption | split | (dsimp only) | (simp [*]; done))
@[simp] theorem State.payOwed_wf (s : State) (hw : s.mem.wf = true) : (State.payOwed s).mem.wf = true := by
  unfold State.payOwed
  repeat' (first | assumption | split | (dsimp only) | (simp [*]; done))
@[simp] theorem State.addMiss_wf (s : State) (c asid va kind : Nat) (spec : Bool) (hw : s.mem.wf = true) : (State.addMiss s c
    asid va kind spec).mem.wf = true := by
  unfold State.addMiss
  repeat' (first | assumption | split | (dsimp only) | (simp [*]; done))
@[simp] theorem State.schedWalked_wf (s : State) (m : Miss) (leaf : Option TlbE) (cause : Nat) (hw : s.mem.wf = true) :
    (State.schedWalked s m leaf cause).mem.wf = true := by
  unfold State.schedWalked
  repeat' (first | assumption | split | (dsimp only) | (simp [*]; done))
@[simp] theorem State.endWalk_wf (s : State) (m : Miss) (hw : s.mem.wf = true) : (State.endWalk s m).mem.wf = true := by
  unfold State.endWalk
  repeat' (first | assumption | (with_reducible refine foldl_wf _ (fun u a hu => ?_) _ _ ?_) |
                  (with_reducible apply State.walk_wf) | (with_reducible apply State.tlbFill_wf) |
                  (with_reducible apply State.reportXlate_wf) | (with_reducible apply State.schedWalked_wf) | split |
                  (dsimp only) | (simp [*]; done))
@[simp] theorem State.charge_wf (s : State) (act agent target n : Nat) (hw : s.mem.wf = true) : (State.charge s act agent target
    n).mem.wf = true := by
  unfold State.charge
  repeat' (first | assumption | split | (dsimp only) | (simp [*]; done))
/-- Taking a grant touches no memory (R82). -/
theorem State.spend_wf {s u : State} {act agent target n unit : Nat} (h : s.spend act agent target n unit = some u)
    (hw : s.mem.wf = true) : u.mem.wf = true := by
  unfold State.spend at h
  split at h
  · exact Option.some.inj h ▸ hw
  · split at h
    · cases h
    · exact Option.some.inj h ▸ hw
@[simp] theorem State.spendMany_wf (s : State) (act agent target n : Nat) (hw : s.mem.wf = true) :
    (State.spendMany s act agent target n).2.mem.wf = true := by
  unfold State.spendMany
  dsimp only
  split
  · exact hw
  · split
    · exact hw
    · split
      · next h => exact State.spend_wf h hw
      · exact hw
@[simp] theorem State.newTokOf_wf (s : State) (t g k n : Nat) (counted : Bool) (hw : s.mem.wf = true) : (State.newTokOf s t g k
    n counted).2.mem.wf = true := by
  unfold State.newTokOf
  repeat' (first | assumption | (with_reducible apply State.modGrp_wf) | split | (dsimp only) | (simp [*]; done))
@[simp] theorem State.newTok_wf (s : State) (t g k n : Nat) (hw : s.mem.wf = true) : (State.newTok s t g k n).2.mem.wf = true :=
    by
  unfold State.newTok
  repeat' (first | assumption | (with_reducible apply State.newTokOf_wf) | split | (dsimp only) | (simp [*]; done))
@[simp] theorem State.addPart_wf (s : State) (t g tok : Nat) (hw : s.mem.wf = true) : (State.addPart s t g tok).mem.wf = true :=
    by
  unfold State.addPart
  repeat' (first | assumption | (with_reducible apply State.modGrp_wf) | split | (dsimp only) | (simp [*]; done))
@[simp] theorem State.decTok_wf (s : State) (t g tok : Nat) (hw : s.mem.wf = true) : (State.decTok s t g tok).mem.wf = true := by
  unfold State.decTok
  repeat' (first | assumption | (with_reducible apply State.modGrp_wf) | split | (dsimp only) | (simp [*]; done))
@[simp] theorem State.decTok?_wf (s : State) (t g : Nat) (tok : Option Nat) (hw : s.mem.wf = true) : (State.decTok? s t g
    tok).mem.wf = true := by
  unfold State.decTok?
  repeat' (first | assumption | (with_reducible apply State.decTok_wf) | split | (dsimp only) | (simp [*]; done))
@[simp] theorem State.releaseHeld_wf (t g : Nat) (s : State) (l : Nat) (hw : s.mem.wf = true) : (State.releaseHeld t g s
    l).mem.wf = true := by
  unfold State.releaseHeld
  repeat' (first | assumption | (with_reducible apply State.modLane_wf) | (with_reducible apply State.decTok_wf) | split |
                  (dsimp only) | (simp [*]; done))
@[simp] theorem State.releaseAll_wf (s : State) (t g : Nat) (lanes : List Nat) (hw : s.mem.wf = true) : (State.releaseAll s t g
    lanes).mem.wf = true := by
  unfold State.releaseAll
  repeat' (first | assumption | (with_reducible refine foldl_wf _ (fun u a hu => ?_) _ _ ?_) |
                  (with_reducible apply State.releaseHeld_wf) | split | (dsimp only) | (simp [*]; done))
@[simp] theorem State.dropFar_wf (s : State) (t g : Nat) (lanes : List Nat) (hw : s.mem.wf = true) : (State.dropFar s t g
    lanes).mem.wf = true := by
  unfold State.dropFar
  repeat' (first | assumption | split | (dsimp only) | (simp [*]; done))
@[simp] theorem State.dropFarOf_wf (s : State) (t g : Nat) (hw : s.mem.wf = true) : (State.dropFarOf s t g).mem.wf = true := by
  unfold State.dropFarOf
  repeat' (first | assumption | split | (dsimp only) | (simp [*]; done))
@[simp] theorem State.addPend_wf (s : State) (t g l : Nat) (regs : List (PReg × Nat)) (ready : Bool) (tok : Option Nat) (hw :
    s.mem.wf = true) : (State.addPend s t g l regs ready tok).2.mem.wf = true := by
  unfold State.addPend
  repeat' (first | assumption | (with_reducible apply State.modLane_wf) | split | (dsimp only) | (simp [*]; done))
@[simp] theorem State.fillPend_wf (s : State) (t g l : Nat) (id v : Nat) (hw : s.mem.wf = true) : (State.fillPend s t g l id
    v).mem.wf = true := by
  unfold State.fillPend
  repeat' (first | assumption | (with_reducible apply State.modLane_wf) | split | (dsimp only) | (simp [*]; done))
@[simp] theorem State.dropPend_wf (s : State) (t g l : Nat) (id : Nat) (hw : s.mem.wf = true) : (State.dropPend s t g l
    id).mem.wf = true := by
  unfold State.dropPend
  repeat' (first | assumption | (with_reducible apply State.modLane_wf) | (with_reducible apply State.decTok?_wf) | split |
                  (dsimp only) | (simp [*]; done))
@[simp] theorem State.landPend_wf (s : State) (t g l k : Nat) (hw : s.mem.wf = true) : (State.landPend s t g l k).mem.wf = true
    := by
  unfold State.landPend
  repeat' (first | assumption | (with_reducible refine foldl_wf _ (fun u a hu => ?_) _ _ ?_) |
                  (with_reducible apply State.modLane_wf) | (with_reducible apply State.decTok?_wf) | split | (dsimp only) |
                  (simp [*]; done))
@[simp] theorem State.removeTeam_wf (s : State) (t : Nat) (hw : s.mem.wf = true) : (State.removeTeam s t).mem.wf = true := by
  unfold State.removeTeam
  repeat' (first | assumption | (with_reducible apply State.modCore_wf) | split | (dsimp only) | (simp [*]; done))
@[simp] theorem State.launchTeamDone_wf (s : State) (gridid wct : Nat) (killed : Bool) (hw : s.mem.wf = true) :
    (State.launchTeamDone s gridid wct killed).mem.wf = true := by
  unfold State.launchTeamDone
  repeat' (first | assumption | split | (dsimp only) | (simp [*]; done))
@[simp] theorem State.send_wf (s : State) (p : Packet) (hw : s.mem.wf = true) : (State.send s p).mem.wf = true := by
  unfold State.send
  repeat' (first | assumption | split | (dsimp only) | (simp [*]; done))
@[simp] theorem State.setWin_wf (s : State) (t w : Nat) (f : Win → Win) (hw : s.mem.wf = true) : (State.setWin s t w f).mem.wf =
    true := by
  unfold State.setWin
  repeat' (first | assumption | (with_reducible apply State.modTeam_wf) | split | (dsimp only) | (simp [*]; done))
@[simp] theorem State.freeEntry_wf (s : State) (t : Nat) (e : IEnt) (hw : s.mem.wf = true) : (State.freeEntry s t e).mem.wf =
    true := by
  unfold State.freeEntry
  repeat' (first | assumption | (with_reducible refine foldl_wf _ (fun u a hu => ?_) _ _ ?_) |
                  (with_reducible apply State.modTeam_wf) | (with_reducible apply State.decTok_wf) |
                  (with_reducible apply State.fillPend_wf) | split | (dsimp only) | (simp [*]; done))
@[simp] theorem State.sendCancel_wf (s : State) (c : Nat) (e : IEnt) (hw : s.mem.wf = true) : (State.sendCancel s c e).mem.wf =
    true := by
  unfold State.sendCancel
  repeat' (first | assumption | (with_reducible apply State.send_wf) | split | (dsimp only) | (simp [*]; done))
@[simp] theorem State.dropPublishes_wf (s : State) (t g : Nat) (hw : s.mem.wf = true) : (State.dropPublishes s t g).mem.wf =
    true := by
  unfold State.dropPublishes
  repeat' (first | assumption | (with_reducible refine foldl_wf _ (fun u a hu => ?_) _ _ ?_) |
                  (with_reducible apply State.modCore_wf) | (with_reducible apply State.decTok_wf) |
                  (with_reducible apply State.setWin_wf) | split | (dsimp only) | (simp [*]; done))
@[simp] theorem State.unlatchLanes_wf (s : State) (c t g : Nat) (lanes : List Nat) (hw : s.mem.wf = true) : (State.unlatchLanes
    s c t g lanes).mem.wf = true := by
  unfold State.unlatchLanes
  repeat' (first | assumption | (with_reducible apply State.modCore_wf) | split | (dsimp only) | (simp [*]; done))
@[simp] theorem State.squash_wf (s : State) (t g : Nat) (hw : s.mem.wf = true) : (State.squash s t g).mem.wf = true := by
  unfold State.squash
  repeat' (first | assumption | (with_reducible refine foldl_wf _ (fun u a hu => ?_) _ _ ?_) |
                  (with_reducible apply State.modTeam_wf) | (with_reducible apply State.modGrp_wf) |
                  (with_reducible apply State.dropRun_wf) | (with_reducible apply State.decTok_wf) |
                  (with_reducible apply State.releaseAll_wf) | (with_reducible apply State.send_wf) |
                  (with_reducible apply State.setWin_wf) | (with_reducible apply State.dropPublishes_wf) |
                  (with_reducible apply State.unlatchLanes_wf) | split | (dsimp only) | (simp [*]; done))
@[simp] theorem State.squashReaders_wf (s : State) (t w : Nat) (hw : s.mem.wf = true) : (State.squashReaders s t w).mem.wf =
    true := by
  unfold State.squashReaders
  repeat' (first | assumption | (with_reducible refine foldl_wf _ (fun u a hu => ?_) _ _ ?_) |
                  (with_reducible apply State.squash_wf) | split | (dsimp only) | (simp [*]; done))
@[simp] theorem State.cancelEntry_wf (s : State) (t : Nat) (e : IEnt) (hw : s.mem.wf = true) : (State.cancelEntry s t e).mem.wf
    = true := by
  unfold State.cancelEntry
  repeat' (first | assumption | (with_reducible apply State.modCore_wf) | (with_reducible apply State.setWin_wf) |
                  (with_reducible apply State.freeEntry_wf) | (with_reducible apply State.sendCancel_wf) |
                  (with_reducible apply State.squashReaders_wf) | split | (dsimp only) | (simp [*]; done))
@[simp] theorem State.cancelAll_wf (s : State) (t : Nat) (hw : s.mem.wf = true) : (State.cancelAll s t).mem.wf = true := by
  unfold State.cancelAll
  repeat' (first | assumption | (with_reducible refine foldl_wf _ (fun u a hu => ?_) _ _ ?_) |
                  (with_reducible apply State.cancelEntry_wf) | split | (dsimp only) | (simp [*]; done))
@[simp] theorem State.endTeam_wf (s : State) (t : Nat) (hw : s.mem.wf = true) : (State.endTeam s t).mem.wf = true := by
  unfold State.endTeam
  repeat' (first | assumption | (with_reducible refine foldl_wf _ (fun u a hu => ?_) _ _ ?_) |
                  (with_reducible apply State.removeTeam_wf) | (with_reducible apply State.launchTeamDone_wf) |
                  (with_reducible apply State.squash_wf) | (with_reducible apply State.cancelAll_wf) | split | (dsimp only) |
                  (simp [*]; done))
@[simp] theorem State.killTeam_wf (s : State) (t cause va : Nat) (hw : s.mem.wf = true) : (State.killTeam s t cause va).mem.wf =
    true := by
  unfold State.killTeam
  repeat' (first | assumption | (with_reducible apply State.pushFault_wf) | (with_reducible apply State.endTeam_wf) | split |
                  (dsimp only) | (simp [*]; done))
@[simp] theorem State.frameWrite_wf (s : State) (x : Team) (t g k : Nat) (e : TlbE) (bs : List (BitVec 8)) (hw : s.mem.wf =
    true) : (State.frameWrite s x t g k e bs).mem.wf = true := by
  unfold State.frameWrite
  dsimp only
  split
  · exact State.storeBytes_wf _ _ _ _ _ _ _ _ _ hw
  · refine foldl_wf _ (fun u a hu => ?_) _ _ hw
    exact hu
@[simp] theorem State.enterNow_wf (s : State) (t g : Nat) (x : Team) (y : Group) (h : HeldTrap) (es : List TlbE) (hw : s.mem.wf
    = true) : (State.enterNow s t g x y h es).mem.wf = true := by
  unfold State.enterNow
  repeat' (first | assumption | (with_reducible refine foldl_wf _ (fun u a hu => ?_) _ _ ?_) |
                  (with_reducible apply State.modGrp_wf) | (with_reducible apply State.frameWrite_wf) | split | (dsimp only) |
                  (simp [*]; done))
@[simp] theorem State.tryEntry_wf (s : State) (t g : Nat) (hw : s.mem.wf = true) : (State.tryEntry s t g).mem.wf = true := by
  unfold State.tryEntry
  repeat' (first | assumption | (with_reducible apply State.pushRefused_wf) | (with_reducible apply State.reportXlate_wf) |
                  (with_reducible apply State.addMiss_wf) | (with_reducible apply State.killTeam_wf) |
                  (with_reducible apply State.enterNow_wf) | split | (dsimp only) | (simp [*]; done))
@[simp] theorem State.takeTrap_wf (s : State) (t g : Nat) (flt : List (Nat × Nat)) (lanes : List Nat) (rep : Option (BitVec 56 ×
    Nat)) (hw : s.mem.wf = true) : (State.takeTrap s t g flt lanes rep).mem.wf = true := by
  unfold State.takeTrap
  repeat' (first | assumption | (with_reducible apply State.modGrp_wf) | (with_reducible apply State.dropRun_wf) |
                  (with_reducible apply State.killTeam_wf) | (with_reducible apply State.tryEntry_wf) | split | (dsimp only) |
                  (simp [*]; done))
@[simp] theorem State.modCrew_wf (s : State) (c no : Nat) (f : Crew → Crew) (hw : s.mem.wf = true) : (State.modCrew s c no
    f).mem.wf = true := by
  unfold State.modCrew
  repeat' (first | assumption | (with_reducible apply State.modCore_wf) | split | (dsimp only) | (simp [*]; done))
@[simp] theorem State.latchTrap_wf (s : State) (t cause : Nat) (r : LatchRec) (hw : s.mem.wf = true) : (State.latchTrap s t
    cause r).mem.wf = true := by
  unfold State.latchTrap
  repeat' (first | assumption | (with_reducible apply State.modGrp_wf) | (with_reducible apply State.decTok?_wf) |
                  (with_reducible apply State.takeTrap_wf) | split | (dsimp only) | (simp [*]; done))
@[simp] theorem State.dissolve_wf (s : State) (c : Nat) (k : Crew) (hw : s.mem.wf = true) : (State.dissolve s c k).mem.wf = true
    := by
  unfold State.dissolve
  repeat' (first | assumption | (with_reducible refine foldl_wf _ (fun u a hu => ?_) _ _ ?_) |
                  (with_reducible apply State.modCore_wf) | (with_reducible apply State.modGrp_wf) | split | (dsimp only) |
                  (simp [*]; done))
@[simp] theorem State.formTrap_wf (s : State) (t cause g : Nat) (hw : s.mem.wf = true) : (State.formTrap s t cause g).mem.wf =
    true := by
  unfold State.formTrap
  repeat' (first | assumption | (with_reducible apply State.takeTrap_wf) | split | (dsimp only) | (simp [*]; done))
@[simp] theorem State.crewExit_wf (s : State) (c t g : Nat) (hw : s.mem.wf = true) : (State.crewExit s c t g).mem.wf = true := by
  unfold State.crewExit
  repeat' (first | assumption | (with_reducible refine foldl_wf _ (fun u a hu => ?_) _ _ ?_) |
                  (with_reducible apply State.modCrew_wf) | (with_reducible apply State.latchTrap_wf) |
                  (with_reducible apply State.dissolve_wf) | split | (dsimp only) | (simp [*]; done))
@[simp] theorem State.cancelEnded_wf (s : State) (t : Nat) (e : IEnt) (hw : s.mem.wf = true) : (State.cancelEnded s t e).mem.wf
    = true := by
  unfold State.cancelEnded
  repeat' (first | assumption | (with_reducible apply State.cancelEntry_wf) | split | (dsimp only) | (simp [*]; done))
@[simp] theorem State.groupLeaves_wf (s : State) (t g : Nat) (hw : s.mem.wf = true) : (State.groupLeaves s t g).mem.wf = true :=
    by
  unfold State.groupLeaves
  repeat' (first | assumption | (with_reducible apply State.modCore_wf) | (with_reducible apply State.modTeam_wf) |
                  (with_reducible apply State.modGrp_wf) | split | (dsimp only) | (simp [*]; done))
@[simp] theorem State.groupFinished_wf (s : State) (t g : Nat) (hw : s.mem.wf = true) : (State.groupFinished s t g).mem.wf =
    true := by
  have key : ∀ u : State, u.mem.wf = true →
      (match u.team? t with | some z => if z.ended then u.cancelAll t else u | none => u).mem.wf = true := by
    intro u hu
    split
    · split
      · exact State.cancelAll_wf _ _ hu
      · exact hu
    · exact hu
  unfold State.groupFinished
  split
  · exact hw
  · split
    · exact hw
    · exact key _ (State.crewExit_wf _ _ _ _ (foldl_wf _ (fun _ _ hu => State.formTrap_wf _ _ _ _ hu) _ _
        (State.modCore_wf _ _ _ (State.groupLeaves_wf _ _ _ (State.modGrp_wf _ _ _ _ hw)))))
@[simp] theorem State.wakeBar_wf (s : State) (t g n : Nat) (hw : s.mem.wf = true) : (State.wakeBar s t g n).mem.wf = true := by
  unfold State.wakeBar
  repeat' (first | assumption | (with_reducible apply State.modGrp_wf) | (with_reducible apply State.takeTrap_wf) | split |
                  (dsimp only) | (simp [*]; done))
@[simp] theorem State.wakeBars_wf (s : State) (t n : Nat) (hw : s.mem.wf = true) : (State.wakeBars s t n).mem.wf = true := by
  unfold State.wakeBars
  repeat' (first | assumption | (with_reducible refine foldl_wf _ (fun u a hu => ?_) _ _ ?_) |
                  (with_reducible apply State.wakeBar_wf) | split | (dsimp only) | (simp [*]; done))
@[simp] theorem State.barUpdate_wf (s : State) (t n : Nat) (k : BarUpd) (hw : s.mem.wf = true) :
    (State.barUpdate s t n k).mem.wf = true := by
  unfold State.barUpdate
  repeat' (first | assumption | (with_reducible apply State.modTeam_wf))
@[simp] theorem State.settleBar_wf (s : State) (t n : Nat) (hw : s.mem.wf = true) : (State.settleBar s t n).mem.wf = true := by
  unfold State.settleBar
  repeat' (first | assumption | (with_reducible apply State.modTeam_wf) | (with_reducible apply State.wakeBars_wf) | split)
@[simp] theorem State.settleBars_wf (s : State) (hw : s.mem.wf = true) : (State.settleBars s).mem.wf = true := by
  unfold State.settleBars
  refine foldl_wf _ (fun u a hu => ?_) _ _ hw
  exact foldl_wf _ (fun v q hv => State.settleBar_wf v _ _ hv) _ _ hu
@[simp] theorem State.releaseJoin_wf (s : State) (t g : Nat) (p : BitVec 56) (hw : s.mem.wf = true) : (State.releaseJoin s t g
    p).mem.wf = true := by
  unfold State.releaseJoin
  repeat' (first | assumption | (with_reducible apply State.modGrp_wf) | split | (dsimp only) | (simp [*]; done))
@[simp] theorem State.releaseJoins_wf (s : State) (t g : Nat) (hw : s.mem.wf = true) : (State.releaseJoins s t g).mem.wf = true
    := by
  unfold State.releaseJoins
  repeat' (first | assumption | (with_reducible refine foldl_wf _ (fun u a hu => ?_) _ _ ?_) |
                  (with_reducible apply State.releaseJoin_wf) | split | (dsimp only) | (simp [*]; done))
@[simp] theorem State.poolWrite_wf (s : State) (c tag a : Nat) (bs : List (BitVec 8)) (hw : s.mem.wf = true) : (State.poolWrite
    s c tag a bs).mem.wf = true := by
  unfold State.poolWrite
  repeat' (first | assumption | (with_reducible apply State.modCore_wf) | split | (dsimp only) | (simp [*]; done))
@[simp] theorem State.lock_wf (s : State) (c op space asid base len : Nat) (dst : Bool) (hw : s.mem.wf = true) : (State.lock s c
    op space asid base len dst).mem.wf = true := by
  unfold State.lock
  repeat' (first | assumption | (with_reducible apply State.modCore_wf) | split | (dsimp only) | (simp [*]; done))
@[simp] theorem State.unlock_wf (s : State) (c op : Nat) (hw : s.mem.wf = true) : (State.unlock s c op).mem.wf = true := by
  unfold State.unlock
  repeat' (first | assumption | (with_reducible apply State.modCore_wf) | split | (dsimp only) | (simp [*]; done))
@[simp] theorem State.startCopy_wf (s : State) (t w : Nat) (tok : Option (Nat × Nat)) (grp : Nat) (hw : s.mem.wf = true) :
    (State.startCopy s t w tok grp).mem.wf = true := by
  unfold State.startCopy
  repeat' (first | assumption | (with_reducible apply State.modCore_wf) | (with_reducible apply State.setWin_wf) | split |
                  (dsimp only) | (simp [*]; done))
@[simp] theorem State.touchAbsent_wf (s : State) (c tag a n g : Nat) (hw : s.mem.wf = true) : (State.touchAbsent s c tag a n
    g).mem.wf = true := by
  unfold State.touchAbsent
  repeat' (first | assumption | (with_reducible refine foldl_wf _ (fun u a hu => ?_) _ _ ?_) |
                  (with_reducible apply State.startCopy_wf) | split | (dsimp only) | (simp [*]; done))

/-! ### The end of a core cycle -/

@[simp] theorem State.sampleAll_mem (s : State) : s.sampleAll.mem = s.mem := rfl
@[simp] theorem Team.sample_bars (x : Team) : x.sample.bars = x.bars := rfl
@[simp] theorem Team.sample_wins (x : Team) : x.sample.wins = x.wins := rfl
@[simp] theorem Team.keepCsrs_grps (x : Team) (now : Nat) : (x.keepCsrs now).grps = x.grps := rfl
@[simp] theorem Team.keepCsrs_wins (x : Team) (now : Nat) : (x.keepCsrs now).wins = x.wins := rfl
@[simp] theorem Team.keepCsrs_bars (x : Team) (now : Nat) : (x.keepCsrs now).bars = x.bars := rfl

/-- Sampling leaves every team in its place. -/
theorem State.sampleAll_team? (s : State) (t : Nat) : s.sampleAll.team? t = (s.team? t).map Team.sample :=
  Tab.get?_map (fun _ (x : Team) => x.sample) s.teams t

/-- The ready lists are no memory (R72). -/
theorem State.sampleCores_wf (s : State) (hw : s.mem.wf = true) : s.sampleCores.mem.wf = true := by
  unfold State.sampleCores
  exact foldl_wf _ (fun u c hu => State.modCore_wf _ _ _ hu) _ _ hw

/-- The end of a tick keeps the memory's form (R135, R368, R388). -/
theorem State.endTick_wf (s : State) (hw : s.mem.wf = true) : s.endTick.mem.wf = true := by
  unfold State.endTick
  split
  · exact State.sampleCores_wf _ (State.settleBars_wf s hw)
  · exact hw

theorem reset_mem_wf : State.reset.mem.wf = true := rfl

/-- The free contents of DRAM after a package reset stand in the canonical form (log entry 1). -/
theorem dramAfter_wf (n : Nat) : (dramAfter n).wf = true := by
  unfold dramAfter
  generalize Config.resetDram n = l
  suffices ∀ m : Mem, m.wf = true → (l.foldl (fun m p => m.write (p.1 % Config.dramTop) p.2) m).wf = true from this [] rfl
  induction l with
  | nil => exact fun m h => h
  | cons p t ih => exact fun m h => ih _ (Mem.write_wf m _ _ h)

end Sys2Proof.Machine
end

