-- ==== Sys2Proof/Tests/Slice0.lean ====
section
/-! SUPPORT. Tests/Slice0.lean: tests of the decoder and of single steps against the spec's own examples, refused ill-formed terms,
and for each statement with hypotheses a state and operands that meet them. -/
namespace Sys2Proof.Machine.Tests
open Sys2Proof Sys2Proof.Machine

/-! ### Ill-formed terms are refused (R60, R61, R63, R268, R273, R318 and each entry's field rules) -/

/-- A header with no guard, hold or run end. -/
def h0 : Hdr := ⟨false, 0, false, 0, 0, false⟩

/-- A header with a guard on bit 0 of a register. -/
def hg (r : BitVec 8) : Hdr := ⟨false, 0, true, r, 0, false⟩

/-- A header with a hold code. -/
def hh (k : BitVec 2) : Hdr := ⟨false, k, false, 0, 0, false⟩

theorem test_guard_fields_refused : (Instr.nop ⟨false, 0, false, 1, 0, false⟩).wf false = false ∧
    (Instr.nop ⟨false, 0, false, 0, 1, false⟩).wf false = false ∧ (Instr.nop ⟨false, 0, false, 0, 0, true⟩).wf false = false ∧
    (Instr.nop (hg 64)).wf true = false ∧ (Instr.nop (hg 64)).wf false = true := by decide

theorem test_hold_refused : (Instr.brev (hh 2) 5 6).wf false = false ∧ (Instr.or (hh 3) 5 6 7).wf false = false ∧
    (Instr.movi (hh 1) 5 0).wf false = false ∧ (Instr.imad (hh 3) 5 6 7 8 .i32).wf false = true := by decide

theorem test_issuer_refused : (Instr.dqpush h0 4 5).wf false = false ∧ (Instr.shfl h0 5 6 7 .xor 5).wf true = false ∧
    Instr.packageReset.wf false = false ∧ Instr.packageReset.wf true = false := by decide

theorem test_pairs_refused : (Instr.mov h0 5 6 true).wf false = false ∧ (Instr.mov h0 4 6 true).wf false = true ∧
    (Instr.brx h0 7).wf false = false := by decide

theorem test_scalar_refused : (Instr.or h0 64 0 0).wf true = false ∧ (Instr.or h0 0 0 64).wf true = false ∧
    (Instr.or h0 64 0 0).wf false = true := by decide

theorem test_types_refused : (∀ i ∈ [Instr.iadd h0 5 6 7 .f32, .iaddImm h0 5 6 7 .f16, .isub h0 5 6 7 .d2, .isubImm h0 5 6 7 .h2,
    .imul h0 5 6 7 .bf16, .imulImm h0 5 6 7 .f32, .imulh h0 5 6 7 .f32, .imad h0 5 6 7 8 .f32, .idiv h0 5 6 7 .f32,
    .irem h0 5 6 7 .f32, .imin h0 5 6 7 .f32, .iminImm h0 5 6 7 .f32, .imax h0 5 6 7 .f32, .imaxImm h0 5 6 7 .f32,
    .iset h0 5 6 7 0 .eq .f32, .bfx h0 5 6 7 .f32, .fadd h0 5 6 7 .i32, .fsub h0 5 6 7 .u32, .fmul h0 5 6 7 .d2,
    .ffma h0 5 6 7 8 .e4m3, .fmin h0 5 6 7 .i32, .fmax h0 5 6 7 .i32, .fset h0 5 6 7 0 .eq .h2, .fclass h0 5 6 .h2,
    .fcvt h0 5 6 .h2 .f32, .fcvt h0 5 6 .i32 .u32, .qrow h0 10 11 12 .q4m3 0 .f16, .red h0 5 6 .and .f32, .red h0 5 6 .add .f16,
    .scan h0 5 6 .xor false .f32], i.wf false = false) := by decide

theorem test_fields_refused : (∀ i ∈ [Instr.shlImm h0 5 6 256, .shrImm h0 5 6 0x800, .shaImm h0 5 6 256, .rotImm h0 5 6 256,
    .qrow h0 10 11 12 .q4m3 3 .f32, .qrow h0 10 11 10 .q4m3 0 .f32, .shfl h0 5 6 7 .idx 6, .vote h0 5 6 0 1 .ballot,
    .tkins h0 20 6 7 8, .mfld h0 8 6 0 2 false, .bra h0 4, .call h0 30 12, .tret (hg 1), .fence h0 6, .evsig h0 6 1 6 0 0,
    .evwait h0 6 1 6 0 0, .ld h0 .b32 true none 5 1 3 0, .ld h0 .b32 false (some 6) 5 1 3 0, .st h0 .b32 (some 7) 5 1 3 0,
    .ldp h0 .b32 true 5 3 0, .lds h0 .b64 true 0 6 3 0, .lds h0 .b8 false 3 6 3 0, .sts h0 .b8 0 6 3 0,
    .atom h0 false false false 6 8 1 3 0, .cget h0 5 1 .pos 1, .ccoit h0 false 12 1 1, .csrr h0 9 0x03F, .csrw h0 9 0x04F],
    i.wf false = false) := by decide

/-! ### Decoding: words of every family, from the spec's own encodings and examples -/

/-- What a pair of words decodes to, if anything. -/
def dec (front : Bool) (w w2 : BitVec 64) : Option Instr := (decodeWords front w w2).toOption

/-- A header whose only field is E. -/
def hE : Hdr := ⟨true, 0, false, 0, 0, false⟩

theorem test_decode_integer :
    dec false 0x0000001050607100 0 = some (.and h0 5 6 7 true) ∧ dec false 0x00000410506000FF 0 = some (.andImm h0 5 6 0xFF false) ∧
    dec false 0x00000040A0B0C000 0 = some (.iadd h0 10 11 12 .i32) ∧ dec false 0x0000050050600003 0 = some (.shlImm h0 5 6 3) ∧
    dec false 0x000001C050600000 0 = some (.mov h0 5 6 false) ∧ dec false 0x000001E050000000 0x12345678 = some (.movi h0 5 0x12345678) ∧
    dec false 0x000001D050620000 0 = some (.movx h0 false 5 6 32) ∧ dec false 0x000000F050607008 0 = some (.sel h0 5 6 7 8) ∧
    dec false 0x0000019050600000 0 = some (.popc h0 5 6) ∧ dec false 0x000001B050607008 0 = some (.zord h0 5 6 7 8) ∧
    dec false 0x10710440A0B00FFD 0 = some (.iaddImm ⟨false, 0, true, 7, 2, false⟩ 10 11 0xFFD .i32) := by decide

theorem test_decode_float :
    dec false 0x000008308010620B 0 = some (.ffma h0 8 1 6 11 .f32) ∧ dec false 0x0000089050600502 0 = some (.fcvt h0 5 6 .e4m3 .f32) ∧
    dec false 0x0000087070304242 0 = some (.fset h0 7 3 4 2 .lt .f32) ∧
    dec false 0x000008B0A0B0C200 0 = some (.qrow h0 10 11 12 .q4m3 0 .f32) ∧
    dec false 0x000008314283C250 0 = some (.ffma h0 20 40 60 80 .f32) := by decide

theorem test_decode_lanes :
    dec false 0x0000100050607015 0 = some (.shfl h0 5 6 7 .xor 5) ∧ dec false 0x0000102090300000 0 = some (.matchL h0 9 3 false) ∧
    dec false 0x0000103050600200 0 = some (.red h0 5 6 .add .f32) ∧ dec false 0x0000104050600008 0 = some (.scan h0 5 6 .add true .i32) ∧
    dec false 0x0000101080700462 0 = some (.vote h0 8 7 2 3 .any) ∧ dec false 0x800010514282C201 0 = some (.tkins hE 20 40 44 1) ∧
    dec false 0x0000106108104000 0 = some (.mfld h0 16 4 0 1 true) := by decide

theorem test_decode_control :
    dec false 0x8000184000900001 0 = some (.join hE (some 9)) ∧ dec false 0x8000185000000000 0 = some (.exit hE) ∧
    dec false 0x8000186000000000 0 = some (.nop hE) ∧ dec false 0x0000187000101003 0 = some (.rep 3 0 1 1 0) ∧
    dec false 0x80001800000000C0 0xFFFFFFE8 = none ∧ dec false 0x00001821E0000000 0x200 = some (.call h0 30 0x200) ∧
    dec false 0x800018C000000004 0 = some (.fence hE 4) ∧ dec false 0x800018D000000000 0 = some (.lfence hE) ∧
    dec false 0x800018A000000000 0 = some (.tret hE) ∧ dec false 0x0000190030405000 0 = some (.binit h0 3 4 5) ∧
    dec false 0x0000192020000000 0 = some (.bwait h0 2) ∧ dec false 0x0000196064A00000 0 = some (.evsig h0 6 2 4 0 0) := by decide

theorem test_decode_memory :
    dec false 0x0000202054903010 0 = some (.ld h0 .b32 false (some 4) 5 1 3 16) ∧
    dec false 0x0000206054903010 0 = some (.st h0 .b32 (some 4) 5 1 3 16) ∧
    dec false 0x000020E0A0302008 0 = some (.stp h0 .b32 10 2 8) ∧ dec false 0x000021A050104040 0 = some (.xst h0 .b32 5 4 0x40) ∧
    dec false 0x000021C083103010 0 = some (.atom h0 false false false 3 8 1 3 16) ∧
    dec false 0x0000221090103000 0 = some (.prsq h0 9 1 3 0) ∧ dec false 0x0000230250204000 0 = some (.rgnset h0 5 1 2 4 0) ∧
    dec false 0x0000232050000000 0 = some (.touch h0 5) := by decide

theorem test_decode_cursors : dec false 0x80002860C0102000 0 = some (.ccoit hE false 12 1 2) := by decide

theorem test_decode_matrix :
    dec false 0x0000300000405000 0 = some (.crew h0 4 5) ∧ dec false 0x0000302030000000 0 = some (.obrel h0 3) ∧
    dec false 0x000031002000100C 0 = some (.mma h0 2 0 1 12) ∧ dec false 0x8000311030102000 0 = some (.mmal hE 3 1 2) ∧
    dec false 0x8000316000000000 0 = some (.mzero hE 0) ∧ dec false 0x0000318030102040 0 = some (.mld h0 3 1 2 0x40) := by decide

theorem test_decode_named :
    dec false 0x8000380040A0D002 0 = some (.nsub hE 4 10 13 2) ∧ dec false 0x0000380000A0D010 0 = some (.nsubWarm h0 10 13) ∧
    dec false 0x0000381040A0D002 0x201 = some (.nsubSpec h0 4 10 13 2 1 2) ∧ dec false 0x0000382040A00000 0 = some (.npub h0 false 4 10) ∧
    dec false 0x0000383070A00004 0 = some (.ncan h0 7 10 4) ∧ dec false 0x0000384070000004 0 = some (.nstat h0 7 4) ∧
    dec false 0x0000385000406000 0 = some (.ntol h0 4 6) ∧ dec false 0x0000386000406000 0 = some (.nrtw h0 4 6) ∧
    dec false 0x0000387070000000 0 = some (.spec h0 7) := by decide

theorem test_decode_system :
    dec true 0x00003C0000405000 0 = some (.dqpush h0 4 5) ∧ dec false 0x00003C1140016000 0 = some (.dqpop h0 20 22 0) ∧
    dec false 0x00003D0040000007 0 = some (.sreg h0 4 .time) ∧
    dec false 0x00003D1090000042 0 = some (.csrr h0 9 0x042) ∧ dec false 0x00003D2000900042 0 = some (.csrw h0 9 0x042) ∧
    dec false 0x80003E0000000000 0 = some (.xacq hE) ∧ dec false 0x80003E1000000000 0 = some (.xrel hE) ∧
    dec false 0x00003E8000406000 0 = some (.tlbinv h0 4 6) := by decide

/-! ### Small states -/

/-- A launch of one team of two groups of 128 registers, with eight private words a lane and a front thread. -/
def launch0 : Launch :=
  { fetchLaunch true with lr := { (fetchLaunch true).lr with groups := 2, regs := 128, priv := 8, carve := [8, 8, 4, 4] } }

/-- One resident team on core 0 and no run open; every feature is accepted. -/
def quiet0 : State :=
  { State.reset.placeTeam launch0 0 0 with regs := { Regs.reset with featacc := 0x1FF, featlock := true } }

/-- The open run of lanes of group 0. -/
def run0 (lanes : List Nat) : Run := ⟨0, 0, 1, 0, lanes, none, 1, [], none⟩

/-- The state in which lanes of group 0 issue. -/
def lanes0 (l : List Nat) : State := { quiet0 with runs := [run0 l] }

/-- The state in which lanes 0 and 1 of group 0 issue. -/
def two0 : State := lanes0 [0, 1]

/-- The state in which the front thread issues. -/
def front0 : State := { quiet0 with runs := [⟨0, 8, 1, frontKey, [0], none, 1, [], none⟩] }

/-- A general register of lanes of group 0 holds values. -/
def setG (r : Nat) (vs : List (Nat × Nat)) (s : State) : State :=
  vs.foldl (fun u p => u.modLane 1 0 p.1 fun z => z.put false r p.2) s

/-- A scalar register of the front thread holds a value. -/
def setS (r v : Nat) (s : State) : State := s.modLane 1 frontKey 0 fun z => z.put true r v

/-- A cursor register of lanes of group 0 holds a value. -/
def setC (c : Nat) (ls : List Nat) (v : BitVec 128) (s : State) : State :=
  ls.foldl (fun u l => u.modLane 1 0 l fun z => { z with curs := z.curs.set c v }) s

/-! ### Values of single steps, from the spec's own examples -/

/-- One lane issues, with three values in g6, g7 and g8. -/
def vals (a b c : Nat) : State := lanes0 [0] |> setG 6 [(0, a)] |> setG 7 [(0, b)] |> setG 8 [(0, c)]

/-- A part of group 0 after an instruction. -/
def after {α : Type} (i : Instr) (s : State) (f : Group → α) : Option α :=
  match exec i s with
  | .next t => (t.grp? 1 0).map f
  | _ => none

/-- g5 of lane 0 after an instruction on three values. -/
def r5 (i : Instr) (a b c : Nat) : Option Nat := after i (vals a b c) fun y => (y.lane 0).get false 5

/-- The values of lane 0's first pending writeback after an instruction. -/
def pend0 (i : Instr) (s : State) : Option (List (PReg × Nat)) := after i s fun y => ((y.lane 0).pend.head?.map (·.regs)).getD []

theorem test_and_n : r5 (.and h0 5 6 7 true) 0x12345678 0x0000FFFF 0 = some 0x12340000 := by decide
theorem test_imulh : r5 (.imulh h0 5 6 7 .i32) 0x80000000 0x80000000 0 = some 0x40000000 ∧
    r5 (.imulh h0 5 6 7 .i32) 0xFFFFFFFF 2 0 = some 0xFFFFFFFF ∧ r5 (.imulh h0 5 6 7 .u32) 0xFFFFFFFF 2 0 = some 1 := by decide
theorem test_iadd_wraps : r5 (.iadd h0 5 6 7 .i32) 0xFFFFFFFF 1 0 = some 0 := by decide
theorem test_sha_rot : r5 (.shaImm h0 5 6 4) 0x80000010 0 0 = some 0xF8000001 ∧ r5 (.rotImm h0 5 6 1) 0x80000001 0 0 = some 3 := by decide
theorem test_popc_clz_ctz : r5 (.popc h0 5 6) 0xF0F00001 0 0 = some 9 ∧ r5 (.clz h0 5 6) 0x8000 0 0 = some 16 ∧
    r5 (.ctz h0 5 6) 0x8000 0 0 = some 15 ∧ r5 (.ctz h0 5 6) 0 0 0 = some 32 := by decide
theorem test_bfi_bfx : r5 (.bfi h0 5 6 7 8) 5 0xFFFFFFFF 0x0404 = some 0xFFFFFF5F ∧
    r5 (.bfx h0 5 6 7 .u32) 0xF0A0 0x0808 0 = some 0xF0 ∧ r5 (.bfx h0 5 6 7 .i32) 0xF0A0 0x0808 0 = some 0xFFFFFFF0 := by decide
theorem test_zord : r5 (.zord h0 5 6 7 8) 3 1 2 = some 0x2B := by decide
theorem test_icvt : after (.icvt h0 5 6 false) (vals 400 0 0) (fun y => ((y.lane 0).get false 5, y.fpflags)) = some (0x7F, 0x20) := by decide
theorem test_ffma_one_rounding : after (.ffma h0 5 6 7 8 .f32) (vals 0x3F800800 0x3F800800 0xBF801000)
    (fun y => ((y.lane 0).get false 5, y.fpflags)) = some (0x33800000, 0) := by decide
theorem test_fmul_halfway : after (.fmul h0 5 6 7 .f32) (vals 0x3F800800 0x3F800800 0)
    (fun y => ((y.lane 0).get false 5, y.fpflags)) = some (0x3F801000, 1) := by decide
theorem test_fcvt_e4m3 : after (.fcvt h0 5 6 .e4m3 .f32) (vals 0x43E60000 0 0)
    (fun y => ((y.lane 0).get false 5, y.fpflags)) = some (0x7E, 1) := by decide
theorem test_qrow : after (.qrow h0 10 11 12 .q4m3 0 .f32)
    (lanes0 [0, 1, 2, 3] |> setG 11 [(0, 0x3F800000), (1, 0xBE99999A), (2, 0x3A03126F), (3, 0x7FC00000)])
    (fun y => ((List.range 4).map (fun l => (y.lane l).get false 10), (y.lane 3).get false 12)) =
      some ([0x7E, 0xF0, 0x26, 0x7F], 0x3B13) := by decide
theorem test_match : after (.matchL h0 9 3 false) (lanes0 [0, 1, 2, 3] |> setG 3 [(0, 7), (1, 5), (2, 7), (3, 7)])
    (fun y => (List.range 4).map fun l => (y.lane l).get false 9) = some [13, 2, 13, 13] := by decide
theorem test_scan : after (.scan h0 5 6 .add true .i32) (lanes0 [0, 1, 2, 3] |> setG 6 [(0, 3), (1, 1), (2, 4), (3, 1)])
    (fun y => (List.range 4).map fun l => (y.lane l).get false 5) = some [0, 3, 4, 8] := by decide
theorem test_shfl_absent_lane : after (.shfl h0 5 6 7 .xor 5)
    (lanes0 [0, 1, 2] |> setG 6 [(0, 10), (1, 11), (2, 12)] |> setG 7 [(0, 1), (1, 1), (2, 1)])
    (fun y => (List.range 3).map fun l => (y.lane l).get false 5) = some [11, 10, 12] := by decide
theorem test_tkins : pend0 (.tkins h0 20 40 44 1)
    (lanes0 [0] |> setG 20 [(0, 0x3F333333)] |> setG 21 [(0, 1)] |> setG 22 [(0, 0x3DCCCCCD)] |> setG 40 [(0, 0x3F333333)] |> setG 44 [(0, 2)]) =
      some [(.g 20, 0x3F333333), (.g 21, 1), (.g 22, 0x3F333333), (.g 23, 2)] := by decide
theorem test_idiv_by_zero : pend0 (.idiv h0 5 6 7 .i32) (vals 7 0 0) = some [(.g 5, 0xFFFFFFFF)] := by decide

/-- A placed word is fetched, decoded and run by the next step. -/
def placed (w : Nat) : Option Group :=
  match step (State.reset.withFetchWord 64 w) with
  | .next t => t.grp? 1 0
  | _ => none

theorem test_step_runs_placed_word : (placed 0x000001E050000000).map (fun y => ((y.lane 31).get false 5, (y.lane 31).pc)) = some (0, 0x10010) ∧
    (placed 0).map (fun y => (y.lane 0).pc) = none := by decide

/-! ### Witnesses: what they say -/

/-- The issuer of a state that has one. -/
def ctx (s : State) : Ctx := s.issuer?.getD ⟨run0 [], (quiet0.newTeam launch0 0 0), Group.blank⟩

/-- `Issues` as a test. -/
def issuesB (s : State) (i : Instr) : Bool :=
  let x := ctx s
  s.issuer? == some x && decide x.run.lanes.Nodup && x.run.lanes.all (fun l => l < x.gp.lanes.length) &&
    decide (x.gp.lanes.length ≤ 32) && !illegalNow s x i && !guardOut x i && !guardLock x i && !(activeOf x i).isEmpty &&
    ((i.roles x.front).rd ++ (i.roles x.front).wr).all (fun u => x.gp.useOk u) && !interlock x i (activeOf x i) &&
    (!(i.roles x.front).crewI || x.gp.crew.valid) && (!x.gp.spec || !(i.roles x.front).specWait)

theorem issues_of {s : State} {i : Instr} (h : issuesB s i = true) : Issues s (ctx s) i := by
  simp only [issuesB, Bool.and_eq_true, Bool.not_eq_true', beq_iff_eq, decide_eq_true_eq, List.all_eq_true] at h
  obtain ⟨⟨⟨⟨⟨⟨⟨⟨⟨⟨⟨h1, h2⟩, h3⟩, h4⟩, h5⟩, h6⟩, h7⟩, h8⟩, h9⟩, h10⟩, h11⟩, h12⟩ := h
  exact {
    issuer := h1, pack := ⟨h2, h3, h4⟩, legal := h5, guard := ⟨h6, h7⟩
    active := fun e => by simp [e] at h8
    regs := h9, free := h10
    crew := fun e => by simpa [e] using h11
    task := fun e => by simpa [e] using h12 }

/-- Instructions of a list issue in a state. -/
def IssueAll (s : State) (l : List Instr) : Prop := ∀ i ∈ l, Issues s (ctx s) i

theorem issueAll_of {s : State} {l : List Instr} (h : l.all (issuesB s) = true) : IssueAll s l :=
  fun i hi => issues_of (List.all_eq_true.mp h i hi)

/-- `Unhindered` as a test. -/
def unhB (s : State) (x : Ctx) (i : Instr) (k : Nat) (buffered : Bool) (sel : Nat → Bool) : Bool :=
  x.groupFence? (activeOf x i) == none && (activeOf x i).all (fun l => !s.acqPending x l) &&
    ((newLanes x i sel).isEmpty || buffered || decide (x.gp.ctr k < ctrMax k))

theorem unh_of {s : State} {x : Ctx} {i : Instr} {k : Nat} {buffered : Bool} {sel : Nat → Bool}
    (h : unhB s x i k buffered sel = true) : Unhindered s x i k buffered sel := by
  simp only [unhB, Bool.and_eq_true, Bool.or_eq_true, Bool.not_eq_true', beq_iff_eq, decide_eq_true_eq, List.all_eq_true,
    List.isEmpty_iff, or_assoc] at h
  exact ⟨h.1.1, h.1.2, h.2⟩

/-- The hypotheses of the clause that `c` picks out of a statement hold of the issuer of `s`. -/
def MetE {P : Prop} {i h e stay f} (_c : P → EffectTo i h e stay f) (s : State) : Prop := Issues s (ctx s) i ∧ h s (ctx s)
/-- The hypotheses of a clause about a device step hold of `s`. -/
def MetS {P : Prop} {e h f} (_c : P → Steps e h f) (s : State) : Prop := h s

/-! ### Witnesses: register, lane and control instructions -/

theorem wit_integer_issues : IssueAll two0
    [.and h0 5 6 7 true, .andImm h0 5 6 0xFF false, .or h0 5 6 7, .orImm h0 5 6 1, .xor h0 5 6 7, .xorImm h0 5 6 1,
      .iadd h0 5 6 7 .i32, .iaddImm h0 5 6 0xFFD .i32, .isub h0 5 6 7 .u32, .isubImm h0 5 6 1 .i32, .imul h0 5 6 7 .i32,
      .imulImm h0 5 6 3 .i32, .imulh h0 5 6 7 .u32, .imad h0 5 6 7 8 .i32, .idiv h0 5 6 7 .i32, .irem h0 5 6 7 .u32,
      .imin h0 5 6 7 .i32, .iminImm h0 5 6 1 .i32, .imax h0 5 6 7 .u32, .imaxImm h0 5 6 1 .u32, .iabs h0 5 6,
      .iset h0 5 6 7 31 .lt .i32, .sel h0 5 6 7 8, .shl h0 5 6 7, .shlImm h0 5 6 255, .shr h0 5 6 7, .shrImm h0 5 6 1, .sha h0 5 6 7,
      .shaImm h0 5 6 4, .rot h0 5 6 7, .rotImm h0 5 6 1, .bfx h0 5 6 7 .u32, .bfi h0 5 6 7 8, .brev h0 5 6, .clz h0 5 6, .ctz h0 5 6,
      .popc h0 5 6, .icvt h0 5 6 false, .icvt h0 5 6 true, .zord h0 5 6 7 8, .mov h0 5 6 false, .mov h0 4 126 true, .movImm h0 5 7,
      .movi h0 127 1, .movx h0 false 5 6 32] := issueAll_of (by decide)

theorem wit_front_issues : IssueAll front0
    [.and h0 5 6 7 true, .iadd h0 63 6 7 .i32, .imulh h0 5 6 7 .u32, .idiv h0 5 6 7 .i32, .iset h0 5 6 7 31 .lt .i32, .shl h0 5 6 7,
      .bfx h0 5 6 7 .u32, .clz h0 5 6, .popc h0 5 6, .icvt h0 5 6 false, .movi h0 5 1, .bra h0 8, .exit h0, .nop h0,
      .fence h0 5, .binit h0 15 4 5, .barv h0 0, .bwait h0 0, .bxpc h0 0 4 5, .bqry h0 4 0 false, .evsigFront h0 6 4, .evwaitFront h0 6 4,
      .nsub h0 4 10 13 2, .ncan h0 7 10 4, .nstat h0 7 31, .ntol h0 4 6, .dqpush h0 4 5, .launchFront h0 6 4, .sreg h0 4 .time,
      .csrr h0 9 0x042, .csrw h0 9 0x042] := issueAll_of (by decide)

theorem wit_float_issues : IssueAll two0
    [.fadd h0 5 6 7 .f32, .fsub h0 5 6 7 .h2, .fmul h0 5 6 7 .f16, .ffma h0 5 6 7 8 .bf16, .fdiv h0 5 6 7, .fmin h0 5 6 7 .f32,
      .fmax h0 5 6 7 .h2, .fset h0 5 6 7 2 .lt .f32, .fclass h0 5 6 .e4m3, .fcvt h0 5 6 .e4m3 .f32, .fsf h0 5 6 .rcp,
      .qrow h0 10 11 12 .q4m3 2 .f32] := issueAll_of (by decide)

theorem wit_lane_issues : IssueAll two0
    [.shfl h0 5 6 7 .xor 5, .vote h0 5 6 2 0 .ballot, .vote h0 5 6 2 3 .any, .matchL h0 9 4 true, .red h0 5 6 .add .f32,
      .scan h0 5 6 .add true .i32, .tkins h0 20 40 44 7, .mfld h0 8 6 0 1 true] := issueAll_of (by decide)

theorem wit_control_issues : IssueAll two0
    [.bra h0 0xFFFFFFE8, .brx h0 6, .call h0 30 0x200, .ret h0 30, .join h0 (some 9), .join h0 none, .exit h0, .nop h0, .rep 63 1 1 1 1,
      .wait h0 63 63 63 15, .trap h0 5, .fence h0 5, .lfence h0, .binit h0 3 4 5, .barv h0 3, .bwait h0 2, .bxpc h0 3 4 5, .bqry h0 4 3 true,
      .clbar h0, .sreg h0 4 .time, .csrr h0 9 0x04E, .csrw h0 9 0x04D, .xacq h0, .xrel h0, .spec h0 7, .nstat h0 7 4] :=
  issueAll_of (by decide)

theorem wit_movx_read : MetE (fun H : Claims.AsyncIntegerResults => (H h0 5 6 127 .i32).2.2 false) two0 :=
  ⟨issues_of (by decide), by dsimp only; decide⟩
theorem wit_movx_write : MetE (fun H : Claims.AsyncIntegerResults => (H h0 5 6 0 .i32).2.2 true) (setG 6 [(1, 127)] two0) :=
  ⟨issues_of (by decide), by dsimp only; decide⟩

/-- The NaN trap is on and g6, g7 and g8 hold 1.0 in both lanes. -/
def ones : State :=
  (two0 |> setG 6 [(0, 0x3F803C00), (1, 0x3F803C00)] |> setG 7 [(0, 0x3F803C00), (1, 0x3F803C00)] |> setG 8 [(0, 0x3F803C00), (1, 0x3F803C00)]).modTeam 1
    fun m => { m with nantrap := true }

theorem wit_fadd : MetE (fun H : Claims.FloatResults => (H h0 5 6 7 8 2 .lt .f32 .f32).1) ones :=
  ⟨issues_of (by decide), by dsimp only [FpQuiet]; decide⟩
theorem wit_fsub : MetE (fun H : Claims.FloatResults => (H h0 5 6 7 8 2 .lt .h2 .f32).2.1) ones :=
  ⟨issues_of (by decide), by dsimp only [FpQuiet]; decide⟩
theorem wit_fmul : MetE (fun H : Claims.FloatResults => (H h0 5 6 7 8 2 .lt .f16 .f32).2.2.1) ones :=
  ⟨issues_of (by decide), by dsimp only [FpQuiet]; decide⟩
theorem wit_ffma : MetE (fun H : Claims.FloatResults => (H h0 5 6 7 8 2 .lt .f32 .f32).2.2.2.1) ones :=
  ⟨issues_of (by decide), by dsimp only [FpQuiet]; decide⟩
theorem wit_fmin : MetE (fun H : Claims.FloatResults => (H h0 5 6 7 8 2 .lt .bf16 .f32).2.2.2.2.1) ones :=
  ⟨issues_of (by decide), by dsimp only [FpQuiet]; decide⟩
theorem wit_fmax : MetE (fun H : Claims.FloatResults => (H h0 5 6 7 8 2 .lt .f32 .f32).2.2.2.2.2.1) ones :=
  ⟨issues_of (by decide), by dsimp only [FpQuiet]; decide⟩
theorem wit_fset : MetE (fun H : Claims.FloatResults => (H h0 5 6 7 8 31 .lt .f32 .f32).2.2.2.2.2.2.1) ones :=
  ⟨issues_of (by decide), by dsimp only [FpQuiet]; decide⟩
theorem wit_fcvt : MetE (fun H : Claims.FloatResults => (H h0 5 6 7 8 2 .lt .e4m3 .f32).2.2.2.2.2.2.2.1) ones :=
  ⟨issues_of (by decide), by dsimp only [FpQuiet]; decide⟩
theorem wit_fdiv : MetE (fun H : Claims.FloatAsyncResults => (H h0 5 6 7 .rcp .q4m3 0 .f32).1) ones :=
  ⟨issues_of (by decide), by dsimp only [FpQuiet]; decide⟩
theorem wit_fsf : MetE (fun H : Claims.FloatAsyncResults => (H h0 5 6 7 .rcp .q4m3 0 .f32).2.1) ones :=
  ⟨issues_of (by decide), by dsimp only [FpQuiet]; decide⟩
theorem wit_qrow : MetE (fun H : Claims.FloatAsyncResults => (H h0 10 6 12 .rcp .q4m3 0 .f32).2.2) ones :=
  ⟨issues_of (by decide), by dsimp only [FpQuiet]; decide⟩
theorem wit_red : MetE (fun H : Claims.ReductionResults => (H h0 5 6 .add .f32 true).1) ones :=
  ⟨issues_of (by decide), by dsimp only [RedQuiet]; decide⟩
theorem wit_scan : MetE (fun H : Claims.ReductionResults => (H h0 5 6 .add .f32 true).2) ones :=
  ⟨issues_of (by decide), by dsimp only [RedQuiet]; decide⟩
theorem wit_mfld : MetE (fun H : Obligations.TopListAndTileResults => (H h0 8 9 6 0 0 1 false).2 0x1FFC00)
    (setG 6 [(0, 0x1FFC00), (1, 0x1FFC00)] two0) := ⟨issues_of (by decide), unh_of (by decide), by decide⟩
theorem wit_bra : MetE (fun H : Claims.BranchResults => (H h0 30 6 0xFFFFFFE8).1) two0 := ⟨issues_of (by decide), trivial⟩
theorem wit_call : MetE (fun H : Claims.BranchResults => (H h0 30 6 0x200).2.1) two0 := ⟨issues_of (by decide), trivial⟩
theorem wit_brx : MetE (fun H : Claims.BranchResults => (H h0 30 6 0).2.2.1) (setG 7 [(0, 0xFFFFFF)] two0) :=
  ⟨issues_of (by decide), by dsimp only; decide⟩
theorem wit_ret : MetE (fun H : Claims.BranchResults => (H h0 30 6 0).2.2.2.1) (setG 6 [(0, 0x10000), (1, 0xFFFFFFF8)] two0) :=
  ⟨issues_of (by decide), by dsimp only; decide⟩
theorem wit_misaligned_target : Issues (setG 6 [(1, 4)] two0) (ctx (setG 6 [(1, 4)] two0)) (.brx h0 6) ∧
    Issues (setG 7 [(0, 0x1000000)] two0) (ctx (setG 7 [(0, 0x1000000)] two0)) (.ret h0 6) ∧
    ((activeOf (ctx (setG 6 [(1, 4)] two0)) (.brx h0 6)).filter fun l => ((ctx (setG 6 [(1, 4)] two0)).lane l).get64 false 6 % 8 != 0) = [1] ∧
    2 ^ 56 ≤ ((ctx (setG 7 [(0, 0x1000000)] two0)).lane 0).get64 false 6 :=
  ⟨issues_of (by decide), issues_of (by decide), by decide, by decide⟩
theorem wit_join : Issues two0 (ctx two0) (.join h0 (some 9)) := issues_of (by decide)
theorem wit_nop : MetE (fun H : Claims.FlowResults => (H h0 none 0 0 0 0 3 0 0 0 0).2.1) two0 := ⟨issues_of (by decide), trivial⟩
theorem wit_wait : MetE (fun H : Claims.FlowResults => (H h0 none 2 0 0 0 3 0 0 0 0).2.2.1)
    (two0.modGrp 1 0 fun y => { y with loads := 2 }) := ⟨issues_of (by decide), by dsimp only; decide⟩
theorem wit_wait_parks : MetE (fun H : Claims.FlowResults => (H h0 none 2 0 0 0 3 0 0 0 0).2.2.2.1)
    (two0.modGrp 1 0 fun y => { y with loads := 3 }) := ⟨issues_of (by decide), by dsimp only; decide⟩

/-- A REP prefix and a word that it may repeat stand where all lanes fetch. -/
def rep0 : State := State.reset.withFetchWord 128 (0x0000187010101003 + 0x0000004050607000 * 2 ^ 64)

theorem wit_rep : MetE (fun H : Claims.FlowResults => (H h0 none 0 0 0 0 3 1 1 1 0).2.2.2.2.1) rep0 :=
  ⟨issues_of (by decide), 0x0000004050607000, _, rfl, by decide⟩
theorem wit_exit_some : Issues two0 (ctx two0) (.exit h0) ∧ ∃ k < (ctx two0).gp.lanes.length, ¬(activeOf (ctx two0) (.exit h0)).contains k ∧
    ((ctx two0).run.lanes.contains k ∨ ((ctx two0).gp.lane k).st ≠ .exited) := ⟨issues_of (by decide), 2, by decide, by decide⟩

/-- Lanes 0 and 1 are the last lanes of their group. -/
def last0 : State :=
  two0.modGrp 1 0 fun y => { y with lanes := (List.range 32).map fun l => if l < 2 then y.lane l else { y.lane l with st := .exited } }

theorem wit_exit_last : Issues last0 (ctx last0) (.exit h0) ∧ (ctx last0).gp.finished = false ∧
    ∀ k < (ctx last0).gp.lanes.length, (activeOf (ctx last0) (.exit h0)).contains k ∨
      (¬(ctx last0).run.lanes.contains k ∧ ((ctx last0).gp.lane k).st = .exited) :=
  ⟨issues_of (by decide), by decide, by decide⟩

/-! ### Witnesses: memory, fences, traps, barriers -/

/-- Every active lane's part succeeds. -/
def partsB {α : Type} (part : Ctx → Nat → LM α) (s : State) (x : Ctx) (i : Instr) : Bool :=
  let r := (eachLane (part x) (activeOf x i) s).1
  r.map (·.1) == activeOf x i && r.all fun p => match p.2 with | .ok _ => true | .error _ => false

/-- The answers of the lanes whose part succeeds. -/
def oksOf {α : Type} (r : List (Nat × Except LStop α)) : List (Nat × α) :=
  r.filterMap fun p => match p.2 with | .ok a => some (p.1, a) | .error _ => none

theorem oksOf_spec {α : Type} (r : List (Nat × Except LStop α)) (h : ∀ p ∈ r, (match p.2 with | .ok _ => true | .error _ => false) = true) :
    r = (oksOf r).map fun p => (p.1, .ok p.2) := by
  induction r with
  | nil => rfl
  | cons p t ih =>
    obtain ⟨n, e⟩ := p
    have ht := ih fun q hq => h q (List.mem_cons_of_mem _ hq)
    cases e with
    | error e => exact absurd (h _ List.mem_cons_self) (by simp)
    | ok a =>
      have e : oksOf ((n, Except.ok a) :: t) = (n, a) :: oksOf t := rfl
      rw [e, List.map_cons, ← ht]

theorem parts_of {α : Type} {part : Ctx → Nat → LM α} {s : State} {x : Ctx} {i : Instr} (h : partsB part s x i = true) :
    ∃ oks s1, PartsOk part s x i oks s1 := by
  simp only [partsB, Bool.and_eq_true, beq_iff_eq, List.all_eq_true] at h
  have e := oksOf_spec _ h.2
  refine ⟨oksOf (eachLane (part x) (activeOf x i) s).1, (eachLane (part x) (activeOf x i) s).2, ?_, ?_⟩
  · have e1 := congrArg (List.map (·.1)) e
    rw [List.map_map] at e1
    exact e1.symm.trans h.1
  · exact Prod.ext e rfl

/-- The hypotheses of a clause about accesses that start hold of `s`: for the machine after the release, and the lanes' answers. -/
def MetAcc {P : Prop} {α : Type} {i h k buffered sel scope part pre mk}
    (_c : P → AccessStartsIn (α := α) i h k buffered sel scope part pre mk) (s : State) : Prop :=
  ∃ u oks s1, Issues s (ctx s) i ∧ MemReleased s (ctx s) i scope u ∧ h u (ctx s) ∧
    Unhindered u (ctx s) i (k (ctx s)) (buffered (ctx s)) (sel (ctx s)) ∧
    PartsOk part (u.counted (ctx s) i (k (ctx s)) (buffered (ctx s)) (sel (ctx s))) (ctx s) i oks s1

/-- The machine after a memory instruction's release, where it is complete. -/
def relOf (s : State) (i : Instr) (scope : Option Nat) : State × Option Nat :=
  match (if (ctx s).gp.spec then none else scope) with
  | none => (s, none)
  | some k => s.fenceStep (ctx s) (activeOf (ctx s) i) k false

theorem metAcc_of {P : Prop} {α : Type} {i : Instr} {h k buffered sel scope pre mk} {part : Ctx → Nat → LM α}
    {c : P → AccessStartsIn i h k buffered sel scope part pre mk} {s : State} (h1 : issuesB s i = true) (h2 : (relOf s i scope).2 = none)
    (h3 : unhB (relOf s i scope).1 (ctx s) i (k (ctx s)) (buffered (ctx s)) (sel (ctx s)) = true)
    (h4 : partsB part ((relOf s i scope).1.counted (ctx s) i (k (ctx s)) (buffered (ctx s)) (sel (ctx s))) (ctx s) i = true)
    (h5 : h (relOf s i scope).1 (ctx s)) : MetAcc c s := by
  obtain ⟨oks, s1, hp⟩ := parts_of h4
  refine ⟨(relOf s i scope).1, oks, s1, issues_of h1, ?_, h5, unh_of h3, hp⟩
  unfold MemReleased Released
  unfold relOf at h2 ⊢
  split <;> rename_i e <;> simp only [e] at h2 ⊢
  exact Prod.ext rfl h2

/-- The hypotheses of a clause about a Looper's jobs hold of `s`. -/
def MetJob {P : Prop} {i h part} (_c : P → JobGives i h part) (s : State) : Prop :=
  ∃ oks s1, Issues s (ctx s) i ∧ JobFree s (ctx s) i ∧ h s (ctx s) ∧ PartsOk part s (ctx s) i oks s1

theorem metJob_of {P : Prop} {i : Instr} {h part} {c : P → JobGives i h part} {s : State} (h1 : issuesB s i = true)
    (h2 : unhB s (ctx s) i 0 true (fun _ => true) = true) (h3 : s.lockRoom (ctx s).tm.core 1 = true) (h4 : h s (ctx s))
    (h5 : partsB part s (ctx s) i = true) : MetJob c s := by
  obtain ⟨oks, s1, hp⟩ := parts_of h5
  exact ⟨oks, s1, issues_of h1, ⟨(unh_of h2).1, (unh_of h2).2, h3⟩, h4, hp⟩

/-- A translation of the low 2 MiB to themselves, with an ALLOC. -/
def bigTlb (alloc : Nat) : TlbE :=
  { asid := 1, va := 0, lg := 21, pa := 0, rd := true, wr := true, ex := true, usr := true, alloc, wb := false, cmp := false, evp := 0 }

/-- A core with that translation and two layout records in its cache: handle 1 is a dense level of 64 elements of 4 bytes at 0x9000,
and handle 2 a linked level whose unit stands at 0xA000. -/
def core0 (alloc : Nat) : Core :=
  { quiet0.core 0 with
    tlb := [bigTlb alloc]
    lrc := [(2 ^ 56 + 0x8200, 1), (2 ^ 56 + 0x8240, 1 + 2 * 16 + 64 * 2 ^ 32 + 0x9000 * 2 ^ 192), (2 ^ 56 + 0x8400, 1),
      (2 ^ 56 + 0x8440, 3 + 2 * 16 + 64 * 2 ^ 32 + 0xB000 * 2 ^ 64 + 0xC000 * 2 ^ 128 + 0x9000 * 2 ^ 192 + 0xA000 * 2 ^ 256)] }

/-- Core 0 may access every byte of DRAM. -/
def accAll : Tab (BitVec 64) :=
  (List.range 64).flatMap fun t => [(t * 529 * 8, 0x1F), (t * 529 * 8 + 1, 0xFFFF_FFFF_0000)]

/-- The team with its memory open: LRBASE at 0x8000, c1 of lanes 0 and 1 on the dense level. -/
def memS (alloc : Nat) : State :=
  setC 1 [0, 1] (BitVec.ofNat 128 (Cur.toNat ⟨1, 0, false, false, false, false, false, false, 1, 0, 64, 5, 0⟩)) <|
    { quiet0.modTeam 1 (fun m => { m with lrbase := 0x8000, uhvec := 0x20000, uhdeleg := 0x3F }) with
      cores := [(0, core0 alloc)], acc := accAll, time := 10 }

/-- Lanes 0 and 1 issue there. -/
def mem2 : State := { memS 0 with runs := [run0 [0, 1]] }

theorem wit_memory_issues : IssueAll mem2
    [.ld h0 .b32 false (some 5) 5 1 3 16, .st h0 .b64 none 6 1 3 16, .ldp h0 .b64 false 6 3 8, .stp h0 .b16 5 3 2, .lds h0 .b8 true 2 5 3 0,
      .sts h0 .b64 1 6 3 0, .xst h0 .b32 5 4 0x40, .atom h0 true true true 5 8 1 3 16, .cctl h0 5 1 3 0, .prsq h0 9 1 3 0,
      .evsig h0 6 1 4 0 0, .evwait h0 6 1 4 0 0, .rgnset h0 5 1 2 4 0, .rgnclr h0 31 true, .touch h0 5, .cmk h0 false 2 5,
      .cdesc h0 true 2 1, .cnrw h0 2 1 6 7, .cnext h0 5 1, .cseek h0 5 1 6, .cget h0 5 1 .crd 0, .ccoit h0 true 12 1 2, .capp h0 5 1 6,
      .cfin h0 1, .crew h0 4 5, .nsub h0 4 10 13 2, .nsubWarm h0 10 13, .nsubSpec h0 4 10 13 2 1 2, .npub h0 true 4 10, .ncan h0 7 10 4,
      .ntol h0 4 6, .dqpop h0 20 22 31, .launch h0 6 1 4 0] := issueAll_of (by decide)

theorem wit_ld : MetAcc (fun H : Claims.LoadsStart => (H h0 .b16 true (some 5) 5 3 1 0xFF8).1) (setG 3 [(0, 0), (1, 58)] mem2) :=
  metAcc_of (by decide) (by decide) (by decide) (by decide) (by trivial)
theorem wit_ldp : MetAcc (fun H : Claims.LoadsStart => (H h0 .b64 false none 6 3 0 24).2.1) mem2 :=
  metAcc_of (by decide) (by decide) (by decide) (by decide) (by trivial)
theorem wit_prsq : MetAcc (fun H : Claims.LoadsStart => (H h0 .b32 false none 5 3 1 0).2.2) mem2 :=
  metAcc_of (by decide) (by decide) (by decide) (by decide) (by trivial)
theorem wit_st : MetAcc (fun H : Claims.StoresStart => (H h0 .b16 (some 5) 5 3 1 0).1) (setG 3 [(1, 58)] mem2) :=
  metAcc_of (by decide) (by decide) (by decide) (by decide) (by trivial)
theorem wit_stp : MetAcc (fun H : Claims.StoresStart => (H h0 .b64 none 6 3 1 24).2.1) mem2 :=
  metAcc_of (by decide) (by decide) (by decide) (by decide) (by trivial)

/-- The team holds an exchange area, in a cluster of two by one. -/
def exch2 : State := mem2.modTeam 1 fun m => { m with id := { m.id with exch := true, clw := 2, clh := 1 } }

theorem wit_xst : MetAcc (fun H : Claims.StoresStart => (H h0 .b32 none 5 4 0 0x7C).2.2) (setG 4 [(0, 0x7F80), (1, 0x10000000)] exch2) :=
  metAcc_of (by decide) (by decide) (by decide) (by decide) (by trivial)

/-- Operation words: an add that returns, and a cas that does not. -/
def atom2 : State := mem2 |> setG 10 [(0, 0), (1, 25)] |> setG 8 [(0, 7), (1, 9)] |> setG 3 [(1, 58)]

theorem wit_atom : MetAcc (fun H : Obligations.AtomicsStart => (H h0 false false true 5 1 8 3 0 0).1) atom2 :=
  metAcc_of (by decide) (by decide) (by decide) (by decide) (by trivial)
theorem wit_atom64 : MetAcc (fun H : Obligations.AtomicsStart => (H h0 true true false 0 1 6 3 0 4).1) mem2 :=
  metAcc_of (by decide) (by decide) (by decide) (by decide) (by trivial)
theorem wit_evsig : MetAcc (fun H : Obligations.AtomicsStart => (H h0 false false false 4 1 6 3 0 4).2.1) mem2 :=
  metAcc_of (by decide) (by decide) (by decide) (by decide) (by trivial)

/-- The front thread issues with its memory open, s4 on an aligned word. -/
def memF : State := setS 4 0x9100 { memS 0 with runs := [⟨0, 8, 1, frontKey, [0], none, 1, [], none⟩] }

theorem wit_evsigFront : MetAcc (fun H : Obligations.AtomicsStart => (H h0 false false false 4 1 6 3 4 4).2.2.1) memF :=
  metAcc_of (by decide) (by decide) (by decide) (by decide) (by trivial)
theorem wit_cctl : MetAcc (fun H : Obligations.AtomicsStart => (H h0 false false false 4 1 5 3 0 0).2.2.2)
    (setG 5 [(0, 1), (1, 2)] mem2) := metAcc_of (by decide) (by decide) (by decide) (by decide) (by trivial)
theorem wit_evwait : ∃ oks s1, Issues mem2 (ctx mem2) (.evwait h0 6 1 4 3 4) ∧ Unhindered mem2 (ctx mem2) (.evwait h0 6 1 4 3 4) 0 false (fun _ => true) ∧
    PartsOk (globalPart 1 3 4 8 0 true)
      (mem2.counted (ctx mem2) (.evwait h0 6 1 4 3 4) 0 false fun _ => true) (ctx mem2) (.evwait h0 6 1 4 3 4) oks s1 := by
  obtain ⟨oks, s1, h⟩ := parts_of (by decide : partsB (globalPart 1 3 4 8 0 true)
    (mem2.counted (ctx mem2) (.evwait h0 6 1 4 3 4) 0 false fun _ => true) (ctx mem2) (.evwait h0 6 1 4 3 4) = true)
  exact ⟨oks, s1, issues_of (by decide), unh_of (by decide), h⟩
theorem wit_evwaitFront : ∃ oks s1, Issues memF (ctx memF) (.evwaitFront h0 6 4) ∧ Unhindered memF (ctx memF) (.evwaitFront h0 6 4) 0 false (fun _ => true) ∧
    PartsOk (frontPart 4 8 0)
      (memF.counted (ctx memF) (.evwaitFront h0 6 4) 0 false fun _ => true) (ctx memF) (.evwaitFront h0 6 4) oks s1 := by
  obtain ⟨oks, s1, h⟩ := parts_of (by decide : partsB (frontPart 4 8 0)
    (memF.counted (ctx memF) (.evwaitFront h0 6 4) 0 false fun _ => true) (ctx memF) (.evwaitFront h0 6 4) = true)
  exact ⟨oks, s1, issues_of (by decide), unh_of (by decide), h⟩
theorem wit_accessesJoin : ∃ m y, mem2.team? (ctx mem2).run.team = some m ∧ m.grp? (ctx mem2).run.grp = some y ∧
    ([(Op.mk0 (ctx mem2) 1 .load 0x9014 (bigTlb 0) 4, [PReg.g 5])] : List Start) ≠ [] ∧
    ∀ p ∈ ([(Op.mk0 (ctx mem2) 1 .load 0x9014 (bigTlb 0) 4, [PReg.g 5])] : List Start), p.1.lane < y.lanes.length :=
  ⟨(ctx mem2).tm, (ctx mem2).gp, rfl, rfl, by decide, by decide⟩
theorem wit_addresses : (∃ r s1, privPart 3 24 8 0 (ctx mem2) 0 mem2 = .ok (r, s1)) ∧ (∃ r s1, frontPart 4 8 0 (ctx memF) 0 memF = .ok (r, s1)) ∧
    (∃ r s1, xstPart .b32 4 0x7C (ctx exch2) 0 exch2 = .ok (r, s1)) ∧
    (∃ r s1, globalPart 1 3 0 4 0 true (ctx mem2) 0 mem2 = .ok (r, s1)) ∧
    (mem2.core 0).lrc.get? (2 ^ 56 + recordVa (ctx mem2) 1) ≠ none ∧
    (mem2.core 0).lrc.get? (2 ^ 56 + (recordVa (ctx mem2) 1 + 0x40 + 0x40 * 0) % 2 ^ 56) ≠ none :=
  ⟨⟨_, _, rfl⟩, ⟨_, _, rfl⟩, ⟨_, _, rfl⟩, ⟨_, _, rfl⟩, by decide, by decide⟩

theorem wit_fence : MetE (fun H : Obligations.FenceResults => (H h0 5).1 (relOf mem2 (.fence h0 5) (some 5)).1) mem2 :=
  ⟨issues_of (by decide), Prod.ext rfl (by decide)⟩
theorem wit_lfence : MetE (fun H : Obligations.FenceResults => (H h0 5).2.1 (relOf mem2 (.lfence h0) (some 3)).1) mem2 :=
  ⟨issues_of (by decide), Prod.ext rfl (by decide)⟩

/-- A load of lane 0 is in flight. -/
def busy2 : State := { mem2 with ops := [{ Op.mk0 (ctx mem2) 0 .load 0x9014 (bigTlb 0) 4 with id := 5 }], nextId := 100 }

theorem wit_fence_waits : (ctx busy2).fence? [0, 1] = none ∧ ∃ o ∈ busy2.ops, o.team = (ctx busy2).run.team ∧ o.grp = (ctx busy2).run.grp ∧
    o.id < busy2.nextId ∧ o.priv = false ∧ o.kind ≠ .evwait ∧ o.sent = false := by decide
theorem wit_fence_free : (ctx mem2).fence? [0, 1] = none ∧ mem2.issuer? = some (ctx mem2) ∧
    (∀ o ∈ mem2.ops, ¬(o.team = (ctx mem2).run.team ∧ o.grp = (ctx mem2).run.grp)) ∧ (mem2.core (ctx mem2).tm.core).engine = [] ∧
    (∀ z ∈ (mem2.core (ctx mem2).tm.core).l1, z.dirty = 0 ∨ z.priv = true) ∧
    (2 ≤ (5#3).toNat → (if 4 ≤ (5#3).toNat then (ctx mem2).gp.pathPkg = [] else (ctx mem2).gp.pathDie = []) ∧ (ctx mem2).gp.kwct < mem2.time) := by
  decide

/-- The translations of the four frame lines of group 0. -/
def frames0 : List TlbE := List.replicate 4 (bigTlb 0)

theorem wit_trap : Issues mem2 (ctx mem2) (.trap h0 5) ∧ (ctx mem2).front = false ∧ (ctx mem2).gp.es.inh = false ∧ (ctx mem2).gp.es.entry = none ∧ (ctx mem2).gp.spec = false ∧
    4 ≤ (ctx mem2).tm.id.priv ∧ (ctx mem2).gp.lanes.length = 32 ∧
    mem2.frameBusy (ctx mem2).tm (ctx mem2).run.team (ctx mem2).run.grp frames0 = false ∧
    (!((ctx mem2).tm.hasUser && (ctx mem2).tm.uhdeleg.getLsbD 4) = true → mem2.regs.shvec.extractLsb' 3 53 ≠ 0) ∧
    mem2.frameXlate (ctx mem2).tm (ctx mem2).run.grp 1 (ctx mem2).gp.sup = .ok frames0 :=
  ⟨issues_of (by decide), by decide, by decide, by decide, by decide, by decide, by decide, by decide, by decide, by decide⟩

/-- The handler's level is the supervisor's, and it has a vector. -/
def supS : State := { mem2.modTeam 1 (fun m => { m with uhvec := 0 }) with regs := { mem2.regs with shvec := 0x30000 } }

theorem wit_trap_supervisor : Issues supS (ctx supS) (.trap h0 5) ∧ (ctx supS).front = false ∧ (ctx supS).gp.es.inh = false ∧ (ctx supS).gp.es.entry = none ∧
    (ctx supS).gp.spec = false ∧ 4 ≤ (ctx supS).tm.id.priv ∧ (ctx supS).gp.lanes.length = 32 ∧
    supS.frameBusy (ctx supS).tm (ctx supS).run.team (ctx supS).run.grp frames0 = false ∧
    (!((ctx supS).tm.hasUser && (ctx supS).tm.uhdeleg.getLsbD 4) = true ∧ supS.regs.shvec.extractLsb' 3 53 ≠ 0) ∧
    supS.frameXlate (ctx supS).tm (ctx supS).run.grp 1 (ctx supS).gp.sup = .ok frames0 :=
  ⟨issues_of (by decide), by decide, by decide, by decide, by decide, by decide, by decide, by decide, by decide, by decide⟩

/-- All lanes of group 0 issue in its handler; each lane's frame names the PC 0x10000. -/
def inHandler : State :=
  { memS 0 with
    runs := [run0 (List.range 32)]
    mem := (List.range 32).map fun l => (514 + 4 * l, 1) }.modGrp 1 0 fun y =>
      { y with es := { y.es with inh := true, frames := (List.range 32).map fun l => (l, ⟨0, none, 0x10000, 0, 0, 0⟩) } }

theorem wit_handler_issues : IssueAll inHandler [.tret h0, .trap h0 5, .ldp h0 .b32 false 5 3 0, .stp h0 .b32 5 3 0] :=
  issueAll_of (by decide)

/-- Line `k` of the frames as stored. -/
def frameLine (k : Nat) : List (BitVec 8) := if k = 0 then (List.replicate 32 [0, 0, 1, 0]).flatten else List.replicate 128 0

set_option maxRecDepth 8000 in
theorem wit_tret : Issues inHandler (ctx inHandler) (.tret h0) ∧ (ctx inHandler).run.lanes = List.range 32 ∧
    activeOf (ctx inHandler) (.tret h0) = List.range 32 ∧ (ctx inHandler).gp.lanes.length = 32 ∧
    (∀ o ∈ inHandler.ops, o.team = (ctx inHandler).run.team → o.grp = (ctx inHandler).run.grp → o.kind = .far) ∧
    inHandler.frameXlate (ctx inHandler).tm (ctx inHandler).run.grp 0 (ctx inHandler).gp.sup = .ok frames0 ∧
    inHandler.frameBusy (ctx inHandler).tm (ctx inHandler).run.team (ctx inHandler).run.grp frames0 = false ∧
    inHandler.framePoisoned (ctx inHandler).tm (ctx inHandler).run.grp frames0 = false ∧
    (∀ k < 4, frames0[k]? = some (bigTlb 0) ∧
      regionOf ((bigTlb 0).phys (inHandler.frameVa (ctx inHandler).tm (ctx inHandler).run.grp k)) = .dram ∧
      inHandler.loadBytes (ctx inHandler).tm.core
        ((bigTlb 0).phys (inHandler.frameVa (ctx inHandler).tm (ctx inHandler).run.grp k)) 128 (bigTlb 0).attr true =
          (frameLine k, inHandler)) ∧
    (let w := fun (k l : Nat) => BitVec.ofNat 32 (leNat (((frameLine k).drop (4 * l)).take 4))
     (∀ l < 32, frameOk ((ctx inHandler).gp.es.frames.getD l Frame.zero) (w 0 l) (w 1 l) (w 2 l) (w 3 l) = true) ∧
      ∃ l < 32, (w 1 l).extractLsb' 24 2 ≠ 3) :=
  ⟨issues_of (by decide), by decide, by decide, by decide, by decide, by decide, by decide, by decide,
    fun k hk => match k, hk with
      | 0, _ | 1, _ | 2, _ | 3, _ => ⟨rfl, by decide, Prod.ext (by decide) rfl⟩
      | n + 4, h => absurd h (by omega),
    by decide, 0, by decide, by decide⟩

theorem wit_barv : MetE (fun H : Claims.BarrierResults => (H h0 3 4 5 6 false).2.2.2 (mem2.fenceStep (ctx mem2) [0, 1] 1 true).1) mem2 :=
  ⟨issues_of (by decide), Prod.ext rfl (by decide)⟩
theorem wit_binit : MetE (fun H : Claims.BarrierResults => (H h0 15 4 5 6 false).1) mem2 := ⟨issues_of (by decide), trivial⟩
theorem wit_bxpc : MetE (fun H : Claims.BarrierResults => (H h0 0 4 5 6 false).2.1) (setG 4 [(0, 0x1FF)] mem2) :=
  ⟨issues_of (by decide), trivial⟩
theorem wit_bqry : MetE (fun H : Claims.BarrierResults => (H h0 3 4 5 6 true).2.2.1)
    (mem2.modTeam 1 fun m => { m with bars := [(3, ⟨1, 2, true, false, true, 5, 0x1_0000_0001, 0xFF, 7, 9, []⟩)] }) :=
  ⟨issues_of (by decide), trivial⟩

/-- Updates of one cycle at a register: BINIT, two arrivals, bytes, and two failures. -/
def updates : List BarUpd := [.arrive 32, .init 1 9, .count 1 9, .arrive 0, .fail 7 3 0, .fail 31 1 0, .never]

theorem wit_cycle : (updates.filterMap fun u => match u with | .arrive w => some w | _ => none).Nodup ∧
    ∀ k ∈ updates.filterMap (fun u => match u with | .fail win cause code => some (cause, win, code) | _ => none),
      k.1 < 8 ∧ k.2.2 < 256 := by decide
theorem test_cycle_of_updates : ({ Bar.reset with phase := true, arra := 77, upds := updates } : Bar).settle =
    ⟨1, 2, true, true, true, 1, 0, 0, 9, 0, []⟩ := by decide
theorem test_expectations_raised : ({ Bar.reset with expa := 1, upds := [.arrive 0, .expect 1 0] } : Bar).settle =
    ⟨2, 1, false, false, false, 0, 1, 0, 0, 0, []⟩ := by decide

/-- Lane 1 waits at b3, whose phase is one arrival away; the arrival has come. -/
def waits3 : State :=
  (mem2.modLane 1 0 1 fun z => { z with st := .parked (.barrier 3) }).modTeam 1 fun m =>
    { m with bars := [(3, { Bar.reset with expa := 1, upds := [.arrive 0] })] }

theorem wit_barUpdates_wakes : waits3.team? 1 = some (ctx waits3).tm ∧ ((ctx waits3).tm.bar 3).upds ≠ [] ∧
    ((ctx waits3).tm.bar 3).settle.cfail = false ∧ ((ctx waits3).tm.bar 3).settle.nprod = false ∧
    ((ctx waits3).tm.bar 3).settle.phase = true ∧
    ∃ y, (ctx waits3).tm.grp? 0 = some y ∧ (y.lane 1).st = .parked (.barrier 3) ∧ (y.lane 1).wpar.getLsbD 3 = false :=
  ⟨rfl, by decide, by decide, by decide, by decide, _, rfl, by decide⟩
theorem wit_barUpdates_quiet : ((ctx waits3).tm.bar 3).upds ≠ [] ∧
    ∀ p ∈ (ctx mem2).tm.grps, ∀ l ∈ p.2.lanes, l.st ≠ .parked (.barrier 3) := by decide

theorem wit_bwait : MetE (fun H : Obligations.PhaseWaits => (H h0 3).1)
    ((mem2.modLane 1 0 1 fun z => { z with wpar := 8 }).modTeam 1 fun m => { m with bars := [(3, { Bar.reset with phase := true })] }) :=
  ⟨issues_of (by decide), by decide⟩
theorem wit_clbar : MetE (fun H : Obligations.PhaseWaits => (H h0 3).2.1) mem2 := ⟨issues_of (by decide), trivial⟩

/-- Every group of the team has arrived in the cluster phase, lane 1 of group 0 in CLBAR. -/
def arrived2 : State :=
  ((quiet0.modGrp 1 0 fun y => { y with clArr := true }).modGrp 1 1 fun y => { y with clArr := true }).modLane 1 0 1
    fun z => { z with st := .parked .clbar }

theorem wit_swap : ∃ x, arrived2.team? 1 = some x ∧ arrived2.swapReady x = true ∧ (1, x) ∈ arrived2.cluster x ∧
    (arrived2.cluster x).Pairwise (fun a b => a.1 ≠ b.1) := ⟨_, rfl, by decide, by decide, by decide⟩

/-- The team holds the exchange area of core 0, with a byte in each bank. -/
def banked : State :=
  (arrived2.modTeam 1 fun m => { m with id := { m.id with exch := true } }).modCore 0 fun c => { c with xst := [(0x10, 1), (0x8010, 2)] }

theorem wit_swap_banks : ∃ x, banked.team? 1 = some x ∧ banked.swapReady x = true ∧
    ((banked.cluster x).filter fun p => p.2.id.exch && p.2.core == 0).length = 1 ∧ (banked.core 0).xst.wf = true ∧
    ∀ p ∈ banked.cluster x, p.2.id.exch = true → p.2.core ≠ 1 := ⟨_, rfl, by decide, by decide, by decide, by decide⟩

theorem wit_lds : MetE (fun H : Obligations.PoolAccesses => (H h0 .b32 false 2 5 3 0xFFC fun l => if l = 0 then 0 else 0xFFFFC).1)
    (setG 3 [(0, 4), (1, 0x100000)] mem2) := ⟨issues_of (by decide), unh_of (by decide), by decide⟩
theorem wit_sts : MetE (fun H : Obligations.PoolAccesses => (H h0 .b64 false 1 6 3 8 fun l => if l = 0 then 8 else 0x1FFFF8).2)
    (setG 3 [(1, 0x1FFFF0)] mem2) := ⟨issues_of (by decide), unh_of (by decide), by decide, by decide, by decide⟩

/-- A window descriptor at 0x9100, which c1 addresses: an X-store copy window of one line at 0, 32 elements of 4 bytes. -/
def descBytes : List (BitVec 8) := leBytes 8 0x89 ++ leBytes 8 (2 ^ 32) ++ leBytes 8 (1 + 32 * 2 ^ 16 + 32 * 2 ^ 32) ++ leBytes 8 0

/-- The descriptor stands in memory. -/
def desc2 : State := { mem2 with mem := mem2.mem.writeN 0x9080 descBytes }

/-! ### Witnesses: windows, performing accesses -/

theorem wit_rgnset : ∃ u, Issues desc2 (ctx desc2) (.rgnset h0 5 1 2 4 0x06C) ∧ Unhindered desc2 (ctx desc2) (.rgnset h0 5 1 2 4 0x06C) 0 false (fun _ => true) ∧
    desc2.winFree (ctx desc2).tm 5 0 = true ∧ rgnsetPart 1 4 0x06C (ctx desc2) 0 (desc2.counted (ctx desc2) (.rgnset h0 5 1 2 4 0x06C) 0 false fun _ => true) = .ok (descBytes, u) ∧
    (let d := fun (k : Nat) => BitVec.ofNat 64 (leNat ((descBytes.drop (8 * k)).take 8))
     u.descOk (ctx u).tm.core (ctx u).run.team 5 (d 0) (d 1) (d 2) (d 3) = true) :=
  ⟨_, issues_of (by decide), unh_of (by decide), by decide, rfl, by decide⟩

/-- A window of the team: one line of the X-store at 0, absent or as given. -/
def win0 (st : WSt) (d0 : BitVec 64) : Win := ⟨st, 0, d0, 0x1_0000_0000, 0x0020_0020_0001, 0, 0, false, 0, none, none, 0⟩

/-- Lanes 0 and 1 issue in a team with windows 3, a buffer, and 5, a copy window of block 128 on b3. -/
def wins2 (st : WSt) : State := mem2.modTeam 1 fun m => { m with wins := [(3, win0 .empty 0x18005), (5, win0 st 0x18089)] }

theorem wit_rgnclr : MetE (fun H : Obligations.WindowResults => (H h0 5 1 2 4 0 true).2.1) (wins2 .full) ∧
    MetE (fun H : Obligations.WindowResults => (H h0 5 1 2 4 0 false).2.1) (wins2 .absent) :=
  ⟨⟨issues_of (by decide), by decide, by decide, fun _ he => nomatch (he : none = some _)⟩,
    ⟨issues_of (by decide), by decide, by decide, fun _ he => nomatch (he : none = some _)⟩⟩
theorem wit_touch : MetE (fun H : Obligations.WindowResults => (H h0 3 1 2 4 0 true).2.2.1) (wins2 .full) :=
  ⟨issues_of (by decide), _, rfl, by decide⟩
set_option maxRecDepth 4000 in
theorem wit_touch_copy : Issues (wins2 .full) (ctx (wins2 .full)) (.touch h0 5) ∧ (ctx (wins2 .full)).tm.win? 5 = some (win0 .full 0x18089) ∧
    (win0 .full 0x18089).buffer = false ∧ (wins2 .full).winFree (ctx (wins2 .full)).tm 5 2 = true ∧ (ctx (wins2 .full)).gp.copies < 63 ∧
    (let s1 := ((wins2 .full).newTok 1 0 2 1).2.startCopy 1 5 (some (0, (wins2 .full).nextId)) 0
     (wins2 .full).lockRoom 0 (s1.newRanges 0) = true) :=
  ⟨issues_of (by decide), by decide, by decide, by decide, by decide, by decide⟩

/-- One access in flight. -/
def op1 (k : OpKind) (alloc : Nat) (o : Op → Op) : State :=
  { memS alloc with
    time := 5000, ops := [{ o (Op.mk0 (ctx mem2) 1 k 0x9014 { bigTlb alloc with wb := true } 4) with id := 9 }]
    l3Granted := [(0x120, 4000)] }

/-- The access. -/
def theOp (s : State) : Op := s.ops.headD (Op.mk0 (ctx mem2) 0 .load 0 (bigTlb 0) 4)

/-- A line at hand in the L1 and the L2. -/
def cached (s : State) : State :=
  (s.modCore 0 fun c => { c with l1 := [⟨0x120, 0x1234_5678 <<< 160, 0, [], 6000, 0, false, false⟩] }).modDie 0 fun d =>
    { d with l2 := [⟨0x120, 0x9ABC_DEF0 <<< 160, 6000, 0, false⟩] }

/-- What `StoresPerform` asks of a state and its access. -/
def storeMet (s : State) : Bool :=
  let o := theOp s
  s.ops.find? (fun q => q.id == o.id) == some o && o.kind == .store && regionOf o.pa == .dram && s.storeReady o && (!o.rel || decide (o.scope ≤ 1))

theorem wit_stores : storeMet (op1 .store 1 id) = true ∧ (theOp (op1 .store 1 id)).alloc < 2 ∧
    storeMet (op1 .store 2 id) = true ∧ 2 ≤ (theOp (op1 .store 2 id)).alloc ∧ ((op1 .store 2 id).die 0).fwd = [] ∧
    storeMet (cached (op1 .store 3 id)) = true ∧ (theOp (op1 .store 3 id)).attr.wb = true ∧
    (((cached (op1 .store 3 id)).core 0).l1Find 0x120).map (·.lease) = some 6000 := by decide

theorem wit_release_stores : ∀ a ∈ [1, 2], ∀ sent ∈ [true, false],
    let s := op1 .store a fun o => { o with rel := true, scope := 4, sent }
    s.ops.find? (fun q => q.id == (theOp s).id) = some (theOp s) ∧ regionOf (theOp s).pa = .dram ∧ s.storeReady (theOp s) = true ∧
      (theOp s).alloc = a ∧ (theOp s).sent = sent ∧ (s.die 0).fwd = [] ∧ (s.die 0).l2Find 0x120 = none ∧ (theOp s).pa % 128 + 4 ≤ 128 := by
  decide

/-- An atomic with an operation, for a pending writeback of lane 1. -/
def atomS (alloc opc scope : Nat) : State :=
  (cached (op1 .atomic alloc fun o => { o with data := 3, opc, scope, pend := some 7 })).modLane 1 0 1 fun z =>
    { z with pend := [⟨7, [(.g 5, 0)], false, none⟩] }

theorem wit_atomics : ∀ opc ∈ List.range 11, ∀ p ∈ [(1, 5), (2, 5), (2, 0), (3, 3)],
    let s := atomS p.1 opc p.2
    s.ops.find? (fun q => q.id == (theOp s).id) = some (theOp s) ∧ (theOp s).kind = .atomic ∧ regionOf (theOp s).pa = .dram ∧
      s.storeReady (theOp s) = true ∧ s.poisoned (theOp s).pa (theOp s).width = false ∧ (theOp s).width = 4 ∧
      (s.grp? (theOp s).team (theOp s).grp).isSome = true ∧ ((s.core 0).l1Find 0x120).map (·.dirty) = some 0 ∧ (s.die 0).fwd = [] := by
  decide

/-- A load for a pending writeback of lane 1. -/
def loadS (alloc : Nat) : State :=
  (cached (op1 .load alloc fun o => { o with pend := some 7, sext := true })).modLane 1 0 1 fun z =>
    { z with pend := [⟨7, [(.g 5, 0)], false, none⟩] }

theorem wit_loads : ∀ a ∈ List.range 4,
    let s := loadS a
    s.ops.find? (fun q => q.id == (theOp s).id) = some (theOp s) ∧ (theOp s).kind = .load ∧ regionOf (theOp s).pa = .dram ∧
      s.loadReady (theOp s) = true ∧ s.poisoned (theOp s).pa (theOp s).width = false ∧ (theOp s).width ≤ 8 ∧
      (s.grp? (theOp s).team (theOp s).grp).isSome = true ∧ (theOp s).pend = some 7 ∧ (theOp s).alloc = a ∧ s.time < 6000 ∧
      ((s.core 0).l1Find 0x120).map (·.lease) = some 6000 ∧ ((s.die 0).l2Find 0x120).map (·.lease) = some 6000 := by decide

/-! ### Witnesses: cursors -/

/-- The dense cursor at a position. -/
def dense (handle pos : Nat) (done : Bool) : Cur := ⟨1, 0, done, false, false, false, false, false, handle, 0, 64, pos, 0⟩

/-- Lanes 0 and 1 hold a dense cursor in c1 and the done one in c2. -/
def curs2 : State := mem2 |> setG 5 [(0, 1), (1, 1)] |> setG 6 [(0, 9), (1, 63)] |>
  setC 2 [0, 1] (BitVec.ofNat 128 (Cur.toNat (dense 1 63 true)))

theorem wit_cmk : MetJob (fun H : Claims.CursorJobs => (H h0 false true 2 1 5 8 6 .crd 0).1) curs2 ∧
    MetJob (fun H : Claims.CursorJobs => (H h0 true true 2 1 5 8 6 .crd 0).1) curs2 :=
  ⟨metJob_of (by decide) (by decide) (by decide) trivial (by decide), metJob_of (by decide) (by decide) (by decide) trivial (by decide)⟩
theorem wit_cnext : MetJob (fun H : Claims.CursorJobs => (H h0 false true 2 1 5 8 6 .crd 0).2.2.1) curs2 ∧
    MetJob (fun H : Claims.CursorJobs => (H h0 false true 2 2 5 8 6 .crd 0).2.2.1) curs2 :=
  ⟨metJob_of (by decide) (by decide) (by decide) trivial (by decide), metJob_of (by decide) (by decide) (by decide) trivial (by decide)⟩
theorem wit_cseek : MetJob (fun H : Claims.CursorJobs => (H h0 false true 2 1 5 8 6 .crd 0).2.2.2.1) curs2 :=
  metJob_of (by decide) (by decide) (by decide) trivial (by decide)
theorem wit_cget : MetJob (fun H : Claims.CursorJobs => (H h0 false true 2 1 5 8 6 .crd 0).2.2.2.2.1) curs2 :=
  metJob_of (by decide) (by decide) (by decide) trivial (by decide)
theorem wit_ccoit : MetJob (fun H : Claims.CursorJobs => (H h0 false true 2 1 5 8 6 .crd 0).2.2.2.2.2.1) curs2 :=
  metJob_of (by decide) (by decide) (by decide) trivial (by decide)
theorem wit_capp : MetJob (fun H : Claims.CursorJobs => (H h0 false true 2 1 5 8 6 .crd 0).2.2.2.2.2.2.1) curs2 :=
  metJob_of (by decide) (by decide) (by decide) trivial (by decide)
theorem wit_cfin : MetJob (fun H : Claims.CursorJobs => (H h0 false true 2 1 5 8 6 .crd 0).2.2.2.2.2.2.2.1) curs2 :=
  metJob_of (by decide) (by decide) (by decide) (.inr (by decide)) (by decide)

/-- A two-level chain: handle 1 with a second dense level, for CDESC; and in c3 of lane 0 the owner of a linked tail. -/
def tail2 : State :=
  ({ memS 0 with runs := [run0 [0]] } |> setC 3 [0] (BitVec.ofNat 128 (Cur.toNat ⟨3, 0, false, true, true, false, false, false, 2, 0, 0, 0, 0⟩))).modCore 0
    fun c => { c with lrc := (2 ^ 56 + 0x8200, 2) :: (2 ^ 56 + 0x8280, 1 + 2 * 16 + 64 * 2 ^ 32 + 0x9000 * 2 ^ 192) :: c.lrc }

theorem wit_cdesc : MetJob (fun H : Claims.CursorJobs => (H h0 false true 2 1 5 8 6 .crd 0).2.1) tail2 :=
  metJob_of (by decide) (by decide) (by decide) trivial (by decide)
theorem wit_capp_linked : MetJob (fun H : Claims.CursorJobs => (H h0 false true 2 3 5 8 6 .crd 0).2.2.2.2.2.2.1)
    { tail2 with mem := [(0xA008, 9), (0x8000 + 0x4000, 0xFF)] } :=
  metJob_of (by decide) (by decide) (by decide) trivial (by decide)
theorem wit_cfin_tail : ∃ u oks s1, Issues tail2 (ctx tail2) (.cfin h0 3) ∧ JobFree tail2 (ctx tail2) (.cfin h0 3) ∧ (ctx tail2).gp.spec = false ∧
    (∃ l ∈ activeOf (ctx tail2) (.cfin h0 3),
      let c := ((ctx tail2).lane l).curAt 3
      c.app = true ∧ c.own = true ∧ c.kind = 3) ∧
    Released tail2 (ctx tail2) (.cfin h0 3) (some 3) false u ∧ PartsOk (cfinPart 3) u (ctx tail2) (.cfin h0 3) oks s1 := by
  obtain ⟨oks, s1, h⟩ := parts_of (by decide : partsB (cfinPart 3) (relOf tail2 (.cfin h0 3) (some 3)).1 (ctx tail2) (.cfin h0 3) = true)
  have hu := unh_of (by decide : unhB tail2 (ctx tail2) (.cfin h0 3) 0 true (fun _ => true) = true)
  exact ⟨_, oks, s1, issues_of (by decide), ⟨hu.1, hu.2, by decide⟩, by decide,
    ⟨0, by decide, by decide⟩, Prod.ext rfl (by decide), h⟩
theorem wit_cnrw : MetE (fun H : Claims.NarrowResults => H h0 2 1 5 6) curs2 := ⟨issues_of (by decide), trivial⟩

/-- The dense level of handle 1. -/
def level1 : Level := ⟨1, 4, 0, 64, 0, 0, 0x9000, 0⟩

theorem wit_dense : lmLevel (ctx curs2) 1 0 curs2 = .ok (level1, curs2) ∧ ((ctx curs2).lane 0).curAt 1 = dense 1 5 false ∧
    ((ctx curs2).lane 0).curAt 2 = dense 1 63 true ∧ ((ctx curs2).lane 1).get false 5 % 65536 = 1 := by
  refine ⟨congrArg Except.ok (Prod.ext (by decide) rfl), by decide, by decide, by decide⟩

/-- A level record of a kind: positions at 0xB000, coordinates at 0xC000, a linked level's unit at 0xA000. -/
def lvlRec (kind param : Nat) : Nat :=
  kind + 2 * 16 + param * 256 + 64 * 2 ^ 32 + 0xB000 * 2 ^ 64 + 0xC000 * 2 ^ 128 + 0x9000 * 2 ^ 192 + (if kind = 3 then 0xA000 else 0) * 2 ^ 256

/-- Handles 4 and 5 stand for records of two kinds; memory holds words as given, (address, bytes, value). -/
def metaS (k4 k5 : Nat × Nat) (ws : List (Nat × Nat × Nat)) (c1 c2 : Cur) : State :=
  (({ mem2 with mem := ws.foldl (fun m w => m.writeN w.1 (leBytes w.2.1 w.2.2)) [] } : State).modCore 0 fun c =>
      { c with lrc := [(2 ^ 56 + 0x8800, 1), (2 ^ 56 + 0x8840, lvlRec k4.1 k4.2), (2 ^ 56 + 0x8A00, 1), (2 ^ 56 + 0x8A40, lvlRec k5.1 k5.2)] })
    |> setC 1 [0] (BitVec.ofNat 128 c1.toNat) |> setC 2 [0] (BitVec.ofNat 128 c2.toNat) |> setG 5 [(0, 4)] |> setG 6 [(0, 5)]

/-- A read cursor of a handle on [lo, hi). -/
def rcur (kind handle lo hi pos : Nat) : Cur := ⟨kind, 0, false, false, false, false, false, false, handle, lo, hi, pos, 0⟩

/-- The level of such a record. -/
def lvlK (kind param : Nat) : Level := ⟨kind, 4, param, 64, 0xB000, 0xC000, 0x9000, if kind = 3 then 0xA000 else 0⟩

/-- A job's operation answers `a` and leaves the machine as it is. -/
def ans {α : Type} [DecidableEq α] (r : Except LStop (α × State)) (a : α) (s : State) : Bool :=
  match r with
  | .ok (b, t) => b == a && decide (t = s)
  | .error _ => false

theorem ans_eq {α : Type} [DecidableEq α] {r : Except LStop (α × State)} {a : α} {s : State} (h : ans r a s = true) : r = .ok (a, s) := by
  unfold ans at h
  split at h
  · rename_i b t
    simp only [Bool.and_eq_true, beq_iff_eq, decide_eq_true_eq] at h
    rw [h.1, h.2]
  · cases h

/-- Coordinates 3, 5, 9 and 4, 5, 11 of a compressed level; positions 0 to 3. -/
def comp0 : State := metaS (2, 0) (5, 2)
  [(0xB000, 4, 0), (0xB004, 4, 3), (0xC000, 4, 3), (0xC004, 4, 5), (0xC008, 4, 9), (0xC00C, 4, 4), (0xC010, 4, 5), (0xC014, 4, 11)]
  (rcur 2 4 0 3 0) (rcur 2 4 3 6 3)

theorem wit_compressed : lmLevel (ctx comp0) 4 0 comp0 = .ok (lvlK 2 0, comp0) ∧ ((ctx comp0).lane 0).curAt 1 = rcur 2 4 0 3 0 ∧
    ((ctx comp0).lane 0).curAt 2 = rcur 2 4 3 6 3 ∧ Reads (ctx comp0) 0 comp0 0xB000 4 0 ∧ Reads (ctx comp0) 0 comp0 0xB004 4 3 ∧
    ((ctx comp0).lane 0).get false 5 % 65536 = 4 :=
  ⟨ans_eq (by decide), by decide, by decide, ans_eq (by decide), ans_eq (by decide), by decide⟩
theorem wit_cursor_pair :
    (∀ i < 3, CoordAt (ctx comp0) 0 comp0 (lvlK 2 0) (rcur 2 4 0 3 0) i ([3, 5, 9].getD i 0)) ∧
      ∀ j < 3, CoordAt (ctx comp0) 0 comp0 (lvlK 2 0) (rcur 2 4 3 6 3) (3 + j) ([4, 5, 11].getD j 0) := by
  have h : ∀ i < 6, ans (lmRead (ctx comp0) 0 (0xC000 + 4 * i) 4 comp0) ([3, 5, 9, 4, 5, 11].getD i 0) comp0 = true := by decide
  refine ⟨fun i hi => ⟨by decide, .inr (.inl ⟨.inl rfl, ?_⟩)⟩, fun j hj => ⟨by decide, .inr (.inl ⟨.inl rfl, ?_⟩)⟩⟩
  · match i, hi with
    | 0, _ => exact ans_eq (h 0 (by decide))
    | 1, _ => exact ans_eq (h 1 (by decide))
    | 2, _ => exact ans_eq (h 2 (by decide))
  · match j, hj with
    | 0, _ => exact ans_eq (h 3 (by decide))
    | 1, _ => exact ans_eq (h 4 (by decide))
    | 2, _ => exact ans_eq (h 5 (by decide))

/-- A table of four slots in which key 5 stands at slot 0, and keys 6 and 9 nowhere. -/
def hash0 : State := metaS (2, 0) (5, 2)
  [(0xC000, 8, 5), (0xC008, 8, emptyKey), (0xC010, 8, emptyKey), (0xC018, 8, emptyKey)] (rcur 5 5 0 4 0) (rcur 5 5 0 4 0)

theorem wit_hashed : lmLevel (ctx hash0) 5 0 hash0 = .ok (lvlK 5 2, hash0) ∧ Reads (ctx hash0) 0 hash0 0xC008 8 emptyKey ∧
    Reads (ctx hash0) 0 hash0 0xC000 8 5 ∧ CoordAt (ctx hash0) 0 hash0 (lvlK 5 2) (rcur 5 5 0 4 0) 0 5 ∧
    ((ctx hash0).lane 0).curAt 1 = rcur 5 5 0 4 0 ∧ LooksUp (ctx hash0) 0 hash0 (lvlK 5 2) 0 5 (some (probeAt (lvlK 5 2) 0 5 0)) ∧
    LooksUp (ctx hash0) 0 hash0 (lvlK 5 2) 0 6 none :=
  ⟨ans_eq (by decide), ans_eq (by decide), ans_eq (by decide), ⟨by decide, .inr (.inr (.inr (.inl ⟨rfl, 5, ans_eq (by decide), rfl⟩)))⟩, by decide,
    ⟨0, fun _ => 0, by decide, fun _ h => absurd h (Nat.not_lt_zero _), by decide, rfl, ans_eq (by decide)⟩,
    ⟨0, fun _ => 0, by decide, fun _ h => absurd h (Nat.not_lt_zero _), .inr ⟨by decide, ans_eq (by decide)⟩⟩⟩

/-- Levels of the other kinds: a bitmap of coordinates 3 and 6, runs of three from 10 and on, blocks of four. -/
def bitm0 : State := metaS (4, 0) (5, 2) [(0xB000, 8, 72), (0xC004, 4, 2)] (rcur 4 4 0 2 0) (rcur 5 5 0 4 1)
/-- Runs. -/
def runs0 : State := metaS (6, 0) (5, 2) [(0xC000, 4, 10), (0xC008, 4, 30), (0xC00C, 4, 3), (0xC014, 4, 7)] (rcur 6 4 0 7 0) (rcur 5 5 0 4 1)
/-- Blocks. -/
def blks0 : State := metaS (7, 4) (5, 2) [(0xC000, 4, 3)] (rcur 7 4 0 4 0) (rcur 5 5 0 4 1)

theorem wit_coordinates : CoordAt (ctx bitm0) 0 bitm0 (lvlK 4 0) (rcur 4 4 0 2 0) 1 6 ∧
    CoordAt (ctx runs0) 0 runs0 (lvlK 6 0) (rcur 6 4 0 7 0) 2 12 ∧ CoordAt (ctx blks0) 0 blks0 (lvlK 7 4) (rcur 7 4 0 4 0) 1 13 := by
  have hb : ∀ i < 2, ans (lmRead (ctx bitm0) 0 (0xC000 + 4 * i) 4 bitm0) ([0, 2].getD i 0) bitm0 = true := by decide
  have hr : ∀ i < 2, ans (lmRead (ctx runs0) 0 (0xC000 + 8 * i + 4) 4 runs0) ([0, 3].getD i 0) runs0 = true := by decide
  refine ⟨⟨by decide, .inr (.inr (.inl ⟨rfl, 0, fun i => [0, 2].getD i 0, fun _ => 72, by decide, fun i hi => ?_, ?_, by decide, fun w hw => ?_,
      by decide, by decide, by decide⟩))⟩,
    ⟨by decide, .inr (.inr (.inr (.inr (.inl ⟨rfl, 0, 10, fun i => [0, 3].getD i 0, by decide, by decide, fun i _ hi => ?_, ?_, by decide,
      ans_eq (by decide), by decide⟩))))⟩,
    ⟨by decide, .inr (.inr (.inr (.inr (.inr ⟨rfl, 3, ans_eq (by decide), by decide⟩))))⟩⟩
  · exact ans_eq (hb i (by omega))
  · intro i hi; obtain rfl : i = 0 := by omega
    decide
  · obtain rfl : w = 0 := Nat.lt_one_iff.mp hw
    exact ans_eq (by decide)
  · exact ans_eq (hr i (by omega))
  · intro i _ hi; obtain rfl : i = 0 := by omega
    decide

/-- A linked fibre of one chunk with two coordinates, whose second chunk is chunk 1, with one; the cursor stands on the first. -/
def link2 : State := metaS (3, 0) (5, 2)
  [(0xA000, 8, 0xA100), (0xB004, 4, 1), (0xA100, 4, 1), (0xA104, 2, 2), (0xA110, 4, none32), (0xA114, 2, 1), (0xC000, 4, 3), (0xC004, 4, 5),
    (0xC400, 4, 9)] (rcur 3 4 0 2 1) (rcur 5 5 0 4 1)

theorem wit_linked : lmLevel (ctx link2) 4 0 link2 = .ok (lvlK 3 0, link2) ∧ Reads (ctx link2) 0 link2 0xA000 8 0xA100 ∧
    Chunks (ctx link2) 0 link2 0xA100 1 [] 1 ∧ Chunks (ctx link2) 0 link2 0xA100 0 [(0, 2), (1, 1)] none32 ∧
    Reads (ctx link2) 0 link2 0xA114 2 1 ∧ CoordAt (ctx link2) 0 link2 (lvlK 3 0) (rcur 3 4 0 2 1) 0 3 :=
  ⟨ans_eq (by decide), ans_eq (by decide), rfl,
    ⟨rfl, by decide, ⟨2, ans_eq (by decide), rfl⟩, 1, ans_eq (by decide), ⟨rfl, by decide, ⟨1, ans_eq (by decide), rfl⟩, none32,
      ans_eq (by decide), rfl⟩⟩, ans_eq (by decide), ⟨by decide, .inr (.inl ⟨.inr rfl, ans_eq (by decide)⟩)⟩⟩

/-- A job's operation succeeds with `a`; what then holds of the state it leaves. -/
def thenB {α : Type} [BEq α] (r : Except LStop (α × State)) (a : α) (f : State → Bool) : Bool :=
  match r with
  | .ok (b, t) => b == a && f t
  | .error _ => false

/-- An append cursor that owns its fibre. -/
def acur (kind handle lo hi pos : Nat) : Cur := { rcur kind handle lo hi pos with done := true, app := true, own := true }

theorem wit_append :
    (let s := metaS (3, 0) (5, 2) [(0xA000, 8, 0xA100), (0xB004, 4, none32)] (acur 3 4 0 0 0) (acur 5 5 0 4 0)
     thenB (lmAtom (ctx s) 0 (fibreVa (lvlK 3 0) 0 12) 4 6 1 0 s) 0 fun t => thenB (lmRead (ctx s) 0 (fibreVa (lvlK 3 0) 0 4) 4 t) none32 fun _ => true) = true ∧
    (let s := metaS (3, 0) (5, 2) [(0xA000, 8, 0xA100), (0xB004, 4, 0), (0xA104, 2, 2)] (acur 3 4 0 2 1) (acur 5 5 0 4 0)
     ((ctx s).lane 0).curAt 1 = acur 3 4 0 2 1 ∧
       thenB (lmRead (ctx s) 0 0xA104 2 s) 2 (fun _ => thenB (lmWrite (ctx s) 0 0xC008 4 5 s) () fun u1 =>
         thenB (lmWrite (ctx s) 0 0xA104 2 3 u1) () fun u2 => thenB (lmRead (ctx s) 0 (fibreVa (lvlK 3 0) 0 8) 4 u2) 0 fun _ =>
           thenB (lmWrite (ctx s) 0 (fibreVa (lvlK 3 0) 0 8) 4 1 u2) () fun _ => true) = true) ∧
    (let s := metaS (3, 0) (5, 2) [(0xA000, 8, 0xA100), (0xA008, 8, 9), (0xB004, 4, none32)] (acur 3 4 0 0 0) (acur 5 5 0 4 0)
     thenB (lmAtom (ctx s) 0 0xA008 8 11 0 0 s) 9 fun t0 => thenB (lmWrite (ctx s) 0 0xA100 8 none32 t0) () fun t1 =>
       thenB (lmWrite (ctx s) 0 0xA108 8 0 t1) () fun t2 => thenB (lmWrite (ctx s) 0 (fibreVa (lvlK 3 0) 0 0) 4 0 t2) () fun t3 =>
         thenB (lmWrite (ctx s) 0 (fibreVa (lvlK 3 0) 0 4) 4 0 t3) () fun t4 => thenB (lmRead (ctx s) 0 0xA104 2 t4) 0 fun _ => true) = true ∧
    thenB (lmAtom (ctx hash0) 0 (0xC000 + 8 * probeAt (lvlK 5 2) 0 6 0) 8 9 6 emptyKey hash0) emptyKey (fun _ => true) = true := by decide

theorem wit_metadata : let s := comp0
    let pa := (bigTlb 0).phys 0xC000
    (∀ kind < 3, s.xlate 0 (ctx s).tm.id.asid 0xC000 kind (ctx s).gp.sup = .ok (bigTlb 0) ∧ s.physCheck 0 kind pa 8 (ctx s).gp.sup = none) ∧
      regionOf pa = .dram ∧ s.pinned pa = false ∧ s.poisoned pa 8 = false ∧ (ctx s).gp.task = none ∧ s.ops = [] ∧ (s.core 0).l1 = [] ∧
      (s.die 0).fwd = [] ∧ s.Inv := ⟨by decide, by decide, by decide, by decide, rfl, rfl, rfl, rfl, by unfold State.Inv; decide⟩

/-! ### Witnesses: crews and the matrix engine -/

/-- Groups 0 and 1 with masks and control words for CREW. -/
def crewS : State := mem2 |> setG 4 [(0, 3), (1, 3)] |> setG 5 [(0, 0x1008), (1, 0x1008)]

theorem wit_crew : MetE (fun H : Claims.CrewRecords => (H h0 4 5 0 0 0 0 0 0 0).1) crewS :=
  ⟨issues_of (by decide), by dsimp only; decide⟩

/-- A crew of both groups with eight granules; m1 holds a factored matrix of rank 1. -/
def crew0 (latch : List LatchRec) : Crew :=
  ⟨0, 1, [0, 1], 0, 24, true, [(1, ⟨1, List.replicate 64 0x3F800000, List.replicate 64 0x40000000⟩)],
    [(0, 0x0400_0000_0000_0000_0015), (1, 0)], 0, 0, latch⟩

/-- Lanes 0 and 1 of group 0 issue in a member of the crew. -/
def member0 : State :=
  (mem2.modCore 0 fun c => { c with crews := [crew0 []] }).modTeam 1 fun m =>
    { m with grps := m.grps.map fun p => (p.1, { p.2 with crew := ⟨3, 0, true, true, false, 0, false, 24, 0, 24⟩ }) }

theorem wit_crew_issues : IssueAll member0
    [.crewEnd h0, .obres h0 1 4 6, .obrel h0 1, .ufcfg h0 4 6, .mma h0 2 0 1 12, .mmal h0 2 1 1, .madd h0 2 1 1, .mscl h0 2 1 4,
      .mdense h0 2 1, .mrcmp h0 2 1 4, .mzero h0 2, .mrank h0 9 1, .mld h0 2 1 3 0, .mst h0 2 1 3 0] := issueAll_of (by decide)
theorem wit_crew_latch : member0.crewOf 0 1 0 = some (crew0 []) ∧ member0.memberGone (crew0 []) = false ∧
    member0.inEngine 0 1 0 [0, 1] = false ∧ (ctx member0).groupFence? [0, 1] = none ∧ (ctx member0).gp.tiles < 15 ∧ (crew0 []).latch = [] :=
  ⟨rfl, by decide, by decide, rfl, by decide, rfl⟩

/-- Both groups' records stand in the formation latch of core 0. -/
def formed : State :=
  { crewS with runs := [] }.modCore 0 fun c => { c with forms := [⟨1, 0, 3, 0x1008⟩, ⟨1, 1, 3, 0x1008⟩] }

theorem wit_formation : (formed.core 0).forms[1]? = some ⟨1, 1, 3, 0x1008⟩ ∧
    (let names := (List.range 32).filter fun i => (3 : BitVec 32).getLsbD i
     let recs := (formed.core 0).forms.filter fun r => r.team == 1 && names.contains r.grp
     recs.length = names.length ∧ (∀ r ∈ recs, r.mask = 3 ∧ r.ctl = 0x1008)) ∧ (formed.core 0).crews.length < 4 ∧
    0 + ((0x1008 : BitVec 32).extractLsb' 0 12).toNat ≤ (formed.core 0).carveBytes 2 / 2048 := by decide

/-- A record of a member's pack for an instruction. -/
def rec0 (g : Nat) (i : Instr) : LatchRec := ⟨g, [0, 1], [0, 1], none, i, none⟩

theorem wit_crew_latch_second : ∀ r ∈ [rec0 1 (.mzero h0 2)], r.ofPack 0 [0, 1] = false ∧ latchWord r.instr = latchWord (.mzero h0 2) ∧
    r.rep = (ctx member0).run.rep.map (fun q => (q.word, q.ix)) ∧ r.act ≠ [] := by decide

/-- The crew's latch is complete. -/
def met0 : State := { member0 with runs := [] }.modCore 0 fun c => { c with crews := [crew0 [rec0 1 (.mzero h0 2), rec0 0 (.mzero h0 2)]] }

theorem wit_rendezvous :
    let k := crew0 [rec0 1 (.mzero h0 2), rec0 0 (.mzero h0 2)]
    (met0.core 0).crews.find? (fun q => q.no == k.no) = some k ∧ sortBy (·.grp) k.latch = [rec0 0 (.mzero h0 2), rec0 1 (.mzero h0 2)] ∧
      (∀ m ∈ k.members, ∃ r ∈ k.latch, r.grp = m) ∧ (met0.team? 1).isSome = true ∧ (met0.core 0).locks.length ≤ 64 := by decide

/-- An instruction stands at the head of the engine's queue. -/
def job0 (i : Instr) (started : Bool) (res : Option (Nat × MReg)) : Job :=
  ⟨50, 1, 0, [rec0 0 i, rec0 1 i], i, 0, false, started, 4, res, none, none, [], none, []⟩

/-- The engine's state with it; the team's data registers as given. -/
def engS (i : Instr) (started : Bool) (res : Option (Nat × MReg)) : State :=
  { member0 with runs := [], nextId := 100 }.modCore 0 fun c =>
    { c with
      engine := [job0 i started res]
      crews := [{ crew0 [] with
        slots := [(0, 2048 * 2 ^ 39 + 17), (1, 2 ^ 110 + 2048 * 2 ^ 39 + 16)]
        uf0 := 0x0080_0800_1111_1101, uf1 := 0x8008 }] }

/-- The engine's state with it. -/
theorem wit_engine (i : Instr) (b : Bool) (r : Option (Nat × MReg)) :
    ((engS i b r).core 0).engine.head? = some (job0 i b r) ∧ ((engS i b r).jobCrew 0 (job0 i b r)).map (·.no) = some 0 ∧
      ((engS i b r).team? 1).map (·.core) = some 0 ∧ (((engS i b r).team? 1).bind (·.grp? 0)).isSome = true ∧
      (job0 i b r).recs.head? = some (rec0 0 i) ∧ (((engS i b r).core 0).engine.map (·.id)).Nodup :=
  ⟨rfl, rfl, rfl, rfl, rfl, List.pairwise_singleton _ _⟩
set_option maxRecDepth 4000 in
theorem wit_engine_reg : ((crew0 []).reg 1).rank = 1 ∧ ((crew0 []).reg 1).u.length = 64 ∧ ((crew0 []).reg 1).v.length = 64 ∧
    ((crew0 []).reg 3).rank = 0 ∧ (crew0 []).fits 2 ⟨63, [], []⟩ = true := by decide
set_option maxRecDepth 4000 in
theorem wit_mma :
    let s := engS (.mma h0 2 0 1 12) false none
    let ra := ORec.of 0x0400_0000_0000_0011
    let rb := ORec.of (2 ^ 110 + 2048 * 2 ^ 39 + 16)
    let u := Unf.of 0x0080_0800_1111_1101 0x8008
    ra.store = 1 ∧ rb.store = 0 ∧ mmaPair ra.fmt rb.fmt = true ∧ u.ch ≠ 0 ∧ u.kh * u.kw * u.ch = 32 * rb.kext ∧ u.bytes ra ≤ ra.len ∧
      s.imageFits 0 rb = true ∧ s.poolReady 0 1 ra.base (u.bytes ra) 1 0 = true ∧ s.poolReady 0 0 rb.base rb.len 1 0 = true ∧
      ra.sblk = 0 ∧ rb.cmp = false ∧ (((s.core 0).crews.headD (crew0 [])).reg 2).rank = 0 := by decide
/-- The factor of the matrix that `wit_recompression` recompresses: one column. -/
def col0 (v : FV) : List FV := v :: List.replicate 63 fvZero

set_option maxRecDepth 20000 in
theorem wit_recompression : (recompress fvZero [col0 fvOne] [col0 (.fin false 3 0)]).map (fun r => (r.1, r.2.1.length, r.2.2.length)) = some (1, 64, 64) ∧
    (mgs [] [] [col0 fvOne]).isSome = true ∧ recompress fvZero [col0 (.inf false)] [col0 fvOne] = none := by decide

set_option maxRecDepth 20000 in
theorem wit_records : unfOk 0x0080_0800_1111_1101 0x8008 = true ∧ met0.orecOk 0 0x0400_0000_0000_0011 = true ∧
    met0.orecOk 0 (2 ^ 110 + 2048 * 2 ^ 39 + 16) = true := ⟨by decide, rfl, rfl⟩

/-! ### Witnesses: named data, queues, launches, system instructions -/

/-- An interest-list entry for a window. -/
def ient (w tok : Nat) (header : Bool) (spec : Option SpecInfo) : IEnt :=
  ⟨7, 8, 9, w, 3, 900, 5, 0, tok, spec, header, 0, none, []⟩

/-- Windows 4 to 6 of a team with names in g10 to g12 of lane 0, a lifetime in g13, a list of interests. -/
def named2 (st : WSt) (l : List IEnt) : State :=
  (mem2 |> setG 10 [(0, 7)] |> setG 11 [(0, 8)] |> setG 12 [(0, 9)] |> setG 13 [(0, 500)]).modTeam 1 fun m =>
    { m with wins := [(4, win0 st 0x18089), (5, win0 .full 0x18089), (6, win0 .full 0x18089)], ilist := l }

theorem wit_nsub : MetE (fun H : Claims.SubscribeResults => (H h0 4 5 6 10 13 2 7 8 9).1) (named2 .absent []) ∧
    MetE (fun H : Claims.SubscribeResults => (H h0 4 5 6 10 13 2 7 8 9).1) (named2 .full [ient 4 40 false none]) :=
  ⟨⟨issues_of (by decide), by decide, by decide, by decide, ⟨_, rfl, by decide⟩, (fun _ he => nomatch (he : none = some _)), by decide⟩,
    ⟨issues_of (by decide), by decide, by decide, by decide, ⟨_, rfl, by decide⟩,
      fun _ he => by cases (he : some (ient 4 40 false none) = some _); rfl, by decide⟩⟩
theorem wit_nsub_spec : MetE (fun H : Claims.SubscribeResults => (H h0 4 5 6 10 13 2 7 8 9).2.1) (named2 .absent []) :=
  ⟨issues_of (by decide), by decide, ⟨by decide, by decide, ⟨_, rfl, by decide⟩, (fun _ he => nomatch (he : none = some _)), by decide⟩,
    by decide, by decide, by decide, by decide, by decide⟩
theorem wit_nsub_warm : MetE (fun H : Claims.SubscribeResults => (H h0 4 5 6 10 13 2 7 8 9).2.2) (named2 .absent []) :=
  ⟨issues_of (by decide), by decide, by decide⟩

set_option maxRecDepth 4000 in
theorem wit_npub :
    let s := named2 .full []
    let x := ctx s
    let s1 := s.pubBegin x [0, 1] 5 true (7, 8, 9) (win0 .full 0x18089)
    Issues s x (.npub h0 true 5 10) ∧ (x.lane 0).get false 10 = 7 ∧ (x.lane 0).get false 11 = 8 ∧ (x.lane 0).get false 12 = 9 ∧
      x.tm.win? 5 = some (win0 .full 0x18089) ∧ (win0 .full 0x18089).lines ≤ 512 ∧ x.gp.copies < 63 ∧ s.lockRoom x.tm.core 1 = true ∧
      s.pubOf x [0, 1] 5 = none ∧ x.gp.task = none ∧ (s1.fenceStep x [0, 1] 4 false).2 = none ∧
      (s1.fenceStep x [0, 1] 4 false).1.pubOf x [0, 1] 5 = s1.pubOf x [0, 1] 5 :=
  ⟨issues_of (by decide), by decide, by decide, by decide, by decide, by decide, by decide, by decide, by decide, by decide, by decide,
    by decide⟩

theorem wit_ncan_none : MetE (fun H : Claims.NamedResults => (H h0 14 10 13 4 7 8 9).1) (named2 .absent []) :=
  ⟨issues_of (by decide), by decide, by decide⟩
/-- An entry of which nothing has come is not arriving. -/
theorem not_arriving {x : Ctx} (e : IEnt) (h : e.header = false) (k : e.stag = none) :
    ¬(e.header = true ∨ (e.stag ≠ none ∧ ∀ v, x.tm.win? e.win = some v → v.st ≠ .predicted)) :=
  fun w => w.elim (fun i => Bool.noConfusion (h.symm.trans i)) fun i => i.1 k
theorem wit_ncan_cancel : MetE (fun H : Claims.NamedResults => (H h0 14 10 13 4 7 8 9).2.1 (ient 4 40 false none))
    { named2 .filling [ient 4 40 false none] with time := 900 } :=
  ⟨issues_of (by decide), by decide, by decide, not_arriving _ rfl rfl, by decide⟩
theorem wit_ncan_lapses : MetE (fun H : Claims.NamedResults => (H h0 14 10 13 4 7 8 9).2.2.1 (ient 4 40 false none))
    (named2 .filling [ient 4 40 false none]) := ⟨issues_of (by decide), by decide, by decide, not_arriving _ rfl rfl, by decide⟩
theorem wit_ncan_header : MetE (fun H : Claims.NamedResults => (H h0 14 10 13 4 7 8 9).2.2.2.1 (ient 4 40 true none))
    (named2 .filling [ient 4 40 true none]) := ⟨issues_of (by decide), by decide, by decide, .inl rfl⟩
theorem wit_nstat : MetE (fun H : Claims.NamedResults => (H h0 14 10 13 4 7 8 9).2.2.2.2.1 (win0 .predicted 0x18089))
    (named2 .predicted [ient 4 40 false (some ⟨1, 1, 10, 0, 0, 5, 6⟩)]) := ⟨issues_of (by decide), by decide⟩
theorem wit_sampled : ({ named2 .predicted [] with time := 7 } : State).time % 2 = 1 := by decide
theorem test_nstat_sampled :
    let s := { named2 .predicted [] with time := 7 }
    (s.endTick.team? 1).map (fun x => (x.sampled.get? 4, x.sampled.get? 5)) = some (some 4, some 2) := by decide
theorem wit_ntol : MetE (fun H : Claims.NamedResults => (H h0 14 20 22 4 7 8 9).2.2.2.2.2.1)
    (mem2 |> setG 20 [(0, 0x00700003)] |> setG 21 [(0, 0x1)]) := ⟨issues_of (by decide), by decide⟩

/-- Lanes 0 and 1 issue in the supervisor's handler; g6 selects for NRTW, g8 and g9 for TLBINV. -/
def sup2 : State :=
  (mem2 |> setG 6 [(0, 0x1041)] |> setG 8 [(0, 0x1_0000)] |> setG 9 [(0, 0x1001)]).modGrp 1 0 fun y =>
    { y with es := { y.es with inh := true, sup := true } }

theorem wit_nrtw : MetE (fun H : Claims.NamedResults => (H h0 14 4 6 4 7 8 9).2.2.2.2.2.2.1) sup2 :=
  ⟨issues_of (by decide), unh_of (by decide), by decide⟩
theorem wit_supervisor_issues : IssueAll sup2 [.nrtw h0 4 6, .tlbinv h0 8 9, .csrr h0 4 0x048, .csrw h0 4 0x048] := issueAll_of (by decide)

/-- The front thread issues with an item in s4 and masks of windows 3 and 4 in s5. -/
def push0 : State := (front0 |> setS 4 77 |> setS 5 0x10_0000_0008).modTeam 1 fun m =>
  { m with wins := [(3, win0 .full 0x18089), (4, win0 .empty 0x18005)] }

theorem wit_dqpush : MetE (fun H : Obligations.DecisionQueueResults => (H h0 4 5 20 31).1 (relOf push0 (.dqpush h0 4 5) (some 1)).1) push0 :=
  ⟨issues_of (by decide), by decide, by decide, Prod.ext rfl (by decide)⟩

/-- An entry of the queue: window 3 in, window 4 out. -/
def ent0 : DqEntry := ⟨0x5_0000_004D, 8, 16, 30, false⟩

/-- Lanes 0 and 1 find it in the queue, with window 3 full, or predicted at level 2. -/
def pop2 (w : Win) (l : List IEnt) : State := mem2.modTeam 1 fun m => { m with dq := [ent0], wins := [(3, w), (4, win0 .empty 0x18005)], ilist := l }

theorem wit_dqpop : MetE (fun H : Obligations.DecisionQueueResults => (H h0 22 22 20 31).2.1 ent0) (pop2 (win0 .full 0x18089) []) :=
  ⟨issues_of (by decide), by decide, by decide, by decide⟩
theorem wit_dqpop_task : MetE (fun H : Obligations.DecisionQueueResults => (H h0 22 22 20 31).2.2.1 ent0)
    (pop2 { win0 .predicted 0x18089 with level := 2 } [ient 3 40 false (some ⟨1, 1, 10, 0, 0, 5, 6⟩)]) :=
  ⟨issues_of (by decide), by decide, by decide, by decide⟩
theorem wit_dqpop_end : MetE (fun H : Obligations.DecisionQueueResults => (H h0 22 22 20 31).2.2.2)
    (mem2.modTeam 1 fun m => { m with grps := m.grps.erase 32 }) :=
  ⟨issues_of (by decide), rfl, (fun _ he => nomatch (he : none = some _))⟩

/-- A record of a launch of one team of one group, as bytes. -/
def recBytes : List (BitVec 8) :=
  leBytes 8 0x10000 ++ leBytes 8 0 ++ leBytes 8 0x0111_0001_0001_0001 ++ leBytes 8 0x0404_0808_0008_0110 ++ leBytes 8 0 ++ leBytes 8 0 ++
    leBytes 8 0 ++ leBytes 8 5

/-- The record stands at 0x9040 and the device launch queue is open. -/
def launch2 : State :=
  { mem2 with runs := [run0 [0]], mem := mem2.mem.writeN 0x9040 recBytes, lu := { mem2.lu with dlqEn := true, dlqBase := 0x100000, nextGrid := 9 } }

/-- A lane's part of LAUNCH, as the statement has it. -/
def launchOne (d : BitVec 8) (part : Ctx → Nat → LM (List (BitVec 8))) (x : Ctx) (l : Nat) (v : State) : Except LStop (Unit × State) :=
  match part x l v with
  | .error e => .error e
  | .ok (bs, v1) =>
    if lrecBad (recWord bs) = true ∨ v.lu.dlqEn = false ∨ 4096 ≤ v.dlqCount then .error (.fault cLaunch)
    else .ok ((), ((v1.launchAppend x.tm bs).2.addPend x.run.team x.run.grp l [(pregOf x.front d.toNat, (v1.launchAppend x.tm bs).1)] true none).2)

set_option maxRecDepth 4000 in
theorem wit_launch : ∃ u oks s1, Issues launch2 (ctx launch2) (.launch h0 6 1 4 0x02C) ∧
    Released launch2 (ctx launch2) (.launch h0 6 1 4 0x02C) (some 4) false u ∧
    PartsOk (launchOne 6 fun x l => do
      let va ← lmAddr x ((x.lane l).cur 1) (signed ((x.lane l).get false 4) 32) (0x02C : BitVec 12).toInt 64
      lmRec64 x l va) u (ctx launch2) (.launch h0 6 1 4 0x02C) oks s1 := by
  obtain ⟨oks, s1, h⟩ := parts_of (s := (relOf launch2 (.launch h0 6 1 4 0x02C) (some 4)).1) (x := ctx launch2)
    (i := .launch h0 6 1 4 0x02C) (part := launchOne 6 fun x l => do
      let va ← lmAddr x ((x.lane l).cur 1) (signed ((x.lane l).get false 4) 32) (0x02C : BitVec 12).toInt 64
      lmRec64 x l va) (by decide)
  exact ⟨_, oks, s1, issues_of (by decide), Prod.ext rfl (by decide), h⟩

/-- The front thread has the record's address in s4. -/
def launchF : State :=
  setS 4 0x9040 { launch2 with runs := [⟨0, 8, 1, frontKey, [0], none, 1, [], none⟩] }

theorem wit_launch_front : ∃ u oks s1, Issues launchF (ctx launchF) (.launchFront h0 6 4) ∧
    Released launchF (ctx launchF) (.launchFront h0 6 4) (some 4) false u ∧
    PartsOk (launchOne 6 fun x l =>
      if (x.lane l).get true 4 % 64 = 0 then lmRec64 x l ((x.lane l).get true 4 % 2 ^ 56) else lmFault cMisaligned)
      u (ctx launchF) (.launchFront h0 6 4) oks s1 := by
  obtain ⟨oks, s1, h⟩ := parts_of (s := (relOf launchF (.launchFront h0 6 4) (some 4)).1) (x := ctx launchF)
    (i := .launchFront h0 6 4) (part := launchOne 6 fun x l =>
      if (x.lane l).get true 4 % 64 = 0 then lmRec64 x l ((x.lane l).get true 4 % 2 ^ 56) else lmFault cMisaligned) (by decide)
  exact ⟨_, oks, s1, issues_of (by decide), Prod.ext rfl (by decide), h⟩
theorem wit_launch_slot : (∀ l ∈ launch2.lu.launches, l.queue = none → l.st = .waiting ∨ l.st = .satisfied → l.slot ≠ 0) := by decide

theorem wit_csrw : MetE (fun H : Obligations.SystemResults => (H h0 4 5 0x041).1) mem2 := ⟨issues_of (by decide), trivial⟩
theorem wit_xacq : MetE (fun H : Obligations.SystemResults => (H h0 4 5 0).2.1) (mem2.modGrp 1 0 fun y => { y with xblk := some true }) ∧
    MetE (fun H : Obligations.SystemResults => (H h0 4 5 0).2.2.1) mem2 := ⟨⟨issues_of (by decide), by decide⟩, ⟨issues_of (by decide), rfl⟩⟩
theorem wit_xrel : MetE (fun H : Obligations.SystemResults => (H h0 4 5 0).2.2.2.1) mem2 ∧
    MetE (fun H : Obligations.SystemResults => (H h0 4 5 0).2.2.2.2.1 true) (mem2.modGrp 1 0 fun y => { y with xblk := some true }) :=
  ⟨⟨issues_of (by decide), rfl⟩, ⟨issues_of (by decide), by decide⟩⟩
theorem wit_tlbinv : MetE (fun H : Obligations.SystemResults => (H h0 8 9 0).2.2.2.2.2 sup2.nextId) sup2 ∧
    MetE (fun H : Obligations.SystemResults => (H h0 8 9 0).2.2.2.2.2 sup2.nextId) (sup2 |> setG 9 [(0, 0x2001)]) :=
  ⟨⟨issues_of (by decide), by dsimp only; decide⟩, ⟨issues_of (by decide), by dsimp only; decide⟩⟩

/-! ### Witnesses: runs, blocks, registers, pre-emption -/

/-- The team of a state. -/
def tm1 (s : State) : Team := (s.team? 1).getD (quiet0.newTeam launch0 0 0)
/-- Group 0 of the team of a state. -/
def gp1 (s : State) : Group := (s.grp? 1 0).getD Group.blank
/-- What group 0's next pack is. -/
def pack1 (s : State) (g : Nat) (y : Group) : List Nat × List ((Nat × Nat × Nat) × Nat) := (s.packOf 1 g (tm1 s) y).getD ([], [])
/-- The team with its memory open and no run. -/
def idle0 : State := memS 0
/-- Its front thread. -/
def fr1 : Group := (idle0.grp? 1 32).getD Group.blank

theorem wit_run_start : MetS (fun H : Claims.RunSteps => H.1 0 0 (1, 0) (tm1 idle0) (gp1 idle0) (pack1 idle0 0 (gp1 idle0)).1 (pack1 idle0 0 (gp1 idle0)).2) idle0 ∧
    MetS (fun H : Claims.RunSteps => H.1 0 8 (1, 32) (tm1 idle0) fr1 (pack1 idle0 32 fr1).1 (pack1 idle0 32 fr1).2) idle0 :=
  ⟨⟨by decide, by decide, fun _ => rfl, fun h => absurd h (by decide), rfl, rfl, rfl⟩,
    ⟨by decide, by decide, fun h => absurd rfl h, fun _ => rfl, rfl, rfl, rfl⟩⟩
theorem wit_next_front : nextFront [3, 1] [(1, 32), (2, 32)] = some (1, 32) ∧ nextFront [3] [(2, 32), (1, 32)] = some (1, 32) := by decide
theorem wit_run_none : MetS (fun H : Claims.RunSteps => H.2.2.2.1 0 0) (idle0.modCore 0 fun c => { c with pre := 1 }) := by
  unfold MetS; decide
theorem wit_forced_end : MetS (fun H : Claims.RunSteps => H.2.2.2.2.1 0 0) { mem2 with time := 510 } := trivial

/-- Lanes 0 and 1 stand at a JOIN for each other, or lane 1 is elsewhere; or lane 0 has a finished writeback. -/
def held2 (b : Bool) : State :=
  (idle0.modLane 1 0 0 fun z => { z with st := .held, jmask := 7 }).modGrp 1 0 fun y =>
    { y with lanes := (List.range 32).map fun l => match l with
        | 1 => if b then { y.lane 1 with st := .held, jmask := 7 } else { y.lane 1 with pc := 8 }
        | 2 => { y.lane 2 with st := .exited }
        | _ => y.lane l }

theorem wit_join_release : MetS (fun H : Claims.RunSteps => H.2.2.2.2.2.1 1 0 0x10000 (gp1 (held2 true))) (held2 true) :=
  ⟨rfl, by decide, fun l hl _ _ k _ hj =>
    (by decide : ∀ l < 32, ∀ k < 32, ((gp1 (held2 true)).lane l).jmask.getLsbD k = true → ((gp1 (held2 true)).lane k).st = .exited ∨
      (k < 32 ∧ ((gp1 (held2 true)).lane k).st = .held ∧ ((gp1 (held2 true)).lane k).pc = 0x10000)) l hl k (by assumption) hj⟩
theorem wit_join_waits : MetS (fun H : Claims.RunSteps => H.2.2.2.2.2.2.1 1 0 0x10000 (gp1 (held2 false)) 0 1 (by decide) (by decide) (by decide)
    (by decide) (by decide) (by decide) (by decide)) (held2 false) := rfl
theorem wit_writeback :
    let s := idle0.modLane 1 0 0 fun z => { z with pend := [⟨7, [(.g 5, 1)], false, none⟩, ⟨8, [(.g 6, 3), (.bit 7 2, 1)], true, none⟩] }
    MetS (fun H : Claims.RunSteps => H.2.2.2.2.2.2.2.1 1 0 0 1 (gp1 s) ⟨8, [(.g 6, 3), (.bit 7 2, 1)], true, none⟩) s ∧
      s.team? 1 = some (tm1 s) ∧ (tm1 s).grp? 0 = some (gp1 s) := ⟨⟨rfl, by decide, rfl⟩, rfl, rfl⟩
theorem wit_group_leaves : ((gp1 idle0).finished = false ∨ ∃ l ∈ (gp1 idle0).lanes, l.pend ≠ []) ∧
    (let s := idle0.modGrp 1 0 fun y => { y with finished := true, xblk := some true }
     (gp1 s).finished = true ∧ ∀ l ∈ (gp1 s).lanes, l.pend = []) := by decide

/-- Group 1 and group 0 wait for a block, with the rows of the core free or taken. -/
def waits2 (held full : Bool) : State :=
  ((idle0.modCore 0 fun c => { c with xwait := [⟨1, 1, 0, 1⟩, ⟨1, 0, 0, 0⟩] }).modTeam 1 fun m => { m with reserveHeld := held }).modGrp 1 0 fun y =>
    { y with
      bsize := if full then 16200 else y.bsize
      lanes := y.lanes.map fun l => { l with st := .parked .xacq } }

theorem wit_grant : MetS (fun H : Claims.RegisterBlocks => H.1 0 1 1) (waits2 false false) ∧
    MetS (fun H : Claims.RegisterBlocks => H.2.1 0 1 1 (tm1 (waits2 false true)) [] [⟨1, 0, 0, 0⟩]) (waits2 false true) :=
  ⟨⟨by decide, _, rfl, rfl, rfl⟩, ⟨by decide, ⟨_, rfl, rfl, rfl⟩, rfl, by decide, nofun⟩⟩
theorem wit_grant_none : MetS (fun H : Claims.RegisterBlocks => H.2.2.1 0) (waits2 true true) :=
  ⟨by decide, fun p hp => ⟨tm1 (waits2 true true), by
    have h : p.team = 1 := (by decide : ∀ p ∈ ((waits2 true true).core 0).xwait, p.team = 1) p hp
    rw [h]; exact ⟨rfl, by decide⟩⟩⟩

/-- A team in register deadlock: group 0 in XACQ with no rows to be had, everything else exited. -/
def stuck0 : State := idle0.modTeam 1 fun m =>
  { m with grps := m.grps.map fun p => (p.1, { p.2 with
      bsize := 8200
      lanes := p.2.lanes.map fun l => { l with st := if p.1 = 0 then .parked .xacq else .exited } }) }

theorem wit_deadlock : MetS (fun H : Claims.RegisterBlocks => H.2.2.2.2.1 1 (tm1 stuck0)) stuck0 := by
  refine ⟨rfl, ⟨(0, gp1 stuck0), by decide, (gp1 stuck0).lane 0, by decide, by decide⟩, ?_, by decide, by decide, by decide,
    by decide, rfl, by decide, by decide⟩
  intro p hp l hl
  have h : (p.2.front = false ∧ l.st = .parked .xacq) ∨ l.st = .exited :=
    (by decide : ∀ p ∈ (tm1 stuck0).grps, ∀ l ∈ p.2.lanes, (p.2.front = false ∧ l.st = .parked .xacq) ∨ l.st = .exited) p hp l hl
  rcases h with ⟨h1, h2⟩ | h
  · exact .inr (.inr ⟨h1, .inl h2⟩)
  · exact .inl h
theorem wit_no_deadlock : MetS (fun H : Claims.RegisterBlocks => H.2.2.2.2.2 1 (tm1 idle0)) idle0 :=
  ⟨rfl, .inl ⟨(0, gp1 idle0), by decide, (gp1 idle0).lane 0, by decide, by decide⟩⟩

theorem wit_register_writes : (State.reset.regs.featlock = false ∧ quiet0.regs.featlock = true) ∧ State.reset.fq.size ≤ 8 ∧
    State.reset.residents 255 = [] ∧ idle0.residents 0 ≠ [] := by decide
theorem wit_driver_controls : (∃ s : State, s.regs.featacc.getLsbD 4 = true ∧ (s.die 3).move = none ∧ (64 : Nat) ∉ (s.die 3).sliceRetire ∧
      (s.die 3).slicemap.getD 4095 63 ≠ 0) ∧
    (∃ s : State, s.regs.featacc.getLsbD 4 = true ∧ (s.die 3).move ≠ none) ∧ State.reset.regs.featacc.getLsbD 4 = false ∧
    quiet0.regs.featacc.getLsbD 7 = true ∧ State.reset.regs.featacc.getLsbD 7 = false ∧ State.reset.regs.featlock = false ∧
    quiet0.regs.featlock = true ∧ State.reset.regs.dramBusy = [] ∧
    (State.reset.core 0).limit < 401 ∧ ∀ p < 16, (State.reset.port p).down = false :=
  ⟨⟨quiet0, by decide⟩, ⟨quiet0.modDie 3 fun z => { z with move := some ⟨0, 0, 1, 5, 0⟩ }, by decide⟩, by decide, by decide, by decide, rfl,
    by decide, by decide⟩
/-- A bucket that moves from slice 2 to slice 5, with a store in flight that came before the marks from `cut` on. -/
def moveS (cut : Nat) : State := (op1 .store 2 id).modDie 0 fun z => { z with move := some ⟨bucketOf 0x9014, 2, 5, cut, 0⟩ }

theorem wit_bucket_moves : MetS (fun H : Claims.BucketMoves => H.2.2.2.1 0 ⟨bucketOf 0x9014, 2, 5, 10, 0⟩) (moveS 10) ∧
    ((moveS 9).die 0).move = some ⟨bucketOf 0x9014, 2, 5, 9, 0⟩ ∧ (∀ o ∈ (moveS 9).ops, 9 ≤ o.id) ∧
    128 ≤ ((moveS 9).payMove 0 ⟨bucketOf 0x9014, 2, 5, 9, 0⟩).1 ∧ ((moveS 9).die 0).l2 = [] ∧
    (State.payMove { moveS 9 with regs := { (moveS 9).regs with budget := List.replicate 7 0 } } 0 ⟨bucketOf 0x9014, 2, 5, 9, 0⟩).1 < 128 ∧
    MetS (fun H : Claims.BucketMoves => H.2.2.2.2.1 3) State.reset := by unfold MetS; decide
theorem wit_slice_retire : quiet0.regs.featacc.getLsbD 4 = true ∧ 255 % 64 ∉ (quiet0.die (255 / 64)).sliceRetire ∧
    (0 : Nat) ∉ (quiet0.die (255 / 64)).sliceRetire ∧
    MetS (fun H : Claims.BucketMoves => H.2.2.2.2.2.2.1 255) { quiet0 with regs := { quiet0.regs with featacc := 0 } } ∧
    MetS (fun H : Claims.BucketMoves => H.2.2.2.2.2.2.2 255) (quiet0.modDie 3 fun z => { z with sliceRetire := [63] }) := by
  unfold MetS; decide
theorem wit_doorbell : MetS (fun H : Claims.LaunchQueueControls => H.1 3 64) State.reset ∧
    MetS (fun H : Claims.LaunchQueueControls => H.2.1 3 65) State.reset := by unfold MetS; decide

/-- Core 0 with a state of pre-emption. -/
def preS (pre preT0 : Nat) (quiet : Bool) : State := { idle0 with time := 4000 }.modCore 0 fun c => { c with pre, preT0, quiet }

theorem wit_preempt : ((preS 0 0 false).core 0).pre = 0 ∧ (∀ p ∈ (preS 0 0 false).teams, p.2.core < 256) ∧
    MetS (fun H : Obligations.PreemptionRequests => H.2.1 0) (preS 2 0 false) ∧ MetS (fun H : Obligations.PreemptionRequests => H.2.2.1 0) (preS 2 0 true) ∧
    MetS (fun H : Obligations.PreemptionRequests => H.2.2.2.1 0) (preS 1 5 true) ∧
    MetS (fun H : Obligations.PreemptionRequests => H.2.2.2.2.2.2.1 0) (preS 0 5 true) ∧
    MetS (fun H : Obligations.PreemptionRequests => H.2.2.2.2.2.2.2 0) (preS 0 0 true) := by unfold MetS; decide

/-- Core 0 drains and a copy has a block in flight. -/
def drain0 (time : Nat) : State :=
  ({ wins2 .filling with runs := [], time }.modCore 0 fun c => { c with pre := 1, preT0 := 101 }).modCore 0 fun c =>
    { c with copies := [⟨60, 0, 1, 5, 0, 0x18089, 0x1_0000_0000, 0x0020_0020_0001, 0, 0, 0, [(0, 100, none)], [], none, 0, 60, false, 0, 0, [],
      some 90, false, []⟩] }

theorem wit_deadlines : MetS (fun H : Obligations.PreemptionHalts => H.1 0) (drain0 4260) ∧
    MetS (fun H : Obligations.PreemptionHalts => H.2.1 0) (drain0 4259) ∧ ((drain0 4324).core 0).pre = 1 ∧ (101 - 1 + 4224 ≤ (drain0 4324).time) ∧
    MetS (fun H : Obligations.PreemptionHalts => H.2.2.2.1 0) (drain0 4323) := by unfold MetS; decide
theorem wit_halt : ((preS 1 5 false).core 0).pre = 1 ∧ (preS 1 5 false).runs = [] ∧ ((preS 1 5 false).core 0).copies = [] ∧
    (∀ p ∈ (preS 1 5 false).teams, p.2.core = 0 → ∀ q ∈ p.2.grps, q.2.task = none ∧ q.2.es.entry = none) := by decide
theorem wit_halt_waits : MetS (fun H : Obligations.PreemptionHalts => H.2.2.2.2.2.1 0) (mem2.modCore 0 fun c => { c with pre := 1 }) := by
  unfold MetS; decide
theorem wit_quiet : MetS (fun H : Obligations.PreemptionHalts => H.2.2.2.2.2.2.1 0) (preS 2 5 false) := by unfold MetS; dsimp only; decide
theorem wit_not_quiet : MetS (fun H : Obligations.PreemptionHalts => H.2.2.2.2.2.2.2 0)
    ({ busy2 with runs := [] }.modGrp 1 0 fun y => { y with loads := 1 }) := by unfold MetS; decide

theorem wit_context : ((preS 2 5 true).core 0).pre = 2 ∧ ((preS 2 5 true).core 0).quiet = true ∧ (preS 2 5 true).residents 0 ≠ [] ∧
    MetS (fun H : Obligations.ContextSteps => H.2.1 0) (preS 2 5 false) := ⟨by decide, by decide, by decide, by unfold MetS; decide⟩

/-- The set that CONTEXT_SAVE writes. -/
def saved0 : State := match exec (.contextSave 0) (preS 2 5 true) with
  | .next t => t
  | _ => idle0

theorem wit_restore : ∃ z, saved0.saved[0]? = some z ∧ z.exchId = none ∧ (z.teams.map (·.1)).Nodup ∧ saved0.setUnblocked z = true ∧
    saved0.setFirst z = true ∧ saved0.setFits z 1 = true ∧ ∀ b < 1, saved0.setFits z b = false :=
  ⟨_, rfl, by decide, by decide, by decide, by decide, by decide, by decide⟩

/-- A fault outstanding on page 0 at which lane 1 is parked. -/
def faulted : State :=
  { idle0 with outst := [⟨1, 0, 0, 4, true, false⟩] }.modLane 1 0 1 fun z => { z with st := .parked (.xlate 1 0 0) }

theorem wit_fault_response : MetS (fun H : Obligations.FaultResponses => H.1 1 0) faulted ∧ (faulted.teams.map (·.1)).Nodup ∧
    (tm1 faulted).id.asid = 1 ∧ faulted.parkedOn 1 (tm1 faulted) 0 = true := by unfold MetS; decide

/-! ### Witnesses: caches, translation, copies -/

/-- A line of the L1 that group 0 has stored its first byte of. -/
def dirtyLine (evp : Nat) : L1Line := ⟨0x200, 0xFF, 1, [(1, 0)], 9, evp, false, false⟩

/-- Bytes that slice 0 of die 0 has not forwarded, lines of the L2, and lines of the L1 with a dirty one. -/
def dirty0 : State :=
  (idle0.modDie 0 fun d => { d with
      fwd := [⟨0x140, 1, 0xAB, [(1, 0)], 3⟩, ⟨0x120, 6, 0x123400, [(1, 0)], 3⟩]
      l2 := [⟨0x100, 0, 9, 0, false⟩, ⟨0x101, 0, 10, 0, false⟩, ⟨0x140, 0, 10, 0, false⟩] }).modCore 0 fun c =>
    { c with l1 := [dirtyLine 1, ⟨0x201, 0, 0, [], 9, 1, false, false⟩, ⟨0x202, 0, 0, [], 11, 2, false, false⟩] }

theorem wit_forward : dirty0.Inv ∧ (dirty0.die 0).fwd = [⟨0x140, 1, 0xAB, [(1, 0)], 3⟩] ++ ⟨0x120, 6, 0x123400, [(1, 0)], 3⟩ :: [] ∧
    dirty0.sliceOf 0 (0x140 * 128) ≠ dirty0.sliceOf 0 (0x120 * 128) ∧ (dirty0.grp? 1 0).isSome = true ∧ (dirty0.die 0).l2Find 0x120 = none ∧ dirty0.cmpAt (0x120 * 128) = false ∧
    (dirty0.codePlace (0x120 * 128)).1 / 128 ≠ 0x120 :=
  ⟨by unfold State.Inv; decide, rfl, by decide, by decide, rfl, by decide, by decide⟩
theorem wit_forward_none : MetS (fun H : Obligations.CacheSteps => H.2.1 0 0x141) dirty0 := by unfold MetS; decide
theorem wit_l2_lease : MetS (fun H : Obligations.CacheSteps => H.2.2.2.1 0 0x101 ⟨0x101, 0, 10, 0, false⟩) dirty0 ∧
    MetS (fun H : Obligations.CacheSteps => H.2.2.2.2.2.1 0 0x101 ⟨0x101, 0, 10, 0, false⟩) { dirty0 with time := 9 } ∧
    (dirty0.die 0).l2Find 0x140 = some ⟨0x140, 0, 10, 0, false⟩ ∧ dirty0.time = 10 :=
  ⟨⟨rfl, by decide, by decide⟩, ⟨rfl, by decide⟩, rfl, rfl⟩
theorem wit_l1_eviction : MetS (fun H : Obligations.CacheSteps => H.2.2.2.2.2.2.1 0 0x201 ⟨0x201, 0, 0, [], 9, 1, false, false⟩ [dirtyLine 1]
      [⟨0x202, 0, 0, [], 11, 2, false, false⟩]) dirty0 ∧
    MetS (fun H : Obligations.CacheSteps => H.2.2.2.2.2.2.2.1 0 0x202 ⟨0x202, 0, 0, [], 11, 2, false, false⟩
      [dirtyLine 1, ⟨0x201, 0, 0, [], 9, 1, false, false⟩] []) dirty0 :=
  ⟨⟨rfl, rfl, rfl, by decide, by decide⟩, ⟨rfl, rfl, by decide, .inl ⟨dirtyLine 1, .head _, by decide⟩⟩⟩
theorem wit_l1_eviction_dirty : ((dirty0.modCore 0 fun c => { c with l1 := dirtyLine 0 :: c.l1.tail }).core 0).l1 =
      [] ++ dirtyLine 0 :: [⟨0x201, 0, 0, [], 9, 1, false, false⟩, ⟨0x202, 0, 0, [], 11, 2, false, false⟩] ∧ (dirtyLine 0).dirty ≠ 0 ∧
    (∀ y ∈ ([⟨0x201, 0, 0, [], 9, 1, false, false⟩, ⟨0x202, 0, 0, [], 11, 2, false, false⟩] : List L1Line), (dirtyLine 0).evp < y.evp) ∧ dirty0.homeOpen 0 (0x200 * 128) 3 = true ∧
    MetS (fun H : Obligations.CacheSteps => H.2.2.2.2.2.2.2.2.1 0 0x200 (dirtyLine 1))
      (dirty0.modDie 0 fun d => { d with move := some ⟨bucketOf (0x200 * 128), 0, 1, 5, 0⟩ }) :=
  ⟨rfl, by decide, by decide, by decide, rfl, by decide, by decide⟩

/-- A fence of group 0 waits for markers at a scope. -/
def marked0 (scope : Nat) : State := dirty0.modGrp 1 0 fun y => { y with fences := [⟨30, [0, 1], 0x10000, none, scope, 30, false, 1, [0, 5]⟩] }

theorem wit_marker : MetS (fun H : Obligations.CacheSteps => H.2.2.2.2.2.2.2.2.2.2.1 1 0 5 (tm1 (marked0 3)) (gp1 (marked0 3))) (marked0 3) ∧
    (marked0 4).team? 1 = some (tm1 (marked0 4)) ∧ (∃ f ∈ (gp1 (marked0 4)).fences, f.stage = 1 ∧ 5 ∈ f.markers ∧ 4 ≤ f.scope) :=
  ⟨⟨rfl, rfl, by decide⟩, rfl, by decide⟩

/-- Page tables that map the first GiB of ASID 1 to itself, with two misses. -/
def paged : State :=
  { idle0 with
    mem := (((Mem.writeN [] 0x10000 (leBytes 8 0x11001)).writeN 0x11000 (leBytes 8 0x12001)).writeN 0x12000 (leBytes 8 0x3F))
    asidTab := [(1, 0x10001)], misses := [⟨0, 1, 0x11, 0x110004, 1, false⟩, ⟨0, 1, 0x8000, 0x8000_0000, 0, false⟩] }

/-- The leaf that the first walk finds. -/
def leaf1 : TlbE := ⟨1, 0, 30, 0, true, true, true, true, 0, false, false, 0⟩

/-- What `TranslationSteps` asks of a walk for a miss that ends as given. -/
def walkMet (s : State) (k : Nat) (m : Miss) (ends : Except Nat TlbE) : Bool :=
  s.misses[k]? == some m && (s.walks.take 64).contains (m.asid, m.page) && (s.allGroups.all fun p => p.2.2.es.entry.isNone) &&
    match s.spend 6 (m.core / 64) walkTarget 1 1 with
    | none => false
    | some s1 =>
      match (State.walk { s1 with misses := s.misses.filter fun n => !(n.asid == m.asid && n.page == m.page) } m.asid m.va).1, ends with
      | .ok e, .ok f => e == f
      | .error c, .error d => c == d
      | _, _ => false

theorem wit_walk : walkMet paged 0 ⟨0, 1, 0x11, 0x110004, 1, false⟩ (.ok leaf1) = true ∧
    walkMet paged 1 ⟨0, 1, 0x8000, 0x8000_0000, 0, false⟩ (.error cPageAbsent) = true := by decide
theorem wit_walk_waits :
    let s := { paged with misses := (List.range 65).map fun k => ⟨0, 1, k, k * 65536, 0, false⟩ }
    MetS (fun H : Obligations.TranslationSteps => H.2.2.1 64 ⟨0, 1, 64, 0x40_0000, 0, false⟩) s := ⟨rfl, .inl (by decide)⟩

/-- The fault queue holds its last record but one, or is full. -/
def queueS (tail : BitVec 32) : State :=
  { idle0 with fq := ⟨0x200000, 0, 0xFFFF_FFFF, tail, [⟨0x12345, 4, 1, 0, 0, 77⟩], []⟩ }

theorem wit_fault_record : MetS (fun H : Obligations.TranslationSteps => H.2.2.2.2.2.1 ⟨0x12345, 4, 1, 0, 0, 77⟩ []) (queueS 0xFE) ∧
    MetS (fun H : Obligations.TranslationSteps => H.2.2.2.2.2.2.1) (queueS 0xFF) := by unfold MetS; decide

/-- A lane waits for the end of a TLB invalidation, and an access of ASID 1 is in flight. -/
def invS : State := { busy2 with runs := [] }.modLane 1 0 3 fun z => { z with st := .parked (.tlbinv 1 5) }

/-- Nothing else waits for an invalidation in group 0. -/
theorem invS_lanes : ∀ l ∈ (gp1 invS).lanes, ∀ p q, l.st = .parked (.tlbinv p q) → p = 1 ∧ q = 5 := by
  intro l hl p q h
  have k : l.st = .eligible ∨ l.st = .parked (.tlbinv 1 5) :=
    (by decide : ∀ l ∈ (gp1 invS).lanes, l.st = .eligible ∨ l.st = .parked (.tlbinv 1 5)) l hl
  rcases k with k | k <;> rw [k] at h
  · exact absurd h (by simp)
  · cases h; exact ⟨rfl, rfl⟩

theorem wit_tlbinv_done : MetS (fun H : Obligations.TranslationSteps => H.2.2.2.2.2.2.2.2.2.2.2.1 1 0 (gp1 invS) 1 5) invS :=
  ⟨rfl, invS_lanes, by decide, by decide, by decide⟩
theorem wit_tlbinv_waits :
    let s := { invS with ops := invS.ops.map fun o => { o with id := 4 } }
    MetS (fun H : Obligations.TranslationSteps => H.2.2.2.2.2.2.2.2.2.2.2.2.1 1 0 (gp1 invS) 1 5) s :=
  ⟨rfl, invS_lanes, .inl ⟨(busy2.ops.headD (theOp idle0) |> fun o => { o with id := 4 }), by decide, by decide, by decide, by decide, by decide⟩⟩
theorem wit_nrt :
    let o := { Op.mk0 (ctx mem2) 0 .nrtw 0x1041 (bigTlb 0) 8 with id := 5, data := 0x1234_5678 }
    MetS (fun H : Obligations.TranslationSteps => H.2.2.2.2.2.2.2.2.2.2.2.2.2.1 5 o) { idle0 with ops := [o] } := by unfold MetS; decide

/-- Lane 1 waits at an event word. -/
def eventS (th : BitVec 64) : State :=
  { idle0 with
    mem := Mem.writeN [] 0x9018 (leBytes 8 7)
    ops := [{ Op.mk0 (ctx mem2) 1 .evwait 0x9018 (bigTlb 0) 8 with id := 9, data := th, cmp := 6, scope := 4 }] }.modLane 1 0 1
    fun z => { z with st := .parked (.event 9) }

theorem wit_event : ((gp1 (eventS 8)).lane 1).st = .parked (.event 9) ∧ ((eventS 8).ops.find? fun q => q.id == 9) = some (theOp (eventS 8)) ∧
    (eventS 8).mayPoll (theOp (eventS 8)) = true ∧ (theOp (eventS 8)).sent = false ∧
    (eventS 8).xlate 0 1 0x9018 0 (gp1 (eventS 8)).sup = .ok (bigTlb 0) ∧ (eventS 8).physCheck 0 0 0x9018 8 (gp1 (eventS 8)).sup = none ∧
    regionOf (theOp (eventS 8)).pa = .dram ∧ (eventS 8).poisoned 0x9018 8 = false ∧
    (let s := (eventS 8).modCore 0 fun c => { c with tlb := [] }
     s.mayPoll (theOp s) = true ∧ s.xlate 0 1 0x9018 0 (gp1 s).sup = .miss) := by decide

/-- A copy of one element of the dense level into lines of the X-store, with blocks started at ticks. -/
def copy0 (d1 : BitVec 64) (b : List (Nat × Nat × Option (Nat × Nat))) (r : BitVec 64) : Copy :=
  ⟨60, 0, 1, 5, BitVec.ofNat 128 (Cur.toNat (dense 1 0 false)), 0x18089 + r, d1, 0x1_0001, 0, 0, 0, b, [], some (0, 70), 0, 60, false, 0, 0,
    [], some 9, true, []⟩

/-- The copy stands in the queue of core 0. -/
def copyS (z : Copy) (time : Nat) : State :=
  { idle0 with time, acc := (List.range 73).flatMap fun t => [0, 256].flatMap fun m =>
      [((t * 529 + m) * 8, 0x1F), ((t * 529 + m) * 8 + 1, 0xFFFF_FFFF_0000)] }.modCore 0
    (fun c => { c with copies := [z] }) |>.modTeam 1 fun m =>
    { m with wins := [(5, { win0 .filling 0x18089 with d1 := z.d1 })] }

theorem wit_copy_start : MetS (fun H : Obligations.CopySteps => H.1 0 (copy0 0x1_0000_0000 [] 0) 0 9) (copyS (copy0 0x1_0000_0000 [] 0) 10) ∧
    MetS (fun H : Obligations.CopySteps => H.2.1 0 { copy0 0x1_0000_0000 [] 0 with hold := none }) (copyS { copy0 0x1_0000_0000 [] 0 with hold := none } 10) := by
  unfold MetS; decide
theorem wit_copy_no_room : MetS (fun H : Obligations.CopySteps => H.2.2.1 0)
    ((copyS { copy0 0x1_0000_0000 [] 0 with locked := false } 10).modCore 0 fun c => { c with locks := List.replicate 64 ⟨1, 0, 1, 0, 1, false, 1, 0⟩ }) := by
  unfold MetS; decide
theorem wit_copy_full :
    let z := copy0 0x9_0000_0000 ((List.range 8).map fun k => (k, 3, none)) 0
    MetS (fun H : Obligations.CopySteps => H.2.2.2.1 0) (copyS z 10) := by unfold MetS; decide

/-- What `CopySteps` asks of block 0 of a copy whose output is at hand. -/
def blockMet (z : Copy) (last : Bool) : Bool :=
  let s := copyS z 10
  (s.core 0).blocksInFlight[0]? == some (z, (0, 9, none)) && s.team? 1 == some (tm1 s) && !z.abandoned && descDst z.d0 != 9 &&
    decide (0 < z.blocks) && ((z.done.length + 1 == z.blocks) == last) &&
    match blockOut s (engineCtx 1 (tm1 s) z.id 0) z 0 last s with
    | .ok (some o, _) => o.cols.isEmpty
    | _ => false

set_option maxRecDepth 20000 in
theorem wit_copy_block : blockMet (copy0 0x4_0000_0000 [(0, 9, none)] 0) false = true ∧
    blockMet (copy0 0x1_0000_0000 [(0, 9, none)] 0) true = true := by decide
/-- A copy that runs an installed routine. -/
def own0 : Copy := copy0 0x1_0000_0000 [(0, 9, none)] (9 * 2048)

theorem wit_routine_timeout :
    MetS (fun H : Obligations.CopySteps => H.2.2.2.2.2.2.1 0 0 own0 0 9) (copyS own0 131082) ∧
      MetS (fun H : Obligations.CopySteps => H.2.2.2.2.2.2.2.1 0 0 own0 0 9) (copyS own0 131081) :=
  ⟨⟨rfl, by decide, by decide⟩, ⟨rfl, by decide⟩⟩

/-- An exchange store to position 0 of a cluster of one team. -/
def xstS (hold : Bool) : State :=
  { idle0 with ops := [{ Op.mk0 (ctx mem2) 1 .xst 0 (bigTlb 0) 4 with id := 9, pa := 0x10, data := 0xABCD, hold }] }

theorem wit_xst_receive : MetS (fun H : Obligations.CopySteps => H.2.2.2.2.2.2.2.2.1 9 (theOp (xstS false)) (tm1 idle0) (1, tm1 idle0)) (xstS false) ∧
    MetS (fun H : Obligations.CopySteps => H.2.2.2.2.2.2.2.2.2 9 (theOp (xstS true))) (xstS true) :=
  ⟨⟨by decide, rfl, rfl, by decide, by decide⟩, by unfold MetS; decide⟩

/-- Lane 0 of group 0 addresses the image at 0x9040 by its dense cursor. -/
def imgS (i : Instr) (started : Bool) (img : List (TlbE × Nat × List Byte)) (byte : BitVec 8) : State :=
  { (setG 3 [(0, 11)] (engS i started none)).modCore 0 (fun c => { c with engine := [{ job0 i started none with img }] }) with
    mem := if byte = 0 then [] else [(0x9040, byte)] }

set_option maxRecDepth 20000 in
theorem wit_images : ∀ p ∈ [(Instr.mld h0 2 1 3 0, (0 : BitVec 8)), (.mld h0 2 1 3 0, 40), (.mst h0 3 1 3 0, 0), (.mst h0 1 1 3 0, 0)],
    let s := imgS p.1 false [] p.2
    let cx : Ctx := ⟨⟨0, 0, 1, 64 + 50, [0, 1], none, 0, [], none⟩, tm1 s, gp1 s⟩
    ans (imageVa cx 0 1 3 0 s) 0x9040 s = true ∧ ans (imageEnd cx 0 1 s) 0x9100 s = true ∧
      (s.core 0).engine.head? = some { job0 p.1 false none with img := [] } ∧ (s.jobCrew 0 (job0 p.1 false none)).isSome = true ∧ (gp1 s).task = none ∧
      ∀ kind < 2, s.xlate 0 (tm1 s).id.asid 0x9040 kind cx.gp.sup = .ok (bigTlb 0) ∧ s.physCheck 0 kind 0x9040 64 cx.gp.sup = none ∧
        s.retraining 0x9040 = false ∧ s.poisoned 0x9040 64 = false ∧ s.imageWaits (job0 p.1 false none) 0x9040 64 (kind == 1) = false := by decide
theorem wit_image_stored : let s := imgS (.mst h0 3 1 3 0) true [(bigTlb 0, 0x9040, List.replicate 64 1)] 0
    s.imageOut ((s.core 0).engine.headD (job0 (.mst h0 3 1 3 0) true none)) = false ∧ (s.core 0).l1 = [] ∧ (s.die 0).fwd = [] := by decide

/-! ### Witnesses: named tiles, speculation -/

/-- A packet of the name (7, 8, 9), numbered 50. -/
def pkt0 (ty : PktType) (at_ : Place) : Packet := { Packet.mk0 ty 7 8 9 with id := 50, at_, expiry := 900, data := [1, 2, 3] }

/-- A pending-interest entry of the name that routes upward by port 2, with slots. -/
def pit0 (fwd : Nat) (slots : Tab PSlot) : PitE := ⟨7, 8, 9, fwd, 2, slots⟩

/-- Router 9 with a route, entries and copies, a packet at it, and the time. -/
def netS (k : Packet) (nrt : Tab NrtE) (pit : List PitE) (cocoon : List CocoonE) (time : Nat) : State :=
  { idle0 with time, packets := [k], routers := [(9, ⟨nrt, pit, cocoon⟩)], nextId := 100 }

/-- Tensor 7 by port 2. -/
def up2 : Tab NrtE := [(3, ⟨7, 20, 2, true⟩)]

theorem wit_interest_new : MetS (fun H : Claims.InterestSteps => H.1 50 (pkt0 .interest (.router 9 5)) 9 5 2)
    (netS (pkt0 .interest (.router 9 5)) up2 [pit0 300 [(5, ⟨899, false, none⟩)]] [] 899) := by unfold MetS; decide
set_option maxRecDepth 20000 in
theorem wit_interest_full : MetS (fun H : Claims.InterestSteps => H.2.1 50 (pkt0 .interest (.router 9 5)) 9 5)
    (netS (pkt0 .interest (.router 9 5)) up2 (List.replicate 256 ⟨1, 1, 1, 0, 2, [(0, ⟨9000, false, none⟩)]⟩) [] 10) := by
  refine ⟨by decide, by decide, rfl, rfl, by decide, ?_⟩
  exact Nat.le_refl 256
theorem wit_interest_no_route : MetS (fun H : Claims.InterestSteps => H.2.2.1 50 (pkt0 .interest (.exchange 2)) 256 2)
    (netS (pkt0 .interest (.exchange 2)) up2 [] [] 10) := by unfold MetS; decide
theorem wit_interest_copy :
    let s := netS (pkt0 .interest (.router 9 5)) up2 [] [⟨7, 8, 9, true, [4], false⟩] 10
    s.pkt? 50 = some (pkt0 .interest (.router 9 5)) ∧ s.pktFirst (pkt0 .interest (.router 9 5)) = true ∧
      ((s.router 9).prune s.time).copy (pkt0 .interest (.router 9 5)) = some ⟨7, 8, 9, true, [4], false⟩ ∧
      (s.payload 9 1 [5]).isSome = true := by decide
theorem wit_interest_copy_waits : MetS (fun H : Claims.InterestSteps => H.2.2.2.2.1 50 (pkt0 .interest (.router 9 5)) 9 5 ⟨7, 8, 9, true, [4], true⟩)
    (netS (pkt0 .interest (.router 9 5)) up2 [] [⟨7, 8, 9, true, [4], true⟩] 10) := by unfold MetS; decide
theorem wit_interest_lapsed : MetS (fun H : Claims.InterestSteps => H.2.2.2.2.2.1 50 (pkt0 .interest (.router 9 5)) 9 5)
    (netS (pkt0 .interest (.router 9 5)) up2 [] [] 900) := by unfold MetS; decide

/-- An entry whose interest went on until 300, for port 1. -/
def pit3 : PitE := pit0 300 [(1, ⟨300, false, none⟩)]

theorem wit_interest_joins : MetS (fun H : Claims.InterestSteps => (H.2.2.2.2.2.2.1 50 (pkt0 .interest (.router 9 5)) 9 5 pit3).1.1)
      (netS (pkt0 .interest (.router 9 5)) up2 [pit3] [] 299) ∧
    MetS (fun H : Claims.InterestSteps => (H.2.2.2.2.2.2.1 50 (pkt0 .interest (.router 9 5)) 9 5 (pit0 900 [(1, ⟨300, false, none⟩)])).1.2)
      (netS (pkt0 .interest (.router 9 5)) up2 [pit0 900 [(1, ⟨300, false, none⟩)]] [] 10) := by unfold MetS; decide
theorem wit_refresh_joins : MetS (fun H : Claims.InterestSteps => (H.2.2.2.2.2.2.1 50 (pkt0 .refresh (.router 9 1)) 9 1 pit3).2.1)
      (netS (pkt0 .refresh (.router 9 1)) up2 [pit3] [] 10) ∧
    MetS (fun H : Claims.InterestSteps => (H.2.2.2.2.2.2.1 50 (pkt0 .refresh (.router 9 1)) 9 1 (pit0 900 [(1, ⟨300, false, none⟩)])).2.2)
      (netS (pkt0 .refresh (.router 9 1)) up2 [pit0 900 [(1, ⟨300, false, none⟩)]] [] 10) ∧
    MetS (fun H : Claims.InterestSteps => H.2.2.2.2.2.2.2.1 50 (pkt0 .refresh (.router 9 1)) 9 1)
      (netS (pkt0 .refresh (.router 9 1)) up2 [pit3] [] 900) := by unfold MetS; decide
theorem wit_cancel : MetS (fun H : Claims.InterestSteps => H.2.2.2.2.2.2.2.2.1 50 (pkt0 .cancel (.router 9 1)) 9 1 pit3 ⟨300, false, none⟩)
      (netS (pkt0 .cancel (.router 9 1)) up2 [pit3] [] 10) ∧
    MetS (fun H : Claims.InterestSteps => H.2.2.2.2.2.2.2.2.2.1 50 (pkt0 .cancel (.router 9 1)) 9 1)
      (netS (pkt0 .cancel (.router 9 1)) up2 [] [] 10) := by unfold MetS; decide

/-- The packets of the statements about a router's slots carry no counter. -/
theorem plain0 (ty : PktType) (a : Place) : ∀ p ∈ [pkt0 ty a], p.wtok = none := fun _ h => by cases h with | head => rfl | tail _ h => cases h

theorem wit_slot_expiry : MetS (fun H : Claims.InterestSteps => H.2.2.2.2.2.2.2.2.2.2.1 9 0 (pit0 300 [(1, ⟨300, false, none⟩), (5, ⟨301, false, none⟩)]))
      (netS (pkt0 .data (.router 9 1)) up2 [pit0 300 [(1, ⟨300, false, none⟩), (5, ⟨301, false, none⟩)]] [] 300) ∧
    MetS (fun H : Claims.InterestSteps => H.2.2.2.2.2.2.2.2.2.2.2 9 0 pit3) (netS (pkt0 .data (.router 9 1)) up2 [pit3] [] 300) :=
  ⟨⟨plain0 _ _, rfl, by decide⟩, ⟨plain0 _ _, rfl, by decide⟩⟩

/-- The team with an interest of the name for window 4, a packet for its core, and the time. -/
def tileS (k : Packet) (e : IEnt) (st : WSt) (time : Nat) : State :=
  { named2 st [e] with runs := [], packets := [k], time, nextId := 100 }

theorem wit_interest_expiry : (tileS (pkt0 .data (.router 9 1)) (ient 4 40 false none) .filling 900).team? 1 =
      some (tm1 (tileS (pkt0 .data (.router 9 1)) (ient 4 40 false none) .filling 900)) ∧
    (ient 4 40 false none).expiry ≤ 900 ∧
    MetS (fun H : Claims.NeverProduced => H.2.2.1 1 0 (tm1 (tileS (pkt0 .data (.router 9 1)) (ient 4 40 false none) .filling 899)) (ient 4 40 false none))
      (tileS (pkt0 .data (.router 9 1)) (ient 4 40 false none) .filling 899) := ⟨rfl, by decide, rfl, rfl, .inl (by decide)⟩
theorem wit_interest_expiry_predicted :
    let s := (tileS (pkt0 .data (.router 9 1)) { ient 4 40 false none with stag := some 3 } .predicted 900).modGrp 1 0 fun y =>
      { y with task := some ⟨ent0, 1, 0x10000, none, List.range 32, [4], [5], [], []⟩ }
    s.team? 1 = some (tm1 s) ∧ (tm1 s).ilist[0]? = some { ient 4 40 false none with stag := some 3 } ∧
      (tm1 s).win? 4 = some (win0 .predicted 0x18089) ∧ ((gp1 s).task.map (·.inputs)) = some [4] := by decide
theorem wit_no_route :
    let s := tileS (pkt0 .noRoute (.core 0)) (ient 4 40 false none) .filling 10
    s.pkt? 50 = some (pkt0 .noRoute (.core 0)) ∧ s.entriesFor 0 (pkt0 .noRoute (.core 0)) = [(1, ient 4 40 false none)] ∧
      MetS (fun H : Claims.NeverProduced => H.2.2.2.2 50 (pkt0 .noRoute (.router 9 2)) 9 2 pit3)
        (netS (pkt0 .noRoute (.router 9 2)) up2 [pit3] [] 10) := by unfold MetS; decide

theorem wit_data_router :
    let s := netS (pkt0 .data (.router 9 2)) up2 [pit3] [] 10
    s.pkt? 50 = some (pkt0 .data (.router 9 2)) ∧ ((s.router 9).prune s.time).entry (pkt0 .data (.router 9 2)) = some pit3 ∧
      ((s.router 9).prune s.time).route 7 ≠ some 5 ∧ pit3.slots.length < 2 ∧ pit3.slots.get? 0 = none ∧
      (s.payload 9 3 (pit3.slots.map (·.1))).isSome = true := by decide
theorem wit_data_router_waits : ∃ s : State, MetS (fun H : Obligations.TileSteps => H.2.1 50 (pkt0 .data (.router 9 2)) 9 2 pit3) s :=
  ⟨{ netS (pkt0 .data (.router 9 2)) up2 [pit3] [] 10 with
      regs := { idle0.regs with budget := [0, 0, 0, 0, 0, 0, 0] }, claimed := [(routerTarget 17, 6)] }, by
    unfold MetS; decide⟩
theorem wit_data_core :
    let s := tileS (pkt0 .data (.core 0)) (ient 4 40 false none) .filling 899
    s.pkt? 50 = some (pkt0 .data (.core 0)) ∧ s.entriesFor 0 (pkt0 .data (.core 0)) = [(1, ient 4 40 false none)] ∧
      s.winOf 1 (ient 4 40 false none) = some (win0 .filling 0x18089) ∧ 3 ≤ (win0 .filling 0x18089).bytes := by decide
theorem wit_tile_delivery :
    let k := { pkt0 .data (.core 0) with taken := some [(1, 4)] }
    let s := tileS k (ient 4 40 true none) .filling 10
    MetS (fun H : Obligations.TileSteps => H.2.2.2.2.2.2.2.2.2.1 50 k 0 1 (tm1 s) (ient 4 40 true none) (4, win0 .filling 0x18089)) s :=
  ⟨by decide, rfl, rfl, rfl, rfl, rfl, by decide, rfl, rfl, rfl, rfl, rfl, by decide⟩

/-- A speculative tile of STAG 3, level 1, and an interest whose policy takes one. -/
def specPkt (a : Place) : Packet := { pkt0 .data a with spec := true, stag := 3, level := 1 }
/-- An interest that takes predictions, with the STAG it has taken. -/
def ientS (stag : Option Nat) : IEnt := { ient 4 40 false (some ⟨2, 1, 10, 0, 0, 5, 6⟩) with stag }

theorem wit_spec_header :
    let e := pit0 300 [(1, ⟨300, true, none⟩), (5, ⟨300, false, none⟩)]
    let r := netS (specPkt (.router 9 2)) up2 [e] [] 10
    let c := tileS (specPkt (.core 0)) (ientS none) .filling 10
    (r.pkt? 50 = some (specPkt (.router 9 2)) ∧ ((r.router 9).prune r.time).entry (specPkt (.router 9 2)) = some e ∧
      (r.payload 9 3 ((e.slots.filter fun v => v.2.specok && v.2.served.isNone).map (·.1))).isSome = true) ∧
    (c.pkt? 50 = some (specPkt (.core 0)) ∧ c.entriesFor 0 (specPkt (.core 0)) = [(1, ientS none)] ∧ c.time < (ientS none).expiry ∧
      c.winOf 1 (ientS none) = some (win0 .filling 0x18089)) ∧
    (let d := tileS (specPkt (.core 0)) (ientS (some 8)) .predicted 10
     d.pkt? 50 = some (specPkt (.core 0)) ∧ d.entriesFor 0 (specPkt (.core 0)) = [(1, ientS (some 8))]) := by decide
theorem wit_oversize_tile :
    let k := { pkt0 .data (.core 0) with data := List.replicate 4224 7 }
    let s := tileS k (ient 4 40 false none) .filling 10
    (s.pkt? 50).isSome = true ∧ k.spec = false ∧ s.team? 1 = some (tm1 s) ∧ (tm1 s).entryOf 4 = some (ient 4 40 false none) ∧
      (tm1 s).win? 4 = some (win0 .filling 0x18089) ∧ (win0 .filling 0x18089).bytes < 4224 := by decide
theorem wit_spec_delivery :
    let k := { specPkt (.core 0) with taken := some [(1, 4)] }
    let s := tileS k (ientS (some 3)) .filling 10
    MetS (fun H : Obligations.TileSteps => H.2.2.2.2.2.2.2.1 50 k 0 1 (tm1 s) (ientS (some 3)) (4, win0 .filling 0x18089)) s :=
  ⟨by decide, rfl, rfl, rfl, rfl, rfl, by decide, rfl, rfl, rfl, rfl, rfl, rfl, by decide⟩
theorem wit_cancel_ended :
    let s := tileS (pkt0 .data (.core 0)) (ientS (some 3)) .filling 10
    let d := s.modTeam 1 fun m => { m with grps := m.grps.map fun p => (p.1, { p.2 with finished := true }) }
    (s.team? 1 = some (tm1 s) ∧ ∃ p ∈ (tm1 s).grps, p.2.finished = false) ∧
      (d.team? 1 = some (tm1 d) ∧ (∀ p ∈ (tm1 d).grps, p.2.finished = true) ∧ ∃ z ∈ (tm1 d).ilist, z.tok = (ientS (some 3)).tok) := by decide
theorem wit_cocoon_complete : MetS (fun H : Obligations.TileSteps => H.2.2.2.2.2.2.2.2.2.2.1 9 0 ⟨7, 8, 9, true, [4], true⟩)
    (netS (pkt0 .data (.router 9 1)) up2 [] [⟨7, 8, 9, true, [4], true⟩] 10) := ⟨rfl, rfl, plain0 _ _⟩

/-- A publish of window 4 whose flits leave the core. -/
def pub0 (pre : Nat) : State :=
  { tileS { pkt0 .data (.core 0) with src := some (1, 0, 4, 70) } (ient 5 40 false none) .full 10 with time := 10 }.modCore 0 fun c => { c with pre }

theorem wit_publish_sent : MetS (fun H : Obligations.TileSteps => H.2.2.2.2.2.2.2.2.2.2.2.1 50 ((pub0 0).packets.headD (pkt0 .data (.core 0))) 1 0 4 70 (tm1 (pub0 0))) (pub0 0) ∧
    MetS (fun H : Obligations.TileSteps => H.2.2.2.2.2.2.2.2.2.2.2.2 50 ((pub0 2).packets.headD (pkt0 .data (.core 0))) 1 0 4 70 (tm1 (pub0 2))) (pub0 2) :=
  ⟨⟨rfl, rfl, rfl, rfl, by decide⟩, ⟨rfl, rfl, rfl, rfl⟩⟩

/-- Patience 10 from tick 5, histories in windows 5 and 6. -/
def spec0 : SpecInfo := ⟨2, 1, 10, 0, 0, 5, 6⟩
/-- A .spec interest for window 4. -/
def sent0 (pred : Nat) : IEnt := { ient 4 40 false (some spec0) with pred }

theorem wit_patience :
    let s := tileS (pkt0 .data (.router 9 1)) (sent0 0) .filling 15
    s.team? 1 = some (tm1 s) ∧ (tm1 s).ilist[0]? = some (sent0 0) ∧ (tm1 s).win? 4 = some (win0 .filling 0x18089) ∧ 5 + 10 ≤ s.time ∧
      s.regs.featacc.getLsbD 1 = true ∧ (tm1 s).win? 5 = some (win0 .full 0x18089) ∧ (tm1 s).win? 6 = some (win0 .full 0x18089) ∧
      (s.core 0).pre = 0 := ⟨rfl, rfl, by decide, by decide, by decide, by decide, by decide, by decide⟩
theorem wit_no_prediction :
    let s := tileS (pkt0 .data (.router 9 1)) (sent0 0) .absent 15
    MetS (fun H : Obligations.PredictionSteps => H.2.1 1 0 (tm1 s) (sent0 0) spec0 (win0 .absent 0x18089)) s ∧
      MetS (fun H : Obligations.PredictionSteps => H.2.2.1 1 0 (tm1 { s with time := 14 }) (sent0 0) spec0 (win0 .absent 0x18089)) { s with time := 14 } :=
  ⟨⟨⟨rfl, rfl, by decide, rfl, rfl, by decide⟩, fun h => absurd h.2.2.2.1 (by decide)⟩, ⟨rfl, rfl, by decide, rfl, by decide⟩⟩
theorem wit_prediction :
    let s := tileS (pkt0 .data (.router 9 1)) (sent0 1) .filling 15
    MetS (fun H : Obligations.PredictionSteps => H.2.2.2.1 1 0 (tm1 s) (sent0 1) spec0 (win0 .filling 0x18089) (win0 .full 0x18089)
      (win0 .full 0x18089)) s := ⟨rfl, rfl, rfl, rfl, by decide, by decide, by decide, by decide, by decide⟩
theorem wit_verdict :
    let s := (tileS (pkt0 .data (.router 9 1)) (sent0 2) .predicted 15).modCore 0 fun c => { c with verdict := some ⟨1, 4, false, [1]⟩ }
    (s.core 0).verdict = some ⟨1, 4, false, [1]⟩ ∧ (s.team? 1).isSome = true ∧ (tm1 s).entryOf 4 = some (sent0 2) ∧
      (tm1 s).win? 4 = some (win0 .predicted 0x18089) := by decide

/-- A task of group 0 with window 4 as input and window 5 as output, and a buffered store. -/
def task0 (buf : List BufSt) : Task := ⟨ent0, 1, 0x10000, none, List.range 32, [4], [5], [], buf⟩
/-- The team with it; the input window full or predicted. -/
def taskS (st : WSt) (buf : List BufSt) : State := { named2 st [] with runs := [] }.modGrp 1 0 fun y => { y with task := some (task0 buf) }
/-- A buffered store of lane 3. -/
def buf0 : BufSt := ⟨3, false, 0x9000, 0x9000, 4, 0xAB, ⟨2, false, 0, false⟩, none, none, 0⟩

theorem wit_commit : MetS (fun H : Obligations.TaskSteps => H.1 1 0 (tm1 (taskS .full [])) (gp1 (taskS .full [])) (task0 [])) (taskS .full []) :=
  ⟨rfl, rfl, rfl, (fun w h => by
    cases h with
    | head => exact ⟨win0 .full 0x18089, by decide, rfl⟩
    | tail _ h => cases h), rfl, rfl, rfl⟩
theorem wit_commit_stores : (taskS .full [buf0]).team? 1 = some (tm1 (taskS .full [buf0])) ∧ (gp1 (taskS .full [buf0])).task = some (task0 [buf0]) ∧
    (tm1 (taskS .full [buf0])).win? 4 = some (win0 .full 0x18089) ∧ (gp1 (taskS .full [buf0])).heldTraps = [] := ⟨rfl, rfl, by decide, rfl⟩
theorem wit_no_commit : MetS (fun H : Obligations.TaskSteps => H.2.2.1 1 0 (tm1 (taskS .predicted [])) (gp1 (taskS .predicted [])) (task0 []))
    (taskS .predicted []) :=
  ⟨rfl, rfl, rfl, 4, .head _, fun v h => by
    have e : (tm1 (taskS .predicted [])).win? 4 = some (win0 .predicted 0x18089) := by decide
    rw [e] at h; cases h; decide⟩
theorem wit_task_squash :
    let s := { taskS .predicted [buf0] with time := 4324 }.modCore 0 fun c => { c with pre := 1, preT0 := 101 }
    s.team? 1 = some (tm1 s) ∧ (gp1 s).task = some (task0 [buf0]) ∧ (s.core (tm1 s).core).pre = 1 ∧ 101 - 1 + 4224 ≤ s.time ∧
      MetS (fun H : Obligations.TaskSteps => H.2.2.2.2.1 1 0 (tm1 (taskS .full []))) (taskS .full []) :=
  ⟨rfl, rfl, by decide, by decide, rfl, by decide⟩

/-- A commit or squash packet with STAG 3. -/
def out0 (ty : PktType) (a : Place) : Packet := { pkt0 ty a with stag := 3 }
/-- An entry that STAG 3 has served at port 1, and one that waits. -/
def pit4 : PitE := pit0 300 [(1, ⟨300, true, some 3⟩), (5, ⟨300, true, none⟩)]

theorem wit_outcome_router : MetS (fun H : Obligations.OutcomePackets => H.1 50 (out0 .commit (.router 9 2)) 9 2 pit4)
      (netS (out0 .commit (.router 9 2)) up2 [pit4] [] 10) ∧
    MetS (fun H : Obligations.OutcomePackets => H.2.1 50 (out0 .squash (.router 9 2)) 9 2 pit4)
      (netS (out0 .squash (.router 9 2)) up2 [pit4] [] 10) := by unfold MetS; decide
theorem wit_outcome_core :
    let e := { sent0 0 with stag := some 3 }
    MetS (fun H : Obligations.OutcomePackets => H.2.2.1 50 (out0 .commit (.core 0)) 0 1 e (win0 .predicted 0x18089))
        (tileS (out0 .commit (.core 0)) e .predicted 10) ∧
      MetS (fun H : Obligations.OutcomePackets => H.2.2.2.1 50 (out0 .squash (.core 0)) 0 1 e) (tileS (out0 .squash (.core 0)) e .predicted 10) := by
  unfold MetS; decide
theorem wit_outcome_ncan :
    let e := { sent0 0 with stag := some 3, ncan := [(0, 0, 77)] }
    let s := tileS (out0 .squash (.core 0)) e .filling 10
    s.pkt? 50 = some (out0 .squash (.core 0)) ∧ s.verdictWaits (out0 .squash (.core 0)) = false ∧
      ((s.entriesFor 0 (out0 .squash (.core 0))).filter fun v => v.2.stag == some 3) = [(1, e)] ∧ e.ncan ≠ [] := by decide
theorem wit_outcome_waits :
    let d := { pkt0 .data (.router 9 2) with id := 51, spec := true, stag := 3 }
    MetS (fun H : Obligations.OutcomePackets => H.2.2.2.2.2.1 50 (out0 .commit (.router 9 2)))
        { netS (out0 .commit (.router 9 2)) up2 [pit4] [] 10 with packets := [out0 .commit (.router 9 2), d] } ∧
      MetS (fun H : Obligations.OutcomePackets => H.2.2.2.2.2.2 50 (out0 .squash (.router 9 2)))
        { netS (out0 .squash (.router 9 2)) up2 [pit4] [] 10 with packets := [out0 .squash (.router 9 2), d] } := by unfold MetS; decide

/-! ### Witnesses: launches, resets, links, service, decoding -/

/-- Queue 3 of ASID 1 with one record to read, bytes at its ring's slot, and launches. -/
def hostS (bs : List (BitVec 8)) (asid : Nat) (ls : List Launch) : State :=
  { paged with
    mem := paged.mem.writeN 0x9000 bs
    regs := { paged.regs with featlock := true }
    lu := { paged.lu with
      hq := [(3, ⟨0x9000, asid, 0, 2, true, false, 64, 65, none⟩)]
      launches := ls
      walked := [if asid = 1 then ⟨1, 0, some leaf1, 0⟩ else ⟨asid, 0, none, cPageAbsent⟩] } }

/-- The queue. -/
def hq3 (asid : Nat) : HQ := ⟨0x9000, asid, 0, 2, true, false, 64, 65, none⟩

/-- A launch of the record in a state. -/
def launchL (st : LaunchSt) (waitev sigev : Nat) (f : Launch → Launch) : Launch :=
  f { Launch.new 5 { lrecOf (recWord recBytes) with waitev, waitn := 3, sigev } 1 2 none 0 with st }

/-- The first GiB of ASID 1 lies elsewhere. -/
def farAt (pa : Nat) (s : State) : State := { s with lu := { s.lu with walked := [⟨1, 0, some { leaf1 with pa }, 0⟩] } }
/-- Nothing has been walked for the scheduler. -/
def unwalked (s : State) : State := { s with lu := { s.lu with walked := [] } }

theorem wit_record_ready : ∀ a ∈ [1, 2],
    let s := hostS recBytes a []
    s.lu.hq.getD 3 HQ.reset = hq3 a ∧ (hq3 a).en = true ∧ s.regs.featlock = true ∧ (hq3 a).head ≠ (hq3 a).tail ∧ (hq3 a).parked = none ∧
      s.lu.launches = [] := by decide
theorem wit_record : (∀ bs ∈ [recBytes, List.replicate 64 0],
      ((hostS bs 1 []).schedXlate 1 0x9000 0 true).1 = .ok 0x9000 leaf1.attr ∧ regionOf 0x9000 = .dram ∧ (hostS bs 1 []).pinned 0x9000 = false) ∧
    lrecBad (recWord ((hostS recBytes 1 []).mem.readN 0x9000 64)) = false ∧
    lrecBad (recWord ((hostS (List.replicate 64 0) 1 []).mem.readN 0x9000 64)) = true ∧
    ((hostS recBytes 2 []).schedXlate 2 0x9000 0 true).1 = .xlate cPageAbsent ∧
    ((farAt Config.linkBase (hostS recBytes 1 [])).schedXlate 1 0x9000 0 true).1 = .refused cUnmapped ∧
    MetS (fun H : Obligations.LaunchSteps => H.2.2.2.2.2.2.2.2.2.1 3) State.reset := by unfold MetS; decide
theorem wit_record_waits :
    let l := { launchL .waiting 8 0 id with queue := some 3 }
    MetS (fun H : Obligations.LaunchSteps => H.2.2.2.2.2.2.2.2.2.2.1 3 l) (hostS recBytes 1 [l]) := ⟨.head _, rfl, rfl⟩
theorem wit_scheduler_walk :
    ((unwalked (hostS recBytes 1 [])).schedXlate 1 0x9000 0 true).1 = .walk ∧ (unwalked (hostS recBytes 1 [])).lu.walked = [] ∧
      ((unwalked (hostS [] 1 [launchL .waiting 0x9000 0 id])).schedXlate 1 0x9000 0 false).1 = .walk ∧
      ((unwalked (hostS [] 1 [launchL .signalling 0 0x9008 id])).schedXlate 1 0x9008 2 false).1 = .walk ∧
      (let s := { hostS recBytes 1 [] with regs := { (hostS recBytes 1 []).regs with
          dramBusy := [dramCtl 0x9000], dramChan := [(dramCtl 0x9000, dramChannel 0x9000)] } }
       (s.schedXlate 1 0x9000 0 true).1 = .ok 0x9000 leaf1.attr ∧ s.pinned 0x9000 = true) ∧
      leaf1.permits 0 true = true ∧ (hostS recBytes 1 []).schedCheck 0x9000 true = none := by decide
theorem wit_home_get :
    let s := hostS [] 1 []
    let a : Attr := ⟨2, false, 0, true⟩
    a.cmp = true ∧ 0x9000 % 128 + 8 ≤ 128 ∧ s.sizeCode (0x9000 / 128 * 128) = 0 ∧ s.l3Has (0x9000 / 128) = false := by decide
theorem wit_waitev : (∀ v ∈ [2, 3],
      let s := hostS (leBytes 8 v) 1 [launchL .waiting 0x9000 0 id]
      s.lu.launches[0]? = some (launchL .waiting 0x9000 0 id) ∧ (launchL .waiting 0x9000 0 id).parked = none ∧
        (s.schedXlate 1 0x9000 0 false).1 = .ok 0x9000 leaf1.attr ∧ s.pinned 0x9000 = false) ∧
    ((farAt Config.devBase (hostS [] 1 [launchL .waiting 0x9000 0 id])).schedXlate 1 0x9000 0 false).1 = .refused cRefused := by decide
theorem wit_launch_start : MetS (fun H : Obligations.LaunchSteps => H.2.2.2.2.2.2.2.2.2.2.2.2.2.2.2.1 1 (launchL .satisfied 0 0 id))
      (hostS [] 1 [launchL .waiting 8 0 id, launchL .satisfied 0 0 id]) ∧
    MetS (fun H : Obligations.LaunchSteps => H.2.2.2.2.2.2.2.2.2.2.2.2.2.2.2.2.2.2.2.1 0 (launchL .waiting 8 0 id)) (hostS [] 1 [launchL .waiting 8 0 id]) :=
  ⟨⟨⟨rfl, rfl, fun _ => by decide⟩, by decide⟩, ⟨rfl, rfl⟩⟩

/-- A launch of no team. -/
def empty0 (sigev : Nat) : Launch := launchL .satisfied 0 sigev fun l => { l with lr := { l.lr with gx := 0 } }

theorem wit_launch_empty : MetS (fun H : Obligations.LaunchSteps => H.2.2.2.2.2.2.2.2.2.2.2.2.2.2.2.2.1 0 (empty0 0)) (hostS [] 1 [empty0 0]) ∧
    (let s := hostS [] 1 [empty0 0x9008]
     s.lu.launches[0]? = some (empty0 0x9008) ∧ (empty0 0x9008).lr.teams = 0 ∧ (s.schedXlate 1 0x9008 2 false).1 = .ok 0x9008 leaf1.attr ∧ s.Inv) :=
  ⟨⟨⟨rfl, rfl, fun _ => by decide⟩, by decide, rfl⟩, rfl, by decide, rfl, by unfold State.Inv; decide⟩

/-- A started launch that the thermal trip keeps out. -/
def heavy : State :=
  { hostS [] 1 [launchL .started 0 0 id] with regs := { (hostS [] 1 []).regs with tripped := true }, time := 65536 }

set_option maxRecDepth 20000 in
theorem wit_blocking : MetS (fun H : Obligations.LaunchSteps => H.2.2.2.2.2.2.2.2.2.2.2.2.2.2.2.2.2.2.2.2.1 0 (launchL .started 0 0 id)) heavy :=
  ⟨rfl, by decide, by decide, by decide, by decide⟩
set_option maxRecDepth 20000 in
theorem wit_not_blocking : MetS (fun H : Obligations.LaunchSteps => H.2.2.2.2.2.2.2.2.2.2.2.2.2.2.2.2.2.2.2.2.2.2 0 (launchL .started 0 0 id)) { heavy with time := 65535 } ∧
    MetS (fun H : Obligations.LaunchSteps => H.2.2.2.2.2.2.2.2.2.2.2.2.2.2.2.2.2.2.2.2.2.1 0 (launchL .started 0 0 id)) { hostS [] 1 [launchL .started 0 0 id] with time := 65536 } :=
  ⟨⟨rfl, by decide, by decide⟩, ⟨rfl, by decide, by decide, by decide⟩⟩

theorem wit_admit : ∃ l cores, (hostS [] 1 [launchL .started 0 0 id]).admitNext = some (l, cores) ∧ cores = [0] ∧ l = launchL .started 0 0 id ∧
    (hostS [] 1 [launchL .started 0 0 id]).coreFits l 0 = true ∧ (hostS [] 1 [launchL .started 0 0 id]).allOpen 0 = true ∧ (hostS [] 1 []).admitNext = none := by
  refine ⟨_, _, rfl, ?_, ?_, ?_, ?_, ?_⟩ <;> decide

/-- Every group of the team has finished. -/
def done0 : State := idle0.modTeam 1 fun m => { m with grps := m.grps.map fun p => (p.1, { p.2 with finished := true }) }

theorem wit_team_finish : done0.team? 1 = some (tm1 done0) ∧ done0.teamDone 1 (tm1 done0) = true ∧ done0.pubOpen 0 = true ∧
    MetS (fun H : Obligations.TeamEnds => H.2.2.1 1 (tm1 idle0)) idle0 := ⟨rfl, by decide, by decide, rfl, by decide⟩
theorem wit_grid : MetS (fun H : Obligations.TeamEnds => H.2.2.2.1 0 (launchL .started 0 0 fun l => { l with finished := 1 }))
      { hostS [] 1 [launchL .started 0 0 fun l => { l with finished := 1 }] with time := 1 } ∧
    MetS (fun H : Obligations.TeamEnds => H.2.2.2.2.1 0 (launchL .started 0 0x9008 fun l => { l with finished := 1 }))
      { hostS [] 1 [launchL .started 0 0x9008 fun l => { l with finished := 1 }] with time := 1 } ∧
    MetS (fun H : Obligations.TeamEnds => H.2.2.2.2.2.1 0 (launchL .started 0 0 fun l => { l with finished := 1, wct := 1 }))
      { hostS [] 1 [launchL .started 0 0 fun l => { l with finished := 1, wct := 1 }] with time := 1 } := by unfold MetS; decide
theorem wit_signal :
    let l := launchL .signalling 0 0x9008 id
    (hostS [] 1 [l]).lu.launches[0]? = some l ∧ l.parked = none ∧ ((hostS [] 1 [l]).schedXlate 1 0x9008 2 false).1 = .ok 0x9008 leaf1.attr ∧
      regionOf 0x9008 = .dram ∧ (hostS [] 1 [l]).Inv ∧
      ((farAt Config.hostBase (hostS [] 1 [l])).schedXlate 1 0x9008 2 false).1 = .ok (Config.hostBase + 0x9008) leaf1.attr ∧
      regionOf (Config.hostBase + 0x9008) ≠ .dram ∧
      MetS (fun H : Obligations.TeamEnds => H.2.2.2.2.2.2.2.2.2 0 (launchL .started 0 0 id)) (hostS [] 1 [launchL .started 0 0 id]) :=
  ⟨rfl, rfl, rfl, rfl, by unfold State.Inv; decide, rfl, by decide, rfl, rfl⟩

/-- A Beylas packet: a write of four bytes. -/
def link0 (dst : Nat) : LinkPkt := ⟨.write, 2, dst, 9, 0x9000, 4, 0x1234_5678, 0, 0, 77⟩

/-- Port 1 of package 1, which links 5 by port 3 and lets port 1 reach DRAM; every link is trained. -/
def linkS (f : Port → Port) (seen : List (Nat × Nat)) : State :=
  { quiet0 with
    regs := { quiet0.regs with pkgid := 1 }
    links := { quiet0.links with routes := [(5, 0x13)], ports := [(1, f Port.reset)], e2eSeen := seen }
    acc := (List.range 345).flatMap fun t => [((t * 529 + 513) * 8, 0x1F), ((t * 529 + 513) * 8 + 1, 0xFFFF_FFFF_0000)] }

theorem wit_route_lost : let s := linkS (fun p => { p with down := true, lost := [link0 5, link0 6] }) []
    (0x0012 : BitVec 16).getLsbD 4 = true ∧ (s.port ((0x0012 : BitVec 16).toNat % 16)).down = false ∧ link0 5 ∈ (s.port 1).lost ∧
    (∀ p < 16, ∀ k ∈ (s.port p).lost, k.dst ≠ 7) := by decide

/-- A port whose receive buffer is full and that has had no credit since tick 0. -/
def fullPort (p : Port) : Port := { p with rx := List.replicate 4096 (link0 5), credits := 0 }

theorem wit_port_blocked : MetS (fun H : Claims.Spills => H.1 1) { linkS fullPort [] with time := 256 } ∧
    MetS (fun H : Claims.Spills => H.2.1 1) { linkS fullPort [] with time := 255 } :=
  ⟨⟨.inr rfl, by decide, Nat.le_of_eq (List.length_replicate (n := 4096) (a := link0 5)).symm, rfl, by decide⟩, .inr (.inr (.inr (.inr (by decide))))⟩

/-- A request of core 0 toward the base die. -/
def request0 : Op := Op.mk0 (ctx mem2) 0 .store 0x9000 (bigTlb 0) 4

theorem wit_die_queue : let s := { memS 0 with ops := List.replicate (Config.dieQueueRoom + 1) request0, time := 256 }
    s.dieArrivals 0 ≠ [] ∧ s.spilled 0 = [] ∧ (s.die 0).qSize ≠ 0 ∧ MetS (fun H : Claims.Spills => H.2.2.2.1 0) { memS 0 with ops := [], time := 255 } :=
  ⟨by
    have h : (State.queueOf { memS 0 with ops := List.replicate (Config.dieQueueRoom + 1) request0, time := 256 } request0 == some 0 &&
      !request0.sent && !([] : List Nat).contains request0.id) = true := by decide
    have hq : (({ memS 0 with ops := List.replicate (Config.dieQueueRoom + 1) request0, time := 256 } : State).die 0).qSpilled = [] := rfl
    have hl : State.dieQueue { memS 0 with ops := List.replicate (Config.dieQueueRoom + 1) request0, time := 256 } 0 =
        List.replicate (Config.dieQueueRoom + 1) request0.id := by
      simp only [State.dieQueue, hq, List.filter_replicate, h, if_true, List.map_replicate]
    have hb : State.dieBlocked { memS 0 with ops := List.replicate (Config.dieQueueRoom + 1) request0, time := 256 } 0 = true := by
      simp only [State.dieBlocked, hl, List.length_replicate, decide_eq_true (Nat.le_succ Config.dieQueueRoom)]
      rfl
    have hs : State.spilled { memS 0 with ops := List.replicate (Config.dieQueueRoom + 1) request0, time := 256 } 0 = [] := rfl
    simp only [State.dieArrivals, hs, hb, hl, List.isEmpty_nil, if_true, List.drop_replicate, Nat.add_sub_cancel_left]
    simp, rfl, by decide, by unfold MetS; decide⟩
theorem wit_die_spilled :
    let s := { memS 0 with ops := [request0, { request0 with id := request0.id + 1 }], dies := [(0, { (memS 0).die 0 with qSpilled := [request0.id] })] }
    s.spilled 0 = [request0.id] ∧ s.dieArrivals 0 = [request0.id + 1] := by decide
theorem wit_flit : MetS (fun H : Claims.Flits => H.1 1 0 (link0 5)) (linkS id []) ∧ MetS (fun H : Claims.Flits => H.2.2.2.2.2.1 1 4 (link0 5)) (linkS id []) ∧
    MetS (fun H : Claims.Flits => H.2.2.2.2.2.2.1 1 0 (link0 5)) (linkS (fun p => { p with fails := 7 }) []) ∧
    MetS (fun H : Claims.Flits => H.2.2.2.2.2.2.2.1 1 0 (link0 5)) (linkS (fun p => { p with fails := 8 }) []) ∧
    MetS (fun H : Claims.Flits => H.2.2.2.2.2.2.2.2.1 1 0 true (link0 5)) (linkS (fun p => { p with down := true }) []) := by unfold MetS; decide
theorem wit_flit_full : MetS (fun H : Claims.Flits => H.2.1 1 0 (link0 5)) { linkS (fun p => { fullPort p with ovSize := 0 }) [] with time := 256 } :=
  ⟨rfl, by
    rintro (h | h | h)
    · exact absurd h (by decide)
    · exact h rfl
    · exact h.1 rfl, Nat.le_of_eq (List.length_replicate (n := 4096) (a := link0 5)).symm⟩

/-- Port 1 has spilled a packet into a region of `n` KiB, or of none. -/
def spillS (n : Nat) (f : Port → Port) : State :=
  linkS (fun p => f { p with spilled := [link0 5], ovBase := 0x40000, ovSize := BitVec.ofNat 16 n }) []

theorem wit_flit_spilled : let s := spillS 1 id
    (s.port 1).nextSeq = 0 ∧ (s.port 1).down = false ∧ (s.port 1).spilled ≠ [] ∧ (s.port 1).spilled.length < 1 * 16384 ∧
      (s.spillReady 1).isSome = true ∧ MetS (fun H : Claims.Flits => H.2.2.2.2.1 1 0 (link0 5)) (spillS 0 fun p => { p with blocked := true }) ∧
      MetS (fun H : Claims.Flits => H.2.2.2.1 1 0 (link0 5)) (spillS 0 fun p => { p with ovfull := true }) ∧
      MetS (fun H : Claims.Flits => H.2.2.2.1 1 0 (link0 5)) { s with regs := { s.regs with
        dramBusy := [dramCtl 0x40000], dramChan := [(dramCtl 0x40000, dramChannel 0x40000)] } } := by unfold MetS; decide

/-- A packet stands in the receive buffer of port 1, and the port that leads on holds credits. -/
def onward0 (k : LinkPkt) (credits : Nat) : State :=
  (linkS (fun p => { p with rx := [k] }) []).modPort 3 fun p => { p with credits }

/-- A credit of the peer. -/
def credit0 : LinkPkt := { link0 1 with kind := .credit }

theorem wit_forward_packet : MetS (fun H : Claims.Packets => H.1 1 (link0 5) [] 3) (onward0 (link0 5) 1) ∧
    MetS (fun H : Claims.Packets => H.2.1 1 (link0 5) [] 3) (onward0 (link0 5) 0) ∧ MetS (fun H : Claims.Packets => H.2.2.1 1 credit0 []) (onward0 credit0 0) ∧
    MetS (fun H : Claims.Packets => H.2.2.2.1 1 credit0 [] (link0 5) []) (linkS (fun p => { p with rx := [credit0], txq := [link0 5] }) []) :=
  ⟨⟨⟨rfl, rfl, by decide⟩, by decide, by decide, rfl, by decide, rfl, by decide⟩,
    ⟨⟨rfl, rfl, by decide⟩, by decide, by decide, rfl, by decide, .inr rfl⟩,
    ⟨⟨rfl, rfl, by decide⟩, rfl, by decide, rfl⟩, ⟨⟨rfl, rfl, by decide⟩, rfl, by decide, rfl⟩⟩

set_option maxRecDepth 20000 in
theorem wit_link_write : (linkS (fun p => { p with rx := [link0 1] }) []).physCheck 513 1 0x9000 4 false = none ∧
    regionOf (link0 1).pa = .dram ∧ (2, 9) ∉ (linkS (fun p => { p with rx := [link0 1] }) []).links.e2eSeen ∧
    ((linkS (fun p => { p with rx := [link0 1] }) []).linkReady 1 (link0 1)).isSome = true ∧
    (2, 9) ∈ (linkS (fun p => { p with rx := [link0 1] }) [(2, 9)]).links.e2eSeen ∧
    MetS (fun H : Claims.Packets => H.2.2.2.2.2.2.2.2.1 1) (linkS id []) ∧
    MetS (fun H : Claims.Packets => H.2.2.2.2.1 1 credit0 []) (linkS (fun p => { p with rx := [credit0] }) [(2, 9)]) := by unfold MetS; decide
theorem wit_link_waits : MetS (fun H : Claims.Packets => H.2.2.2.2.2.2.1 1 (link0 1) [])
    { linkS (fun p => { p with rx := [link0 1] }) [] with
      regs := { quiet0.regs with pkgid := 1, dramBusy := [dramCtl 0x9000], dramChan := [(dramCtl 0x9000, dramChannel 0x9000)] } } :=
  ⟨⟨rfl, rfl, by decide⟩, by decide⟩
theorem wit_host : (State.reset.hostq = [] ∧ State.reset.hostOk 2 0x9000 2 = true ∧ (State.reset.dmaPay 0 0x9000 2).1 = true ∧
      State.reset.hostOk 1 0x9000 8 = true ∧ (State.reset.dmaPay 0 0x9000 8).1 = true) ∧ (regionOf Config.devBase = .dev ∧ Config.devBase % 8 = 0) ∧
    MetS (fun H : Claims.HostAccesses => H.2.2.1 Config.dramTop [1]) State.reset ∧ MetS (fun H : Claims.HostAccesses => H.2.2.2.2.2.1 Config.devBase) State.reset ∧
    MetS (fun H : Claims.HostAccesses => H.2.2.2.2.2.2.1 Config.dramTop 8) State.reset := by unfold MetS; decide

/-- The channel of 0x9000 retrains. -/
def retrains : State :=
  { State.reset with regs := { State.reset.regs with dramBusy := [dramCtl 0x9000], dramChan := [(dramCtl 0x9000, dramChannel 0x9000)] } }

theorem wit_host_waits : (retrains.dmaPay 0 0x9000 2).1 = false ∧ retrains.pinnedIn 0x9000 2 = true ∧
    (let s := { retrains with hostq := [.write 0x9000 [1]] }; s.hostq = [.write 0x9000 [1]] ∧ (s.hostDo (.write 0x9000 [1])).1 = false) := by decide

/-- The host may reach nothing. -/
def closed0 : State := { State.reset with acc := (List.range 72).flatMap fun t => [((t * 529 + 528) * 8, 0), ((t * 529 + 528) * 8 + 1, 0)] }

set_option maxRecDepth 20000 in
theorem wit_host_refused : MetS (fun H : Claims.HostAccesses => H.2.2.2.1 0x9000 [1]) closed0 ∧ MetS (fun H : Claims.HostAccesses => H.2.2.2.2.2.2.2.1 0x9000 8) closed0 := by unfold MetS; decide

/-- A routine's image waits at an address. -/
def routineS : State := { State.reset with regs := { State.reset.regs with rtBusy := true, rtSlot := 9, rtPa := 0x20000 } }

theorem wit_routine : routineS.regs.rtBusy = true ∧ routineS.bankBusy 9 = false ∧ routineS.regs.rtPa.toNat + 18156 ≤ Config.dramTop ∧
    MetS (fun H : Obligations.ErrorsAndRoutines => H.2.1)
      { State.reset with regs := { State.reset.regs with rtBusy := true, rtSlot := 9, rtPa := BitVec.ofNat 48 Config.dramTop } } ∧
    MetS (fun H : Obligations.ErrorsAndRoutines => H.2.2.1) State.reset := by unfold MetS; decide
set_option maxRecDepth 20000 in
theorem wit_routine_refused : closed0.hostOk 1 0x20000 1772 = false ∧
    ({ State.reset with regs := { State.reset.regs with dramBusy := [dramCtl 0x20000], dramChan := [(dramCtl 0x20000, dramChannel 0x20000)] } } : State).pinnedIn
      0x20000 1772 = true := by decide
theorem wit_ecc : dirty0.team? 1 = some (tm1 dirty0) ∧ (dirty0.core 0).l1Find 0x200 = some (dirtyLine 1) ∧ (dirtyLine 1).dirty ≠ 0 ∧
    (⟨0x120, 6, 0x123400, [(1, 0)], 3⟩ : Fwd) ∈ (dirty0.die 0).fwd ∧ (6 : BitVec 128).getLsbD 1 = true ∧
    MetS (fun H : Obligations.ErrorsAndRoutines => H.2.2.2.2.2.1 0 0x100 (by decide)) dirty0 ∧
    MetS (fun H : Obligations.ErrorsAndRoutines => H.2.2.2.2.2.2.2.2.2.2.2.1 0x9000) dirty0 :=
  ⟨rfl, rfl, by decide, .tail _ (.head _), by decide, by unfold MetS; decide, by unfold MetS; decide⟩

/-- A command in the mailbox with its buffer at 0x9000. -/
def boxS (opc len : Nat) (f : Dehenan → Dehenan) : State :=
  { State.reset with deh := f { State.reset.deh with cmd := (opc, len, 0x9000), busy := true } }

theorem wit_mailbox : MetS (fun H : Obligations.MailboxCommands => H.2.2.1) (boxS 1 0 id) ∧ MetS (fun H : Obligations.MailboxCommands => H.2.2.2.2.2.1 8) (boxS 2 8 id) ∧ MetS (fun H : Obligations.MailboxCommands => H.2.2.2.2.2.2.1 8) (boxS 2 8 fun d => { d with active := 1 }) ∧
    MetS (fun H : Obligations.MailboxCommands => H.2.2.2.2.2.2.2.1 8388616) (boxS 2 8388616 id) ∧ MetS (fun H : Obligations.MailboxCommands => H.2.2.2.2.2.2.2.2.1) (boxS 3 0 id) ∧ MetS (fun H : Obligations.MailboxCommands => H.2.2.2.2.2.2.2.2.2.1) (boxS 4 0 id) := by unfold MetS; decide
theorem wit_sideband : MetS (fun H : Obligations.MailboxCommands => H.2.2.2.1) State.reset ∧ MetS (fun H : Obligations.MailboxCommands => H.2.2.2.2.1) (boxS 4 0 fun d => { d with restarting := true }) ∧ MetS (fun H : Obligations.MailboxCommands => H.2.2.2.2.2.2.2.2.2.2.2.2.2.2.2.2.2.2.2.1) State.reset ∧
    MetS (fun H : Obligations.MailboxCommands => H.2.2.2.2.2.2.2.2.2.2.2.2.2.2.2.2.2.2.2.2.1) { State.reset with deh := { State.reset.deh with reports := 1024 } } ∧ MetS (fun H : Obligations.MailboxCommands => H.2.2.2.2.2.2.2.2.2.2.2.2.2.2.2.2.2.2.2.2.2.2.2.1) State.reset ∧
    MetS (fun H : Obligations.MailboxCommands => H.2.2.2.2.2.2.2.2.2.2.2.2.2.2.2.2.2.2.2.2.2.2.2.2.1) (boxS 4 0 fun d => { d with restarting := true }) := by unfold MetS; decide
theorem wit_restart : MetS (fun H : Obligations.MailboxCommands => H.2.2.2.2.2.2.2.2.2.2.1) (boxS 4 0 fun d => { d with restarting := true }) ∧ MetS (fun H : Obligations.MailboxCommands => H.2.2.2.2.2.2.2.2.2.2.2.1) (boxS 1 0 fun d => { d with restarting := true }) ∧
    MetS (fun H : Obligations.MailboxCommands => H.2.2.2.2.2.2.2.2.2.2.2.2.1) (boxS 4 0 fun d => { d with restarting := true, fails := 1 }) ∧
    MetS (fun H : Obligations.MailboxCommands => H.2.2.2.2.2.2.2.2.2.2.2.2.2.1) (boxS 4 0 fun d => { d with restarting := true, fails := 2 }) ∧ MetS (fun H : Obligations.MailboxCommands => H.2.2.2.2.2.2.2.2.2.2.2.2.2.2.1 true) (boxS 4 0 id) := by unfold MetS; decide

set_option maxRecDepth 20000 in
theorem wit_keys : MetS (fun H : Obligations.MailboxCommands => H.2.2.2.2.2.2.2.2.2.2.2.2.2.2.2.1) (boxS 5 56 id) ∧ MetS (fun H : Obligations.MailboxCommands => H.2.2.2.2.2.2.2.2.2.2.2.2.2.2.2.2.1) (boxS 5 56 fun d => { d with ownerKey := some [1] }) ∧ MetS (fun H : Obligations.MailboxCommands => H.2.2.2.2.2.2.2.2.2.2.2.2.2.2.2.2.2.1) (boxS 6 32 id) ∧
    MetS (fun H : Obligations.MailboxCommands => H.2.2.2.2.2.2.2.2.2.2.2.2.2.2.2.2.2.2.1) (boxS 6 32 fun d => { d with reports := 1024 }) ∧ MetS (fun H : Obligations.MailboxCommands => H.2.2.2.2.2.2.2.2.2.2.2.2.2.2.2.2.2.2.2.2.2.1) (boxS 6 4 id) ∧ MetS (fun H : Obligations.MailboxCommands => H.2.2.2.2.2.2.2.2.2.2.2.2.2.2.2.2.2.2.2.2.2.2.1) (boxS 7 0 id) := by unfold MetS; decide
theorem wit_unknown_command : MetS (fun H : Obligations.MailboxCommands => H.2.2.2.2.2.2.2.2.2.2.2.2.2.2.2.2.2.2.2.2.2.2.2.2.2.1) (boxS 8 0 id) ∧ MetS (fun H : Obligations.MailboxCommands => H.2.2.2.2.2.2.2.2.2.2.2.2.2.2.2.2.2.2.2.2.2.2.2.2.2.2.1) (boxS 1 4 id) ∧ MetS (fun H : Obligations.MailboxCommands => H.2.2.2.2.2.2.2.2.2.2.2.2.2.2.2.2.2.2.2.2.2.2.2.2.2.2.2.2.2.2.2.2.1) (boxS 1 4 id) ∧ MetS (fun H : Obligations.MailboxCommands => H.2.2.2.2.2.2.2.2.2.2.2.2.2.2.2.2.2.2.2.2.2.2.2.2.2.2.2.2.2.2.2.2.2.2.2.2.1) (boxS 7 4 id) ∧
    MetS (fun H : Obligations.MailboxCommands => H.2.2.2.2.2.2.2.2.2.2.2.2.2.2.2.2.2.2.2.2.2.2.2.2.2.2.2.2.2.2.2.2.2.2.2.2.2.1) (boxS 1 4 id) ∧ MetS (fun H : Obligations.MailboxCommands => H.2.2.2.2.2.2.2.2.2.2.2.2.2.2.2.2.2.2.2.2.2.2.2.2.2.2.2.2.2.2.2.2.2.2.2.2.2.2.2.2) (boxS 1 4 id) := by unfold MetS; decide
set_option maxRecDepth 20000 in
theorem wit_mailbox_turned : MetS (fun H : Obligations.MailboxCommands => H.2.2.2.2.2.2.2.2.2.2.2.2.2.2.2.2.2.2.2.2.2.2.2.2.2.2.2.1.1) { boxS 1 0 id with regs := retrains.regs } ∧ MetS (fun H : Obligations.MailboxCommands => H.2.2.2.2.2.2.2.2.2.2.2.2.2.2.2.2.2.2.2.2.2.2.2.2.2.2.2.2.2.1.2.1) { boxS 5 56 id with acc := closed0.acc } ∧
    MetS (fun H : Obligations.MailboxCommands => H.2.2.2.2.2.2.2.2.2.2.2.2.2.2.2.2.2.2.2.2.2.2.2.2.2.2.2.1.2.2.1) { boxS 1 0 id with acc := closed0.acc } ∧
    MetS (fun H : Obligations.MailboxCommands => H.2.2.2.2.2.2.2.2.2.2.2.2.2.2.2.2.2.2.2.2.2.2.2.2.2.2.2.2.2.1.2.2.2) { State.reset with deh := { State.reset.deh with cmd := (5, 56, BitVec.ofNat 48 Config.dramTop), busy := true } } := by unfold MetS; decide

/-- All lanes of group 0 are about to issue a placed word pair on pipe 0. -/
def stepS : State := State.reset.withFetchWord 64 0x000001E050000000

/-- The state in which the placed instruction issues. -/
def stepU : State := State.rotate { stepS with schedule := [] } 0 0

theorem wit_step : stepS.schedule = [.issue 0 0] ∧ stepS.pipeBusy 0 0 = true ∧ stepU.issuer? = some (ctx stepU) ∧
    stepU.mustWait (ctx stepU).run = false ∧ stepU.forcedDue (ctx stepU).run = false ∧
    (∀ l ∈ (ctx stepU).run.lanes, stepU.acqPending (ctx stepU) l = false) ∧ ((ctx stepU).lane (low (ctx stepU).run.lanes)).rep = none ∧
    (ctx stepU).pc = 0x10000 ∧ (ctx stepU).run.words + 2 ≤ 24 := by decide
theorem wit_step_word : decodeBytes false (stepU.mem.readN 0x10000 16) = .ok (.movi h0 5 0, []) ∧
    (∀ a ∈ [0x10000, 0x10008], ∃ e, stepU.xlate 0 (ctx stepU).tm.id.asid a 3 false = .ok e ∧ stepU.physCheck 0 3 (e.phys a) 8 false = none ∧
      regionOf (e.phys a) = .dram ∧ stepU.poisoned (e.phys a) 8 = false ∧ stepU.homeOpen 0 (e.phys a) e.alloc = true ∧ e.alloc < 2 ∧
      e.phys a = a) := by
  refine ⟨rfl, fun a h => ?_⟩
  rcases h with _ | ⟨_, _ | ⟨_, h⟩⟩
  · exact ⟨_, rfl, by decide, by decide, by decide, by decide, by decide, by decide⟩
  · exact ⟨_, rfl, by decide, by decide, by decide, by decide, by decide, by decide⟩
  · cases h
theorem wit_step_stops : (stepU.noteIssue 0 0).mustWait (ctx stepU).run = true ∧
    ({ stepU with time := 512 }).forcedDue { (ctx stepU).run with start := some 0 } = true ∧
    ({ stepU with ops := [{ Op.mk0 (ctx stepU) 3 .load 0x9000 fetchTlb 4 with acq := true }] }).acqPending (ctx stepU) 3 = true := by decide

theorem wit_issue_checks : two0.issuer? = some (ctx two0) ∧ (ctx two0).run.lanes.Nodup ∧ illegalNow two0 (ctx two0) (.tret h0) = true ∧
    guardOut (ctx two0) (.or (hg 255) 5 6 7) = true ∧ activeOf (ctx two0) (.or (hg 8) 5 6 7) = [] ∧
    (∃ r ∈ ((Instr.or h0 255 6 7).roles false).wr, (ctx two0).gp.useOk r = false) := by decide

/-- The group of `member0` runs a speculative task; its guard g8 is 0 in both lanes. -/
def specMember : State := member0.modGrp 1 0 fun y => { y with task := some (task0 []) }

theorem wit_crew_parks : specMember.issuer? = some (ctx specMember) ∧ (ctx specMember).gp.spec = true ∧ (ctx specMember).gp.crew.valid = true ∧
    ∀ i ∈ [Instr.mzero h0 2, .mzero (hg 8) 2], illegalNow specMember (ctx specMember) i = false ∧ guardOut (ctx specMember) i = false ∧
      guardLock (ctx specMember) i = false ∧ (i.roles false).crewI = true ∧ (i.roles false).specWait = true ∧
      interlock (ctx specMember) i (activeOf (ctx specMember) i) = false ∧
      (activeOf (ctx specMember) i = [] ∨ ∀ r ∈ (i.roles false).rd ++ (i.roles false).wr, (ctx specMember).gp.useOk r = true) := by decide

theorem wit_encode : ∀ i ∈ [Instr.and h0 255 6 7 true, .movi h0 5 0xFFFFFFFF, .ld h0 .b32 false (some 4) 5 1 3 16, .mst h0 15 7 255 0xFFF,
    .nsubSpec h0 4 10 13 2 1 31], i.wf false = true := by decide
theorem wit_invariant : State.reset.Inv ∧ stepS.Inv := by unfold State.Inv; decide

end Sys2Proof.Machine.Tests
end

/-! PROOF. What a host write of an aligned word of device control space does, register by register. -/
namespace Sys2Proof.Machine
open Sys2Proof

/-! ### Fields of a word that is written whole -/

theorem putBits_allOnes (old v : BitVec 64) (f : Nat) :
    putBits old v (BitVec.allOnes 64) f = (old &&& ~~~BitVec.ofNat 64 f) ||| (v &&& BitVec.ofNat 64 f) := by
  simp only [putBits, BitVec.allOnes_and]

theorem getLsbD_putBits_allOnes (old v : BitVec 64) (f i : Nat) :
    (putBits old v (BitVec.allOnes 64) f).getLsbD i = if f.testBit i then v.getLsbD i else old.getLsbD i := by
  rw [putBits_allOnes]
  by_cases hi : i < 64
  · cases hf : f.testBit i <;> simp [BitVec.getLsbD_ofNat, hi, hf, -BitVec.getLsbD_eq_getElem]
  · simp [BitVec.getLsbD_of_ge, Nat.le_of_not_lt hi]

/-- A register without other bits than its field takes the value written. -/
theorem putBits_allOnes_full (old v : BitVec 64) : putBits old v (BitVec.allOnes 64) (2 ^ 64 - 1) = v := by
  refine BitVec.eq_of_getLsbD_eq fun i hi => ?_
  rw [getLsbD_putBits_allOnes, Nat.testBit_two_pow_sub_one, decide_eq_true hi, if_pos rfl]

/-- A register of `w` bits takes the low `w` bits written. -/
theorem setWidth_putBits_allOnes {w : Nat} (old : BitVec w) (v : BitVec 64) :
    (putBits (old.setWidth 64) v (BitVec.allOnes 64) (2 ^ w - 1)).setWidth w = v.setWidth w := by
  refine BitVec.eq_of_getLsbD_eq fun i hi => ?_
  simp only [BitVec.getLsbD_setWidth, getLsbD_putBits_allOnes, Nat.testBit_two_pow_sub_one, hi, decide_true, if_true]

/-- A field of `w` bits at bit `lo` reads as the bits written there. -/
theorem bits_putBits_allOnes (old v : BitVec 64) (lo w : Nat) :
    bits (putBits old v (BitVec.allOnes 64) ((2 ^ w - 1) * 2 ^ lo)).toNat lo w = (v.extractLsb' lo w).toNat := by
  refine Nat.eq_of_testBit_eq fun i => ?_
  by_cases hi : i < w
  · have hf : ((2 ^ w - 1) * 2 ^ lo).testBit (i + lo) = true := by
      simp [Nat.testBit_mul_two_pow, Nat.testBit_two_pow_sub_one, hi]
    have hv := getLsbD_putBits_allOnes old v ((2 ^ w - 1) * 2 ^ lo) (i + lo)
    rw [hf, if_pos rfl] at hv
    calc (bits _ lo w).testBit i
        = (putBits old v (BitVec.allOnes 64) ((2 ^ w - 1) * 2 ^ lo)).getLsbD (i + lo) := by
          simp only [bits, Nat.testBit_mod_two_pow, Nat.testBit_div_two_pow, hi, decide_true, Bool.true_and, BitVec.testBit_toNat]
      _ = v.getLsbD (i + lo) := hv
      _ = (v.extractLsb' lo w).toNat.testBit i := by
          rw [BitVec.testBit_toNat, BitVec.getLsbD_extractLsb', Nat.add_comm, decide_eq_true hi, Bool.true_and]
  · simp [bits, Nat.testBit_mod_two_pow, BitVec.testBit_toNat, hi]

/-- A register that holds less than `2 ^ w` holds the low `w` bits written. -/
theorem toNat_putBits_allOnes_low (old v : BitVec 64) (w : Nat) (h : old.toNat < 2 ^ w) :
    (putBits old v (BitVec.allOnes 64) (2 ^ w - 1)).toNat = (v.extractLsb' 0 w).toNat := by
  refine Nat.eq_of_testBit_eq fun i => ?_
  rw [BitVec.testBit_toNat, getLsbD_putBits_allOnes, Nat.testBit_two_pow_sub_one, BitVec.testBit_toNat,
    BitVec.getLsbD_extractLsb', Nat.zero_add]
  by_cases hi : i < w
  · simp [hi]
  · have hlow : old.toNat < 2 ^ i := Nat.lt_of_lt_of_le h (Nat.pow_le_pow_right (by decide) (by omega))
    simpa [hi, BitVec.getLsbD] using Nat.testBit_lt_two_pow hlow

/-- FEATACC keeps the bits of FEATCAP, and bit 1 only beside bit 0 (R246). -/
theorem featStored_eq (v : BitVec 64) :
    featStored v = (v &&& 0x1FF) &&& (if v.getLsbD 0 then -1 else ~~~(2 : BitVec 64)) := by
  have h0 : (v &&& 0x1FF).getLsbD 0 = v.getLsbD 0 := by simp
  have hm : BitVec.ofNat 64 Config.featcap = 0x1FF := rfl
  simp only [featStored, hm, h0]
  split
  · rw [show (-1 : BitVec 64) = BitVec.allOnes 64 from rfl, BitVec.and_allOnes]
  · rfl

/-! ### From the write to the register's own word -/

/-- A host write of the aligned word at offset `a` writes all 64 bits of it (R5). -/
theorem State.regWrite_word (s : State) (a : Nat) (v : BitVec 64) (ha : a % 8 = 0) :
    s.regWrite (Config.devBase + a) 8 v true = s.regWriteWord a v (BitVec.allOnes 64) true := by
  have hw : a / 8 * 8 = a := Nat.div_mul_cancel (Nat.dvd_of_mod_eq_zero ha)
  simp only [State.regWrite, Nat.add_sub_cancel_left, ha, hw]
  congr 1
  simp

theorem steps_registerWrite {h : State → Prop} {f : State → State} {pa : Nat} {v : BitVec 64} (a : Nat)
    (hpa : pa = Config.devBase + a) (ha : a % 8 = 0)
    (hw : ∀ s, h s → s.regWriteWord a v (BitVec.allOnes 64) true = f s) : Steps (.registerWrite pa v) h f := by
  intro s hs
  subst hpa
  show Host.Outcome.next (s.regWrite (Config.devBase + a) 8 v true) = _
  rw [State.regWrite_word s a v ha, hw s hs]

/-! ### Which registers an offset names -/

theorem State.regWriteWord_low (s : State) (a : Nat) (v m : BitVec 64) (ha : a < 0x10000) :
    s.regWriteWord a v m true = s.lowRegWrite a v m := by
  simp [State.regWriteWord, ha]

theorem State.regWriteWord_core (s : State) (c off : Nat) (v m : BitVec 64) (hc : c < 256) (ho : off < 0x100) :
    s.regWriteWord (0x10000 + 0x100 * c + off) v m true = s.coreRegWrite c off v m := by
  have h1 : ¬ (0xA000 ≤ 0x10000 + 0x100 * c + off ∧ 0x10000 + 0x100 * c + off < 0xA018) := by omega
  have h2 : ¬ 0x10000 + 0x100 * c + off < 0x10000 := by omega
  have h3 : 0x10000 + 0x100 * c + off < 0x20000 := by omega
  have hblock : (0x10000 + 0x100 * c + off - 0x10000) / 0x100 = c := by omega
  have hoff : (0x10000 + 0x100 * c + off) % 0x100 = off := by omega
  rw [State.regWriteWord, if_neg h1, if_neg h2, if_pos h3, hblock, hoff]

theorem State.regWriteWord_asid (s : State) (a : Nat) (v m : BitVec 64) (ha : a < 4096) :
    s.regWriteWord (0x200000 + 16 * a) v m true =
      { s with asidTab := s.asidTab.set a (putBits (s.asidTab.getD a 0) v m 0xFFFF_FFFF_F001) } := by
  have h1 : ¬ (0xA000 ≤ 0x200000 + 16 * a ∧ 0x200000 + 16 * a < 0xA018) := by omega
  have h2 : ¬ 0x200000 + 16 * a < 0x10000 := by omega
  have h3 : ¬ 0x200000 + 16 * a < 0x20000 := by omega
  have h4 : ¬ (0x30000 ≤ 0x200000 + 16 * a ∧ 0x200000 + 16 * a < 0x32000) := by omega
  have h5 : ¬ (0x40000 ≤ 0x200000 + 16 * a ∧ 0x200000 + 16 * a < 0x44000) := by omega
  have h6 : 0x200000 ≤ 0x200000 + 16 * a ∧ 0x200000 + 16 * a < 0x210000 := by omega
  have h7 : (0x200000 + 16 * a) % 16 = 0 := by omega
  have hentry : (0x200000 + 16 * a - 0x200000) / 16 = a := by omega
  rw [State.regWriteWord, if_neg h1, if_neg h2, if_neg h3, if_neg h4, if_neg h5, if_pos h6, hentry, h7]
  rfl

theorem State.regWriteWord_acc (s : State) (t k w i : Nat) (v m : BitVec 64)
    (ht : t < 345) (hk : k < 529) (hw : w < 4) (hi : i < 2) :
    s.regWriteWord (0x1000000 + 0x10000 * t + 0x40 * k + 0x10 * w + 8 * i) v m true =
      { s with
        acc := s.acc.set ((t * 529 + k) * 8 + 2 * w + i)
          (putBits (s.accWord t k w i) v m (if i = 0 then 0xFFFF_FFFF_001F else 0xFFFF_FFFF_0000)) } := by
  obtain ⟨a, ha⟩ : ∃ a, a = 0x1000000 + 0x10000 * t + 0x40 * k + 0x10 * w + 8 * i := ⟨_, rfl⟩
  have h1 : ¬ (0xA000 ≤ a ∧ a < 0xA018) := by omega
  have h2 : ¬ a < 0x10000 := by omega
  have h3 : ¬ a < 0x20000 := by omega
  have h4 : ¬ (0x30000 ≤ a ∧ a < 0x32000) := by omega
  have h5 : ¬ (0x40000 ≤ a ∧ a < 0x44000) := by omega
  have h6 : ¬ (0x200000 ≤ a ∧ a < 0x210000) := by omega
  have h7 : 0x1000000 ≤ a ∧ a < 0x1000000 + 0x10000 * 345 := by omega
  have htarget : (a - 0x1000000) / 0x10000 = t := by omega
  have hmaster : (a - 0x1000000) % 0x10000 / 0x40 = k := by omega
  have hwindow : a % 0x40 / 0x10 = w := by omega
  have hword : a % 0x10 / 8 = i := by omega
  rw [← ha, State.regWriteWord, if_neg h1, if_neg h2, if_neg h3, if_neg h4, if_neg h5, if_neg h6, if_pos h7]
  simp only [htarget, hmaster, hwindow, hword, hk, if_true]

/-! ### The registers below the core blocks -/

theorem State.lowRegWrite_featacc (s : State) (v : BitVec 64) (h : s.regs.featlock = false) :
    s.lowRegWrite 0x20 v (BitVec.allOnes 64) = { s with regs := { s.regs with
      featacc := (v &&& 0x1FF) &&& (if v.getLsbD 0 then -1 else ~~~(2 : BitVec 64)) } } := by
  have hopen : ¬ s.regs.featlock = true := by simp [h]
  have hword : featStored (putBits s.regs.featacc v (BitVec.allOnes 64) (2 ^ 64 - 1)) =
      (v &&& 0x1FF) &&& (if v.getLsbD 0 then -1 else ~~~(2 : BitVec 64)) := by
    rw [putBits_allOnes_full, featStored_eq]
  exact (if_neg hopen).trans (congrArg (fun x => { s with regs := { s.regs with featacc := x } }) hword)

theorem State.lowRegWrite_featacc_locked (s : State) (v m : BitVec 64) (h : s.regs.featlock = true) :
    s.lowRegWrite 0x20 v m = s := if_pos h

theorem State.lowRegWrite_enweight (s : State) (v : BitVec 64) :
    s.lowRegWrite 0x1000 v (BitVec.allOnes 64) = { s with regs := { s.regs with enweight := v } } :=
  congrArg (fun x => { s with regs := { s.regs with enweight := x } }) (putBits_allOnes_full s.regs.enweight v)

theorem State.lowRegWrite_lease (s : State) (v : BitVec 64) :
    s.lowRegWrite 0x6000 v (BitVec.allOnes 64) = { s with regs := { s.regs with
      l1lease := max 16 (v.extractLsb' 0 16).toNat, l2lease := max 16 (v.extractLsb' 16 16).toNat } } := by
  rw [← bits_putBits_allOnes (BitVec.ofNat 64 (s.regs.l1lease * 2 ^ 0)) v 0 16,
    ← bits_putBits_allOnes (BitVec.ofNat 64 (s.regs.l2lease * 2 ^ 16)) v 16 16]
  rfl

theorem State.lowRegWrite_shvec (s : State) (v : BitVec 64) :
    s.lowRegWrite 0x8000 v (BitVec.allOnes 64) = { s with regs := { s.regs with
      shvec := (s.regs.shvec &&& ~~~0x00FF_FFFF_FFFF_FFF8) ||| (v &&& 0x00FF_FFFF_FFFF_FFF8) } } :=
  congrArg (fun x => { s with regs := { s.regs with shvec := x } }) (putBits_allOnes s.regs.shvec v 0x00FF_FFFF_FFFF_FFF8)

theorem State.lowRegWrite_fqBase (s : State) (v : BitVec 64) :
    s.lowRegWrite 0x4008 v (BitVec.allOnes 64) = { s with fq := { s.fq with
      base := (s.fq.base &&& ~~~0xFFFF_FFFF_FFE0) ||| (v &&& 0xFFFF_FFFF_FFE0) } } :=
  congrArg (fun x => { s with fq := { s.fq with base := x } }) (putBits_allOnes s.fq.base v 0xFFFF_FFFF_FFE0)

/-- The size in force is at most 8, so no bit of it stands above the field (R250). -/
theorem State.lowRegWrite_fqSize (s : State) (v : BitVec 64) (h : s.fq.size ≤ 8) :
    s.lowRegWrite 0x4010 v (BitVec.allOnes 64) =
      { s with fq := { s.fq with size := min 8 (v.extractLsb' 0 4).toNat } } := by
  have hsize : (BitVec.ofNat 64 s.fq.size).toNat < 2 ^ 4 := by rw [BitVec.toNat_ofNat]; omega
  rw [← toNat_putBits_allOnes_low _ v 4 hsize]
  rfl

theorem State.lowRegWrite_fqHead (s : State) (v : BitVec 64) :
    s.lowRegWrite 0x4018 v (BitVec.allOnes 64) = { s with fq := { s.fq with head := v.setWidth 32 } } := by
  rw [← setWidth_putBits_allOnes s.fq.head v]
  rfl

/-! ### The block of a core -/

theorem State.coreRegWrite_limit (s : State) (c : Nat) (v : BitVec 64) :
    s.coreRegWrite c 0x00 v (BitVec.allOnes 64) = s.modCore c fun z => { z with limit := v.setWidth 12 } := by
  have hlimit (z : Core) : (putBits (z.limit.setWidth 64) v (BitVec.allOnes 64) 0xFFF).setWidth 12 = v.setWidth 12 :=
    setWidth_putBits_allOnes z.limit v
  simp only [State.coreRegWrite, hlimit]

theorem State.coreRegWrite_privsz (s : State) (c : Nat) (v : BitVec 64) (h : s.residents c = []) :
    s.coreRegWrite c 0x08 v (BitVec.allOnes 64) = s.modCore c fun z => { z with privsz := v.setWidth 32 } := by
  have hsize (z : Core) : (putBits (z.privsz.setWidth 64) v (BitVec.allOnes 64) 0xFFFF_FFFF).setWidth 32 = v.setWidth 32 :=
    setWidth_putBits_allOnes z.privsz v
  simp only [State.coreRegWrite, hsize, h, List.isEmpty_nil, if_true]

theorem State.coreRegWrite_privbase (s : State) (c : Nat) (v : BitVec 64) (h : s.residents c = []) :
    s.coreRegWrite c 0x18 v (BitVec.allOnes 64) = s.modCore c fun z => { z with
      privbase := (z.privbase &&& ~~~0x00FF_FFFF_FFFF_0000) ||| (v &&& 0x00FF_FFFF_FFFF_0000) } := by
  simp only [State.coreRegWrite, putBits_allOnes, h, List.isEmpty_nil, if_true]
  rfl

/-- PRIVSZ and PRIVBASE keep their values while the core has a team (R71, R93). -/
theorem State.coreRegWrite_priv_resident (s : State) (c off : Nat) (v m : BitVec 64) (hoff : off = 0x08 ∨ off = 0x18)
    (h : s.residents c ≠ []) : s.coreRegWrite c off v m = s := by
  rcases hoff with rfl | rfl <;> simp [State.coreRegWrite, h]

/-! ### The register writes as device steps -/

theorem steps_lowRegWrite {h : State → Prop} {f : State → State} {v : BitVec 64} (a : Nat) (ha : a % 8 = 0) (hlow : a < 0x10000)
    (hw : ∀ s, h s → s.lowRegWrite a v (BitVec.allOnes 64) = f s) : Steps (.registerWrite (Config.devBase + a) v) h f :=
  steps_registerWrite a rfl ha fun s hs => by rw [State.regWriteWord_low s a v _ hlow, hw s hs]

theorem steps_coreRegWrite {h : State → Prop} {f : State → State} {pa : Nat} {v : BitVec 64} (c off : Nat)
    (hpa : pa = Config.devBase + (0x10000 + 0x100 * c + off)) (hc : c < 256) (ho : off % 8 = 0 ∧ off < 0x100)
    (hw : ∀ s, h s → s.coreRegWrite c off v (BitVec.allOnes 64) = f s) : Steps (.registerWrite pa v) h f :=
  steps_registerWrite _ hpa (by omega) fun s hs => by rw [State.regWriteWord_core s c off v _ hc ho.2, hw s hs]

theorem steps_write_asid (v : BitVec 64) (a : Nat) (ha : a < 4096) :
    Steps (.registerWrite (Config.devBase + 0x200000 + 16 * a) v) (fun _ => True) fun s =>
      { s with
        asidTab := s.asidTab.set a ((s.asidTab.getD a 0 &&& ~~~0xFFFF_FFFF_F001) ||| (v &&& 0xFFFF_FFFF_F001)) } :=
  steps_registerWrite (0x200000 + 16 * a) (Nat.add_assoc ..) (by omega) fun s _ => by
    rw [State.regWriteWord_asid s a v _ ha, putBits_allOnes]
    rfl

theorem steps_write_acc (v : BitVec 64) (t k w i : Nat) (ht : t < 345) (hk : k < 529) (hw : w < 4) (hi : i < 2) :
    Steps (.registerWrite (Config.devBase + 0x1000000 + 0x10000 * t + 0x40 * k + 0x10 * w + 8 * i) v) (fun _ => True) fun s =>
      let mask : BitVec 64 := if i = 0 then 0xFFFF_FFFF_001F else 0xFFFF_FFFF_0000
      { s with
        acc := s.acc.set ((t * 529 + k) * 8 + 2 * w + i) ((s.accWord t k w i &&& ~~~mask) ||| (v &&& mask)) } :=
  steps_registerWrite (0x1000000 + 0x10000 * t + 0x40 * k + 0x10 * w + 8 * i) (by omega) (by omega) fun s _ => by
    rw [State.regWriteWord_acc s t k w i v _ ht hk hw hi, putBits_allOnes]
    split <;> rfl

/-- Settles O33: each clause is the equation of its register, reached by the offset of its word. -/
theorem registerWrites : Obligations.RegisterWrites := fun v =>
  ⟨steps_lowRegWrite 0x20 rfl (by decide) fun s h => s.lowRegWrite_featacc v h,
    steps_lowRegWrite 0x20 rfl (by decide) fun s h => s.lowRegWrite_featacc_locked v _ h,
    steps_lowRegWrite 0x48 rfl (by decide) fun _ _ => rfl,
    steps_lowRegWrite 0x1000 rfl (by decide) fun s _ => s.lowRegWrite_enweight v,
    steps_lowRegWrite 0x6000 rfl (by decide) fun s _ => s.lowRegWrite_lease v,
    steps_lowRegWrite 0x8000 rfl (by decide) fun s _ => s.lowRegWrite_shvec v,
    steps_lowRegWrite 0x4008 rfl (by decide) fun s _ => s.lowRegWrite_fqBase v,
    steps_lowRegWrite 0x4010 rfl (by decide) fun s h => s.lowRegWrite_fqSize v h,
    steps_lowRegWrite 0x4018 rfl (by decide) fun s _ => s.lowRegWrite_fqHead v,
    steps_lowRegWrite 0x4020 rfl (by decide) fun _ _ => rfl,
    fun c hc => steps_coreRegWrite c 0x00 (by omega) hc (by decide) fun s _ => s.coreRegWrite_limit c v,
    fun c hc => steps_coreRegWrite c 0x08 (by omega) hc (by decide) fun s h => s.coreRegWrite_privsz c v h,
    fun c hc => steps_coreRegWrite c 0x08 (by omega) hc (by decide) fun s h =>
      s.coreRegWrite_priv_resident c 0x08 v _ (.inl rfl) h,
    fun c hc => steps_coreRegWrite c 0x18 (by omega) hc (by decide) fun s h => s.coreRegWrite_privbase c v h,
    fun c hc => steps_coreRegWrite c 0x18 (by omega) hc (by decide) fun s h =>
      s.coreRegWrite_priv_resident c 0x18 v _ (.inr rfl) h,
    fun a ha => steps_write_asid v a ha,
    fun t ht k hk w hw i hi => steps_write_acc v t k w i ht hk hw hi⟩

end Sys2Proof.Machine

/-! PROOF. Requests of pre-emption (R85, R86): the cores that a request reaches and what it leaves of each core. -/
namespace Sys2Proof.Machine
open Sys2Proof

/-! ### One core after a change of a core -/

theorem State.core_modCore (s : State) (c k : Nat) (f : Core → Core) :
    (s.modCore c f).core k = if k = c then f (s.core k) else s.core k := by
  split
  · next h => subst h; exact Tab.getD_set_self ..
  · next h => exact Tab.getD_set_ne _ _ _ h

/-! ### A core that a request reaches -/

/-- A core after a request at time `now`: one that drains, has halted or has a request on its way keeps what it has (R85). -/
def Core.requested (z : Core) (now : Nat) : Core := if z.pre = 0 ∧ z.preT0 = 0 then { z with preT0 := now + 1 } else z

theorem Core.requested_of_running {z : Core} (now : Nat) (h : z.pre = 0 ∧ z.preT0 = 0) :
    z.requested now = { z with preT0 := now + 1 } := if_pos h

theorem Core.requested_of_not_running {z : Core} (now : Nat) (h : ¬ (z.pre = 0 ∧ z.preT0 = 0)) : z.requested now = z := if_neg h

@[simp] theorem Core.requested_pre (z : Core) (now : Nat) : (z.requested now).pre = z.pre := by
  unfold Core.requested; split <;> rfl

@[simp] theorem Core.requested_retire (z : Core) (now : Nat) : (z.requested now).retire = z.retire := by
  unfold Core.requested; split <;> rfl

theorem Core.requested_preT0 {z : Core} (now : Nat) (h : z.pre = 0 ∧ z.preT0 = 0) : (z.requested now).preT0 = now + 1 := by
  rw [Core.requested_of_running now h]

/-- A second request finds the first one on its way. -/
@[simp] theorem Core.requested_requested (z : Core) (now : Nat) : (z.requested now).requested now = z.requested now := by
  by_cases h : z.pre = 0 ∧ z.preT0 = 0
  · rw [Core.requested_of_running now h]
    exact Core.requested_of_not_running now fun hrun => Nat.succ_ne_zero now hrun.2
  · simp only [Core.requested_of_not_running now h]

theorem State.core_preemptCore (s : State) (c k : Nat) :
    (s.preemptCore c).core k = if k = c then (s.core k).requested s.time else s.core k := by
  simp only [State.preemptCore, State.core_modCore, Core.requested, Bool.and_eq_true, decide_eq_true_eq]

/-! ### Requests of several cores -/

theorem State.core_foldl_preemptCore (l : List Nat) (s : State) (k : Nat) :
    (l.foldl State.preemptCore s).core k = if k ∈ l then (s.core k).requested s.time else s.core k := by
  induction l generalizing s with
  | nil => simp
  | cons c l ih =>
    have htime : (s.preemptCore c).time = s.time := rfl
    rw [List.foldl_cons, ih, State.core_preemptCore, htime]
    by_cases hc : k = c <;> by_cases hl : k ∈ l <;> simp [hc, hl]

/-- Requests change nothing but cores. -/
theorem State.foldl_preemptCore_frame (l : List Nat) (s : State) (z : Tab Core) :
    { l.foldl State.preemptCore s with cores := z } = { s with cores := z } := by
  induction l generalizing s with
  | nil => rfl
  | cons c l ih => exact ih (s.preemptCore c)

/-! ### The cores that share clusters -/

theorem nodup_eraseDups (l : List Nat) : l.eraseDups.Nodup := by
  match l with
  | [] => exact List.nodup_nil
  | a :: t =>
    rw [List.eraseDups_cons, List.nodup_cons]
    exact ⟨by simp, nodup_eraseDups _⟩
termination_by l.length
decreasing_by exact Nat.lt_succ_of_le (List.length_filter_le ..)

theorem State.mem_clusterCores (s : State) (l : List Nat) (k : Nat) :
    k ∈ s.clusterCores l ↔ k ∈ l ∨ ∃ q ∈ s.teams, q.2.core = k ∧
      ∃ p ∈ s.teams, p.2.core ∈ l ∧ p.2.id.gridid = q.2.id.gridid ∧ p.2.id.clusterid = q.2.id.clusterid := by
  simp [State.clusterCores, and_comm, and_assoc]

theorem State.subset_clusterCores (s : State) (l : List Nat) : l ⊆ s.clusterCores l :=
  fun k hk => (s.mem_clusterCores l k).mpr (.inl hk)

theorem State.clusterCores_lt {s : State} {l : List Nat} (ht : ∀ p ∈ s.teams, p.2.core < 256) (hl : ∀ k ∈ l, k < 256) :
    ∀ k ∈ s.clusterCores l, k < 256 := by
  intro k hk
  rcases (s.mem_clusterCores l k).mp hk with hk | ⟨q, hq, rfl, -⟩
  · exact hl k hk
  · exact ht q hq

/-- A list of distinct cores that a further round makes no longer holds every core of its clusters. -/
theorem State.clusterCores_subset {s : State} {l : List Nat} (hd : l.Nodup) (hlen : (s.clusterCores l).length = l.length) :
    s.clusterCores l ⊆ l := by
  intro k hk
  by_cases hl : k ∈ l
  · exact hl
  · have hle := (List.nodup_cons.mpr ⟨hl, hd⟩).length_le_of_subset (List.cons_subset.mpr ⟨hk, s.subset_clusterCores l⟩)
    rw [hlen, List.length_cons] at hle
    omega

theorem State.subset_reach (s : State) (n : Nat) (l : List Nat) : l ⊆ s.reach n l := by
  induction n generalizing l with
  | zero => exact fun _ h => h
  | succ n ih =>
    rw [State.reach]
    split
    · exact fun _ h => h
    · exact fun _ h => ih _ (s.subset_clusterCores l h)

/-- Each round but the last adds a core, and there are 256 of them: as many rounds as cores are left make the list whole. -/
theorem State.clusterCores_reach_subset {s : State} (ht : ∀ p ∈ s.teams, p.2.core < 256) (n : Nat) {l : List Nat}
    (hd : l.Nodup) (hl : ∀ k ∈ l, k < 256) (hn : 256 < l.length + n) : s.clusterCores (s.reach n l) ⊆ s.reach n l := by
  induction n generalizing l with
  | zero =>
    have hle : l.length ≤ (List.range 256).length :=
      hd.length_le_of_subset fun k hk => List.mem_range.mpr (hl k hk)
    rw [List.length_range] at hle
    omega
  | succ n ih =>
    rw [State.reach]
    split
    · next hlen => exact State.clusterCores_subset hd hlen
    · next hlen =>
      have hle := hd.length_le_of_subset (s.subset_clusterCores l)
      exact ih (nodup_eraseDups _) (State.clusterCores_lt ht hl) (by omega)

theorem State.reach_shares_clusters {s : State} {c : Nat} (hc : c < 256) (ht : ∀ p ∈ s.teams, p.2.core < 256)
    {p q : Nat × Team} (hp : p ∈ s.teams) (hq : q ∈ s.teams) (hpc : p.2.core ∈ s.reach 256 [c])
    (hg : p.2.id.gridid = q.2.id.gridid) (hcl : p.2.id.clusterid = q.2.id.clusterid) : q.2.core ∈ s.reach 256 [c] :=
  State.clusterCores_reach_subset ht 256 (List.nodup_cons.mpr ⟨List.not_mem_nil, List.nodup_nil⟩) (by simpa using hc) (by simp)
    ((s.mem_clusterCores _ _).mpr (.inr ⟨q, hq, rfl, p, hp, hpc, hg, hcl⟩))

/-! ### PRECTL.REQ (R85) -/

theorem State.core_preemptReq {s : State} {c : Nat} (h : (s.core c).pre = 0) (k : Nat) :
    (s.preemptReq c).core k = if k ∈ s.reach 256 [c] then (s.core k).requested s.time else s.core k := by
  rw [State.preemptReq, if_pos h, State.core_foldl_preemptCore]

theorem State.preemptReq_of_pre {s : State} {c : Nat} (h : (s.core c).pre ≠ 0) : s.preemptReq c = s := if_neg h

theorem State.preemptReq_frame (s : State) (c : Nat) (z : Tab Core) :
    { s.preemptReq c with cores := z } = { s with cores := z } := by
  unfold State.preemptReq
  split
  · exact State.foldl_preemptCore_frame ..
  · rfl

theorem State.mem_reach_self (s : State) (c : Nat) : c ∈ s.reach 256 [c] := s.subset_reach 256 [c] (List.mem_singleton_self c)

theorem State.core_preemptReq_self (s : State) (c : Nat) : (s.preemptReq c).core c = (s.core c).requested s.time := by
  by_cases h : (s.core c).pre = 0
  · rw [State.core_preemptReq h, if_pos (s.mem_reach_self c)]
  · rw [State.preemptReq_of_pre h, Core.requested_of_not_running _ fun hrun => h hrun.1]

/-! ### The steps of a pre-emption request -/

theorem exec_prectlReq_reaches (s : State) (c : Nat) (h : (s.core c).pre = 0) (hc : c < 256) (ht : ∀ p ∈ s.teams, p.2.core < 256) :
    ∃ t, exec (.prectlReq c) s = .next t ∧ c ∈ s.reach 256 [c] ∧
      (∀ p ∈ s.teams, ∀ q ∈ s.teams, p.2.core ∈ s.reach 256 [c] → p.2.id.gridid = q.2.id.gridid →
        p.2.id.clusterid = q.2.id.clusterid → q.2.core ∈ s.reach 256 [c]) ∧
      (∀ k, t.core k = if k ∈ s.reach 256 [c] then (s.core k).requested s.time else s.core k) ∧ { t with cores := s.cores } = s :=
  ⟨s.preemptReq c, rfl, s.mem_reach_self c, fun _ hp _ hq => State.reach_shares_clusters hc ht hp hq,
    State.core_preemptReq h, s.preemptReq_frame c s.cores⟩

theorem idles_prectlReq (c : Nat) : Idles (.prectlReq c) fun s => (s.core c).pre ≠ 0 :=
  fun _ h => congrArg Host.Outcome.next (State.preemptReq_of_pre h)

theorem steps_prectlResume (c : Nat) : Steps (.prectlResume c) (fun s => (s.core c).pre = 2) fun s =>
    s.modCore c fun z => { z with pre := 0, preT0 := 0, quiet := false } :=
  fun _ h => congrArg Host.Outcome.next (if_pos h)

theorem idles_prectlResume (c : Nat) : Idles (.prectlResume c) fun s => (s.core c).pre ≠ 2 :=
  fun _ h => congrArg Host.Outcome.next (if_neg h)

/-- The core to retire is marked, and then gets a request like any other (R258). -/
theorem State.core_retireCore_self (s : State) (c : Nat) :
    (s.retireCore c).core c = Core.requested { s.core c with retire := true } s.time := by
  rw [State.retireCore, State.core_preemptReq_self, State.core_modCore, if_pos rfl]
  rfl

theorem exec_coreRetire_requests (s : State) (c : Nat) :
    ∃ t, exec (.coreRetire c) s = .next t ∧ (t.core c).retire = true ∧ { t with cores := s.cores } = s ∧
      ((s.core c).pre = 0 → (s.core c).preT0 = 0 → (t.core c).preT0 = s.time + 1) ∧ (t.core c).pre = (s.core c).pre := by
  refine ⟨s.retireCore c, rfl, ?_, State.preemptReq_frame _ c s.cores, fun hpre hT0 => ?_, ?_⟩ <;> rw [State.core_retireCore_self]
  · exact Core.requested_retire ..
  · exact Core.requested_preT0 _ ⟨hpre, hT0⟩
  · exact Core.requested_pre ..

theorem exec_thermalTrip (s : State) : exec .thermalTrip s = .next (State.msix
    { (List.range Config.cores).foldl State.preemptCore s with
      regs := { ((List.range Config.cores).foldl State.preemptCore s).regs with tripped := true } } 1) := rfl

/-- Every core of the part gets a request, and vector 1 is the model's choice (R18, log entry 111). -/
theorem exec_thermalTrip_requests (s : State) :
    ∃ t, exec .thermalTrip s = .next t ∧ t.regs = { s.regs with tripped := true } ∧
      t.out = { s.out with msix := s.out.msix ++ [1] } ∧ (∀ k < 256, t.core k = (s.core k).requested s.time) ∧
      { t with cores := s.cores, regs := s.regs, out := s.out } = s := by
  have hframe := State.foldl_preemptCore_frame (List.range Config.cores) s s.cores
  have hcore := State.core_foldl_preemptCore (List.range Config.cores) s
  refine ⟨_, exec_thermalTrip s, ?_⟩
  generalize (List.range Config.cores).foldl State.preemptCore s = u at hframe hcore
  exact ⟨congrArg (fun v => { v.regs with tripped := true }) hframe,
    congrArg (fun v => { v.out with msix := v.out.msix ++ [1] }) hframe,
    fun k hk => (hcore k).trans (if_pos (List.mem_range.mpr hk)),
    congrArg (fun v => { v with regs := s.regs, out := s.out }) hframe⟩

theorem Core.draining_iff (z : Core) : z.draining = true ↔ z.pre = 0 ∧ z.preT0 ≠ 0 := by
  simp only [Core.draining, Bool.and_eq_true, beq_iff_eq, bne_iff_ne]

theorem steps_preemptDrain (c : Nat) : Steps (.preemptDrain c) (fun s => (s.core c).pre = 0 ∧ (s.core c).preT0 ≠ 0) fun s =>
    State.modCore { s with runs := s.runs.filter fun r => r.core != c || r.start.isSome } c fun z => { z with pre := 1 } :=
  fun s h => congrArg Host.Outcome.next (if_pos ((s.core c).draining_iff.mpr h))

theorem idles_preemptDrain (c : Nat) : Idles (.preemptDrain c) fun s => (s.core c).preT0 = 0 :=
  fun s h => congrArg Host.Outcome.next (if_neg fun hd => ((s.core c).draining_iff.mp hd).2 h)

/-- Settles O35: a request's rounds over shared clusters end within 256, as each adds a core, so the cores it reaches are closed
under sharing; the other clauses are the equation of their step. -/
theorem preemptionRequests : Obligations.PreemptionRequests :=
  ⟨exec_prectlReq_reaches, idles_prectlReq, steps_prectlResume, idles_prectlResume, exec_coreRetire_requests,
    exec_thermalTrip_requests, steps_preemptDrain, idles_preemptDrain⟩

end Sys2Proof.Machine

/-! PROOF. CSRW, XACQ, XREL and TLBINV (R51, R319, R396): what an instruction leaves of its pack when its active lanes park, and
what each of the four does. -/
namespace Sys2Proof.Machine
open Sys2Proof

/-! ### Changes that keep the open runs and the issuing group's fence records -/

/-- From `s` to `u` the open runs stay, and so do the fence records of the issuing group. -/
def KeepsPack (x : Ctx) (s u : State) : Prop :=
  u.runs = s.runs ∧ ∀ y, s.grp? x.run.team x.run.grp = some y → ∃ z, u.grp? x.run.team x.run.grp = some z ∧ z.fences = y.fences

theorem KeepsPack.trans {x : Ctx} {s u v : State} (h : KeepsPack x s u) (k : KeepsPack x u v) : KeepsPack x s v := by
  obtain ⟨hruns, hgrp⟩ := h
  obtain ⟨kruns, kgrp⟩ := k
  refine ⟨kruns.trans hruns, fun y hy => ?_⟩
  obtain ⟨z, hz, hzf⟩ := hgrp y hy
  obtain ⟨w, hw, hwf⟩ := kgrp z hz
  exact ⟨w, hw, hwf.trans hzf⟩

theorem KeepsPack.of_teams {x : Ctx} {s u : State} (hruns : u.runs = s.runs) (hteams : u.teams = s.teams) : KeepsPack x s u := by
  refine ⟨hruns, fun y hy => ⟨y, ?_, rfl⟩⟩
  simpa only [State.grp?, State.team?, hteams] using hy

theorem KeepsPack.refl (x : Ctx) (s : State) : KeepsPack x s s := .of_teams rfl rfl

theorem keepsPack_modCore (x : Ctx) (s : State) (c : Nat) (f : Core → Core) : KeepsPack x s (s.modCore c f) := .of_teams rfl rfl

theorem keepsPack_onGrp (x : Ctx) (s : State) {f : Group → Group} (hf : ∀ y, (f y).fences = y.fences) :
    KeepsPack x s (s.onGrp x f) :=
  ⟨State.onGrp_runs .., fun y hy => ⟨f y, State.grp?_modGrp_self hy, hf y⟩⟩

/-- A change of a team's own fields leaves its groups. -/
theorem State.grp?_modTeam_of_grps {s : State} {t g : Nat} {f : Team → Team} (hf : ∀ m, (f m).grps = m.grps) :
    (s.modTeam t f).grp? t g = s.grp? t g := by
  cases h : s.team? t with
  | none =>
    have h' : Tab.get? s.teams t = none := h
    simp only [State.modTeam, h']
  | some m =>
    rw [State.modTeam_eq h]
    simp [State.grp?, State.team?, Team.grp?, hf, show Tab.get? s.teams t = some m from h]

theorem keepsPack_onTeam (x : Ctx) (s : State) {f : Team → Team} (hf : ∀ m, (f m).grps = m.grps) : KeepsPack x s (s.onTeam x f) :=
  ⟨State.modTeam_runs .., fun y hy => ⟨y, (State.grp?_modTeam_of_grps hf).trans hy, rfl⟩⟩

/-- An instruction whose body completes and keeps the runs and the fence records of its group. -/
theorem effect_of_keepsPack {i : Instr} {h : State → Ctx → Prop} {e : State → Ctx → State} (b : Body)
    (he : ∀ s, exec i s = issue i b s) (hb : ∀ s x, h s x → b x (activeOf x i) s = ⟨e s x, [], false⟩)
    (hk : ∀ s x, h s x → KeepsPack x s (e s x)) : Effect i h e := by
  refine effect_of_body b he (fun s x _ hh => ⟨false, hb s x hh⟩) (fun s x hi hh => ?_) (fun s x _ hh => (hk s x hh).1)
  obtain ⟨z, hz, hzf⟩ := (hk s x hh).2 x.gp (issuer_grp hi.issuer)
  exact ⟨z, hz, fun q hq => hzf ▸ hq⟩

/-! ### A pack whose active lanes park (R28, R61) -/

/-- The end of a lane whose pack parks in `w` but for the lanes that the guard keeps out. -/
def parkEnd (act : List Nat) (w : Wait) (l : Nat) : LEnd := if act.contains l then .park w else .done

theorem find?_map_pair {α : Type} (ls : List Nat) (e : Nat → α) (l : Nat) :
    (ls.map fun k => (k, e k)).find? (fun p => p.1 == l) = if ls.contains l then some (l, e l) else none := by
  induction ls with
  | nil => rfl
  | cons a t ih =>
    by_cases h : a = l
    · subst h; simp
    · simp [h, Ne.symm h, ih]

theorem endOf_map (ls : List Nat) (e : Nat → LEnd) {l : Nat} (h : ls.contains l = true) :
    endOf (ls.map fun k => (k, e k)) l = e l := by
  rw [endOf, find?_map_pair, if_pos h]

theorem offEnd_park {w : Wait} (hw : (LEnd.park w).forOff = none) (ls : List Nat) : offEnd (allEnd ls (.park w)) = .done := by
  have hnone : (allEnd ls (.park w)).findSome? (fun p => p.2.forOff) = none := by
    simp [allEnd, List.findSome?_eq_none_iff, hw]
  rw [offEnd, hnone, Option.getD_none]

theorem allEnds_park {w : Wait} (hw : (LEnd.park w).forOff = none) (x : Ctx) (i : Instr) :
    allEnds x i (allEnd (activeOf x i) (.park w)) = x.run.lanes.map fun l => (l, parkEnd (activeOf x i) w l) := by
  unfold allEnds
  refine List.map_congr_left fun l _ => ?_
  rw [offEnd_park hw, allEnd, find?_map_pair, parkEnd]
  by_cases h : (activeOf x i).contains l = true
  · simp only [h, if_true]
  · simp only [h, if_false, Bool.false_eq_true]

theorem applyEnd_parkEnd (x : Ctx) (i : Instr) (w : Wait) (l : Nat) (z : Lane) :
    applyEnd x.run (i.roles x.front).words (parkEnd (activeOf x i) w l) z =
      if (activeOf x i).contains l then parked x w z else passed x i z := by
  unfold parkEnd
  split <;> rfl

theorem State.onGrp_fences_self {s : State} {x : Ctx} {z : Group} (h : s.grp? x.run.team x.run.grp = some z) :
    s.onGrp x (fun y => { y with fences := z.fences }) = s :=
  (State.modGrp_congr (k := fun y => y) h rfl).trans (State.modGrp_id ..)

theorem State.onLanes_congr (s : State) (x : Ctx) (ls : List Nat) {f k : Nat → Lane → Lane}
    (h : ∀ l, ls.contains l = true → ∀ z, f l z = k l z) : s.onLanes x ls f = s.onLanes x ls k := by
  refine congrArg (s.onGrp x) (funext fun y => congrArg (fun t => { y with lanes := t }) (List.map_congr_left fun l _ => ?_))
  split
  · next hl => exact h l hl _
  · rfl

section ParkEnds
variable {x : Ctx} {i : Instr} (w : Wait)

theorem exists_parkEnd (hact : activeOf x i ≠ []) :
    ∃ p ∈ x.run.lanes.map fun l => (l, parkEnd (activeOf x i) w l), p.2 = .park w := by
  obtain ⟨l, hl⟩ := List.exists_mem_of_ne_nil _ hact
  exact ⟨_, List.mem_map.mpr ⟨l, (List.mem_filter.mp hl).1, rfl⟩, if_pos (List.contains_iff_mem.mpr hl)⟩

theorem parkEnds_all (hact : activeOf x i ≠ []) {p : LEnd → Bool} (hp : p (.park w) = false) :
    ((x.run.lanes.map fun l => (l, parkEnd (activeOf x i) w l)).all fun q => p q.2) = false := by
  obtain ⟨q, hq, he⟩ := exists_parkEnd w hact
  exact List.all_eq_false.mpr ⟨q, hq, by simp [he, hp]⟩

theorem parkEnds_any (ls act : List Nat) {p : LEnd → Bool} (hp : p (.park w) = false) (hd : p .done = false) :
    ((ls.map fun l => (l, parkEnd act w l)).any fun q => p q.2) = false := by
  refine List.any_eq_false.mpr fun q hq => ?_
  obtain ⟨l, -, rfl⟩ := List.mem_map.mp hq
  simp only [parkEnd]
  split <;> simp [hp, hd]

theorem parkEnds_leaves (ls act : List Nat) :
    ((ls.map fun l => (l, parkEnd act w l)).filter fun q => q.2.leaves).map (·.1) = ls.filter fun l => !act.contains l := by
  have hleaves : ∀ l, (parkEnd act w l).leaves = !act.contains l := by
    intro l
    unfold parkEnd
    cases act.contains l <;> rfl
  simp [List.filter_map, Function.comp_def, hleaves]

theorem parkEnds_faults (ls act : List Nat) : faultsOf (ls.map fun l => (l, parkEnd act w l)) = [] := by
  refine List.filterMap_eq_nil_iff.mpr fun q hq => ?_
  obtain ⟨l, -, rfl⟩ := List.mem_map.mp hq
  unfold parkEnd
  cases act.contains l <;> rfl

end ParkEnds

/-- What every instruction does after a body that parks the active lanes in a wait that the lanes guarded off have no part in: those
go past it, the active lanes stay at it, and the run ends. -/
theorem finish_parks {u : State} {x : Ctx} {y : Group} {w : Wait} (i : Instr) (stop : Bool) (hw : (LEnd.park w).forOff = none)
    (hact : activeOf x i ≠ []) (hg : u.grp? x.run.team x.run.grp = some y) :
    finish x i ⟨u, allEnd (activeOf x i) (.park w), stop⟩ =
      u.settle x (activeOf x i) (fun l z => if (activeOf x i).contains l then parked x w z else passed x i z) y.fences
        (u.runs.filter fun r => !(r.team == x.run.team && r.grp == x.run.grp)) := by
  let act := activeOf x i
  let ends := x.run.lanes.map fun l => (l, parkEnd act w l)
  let off := x.run.lanes.filter fun l => !act.contains l
  have hdone : (ends.all fun p => p.2 == .done || p.2 == .repStart) = false :=
    parkEnds_all w hact (p := fun e => e == .done || e == .repStart) rfl
  have hmoves : (ends.all fun p => p.2.moves) = false := parkEnds_all w hact (p := LEnd.moves) rfl
  have hjoins : (ends.any fun p => p.2.joins) = false := parkEnds_any w _ _ (p := LEnd.joins) rfl rfl
  have hexit : (ends.any fun p => p.2 == .exit || p.2 == .keep) = false :=
    parkEnds_any w _ _ (p := fun e => e == .exit || e == .keep) rfl rfl
  have hleaves : (ends.filter fun p => p.2.leaves).map (·.1) = off := parkEnds_leaves w ..
  have hfaults : faultsOf ends = [] := parkEnds_faults w ..
  have hlane : ∀ l, x.run.lanes.contains l = true → ∀ z, applyEnd x.run (i.roles x.front).words (endOf ends l) z =
      if act.contains l then parked x w z else passed x i z := fun l hl z => by
    rw [endOf_map _ _ hl, applyEnd_parkEnd]
  obtain ⟨z, hz, hzf⟩ := State.leave_grp hg off
  have hfences : (u.leave x off).onGrp x (fun q => { q with fences := y.fences }) = u.leave x off :=
    hzf ▸ State.onGrp_fences_self hz
  have hruns : ∀ f, ((u.leave x off).onLanes x x.run.lanes f).runs = u.runs := fun f => by
    rw [State.onLanes_runs, State.leave_runs]
  rw [State.settle, hfences, ← State.onLanes_congr _ _ _ hlane]
  have hends : allEnds x i (allEnd (activeOf x i) (.park w)) = ends := allEnds_park hw x i
  simp only [finish, hends, hleaves]
  have hleave : (u.releaseAll x.run.team x.run.grp off).dropFar x.run.team x.run.grp off = u.leave x off := rfl
  simp only [hleave, hdone, hmoves, hjoins, hexit, hfaults, Bool.false_eq_true, if_false, State.grp?_modGrp_self hz, Bool.and_false,
    Bool.false_and, Bool.not_false, Bool.true_or, List.isEmpty_nil, if_true]
  exact congrArg (fun rs => { (u.leave x off).onLanes x x.run.lanes fun l => applyEnd x.run (i.roles x.front).words (endOf ends l) with
    runs := rs.filter fun r => !(r.team == x.run.team && r.grp == x.run.grp) }) (hruns _)

/-- An instruction whose body parks the active lanes and keeps the runs and the fence records of its group. -/
theorem effectTo_of_parks {i : Instr} {h : State → Ctx → Prop} {e : State → Ctx → State} {w : Ctx → Wait} (b : Body)
    (he : ∀ s, exec i s = issue i b s) (hw : ∀ x, (LEnd.park (w x)).forOff = none)
    (hb : ∀ s x, h s x → b x (activeOf x i) s = ⟨e s x, allEnd (activeOf x i) (.park (w x)), true⟩)
    (hk : ∀ s x, h s x → KeepsPack x s (e s x)) :
    EffectTo i h e (fun x => activeOf x i) fun x l z => if (activeOf x i).contains l then parked x (w x) z else passed x i z := by
  intro s x hi hh
  obtain ⟨hruns, hgrp⟩ := hk s x hh
  obtain ⟨z, hz, hzf⟩ := hgrp x.gp (issuer_grp hi.issuer)
  refine ⟨z.fences, (e s x).runs.filter fun r => !(r.team == x.run.team && r.grp == x.run.grp),
    fun r hr => ⟨r, hruns ▸ (List.mem_filter.mp hr).1, rfl⟩, fun q hq => hzf ▸ hq, ?_⟩
  rw [he, issue_body hi, hb s x hh, finish_parks i true (hw x) hi.active hz]

/-! ### XACQ and XREL (R51) -/

theorem Core.addWait_eq (c : Core) (w : XWait) : c.addWait w = { c with
    xwait := if ∃ p ∈ c.xwait, p.team = w.team ∧ p.grp = w.grp then c.xwait
      else sortBy (fun p => p.cycle * 512 + p.slot) (c.xwait ++ [w]) } := by
  simp only [Core.addWait, List.any_eq_true, Bool.and_eq_true, beq_iff_eq]
  split <;> rfl

theorem effect_xacq_held (h : Hdr) : Effect (.xacq h) (fun _ x => x.gp.xblk ≠ none) (fun s _ => s) :=
  effect_of_keepsPack _ (fun _ => rfl) (fun _ _ hx => if_pos (Option.isSome_iff_ne_none.mpr hx)) fun s x _ => .refl x s

theorem effectTo_xacq_waits (h : Hdr) : EffectTo (.xacq h) (fun _ x => x.gp.xblk = none)
    (fun s x => s.modCore x.tm.core fun c => c.addWait ⟨x.run.team, x.run.grp, s.time / 2, x.gp.slot⟩)
    (fun x => activeOf x (.xacq h))
    (fun x l z => if (activeOf x (.xacq h)).contains l then parked x .xacq z else passed x (.xacq h) z) :=
  effectTo_of_parks _ (fun _ => rfl) (fun _ => rfl) (fun _ x hx => if_neg (by simp [hx])) fun s x _ => keepsPack_modCore x s _ _

theorem effect_xrel_without (h : Hdr) : Effect (.xrel h) (fun _ x => x.gp.xblk = none) (fun s _ => s) :=
  effect_of_keepsPack _ (fun _ => rfl) (fun s x hx => by simp only [hx]) fun s x _ => .refl x s

theorem effect_xrel_gives_back (h : Hdr) (r : Bool) :
    Effect (.xrel h) (fun _ x => x.gp.xblk = some r ∧ x.gp.xPending = false) fun s x =>
      ((s.modCore x.tm.core fun c => Core.keepExtent x.tm.id.asid x.gp.slot x.gp.lanes c (2, 128, 64)).onGrp x Group.dropBlock).onTeam x
        fun m => { m with reserveHeld := m.reserveHeld && !r } := by
  refine effect_of_keepsPack _ (fun _ => rfl) (fun s x hx => ?_) fun s x _ => ?_
  · obtain ⟨hblk, hpend⟩ := hx
    simp only [hblk, hpend, Bool.false_eq_true, if_false]
  · refine ((keepsPack_modCore x s _ _).trans (keepsPack_onGrp x _ ?_)).trans (keepsPack_onTeam x _ ?_) <;> exact fun _ => rfl

/-! ### TLBINV (R396) -/

/-- The ASID that a TLBINV's control word names: 4096 where it names every one. -/
def invAsid (c : Nat) : Nat := if c / 2 ^ 12 = 2 then 4096 else c % 2 ^ 12

/-- The VA that a TLBINV's operands name, if any. -/
def invVa (c va : Nat) : Option Nat := if c / 2 ^ 12 = 1 then some (va / 65536 * 65536) else none

theorem invAsid_names (c a : Nat) : (invAsid c == 4096 || a == invAsid c) = (c / 2 ^ 12 == 2 || a == c % 2 ^ 12) := by
  unfold invAsid
  by_cases h : c / 2 ^ 12 = 2
  · rw [if_pos h, h]
    rfl
  · have hlt : c % 2 ^ 12 ≠ 4096 := Nat.ne_of_lt (Nat.mod_lt c (by decide))
    rw [if_neg h, beq_eq_false_iff_ne.mpr h, beq_eq_false_iff_ne.mpr hlt]

theorem TlbE.hit_inv (e : TlbE) (c va : Nat) : e.hit (invAsid c) (invVa c va) =
    ((c / 2 ^ 12 == 2 || e.asid == c % 2 ^ 12) && (c / 2 ^ 12 != 1 || va / 2 ^ 16 * 2 ^ 16 / 2 ^ e.lg == e.va / 2 ^ e.lg)) := by
  unfold TlbE.hit invVa
  rw [invAsid_names]
  by_cases h : c / 2 ^ 12 = 1
  · rw [if_pos h, h]
    rfl
  · rw [if_neg h, bne_iff_ne.mpr h, Bool.true_or]

theorem State.invalidate_inv (s : State) (c va : Nat) :
    s.invalidate (invAsid c) (invVa c va) =
      let mine := fun (a : Nat) => c / 2 ^ 12 == 2 || a == c % 2 ^ 12
      let keep := fun (e : TlbE) => !(mine e.asid && (c / 2 ^ 12 != 1 || va / 2 ^ 16 * 2 ^ 16 / 2 ^ e.lg == e.va / 2 ^ e.lg))
      { s with
        asidCache := s.asidCache.filter fun p => !mine p.1
        walkCache := s.walkCache.filter fun e => !mine e.asid
        lu := { s.lu with walked := s.lu.walked.filter fun w => !mine w.asid }
        cores := s.cores.map fun p =>
          (p.1, { p.2 with tlb := p.2.tlb.filter keep, lrc := p.2.lrc.filter fun q => !mine (q.1 / 2 ^ 56) })
        dies := s.dies.map fun p => (p.1, { p.2 with l2tlb := p.2.l2tlb.filter keep }) } := by
  simp only [State.invalidate, invAsid_names, TlbE.hit_inv]

/-- A control word without bits above MODE, and with a mode, reads as its two fields. -/
theorem execTlbinv_body {c va : Nat} (hc : c < 2 ^ 14) (hmode : c / 2 ^ 12 ≠ 3) (hva : c / 2 ^ 12 = 1 → va < 2 ^ 56) :
    (c / 2 ^ 14 != 0 || bits c 12 2 == 3 || (bits c 12 2 == 1 && va / 2 ^ 56 != 0)) = false ∧
      (if bits c 12 2 = 2 then 4096 else bits c 0 12) = invAsid c ∧
      (if bits c 12 2 = 1 then some (va / 65536 * 65536) else none) = invVa c va := by
  have hm : bits c 12 2 = c / 2 ^ 12 := Nat.mod_eq_of_lt (by omega)
  have hz : c / 2 ^ 14 = 0 := Nat.div_eq_of_lt hc
  rw [hm]
  refine ⟨?_, by rw [invAsid, bits, Nat.pow_zero, Nat.div_one], rfl⟩
  have hhigh : c / 2 ^ 12 = 1 → va / 2 ^ 56 = 0 := fun h => Nat.div_eq_of_lt (hva h)
  by_cases h1 : c / 2 ^ 12 = 1
  · rw [hz, h1, hhigh h1]
    rfl
  · rw [hz, beq_eq_false_iff_ne.mpr hmode, beq_eq_false_iff_ne.mpr h1]
    rfl

/-! ### CSRW (R319) -/

/-- A field of a control register, as a field of the 64-bit word written. -/
theorem extractLsb'_ofNat (v : Nat) {lo w : Nat} (h : lo + w ≤ 64) :
    (BitVec.ofNat 64 v).extractLsb' lo w = BitVec.ofNat w (bits v lo w) := by
  refine BitVec.eq_of_getLsbD_eq fun i hi => ?_
  have h64 : lo + i < 64 := by omega
  simp only [BitVec.getLsbD_extractLsb', BitVec.getLsbD_ofNat, bits, Nat.testBit_mod_two_pow, Nat.testBit_div_two_pow, hi, h64,
    decide_true, Bool.true_and, Nat.add_comm]

theorem getLsbD_ofNat_eq_bit (v : Nat) {i : Nat} (h : i < 64) : (BitVec.ofNat 64 v).getLsbD i = bit v i := by
  rw [BitVec.getLsbD_ofNat, decide_eq_true h, Bool.true_and, bit, Nat.testBit_eq_decide_div_mod_eq]
  rfl

/-- A field that stands at its own place in a register of `k` bits whose other bits are 0. -/
theorem shifted_field (v : Nat) {lo w : Nat} (h : lo + w ≤ 64) :
    ((BitVec.ofNat 64 v).extractLsb' lo w).setWidth 64 <<< lo = BitVec.ofNat 64 (bits v lo w * 2 ^ lo) := by
  rw [extractLsb'_ofNat v h]
  refine BitVec.eq_of_toNat_eq ?_
  have hlt : bits v lo w < 2 ^ w := Nat.mod_lt _ (Nat.two_pow_pos w)
  have hw : 2 ^ w ≤ 2 ^ 64 := Nat.pow_le_pow_right (by decide) (by omega)
  rw [BitVec.toNat_shiftLeft, BitVec.toNat_setWidth, BitVec.toNat_ofNat, BitVec.toNat_ofNat, Nat.mod_eq_of_lt hlt,
    Nat.mod_eq_of_lt (Nat.lt_of_lt_of_le hlt hw), Nat.shiftLeft_eq]

theorem csrOperand_eq (x : Ctx) (z : Lane) (a : BitVec 8) (csr : BitVec 12) :
    (if csr = 0x049 ∨ csr = 0x04C then BitVec.ofNat 64 (z.get64 x.front a.toNat)
      else (BitVec.ofNat 32 (z.get x.front a.toNat)).setWidth 64) =
    BitVec.ofNat 64 (if csrIs64 csr then z.get64 x.front a.toNat else z.get x.front a.toNat % 2 ^ 32) := by
  have h64 : csrIs64 csr = true ↔ csr = 0x049 ∨ csr = 0x04C := by simp [csrIs64]
  by_cases h : csr = 0x049 ∨ csr = 0x04C
  · rw [if_pos h, if_pos (h64.mpr h)]
  · rw [if_neg h, if_neg fun hc => h (h64.mp hc)]
    refine BitVec.eq_of_toNat_eq ?_
    simp

/-- What the writes of a core cycle keep of the control registers is what stood before the first of them (R149). -/
theorem Team.keepCsrs_eq (m : Team) (now : Nat) : m.keepCsrs now = { m with
    csrOld := some { (m.csrOld.filter fun p => p.cycle == now / 2).getD ⟨0, m.rm, m.nantrap, m.lrbase, m.uhvec, m.uhdeleg⟩ with
      cycle := now / 2 } } := by
  cases h : m.csrOld with
  | none => simp [Team.keepCsrs, Team.atIssue, cycleOf, h]
  | some o => by_cases hc : o.cycle = now / 2 <;> simp [Team.keepCsrs, Team.atIssue, cycleOf, Option.filter, h, hc]

theorem Core.limitAt_eq (c : Core) (now : Nat) :
    c.limitAt now = ((c.limitOld.filter fun p => p.1 == now / 2).map (·.2)).getD c.limit := by
  cases h : c.limitOld with
  | none => simp [Core.limitAt, h]
  | some p => by_cases hc : p.1 = now / 2 <;> simp [Core.limitAt, cycleOf, Option.filter, h, hc]

section CsrPut
variable (s : State) (x : Ctx) (v : Nat)

theorem csrPut_fpctl : s.csrPut x 0x042 v = s.onTeam x fun m => { m.keepCsrs s.time with
    rm := (BitVec.ofNat 64 v).extractLsb' 0 2, nantrap := (BitVec.ofNat 64 v).getLsbD 2 && s.feat 8 } := by
  rw [extractLsb'_ofNat v (by decide), getLsbD_ofNat_eq_bit v (by decide)]
  rfl

theorem csrPut_fpflags : s.csrPut x 0x043 v = s.onGrp x fun y => y.clearFlags s.time ((BitVec.ofNat 64 v).setWidth 6) := by
  rw [BitVec.setWidth_ofNat_of_le (by decide)]
  rfl

theorem csrPut_enbudget : s.csrPut x 0x048 v = s.modCore x.tm.core fun c =>
    { c with limit := (BitVec.ofNat 64 v).setWidth 12, limitOld := some (s.time / 2, c.limitAt s.time) } := by
  rw [BitVec.setWidth_ofNat_of_le (by decide)]
  rfl

theorem csrPut_lrbase : s.csrPut x 0x049 v = s.onTeam x fun m => { m.keepCsrs s.time with
    lrbase := ((BitVec.ofNat 64 v).extractLsb' 9 47).setWidth 64 <<< 9 } := by
  rw [shifted_field v (by decide)]
  rfl

theorem csrPut_stklim (hx : x.front = false) : s.csrPut x 0x041 v = s.onGrp x fun y =>
    { y with stklim := BitVec.ofNat 24 (min ((BitVec.ofNat 64 v).setWidth 24).toNat (x.tm.id.priv * 4)) } := by
  have hv : ((BitVec.ofNat 64 v).setWidth 24).toNat = bits v 0 24 := by
    rw [BitVec.setWidth_ofNat_of_le (by decide), BitVec.toNat_ofNat, bits, Nat.pow_zero, Nat.div_one]
  rw [hv]
  exact if_neg (by simp [hx])

theorem csrPut_uhvec (hx : x.front = false) : s.csrPut x 0x04C v = s.onTeam x fun m => { m.keepCsrs s.time with
    uhvec := ((BitVec.ofNat 64 v).extractLsb' 3 53).setWidth 64 <<< 3 } := by
  rw [shifted_field v (by decide)]
  exact if_neg (by simp [hx])

theorem csrPut_uhdeleg (hx : x.front = false) : s.csrPut x 0x04D v = s.onTeam x fun m => { m.keepCsrs s.time with
    uhdeleg := ((BitVec.ofNat 64 v).extractLsb' 0 6).setWidth 32 } := by
  have hv : ((BitVec.ofNat 64 v).extractLsb' 0 6).setWidth 32 = BitVec.ofNat 32 (bits v 0 6) := by
    rw [extractLsb'_ofNat v (by decide)]
    exact BitVec.setWidth_ofNat_of_le_of_lt (by decide) (Nat.mod_lt _ (by decide))
  rw [hv]
  exact if_neg (by simp [hx])

/-- A register of a group's lanes is not written from the front thread (R318). -/
theorem csrPut_front (hx : x.front = true) : ∀ csr ∈ ([0x041, 0x04C, 0x04D] : List (BitVec 12)), s.csrPut x csr v = s := by
  simp only [List.forall_mem_cons, List.not_mem_nil, false_implies, implies_true, and_true]
  exact ⟨if_pos hx, if_pos hx, if_pos hx⟩

/-- The registers that CSRW can write (R319). -/
def csrsWritten : List (BitVec 12) := [0x041, 0x042, 0x043, 0x048, 0x049, 0x04C, 0x04D]

theorem csrPut_readOnly {csr : BitVec 12} (h : csr ∉ csrsWritten) : s.csrPut x csr v = s := by
  have hne : ∀ k ∈ csrsWritten, csr.toNat ≠ k.toNat := fun k hk he => h (BitVec.eq_of_toNat_eq he ▸ hk)
  obtain ⟨h41, h42, h43, h48, h49, h4C, h4D⟩ : csr.toNat ≠ 0x041 ∧ csr.toNat ≠ 0x042 ∧ csr.toNat ≠ 0x043 ∧
      csr.toNat ≠ 0x048 ∧ csr.toNat ≠ 0x049 ∧ csr.toNat ≠ 0x04C ∧ csr.toNat ≠ 0x04D := by
    simpa [csrsWritten] using hne
  simp only [State.csrPut]

theorem keepsPack_csrPut (csr : BitVec 12) : KeepsPack x s (s.csrPut x csr v) := by
  by_cases h : csr ∈ csrsWritten
  · simp only [csrsWritten, List.mem_cons, List.not_mem_nil, or_false] at h
    rcases h with rfl | rfl | rfl | rfl | rfl | rfl | rfl
    · exact ite_pred (.refl x s) (keepsPack_onGrp x s fun _ => rfl)
    · exact keepsPack_onTeam x s fun _ => rfl
    · exact keepsPack_onGrp x s fun _ => rfl
    · exact keepsPack_modCore x s _ _
    · exact keepsPack_onTeam x s fun _ => rfl
    · exact ite_pred (.refl x s) (keepsPack_onTeam x s fun _ => rfl)
    · exact ite_pred (.refl x s) (keepsPack_onTeam x s fun _ => rfl)
  · rw [csrPut_readOnly s x v h]
    exact .refl x s

end CsrPut

theorem effect_csrw (h : Hdr) (a : BitVec 8) (csr : BitVec 12) : Effect (.csrw h a csr) (fun _ _ => True) fun s x =>
    let z := x.lane (low (activeOf x (.csrw h a csr)))
    s.csrPut x csr (if csrIs64 csr then z.get64 x.front a.toNat else z.get x.front a.toNat % 2 ^ 32) :=
  effect_of_keepsPack _ (fun _ => rfl) (fun _ _ _ => rfl) fun s x _ => keepsPack_csrPut s x _ csr

theorem Effect.congr {i : Instr} {h : State → Ctx → Prop} {e k : State → Ctx → State} (he : Effect i h e)
    (hek : ∀ s x, e s x = k s x) : Effect i h k := (funext fun s => funext (hek s) : e = k) ▸ he

theorem effectTo_tlbinv (h : Hdr) (a b : BitVec 8) (n : Nat) :
    let c := fun (x : Ctx) => (x.lane (low (activeOf x (.tlbinv h a b)))).get x.front b.toNat
    let va := fun (x : Ctx) => (x.lane (low (activeOf x (.tlbinv h a b)))).get64 x.front a.toNat
    EffectTo (.tlbinv h a b)
      (fun s x => s.nextId = n ∧ c x < 2 ^ 14 ∧ c x / 2 ^ 12 ≠ 3 ∧ (c x / 2 ^ 12 = 1 → va x < 2 ^ 56))
      (fun s x => s.invalidate (invAsid (c x)) (invVa (c x) (va x)))
      (fun x => activeOf x (.tlbinv h a b))
      (fun x l z => if (activeOf x (.tlbinv h a b)).contains l then parked x (.tlbinv (invAsid (c x)) n) z
        else passed x (.tlbinv h a b) z) := by
  intro c va
  refine effectTo_of_parks _ (fun _ => rfl) (fun _ => rfl) (fun s x hx => ?_) fun s x _ => .of_teams rfl rfl
  obtain ⟨rfl, hc, hmode, hva⟩ := hx
  obtain ⟨hok, hasid, hvas⟩ := execTlbinv_body hc hmode hva
  rw [← hasid, ← hvas]
  exact if_neg (by rw [hok]; decide)

/-- Settles O31: each instruction's body as the model gives it, its completion or parking from the shared lemmas, and the words
of the statement from the equations of `csrPut`, `addWait` and `invalidate`. -/
theorem systemResults : Obligations.SystemResults := by
  intro h a b csr
  refine ⟨(effect_csrw h a csr).congr fun s x => ?_, effect_xacq_held h, ?_, effect_xrel_without h, effect_xrel_gives_back h,
    fun n => ?_⟩
  · simp only [csrOperand_eq]
    generalize (if csrIs64 csr then _ else _ : Nat) = v
    by_cases h42 : csr = 0x042
    · rw [if_pos h42, h42]; simp only [csrPut_fpctl, Team.keepCsrs_eq]
    rw [if_neg h42]
    by_cases h43 : csr = 0x043
    · rw [if_pos h43, h43]; exact csrPut_fpflags s x v
    rw [if_neg h43]
    by_cases h48 : csr = 0x048
    · rw [if_pos h48, h48]; simp only [csrPut_enbudget, Core.limitAt_eq]
    rw [if_neg h48]
    by_cases h49 : csr = 0x049
    · rw [if_pos h49, h49]; simp only [csrPut_lrbase, Team.keepCsrs_eq]
    rw [if_neg h49]
    cases hx : x.front with
    | true =>
      rw [if_pos rfl]
      by_cases hw : csr ∈ csrsWritten
      · refine csrPut_front s x v hx csr ?_
        simpa only [csrsWritten, List.mem_cons, h42, h43, h48, h49, false_or] using hw
      · exact csrPut_readOnly s x v hw
    | false =>
      rw [if_neg Bool.false_ne_true]
      by_cases h41 : csr = 0x041
      · rw [if_pos h41, h41]; exact csrPut_stklim s x v hx
      rw [if_neg h41]
      by_cases h4C : csr = 0x04C
      · rw [if_pos h4C, h4C]; simp only [csrPut_uhvec s x v hx, Team.keepCsrs_eq]
      rw [if_neg h4C]
      by_cases h4D : csr = 0x04D
      · rw [if_pos h4D, h4D]; simp only [csrPut_uhdeleg s x v hx, Team.keepCsrs_eq]
      rw [if_neg h4D]
      refine csrPut_readOnly s x v ?_
      simp only [csrsWritten, List.mem_cons, List.not_mem_nil, h41, h42, h43, h48, h49, h4C, h4D, or_self, not_false_eq_true]
  · simpa only [Core.addWait_eq] using effectTo_xacq_waits h
  · have htlb := effectTo_tlbinv h a b n
    simp only [State.invalidate_inv] at htlb
    exact htlb

end Sys2Proof.Machine
